-- ==== Sys2Proof/Word.lean ====
section
/-! DEFINITION. The words of the machine and the one shape of sparse data: plain types, no rule of their own. -/

namespace Sys2Proof

/-- A byte (00 R1: bit 0 is the least significant bit). -/
abbrev Byte := BitVec 8
/-- A 32-bit register value. -/
abbrev Word := BitVec 32
/-- A 64-bit value: a register pair, an address, an instruction word. -/
abbrev DWord := BitVec 64

/-- Data by key: keys strictly rising, at most one entry for a key (the operations in Machine/Ops.lean keep that form). -/
abbrev Sparse (α : Type) := List (Nat × α)

end Sys2Proof
end

