-- ==== Sys2Proof/Syntax.lean ====
section
/-! DEFINITION. The abstract syntax: every instruction word and every event of the part, one constructor per row of the operation table (08 R177 to R188; 95). -/

namespace Sys2Proof

/-- An operand field of nine bits, 08 R175. The constructor `rsv` keeps a reserved value 0x18B to 0x1FF. -/
inductive Opd where
  | v (n : BitVec 8)
  | s (n : BitVec 7)
  | o (n : BitVec 3)
  | l (n : BitVec 1)
  | z
  | rsv (n : BitVec 9)
deriving DecidableEq, Repr, Inhabited

/-- The common head of an instruction word: guard negate, guard predicate, stall count (08 R174). -/
structure Guard where
  neg : Bool
  pred : BitVec 4
  stall : BitVec 3
deriving DecidableEq, Repr, Inhabited

/-- Format V (08 R177). -/
structure WV where
  g : Guard
  dst : Opd
  a : Opd
  b : Opd
  c : Opd
  la : Bool
  lb : Bool
  lc : Bool
  mod : BitVec 9
deriving DecidableEq, Repr, Inhabited

/-- Format I (08 R178). -/
structure WI where
  g : Guard
  dst : Opd
  a : Opd
  b : Opd
  imm : BitVec 8
  la : Bool
  lb : Bool
  mod : BitVec 11
deriving DecidableEq, Repr, Inhabited

/-- Format C (08 R179). The fields a and b are raw: PLOP holds predicates there (10 R212). -/
structure WC where
  g : Guard
  pd1 : BitVec 4
  pd2 : BitVec 4
  rsv : Bool
  a : BitVec 9
  b : BitVec 9
  pc : BitVec 4
  pneg : Bool
  comb : BitVec 2
  la : Bool
  lb : Bool
  cond : BitVec 4
  ty : BitVec 3
  low : BitVec 5
deriving DecidableEq, Repr, Inhabited

/-- Format M (08 R180). -/
structure WM where
  g : Guard
  data : Opd
  base : Opd
  off : Opd
  imm : BitVec 8
  scope : BitVec 3
  order : BitVec 2
  ctr : Bool
  size : BitVec 3
  space : BitVec 2
  ld : Bool
  lo : Bool
deriving DecidableEq, Repr, Inhabited

/-- The M format of ATOM and ATOMS (12 R256). -/
structure WT where
  g : Guard
  data : Opd
  base : Opd
  off : Opd
  b : Opd
  scope : BitVec 2
  order : BitVec 2
  op : BitVec 4
  ctr : Bool
  rsv : Bool
  lb : Bool
  lo : Bool
deriving DecidableEq, Repr, Inhabited

/-- Format X (08 R181). -/
structure WX where
  g : Guard
  base : Opd
  t : BitVec 3
  x : BitVec 3
  slot : BitVec 8
  p : BitVec 4
  fa : BitVec 4
  fb : BitVec 4
  fromAcc : Bool
  ta : BitVec 3
  mod : BitVec 9
deriving DecidableEq, Repr, Inhabited

/-- Format A (08 R182). -/
structure WA where
  g : Guard
  base : Opd
  opnd : Opd
  task : Opd
  imm : BitVec 8
  target : BitVec 3
  rsv : Bool
  mod : BitVec 9
deriving DecidableEq, Repr, Inhabited

/-- Format B (08 R183): the offset field [47:16] and the reconvergence field [15:0]. -/
structure WB where
  g : Guard
  tgt : BitVec 32
  rcv : BitVec 16
deriving DecidableEq, Repr, Inhabited

/-- Format S (08 R184). -/
structure WS where
  g : Guard
  reg : Opd
  num : BitVec 12
  mod : BitVec 27
deriving DecidableEq, Repr, Inhabited

/-- A word of an unassigned hint opcode 0xFB to 0xFF (08 R187): only [47:39] is read. -/
structure WH where
  g : Guard
  opc : BitVec 8
  dst : Opd
  low : BitVec 39
deriving DecidableEq, Repr, Inhabited

/-- A 32-bit datum with its poison mark, as memory, scratchpad and the fabric carry it (06 R129). -/
structure PWord where
  val : BitVec 32
  poison : Bool
deriving DecidableEq, Repr, Inhabited

/-- What a member's negotiation message carries (19 R333): its communicator record and member array, its node, its contracts and link version; `all` in the second message, sent once every member has arrived there (log 10). -/
structure CommMsg where
  tag : BitVec 32
  node : Nat
  fields : List (BitVec 32)
  members : List Nat
  caps : List Nat
  lver : Nat
  all : Bool
deriving DecidableEq, Repr, Inhabited

/-- A switch reduction slot request (19 R334). -/
structure SlotReq where
  ts : BitVec 64
  src : Nat
  owner : Nat
  arrived : BitVec 64
deriving DecidableEq, Repr, Inhabited

/-- One byte of a payload with the mark of its value (19 R349). -/
structure PByte where
  val : BitVec 8
  poison : Bool
deriving DecidableEq, Repr, Inhabited

/-- A chunk of a collective instance on the wire (19 R341, R349). `part` is the part or shard it belongs to, `hop` the hop it was sent on, `fin` whether it carries finished data. -/
structure Chunk where
  h : Nat
  inst : Nat
  num : Nat
  hop : Nat
  fin : Bool
  resent : Bool
  payload : List PByte
  crc : BitVec 32
  linkUp : Bool
deriving DecidableEq, Repr, Inhabited

/-- A remote access as it crosses the fabric (27 R441). `op` is 0 read, 1 write, 2 replace by the atomic `aop`, 3 ask whether the access may be made (12 R249; log 61). -/
structure FabReq where
  id : Nat
  part : Nat
  node : Nat
  addr : Nat
  op : Nat
  size : Nat
  aop : Nat
  data : List PWord
  cmp : List PWord
deriving DecidableEq, Repr, Inhabited

/-- The response to a remote access (12 R266). -/
inductive RemoteResp where
  | done (data : List PWord)
  | discarded
  | undeliverable
  | refused
deriving DecidableEq, Repr, Inhabited

/-- Where an uncorrectable error struck in a core (25 R429). -/
inductive ErrSite where
  | reg (gid key : Nat)
  | tile (gid key : Nat)
  | pv (gid key : Nat)
  | control (ctx : Nat)
deriving DecidableEq, Repr, Inhabited

/-- Where a check of 02 R48 finds wrong symbols at a handoff: 32 bytes of HBM4E or second tier, 64 bits of a die-cache line, 32 bits of scratchpad (the place of a byte in State.spad). -/
inductive SoftSite where
  | memory (pa : Nat)
  | cached (pa : Nat)
  | spad (place : Nat)
deriving DecidableEq, Repr, Inhabited

/-- The firmware image as the boot ROM reads it from flash (29 R458). -/
structure BootImage where
  body : List (BitVec 8)
  svn : BitVec 32
  edSig : List (BitVec 8)
  mlSig : List (BitVec 8)
deriving DecidableEq, Repr, Inhabited

/-- One constructor per row of the operation table: an instruction carries the fields of its format (08 R185), an event the data it comes with (95). -/
inductive Instr where
  | nop (w : WI)
  | mov (w : WI)
  | movi (w : WI)
  | sel (w : WV)
  | iadd (w : WI)
  | isub (w : WI)
  | iaddc (w : WV)
  | add64 (w : WI)
  | sub64 (w : WI)
  | lea (w : WI)
  | imul (w : WI)
  | imulhi (w : WI)
  | umulhi (w : WI)
  | imad (w : WV)
  | imadw (w : WV)
  | idiv (w : WI)
  | udiv (w : WI)
  | irem (w : WI)
  | urem (w : WI)
  | imin (w : WI)
  | imax (w : WI)
  | umin (w : WI)
  | umax (w : WI)
  | iabs (w : WI)
  | ineg (w : WI)
  | iand (w : WI)
  | ior (w : WI)
  | ixor (w : WI)
  | andn (w : WI)
  | inot (w : WI)
  | shl (w : WI)
  | shr (w : WI)
  | sar (w : WI)
  | rotl (w : WI)
  | funnel (w : WV)
  | bfx (w : WI)
  | bfi (w : WV)
  | popc (w : WI)
  | clz (w : WI)
  | ctz (w : WI)
  | brev (w : WI)
  | prmt (w : WV)
  | icmp (w : WC)
  | ucmp (w : WC)
  | plop (w : WC)
  | pstore (w : WI)
  | pload (w : WI)
  | pmov (w : WC)
  | shfl (w : WI)
  | vote (w : WI)
  | redux (w : WI)
  | firstl (w : WI)
  | mfs (w : WS)
  | mts (w : WS)
  | fadd (w : WV)
  | fsub (w : WV)
  | fmul (w : WV)
  | ffma (w : WV)
  | fdiv (w : WV)
  | fsqrt (w : WV)
  | fmin (w : WV)
  | fmax (w : WV)
  | fminnum (w : WV)
  | fmaxnum (w : WV)
  | fabs (w : WV)
  | fneg (w : WV)
  | fcopysign (w : WV)
  | fcmp (w : WC)
  | fclass (w : WC)
  | frint (w : WV)
  | fscaleb (w : WV)
  | flogb (w : WV)
  | cvt (w : WV)
  | cvti (w : WV)
  | icvtf (w : WV)
  | frcp (w : WV)
  | frsq (w : WV)
  | fexp2 (w : WV)
  | flog2 (w : WV)
  | fsin (w : WV)
  | fcos (w : WV)
  | ftanh (w : WV)
  | dot (w : WV)
  | expr (w : WI)
  | rng (w : WV)
  | qmx (w : WV)
  | ld (w : WM)
  | st (w : WM)
  | lds (w : WM)
  | sts (w : WM)
  | ldu (w : WM)
  | atom (w : WT)
  | atoms (w : WT)
  | red (w : WM)
  | stmc (w : WM)
  | fence (w : WM)
  | cctl (w : WM)
  | msgput (w : WA)
  | msgtake (w : WA)
  | mloop (w : WX)
  | mconv (w : WX)
  | mzero (w : WX)
  | mlda (w : WX)
  | msta (w : WX)
  | accrd (w : WX)
  | accwr (w : WX)
  | drain (w : WX)
  | epload (w : WA)
  | faclu (w : WX)
  | facch (w : WX)
  | facqr (w : WX)
  | trsm (w : WX)
  | pvapply (w : WX)
  | pvmov (w : WX)
  | cpy (w : WA)
  | gather (w : WA)
  | scatter (w : WA)
  | cinit (w : WA)
  | cstart (w : WA)
  | cquery (w : WA)
  | cfree (w : WA)
  | tdef (w : WA)
  | tsig (w : WA)
  | bar (w : WA)
  | barc (w : WA)
  | launch (w : WA)
  | selsched (w : WA)
  | bra (w : WB)
  | brx (w : WB)
  | call (w : WB)
  | callx (w : WB)
  | ret (w : WB)
  | exitLanes (w : WB)
  | regang (w : WB)
  | waitCtr (w : WI)
  | yield (w : WI)
  | sleep (w : WI)
  | xlate (w : WI)
  | trapCode (w : WI)
  | bkpt (w : WI)
  | ifence (w : WM)
  | eret (w : WB)
  | mfsp (w : WS)
  | mtsp (w : WS)
  | haltctx (w : WI)
  | pref (w : WM)
  | evict (w : WM)
  | prio (w : WI)
  | unassignedHint (w : WH)
  | clauseStart (gid slice : Nat)
  | variableResultComplete (gid : Nat) (w1 : Bool)
  | walkStart (lookup : Nat)
  | walkComplete (lookup : Nat)
  | invalidateContext (ctx : Nat) (seq : BitVec 16)
  | invalidatePages (ctx : Nat) (seq : BitVec 16) (pages : BitVec 32)
  | invalidateRanges (ctx : Nat) (seq : BitVec 16)
  | invalidateNodes (ctx : Nat) (seq : BitVec 16)
  | invalidateReserved (ctx : Nat) (seq : BitVec 16) (kind : BitVec 4)
  | invalidationComplete (ctx : Nat)
  | copyEngineRow (op : Nat)
  | copyEngineComplete (op : Nat)
  | sequencerOpStart (quad : Nat)
  | kStep (quad : Nat)
  | drainRow (quad : Nat)
  | matrixOpComplete (gid : Nat)
  | factorColumn (quad : Nat)
  | factorGrowth (quad : Nat)
  | msgputAppend (msg : Nat)
  | creditRequest (msg : Nat)
  | creditGrant (msg : Nat)
  | creditReturn (part core : Nat)
  | taskSpawn (core entry quad : Nat)
  | sleepExpiry (gid slice : Nat)
  | groupEnd (gid : Nat)
  | launchRecordAccept (ctx src : Nat)
  | workgroupStart (lid vcore : Nat)
  | launchComplete (lid : Nat)
  | commNegotiate (ctx : Nat) (m : CommMsg)
  | commAbortNotice (ctx : Nat) (tag : BitVec 32) (mismatch : Bool)
  | commTimeout (ctx h : Nat)
  | slotRequest (sw : Nat) (r : SlotReq)
  | slotDecision (sw : Nat)
  | slotReclaim (sw owner : Nat)
  | chunkReceive (ctx : Nat) (c : Chunk)
  | chunkResendRequest (ctx h inst chunk : Nat)
  | chunkAck (ctx h inst chunk : Nat)
  | instanceComplete (ctx h inst : Nat)
  | flitReceive (port : Nat) (crcOk : Bool)
  | linkTrained (port version node : Nat) (masterTime : BitVec 64)
  | timeSyncSend (port : Nat)
  | timeSyncReceive (port : Nat) (masterTime : BitVec 64)
  | syncWaitExpiry
  | masterLeaves (node : Nat)
  | fabricAccess (r : FabReq)
  | hostMemRead (addr size : Nat)
  | hostMemWrite (addr : Nat) (data : List (BitVec 8))
  | haltCtxCmd (ctx : Nat)
  | resumeCtx (ctx : Nat)
  | switchOut (ctx : Nat)
  | switchIn (ctx : Nat)
  | killCtx (ctx : Nat)
  | quiesceCtx (ctx : Nat)
  | createCtx (ctx : Nat)
  | ctxcmdReserved (ctx : Nat) (cmd : BitVec 4)
  | sliceatReached (ctx : Nat)
  | sliceendReached (ctx : Nat)
  | sliceatWrite (ctx : Nat) (v : BitVec 64)
  | tsliceExpiry (part : Nat)
  | contextHalted (ctx : Nat)
  | saveComplete (ctx : Nat)
  | contextKilled (ctx : Nat)
  | lqtailWrite (ctx q : Nat) (v : BitVec 64)
  | lqbaseWrite (ctx q : Nat) (v : BitVec 64)
  | eqheadWrite (part : Nat) (v : BitVec 64)
  | grantWrite (part off : Nat) (v : BitVec 64)
  | sharesWrite (part : Nat) (v : BitVec 64)
  | adoptCarry (ctx : Nat)
  | holdCtx (ctx : Nat) (on : Bool)
  | carryWritten (ctx : Nat)
  | plimitWrite (v : BitVec 64)
  | registerWrite (fn off size : Nat) (v : BitVec 64)
  | clockStepDecision (powerMw maxC : Nat)
  | thermalTrip (maxC : Nat)
  | thermalMigration (lid vcore core : Nat)
  | uncorrectableError (core : Nat) (site : ErrSite)
  | resetPart (img : BootImage)
  | attestationReport (nonce : BitVec 256)
  | remoteAccessResponse (id : Nat) (r : RemoteResp)
  | hostFence (release : Bool)
  | hostCoherentAgentAccess (addr size : Nat) (data : Option (List (BitVec 8)))
deriving DecidableEq, Repr, Inhabited

/-- Which agent moves next (guide: plain data in State): a quadrant issues, an event comes about, time passes, or a check meets a soft error of n symbols (02 R48, R49; log 44). -/
inductive Turn where
  | issue (quad : Nat)
  | event (i : Instr)
  | time (clks ns : Nat)
  | softError (site : SoftSite) (n : Nat)
deriving DecidableEq, Repr, Inhabited

end Sys2Proof
end

