-- ==== Sys2Proof/Config.lean ====
section
/-! DEFINITION. What an implementation fixes, and the free values: functions with no body, of which nothing can be proved. -/

namespace Sys2Proof

/-- A value the spec leaves open, drawn by the counter State.free and a key: nothing is known of it (log entry 1). -/
opaque Config.freeNat : Nat → Nat → Nat

/-- The agent that moves when the agenda lists none (log entry 2). -/
opaque Config.schedule : Nat → Turn

/-- Where host software keeps a context's translation descriptor: 02 R27 names no register that holds it (log entry 5). -/
opaque Config.descriptorAddr : Nat → Nat

/-- The number of pages a save area needs, by the quadrants, bank sets, element-program slots and task entries that the partition holds: the save format is not given (25 R424, R426; log entry 6). -/
opaque Config.savePages : Nat → Nat → Nat → Nat → BitVec 32
/-- Byte k of a save area, at a draw (25 R426; log entry 6). -/
opaque Config.saveByte : Nat → Nat → BitVec 8

/-- The set of the die cache that holds a line (04 R77 gives the number of sets only; log entry 7). -/
opaque Config.cacheSet : Nat → Nat

/-- The Ed25519 root key in the fuses, 32 bytes (29 R458). -/
opaque Config.rootEd : List (BitVec 8)
/-- The ML-DSA-65 root key in the fuses, 1,952 bytes (29 R458). -/
opaque Config.rootMl : List (BitVec 8)
/-- The fused minimum of the security version (29 R458). -/
opaque Config.minSvn : BitVec 32
/-- The device serial number in the fuses (29 R459). -/
opaque Config.serial : BitVec 64
/-- The signature by the Ed25519 identity key over a report (29 R459). -/
opaque Config.signEd : List (BitVec 8) → List (BitVec 8)
/-- The signature by the ML-DSA-65 identity key over a report (29 R459). -/
opaque Config.signMl : List (BitVec 8) → List (BitVec 8)
/-- The node number of this device (02 R19; 25 R431). -/
opaque Config.nodeId : BitVec 21
/-- The header bytes of a chunk of an instance, by instance, chunk number and hop (19 R349 gives no layout; log entry 10). -/
opaque Config.chunkHeader : Nat → Nat → Nat → List (BitVec 8)
/-- Which of the trained ports leads to a node that is no direct partner (19 R328; log entry 10). -/
opaque Config.route : Nat → Nat
/-- The number of reduction slots of a switch (19 R334: a fixed number, not given). -/
opaque Config.switchSlots : Nat → Nat

/-- Asterism ports of the device (19 R328). -/
def Config.ports : Nat := 18
/-- Walkers of one compute die (02 R36). -/
def Config.walkers : Nat := 512

end Sys2Proof
end

