-- ==== Sys2Proof/Decode.lean ====
section
/-! DEFINITION. Instruction words: the fields of the eight formats (08 R174 to R184), the opcode map (08 R185), the encoder, the checks on an instruction's own fields (08 R175, R176 and the instruction tables) and on its clause class (08 R164, R165). -/

namespace Sys2Proof

/-! ## Operand fields -/

/-- 08 R175: the register a nine-bit operand field names. -/
def decOpd (x : BitVec 9) : Opd :=
  if x.toNat < 0x100 then .v (x.setWidth 8)
  else if x.toNat < 0x180 then .s (x.setWidth 7)
  else if x.toNat < 0x188 then .o (x.setWidth 3)
  else if x.toNat < 0x18A then .l (x.setWidth 1)
  else if x.toNat = 0x18A then .z
  else .rsv x

/-- 08 R175, the other way. -/
def encOpd : Opd → BitVec 9
  | .v n => n.setWidth 9
  | .s n => 0x100#9 ||| n.setWidth 9
  | .o n => 0x180#9 ||| n.setWidth 9
  | .l n => 0x188#9 ||| n.setWidth 9
  | .z => 0x18A#9
  | .rsv n => n

/-- Bits [lo+len-1 : lo] of an instruction word. -/
def fld (w : DWord) (lo len : Nat) : BitVec len := w.extractLsb' lo len
/-- Bit i of an instruction word. -/
def fbit (w : DWord) (i : Nat) : Bool := w.getLsbD i
/-- A flag as one bit. -/
def b1 (b : Bool) : BitVec 1 := BitVec.ofBool b

/-- 08 R174: guard negate [63], guard predicate [62:59], stall count [50:48]. -/
def decGuard (w : DWord) : Guard := ⟨fbit w 63, fld w 59 4, fld w 48 3⟩

/-- 08 R177. -/
def decV (w : DWord) : WV :=
  ⟨decGuard w, decOpd (fld w 39 9), decOpd (fld w 30 9), decOpd (fld w 21 9), decOpd (fld w 12 9),
   fbit w 11, fbit w 10, fbit w 9, fld w 0 9⟩
/-- 08 R178. -/
def decI (w : DWord) : WI :=
  ⟨decGuard w, decOpd (fld w 39 9), decOpd (fld w 30 9), decOpd (fld w 21 9), fld w 13 8,
   fbit w 12, fbit w 11, fld w 0 11⟩
/-- 08 R179. -/
def decC (w : DWord) : WC :=
  ⟨decGuard w, fld w 44 4, fld w 40 4, fbit w 39, fld w 30 9, fld w 21 9, fld w 17 4, fbit w 16,
   fld w 14 2, fbit w 13, fbit w 12, fld w 8 4, fld w 5 3, fld w 0 5⟩
/-- 08 R180. -/
def decM (w : DWord) : WM :=
  ⟨decGuard w, decOpd (fld w 39 9), decOpd (fld w 30 9), decOpd (fld w 21 9), fld w 13 8,
   fld w 10 3, fld w 8 2, fbit w 7, fld w 4 3, fld w 2 2, fbit w 1, fbit w 0⟩
/-- 12 R256. -/
def decT (w : DWord) : WT :=
  ⟨decGuard w, decOpd (fld w 39 9), decOpd (fld w 30 9), decOpd (fld w 21 9), decOpd (fld w 12 9),
   fld w 10 2, fld w 8 2, fld w 4 4, fbit w 3, fbit w 2, fbit w 1, fbit w 0⟩
/-- 08 R181. -/
def decX (w : DWord) : WX :=
  ⟨decGuard w, decOpd (fld w 39 9), fld w 36 3, fld w 33 3, fld w 25 8, fld w 21 4, fld w 17 4,
   fld w 13 4, fbit w 12, fld w 9 3, fld w 0 9⟩
/-- 08 R182. -/
def decA (w : DWord) : WA :=
  ⟨decGuard w, decOpd (fld w 39 9), decOpd (fld w 30 9), decOpd (fld w 21 9), fld w 13 8,
   fld w 10 3, fbit w 9, fld w 0 9⟩
/-- 08 R183. -/
def decB (w : DWord) : WB := ⟨decGuard w, fld w 16 32, fld w 0 16⟩
/-- 08 R184. -/
def decS (w : DWord) : WS := ⟨decGuard w, decOpd (fld w 39 9), fld w 27 12, fld w 0 27⟩
/-- 08 R187: the fields of an unassigned hint. -/
def decH (w : DWord) : WH := ⟨decGuard w, fld w 51 8, decOpd (fld w 39 9), fld w 0 39⟩

/-! ## The opcode map -/

/-- 08 R185: the instruction that an opcode selects; `none` is ILLEGAL_OPCODE. -/
def decodeOp (opc : Nat) (w : DWord) : Option Instr :=
  match opc with
  | 0x00 => some (.nop (decI w))
  | 0x01 => some (.mov (decI w))
  | 0x02 => some (.movi (decI w))
  | 0x03 => some (.sel (decV w))
  | 0x04 => some (.iadd (decI w))
  | 0x05 => some (.isub (decI w))
  | 0x06 => some (.iaddc (decV w))
  | 0x07 => some (.add64 (decI w))
  | 0x08 => some (.sub64 (decI w))
  | 0x09 => some (.lea (decI w))
  | 0x0A => some (.imul (decI w))
  | 0x0B => some (.imulhi (decI w))
  | 0x0C => some (.umulhi (decI w))
  | 0x0D => some (.imad (decV w))
  | 0x0E => some (.imadw (decV w))
  | 0x0F => some (.idiv (decI w))
  | 0x10 => some (.udiv (decI w))
  | 0x11 => some (.irem (decI w))
  | 0x12 => some (.urem (decI w))
  | 0x13 => some (.imin (decI w))
  | 0x14 => some (.imax (decI w))
  | 0x15 => some (.umin (decI w))
  | 0x16 => some (.umax (decI w))
  | 0x17 => some (.iabs (decI w))
  | 0x18 => some (.ineg (decI w))
  | 0x19 => some (.iand (decI w))
  | 0x1A => some (.ior (decI w))
  | 0x1B => some (.ixor (decI w))
  | 0x1C => some (.andn (decI w))
  | 0x1D => some (.inot (decI w))
  | 0x1E => some (.shl (decI w))
  | 0x1F => some (.shr (decI w))
  | 0x20 => some (.sar (decI w))
  | 0x21 => some (.rotl (decI w))
  | 0x22 => some (.funnel (decV w))
  | 0x23 => some (.bfx (decI w))
  | 0x24 => some (.bfi (decV w))
  | 0x25 => some (.popc (decI w))
  | 0x26 => some (.clz (decI w))
  | 0x27 => some (.ctz (decI w))
  | 0x28 => some (.brev (decI w))
  | 0x29 => some (.prmt (decV w))
  | 0x2A => some (.icmp (decC w))
  | 0x2B => some (.ucmp (decC w))
  | 0x30 => some (.plop (decC w))
  | 0x31 => some (.pstore (decI w))
  | 0x32 => some (.pload (decI w))
  | 0x33 => some (.pmov (decC w))
  | 0x34 => some (.shfl (decI w))
  | 0x35 => some (.vote (decI w))
  | 0x36 => some (.redux (decI w))
  | 0x37 => some (.firstl (decI w))
  | 0x38 => some (.mfs (decS w))
  | 0x39 => some (.mts (decS w))
  | 0x40 => some (.fadd (decV w))
  | 0x41 => some (.fsub (decV w))
  | 0x42 => some (.fmul (decV w))
  | 0x43 => some (.ffma (decV w))
  | 0x44 => some (.fdiv (decV w))
  | 0x45 => some (.fsqrt (decV w))
  | 0x46 => some (.fmin (decV w))
  | 0x47 => some (.fmax (decV w))
  | 0x48 => some (.fminnum (decV w))
  | 0x49 => some (.fmaxnum (decV w))
  | 0x4A => some (.fabs (decV w))
  | 0x4B => some (.fneg (decV w))
  | 0x4C => some (.fcopysign (decV w))
  | 0x4D => some (.fcmp (decC w))
  | 0x4E => some (.fclass (decC w))
  | 0x4F => some (.frint (decV w))
  | 0x50 => some (.fscaleb (decV w))
  | 0x51 => some (.flogb (decV w))
  | 0x52 => some (.cvt (decV w))
  | 0x53 => some (.cvti (decV w))
  | 0x54 => some (.icvtf (decV w))
  | 0x55 => some (.frcp (decV w))
  | 0x56 => some (.frsq (decV w))
  | 0x57 => some (.fexp2 (decV w))
  | 0x58 => some (.flog2 (decV w))
  | 0x59 => some (.fsin (decV w))
  | 0x5A => some (.fcos (decV w))
  | 0x5B => some (.ftanh (decV w))
  | 0x5C => some (.dot (decV w))
  | 0x5D => some (.expr (decI w))
  | 0x5E => some (.rng (decV w))
  | 0x5F => some (.qmx (decV w))
  | 0x80 => some (.ld (decM w))
  | 0x81 => some (.st (decM w))
  | 0x82 => some (.lds (decM w))
  | 0x83 => some (.sts (decM w))
  | 0x84 => some (.ldu (decM w))
  | 0x85 => some (.atom (decT w))
  | 0x86 => some (.atoms (decT w))
  | 0x87 => some (.red (decM w))
  | 0x88 => some (.stmc (decM w))
  | 0x89 => some (.fence (decM w))
  | 0x8A => some (.cctl (decM w))
  | 0x8B => some (.msgput (decA w))
  | 0x8C => some (.msgtake (decA w))
  | 0xA0 => some (.mloop (decX w))
  | 0xA1 => some (.mconv (decX w))
  | 0xA2 => some (.mzero (decX w))
  | 0xA3 => some (.mlda (decX w))
  | 0xA4 => some (.msta (decX w))
  | 0xA5 => some (.accrd (decX w))
  | 0xA6 => some (.accwr (decX w))
  | 0xA7 => some (.drain (decX w))
  | 0xA8 => some (.epload (decA w))
  | 0xA9 => some (.faclu (decX w))
  | 0xAA => some (.facch (decX w))
  | 0xAB => some (.facqr (decX w))
  | 0xAC => some (.trsm (decX w))
  | 0xAD => some (.pvapply (decX w))
  | 0xAE => some (.pvmov (decX w))
  | 0xB0 => some (.cpy (decA w))
  | 0xB1 => some (.gather (decA w))
  | 0xB2 => some (.scatter (decA w))
  | 0xB3 => some (.cinit (decA w))
  | 0xB4 => some (.cstart (decA w))
  | 0xB5 => some (.cquery (decA w))
  | 0xB6 => some (.cfree (decA w))
  | 0xB7 => some (.tdef (decA w))
  | 0xB8 => some (.tsig (decA w))
  | 0xB9 => some (.bar (decA w))
  | 0xBA => some (.barc (decA w))
  | 0xBB => some (.launch (decA w))
  | 0xBC => some (.selsched (decA w))
  | 0xC0 => some (.bra (decB w))
  | 0xC1 => some (.brx (decB w))
  | 0xC2 => some (.call (decB w))
  | 0xC3 => some (.callx (decB w))
  | 0xC4 => some (.ret (decB w))
  | 0xC5 => some (.exitLanes (decB w))
  | 0xC6 => some (.regang (decB w))
  | 0xC7 => some (.waitCtr (decI w))
  | 0xC8 => some (.yield (decI w))
  | 0xC9 => some (.sleep (decI w))
  | 0xCA => some (.xlate (decI w))
  | 0xCB => some (.trapCode (decI w))
  | 0xCC => some (.bkpt (decI w))
  | 0xCD => some (.ifence (decM w))
  | 0xD0 => some (.eret (decB w))
  | 0xD1 => some (.mfsp (decS w))
  | 0xD2 => some (.mtsp (decS w))
  | 0xD3 => some (.haltctx (decI w))
  | 0xF8 => some (.pref (decM w))
  | 0xF9 => some (.evict (decM w))
  | 0xFA => some (.prio (decI w))
  | 0xFB => some (.unassignedHint (decH w))
  | 0xFC => some (.unassignedHint (decH w))
  | 0xFD => some (.unassignedHint (decH w))
  | 0xFE => some (.unassignedHint (decH w))
  | 0xFF => some (.unassignedHint (decH w))
  | _ => none

/-- 08 R167, R186: an instruction word with [63:59] = 0b11111 is ILLEGAL_OPCODE; otherwise its opcode decides. -/
def decode (w : DWord) : Option Instr :=
  if fld w 59 5 = 0x1F#5 then none else decodeOp (fld w 51 8).toNat w

/-- 08 R185: the opcode of an instruction; 256 for an event, which has no word. -/
def Instr.opcode : Instr → Nat
  | .nop _ => 0x00
  | .mov _ => 0x01
  | .movi _ => 0x02
  | .sel _ => 0x03
  | .iadd _ => 0x04
  | .isub _ => 0x05
  | .iaddc _ => 0x06
  | .add64 _ => 0x07
  | .sub64 _ => 0x08
  | .lea _ => 0x09
  | .imul _ => 0x0A
  | .imulhi _ => 0x0B
  | .umulhi _ => 0x0C
  | .imad _ => 0x0D
  | .imadw _ => 0x0E
  | .idiv _ => 0x0F
  | .udiv _ => 0x10
  | .irem _ => 0x11
  | .urem _ => 0x12
  | .imin _ => 0x13
  | .imax _ => 0x14
  | .umin _ => 0x15
  | .umax _ => 0x16
  | .iabs _ => 0x17
  | .ineg _ => 0x18
  | .iand _ => 0x19
  | .ior _ => 0x1A
  | .ixor _ => 0x1B
  | .andn _ => 0x1C
  | .inot _ => 0x1D
  | .shl _ => 0x1E
  | .shr _ => 0x1F
  | .sar _ => 0x20
  | .rotl _ => 0x21
  | .funnel _ => 0x22
  | .bfx _ => 0x23
  | .bfi _ => 0x24
  | .popc _ => 0x25
  | .clz _ => 0x26
  | .ctz _ => 0x27
  | .brev _ => 0x28
  | .prmt _ => 0x29
  | .icmp _ => 0x2A
  | .ucmp _ => 0x2B
  | .plop _ => 0x30
  | .pstore _ => 0x31
  | .pload _ => 0x32
  | .pmov _ => 0x33
  | .shfl _ => 0x34
  | .vote _ => 0x35
  | .redux _ => 0x36
  | .firstl _ => 0x37
  | .mfs _ => 0x38
  | .mts _ => 0x39
  | .fadd _ => 0x40
  | .fsub _ => 0x41
  | .fmul _ => 0x42
  | .ffma _ => 0x43
  | .fdiv _ => 0x44
  | .fsqrt _ => 0x45
  | .fmin _ => 0x46
  | .fmax _ => 0x47
  | .fminnum _ => 0x48
  | .fmaxnum _ => 0x49
  | .fabs _ => 0x4A
  | .fneg _ => 0x4B
  | .fcopysign _ => 0x4C
  | .fcmp _ => 0x4D
  | .fclass _ => 0x4E
  | .frint _ => 0x4F
  | .fscaleb _ => 0x50
  | .flogb _ => 0x51
  | .cvt _ => 0x52
  | .cvti _ => 0x53
  | .icvtf _ => 0x54
  | .frcp _ => 0x55
  | .frsq _ => 0x56
  | .fexp2 _ => 0x57
  | .flog2 _ => 0x58
  | .fsin _ => 0x59
  | .fcos _ => 0x5A
  | .ftanh _ => 0x5B
  | .dot _ => 0x5C
  | .expr _ => 0x5D
  | .rng _ => 0x5E
  | .qmx _ => 0x5F
  | .ld _ => 0x80
  | .st _ => 0x81
  | .lds _ => 0x82
  | .sts _ => 0x83
  | .ldu _ => 0x84
  | .atom _ => 0x85
  | .atoms _ => 0x86
  | .red _ => 0x87
  | .stmc _ => 0x88
  | .fence _ => 0x89
  | .cctl _ => 0x8A
  | .msgput _ => 0x8B
  | .msgtake _ => 0x8C
  | .mloop _ => 0xA0
  | .mconv _ => 0xA1
  | .mzero _ => 0xA2
  | .mlda _ => 0xA3
  | .msta _ => 0xA4
  | .accrd _ => 0xA5
  | .accwr _ => 0xA6
  | .drain _ => 0xA7
  | .epload _ => 0xA8
  | .faclu _ => 0xA9
  | .facch _ => 0xAA
  | .facqr _ => 0xAB
  | .trsm _ => 0xAC
  | .pvapply _ => 0xAD
  | .pvmov _ => 0xAE
  | .cpy _ => 0xB0
  | .gather _ => 0xB1
  | .scatter _ => 0xB2
  | .cinit _ => 0xB3
  | .cstart _ => 0xB4
  | .cquery _ => 0xB5
  | .cfree _ => 0xB6
  | .tdef _ => 0xB7
  | .tsig _ => 0xB8
  | .bar _ => 0xB9
  | .barc _ => 0xBA
  | .launch _ => 0xBB
  | .selsched _ => 0xBC
  | .bra _ => 0xC0
  | .brx _ => 0xC1
  | .call _ => 0xC2
  | .callx _ => 0xC3
  | .ret _ => 0xC4
  | .exitLanes _ => 0xC5
  | .regang _ => 0xC6
  | .waitCtr _ => 0xC7
  | .yield _ => 0xC8
  | .sleep _ => 0xC9
  | .xlate _ => 0xCA
  | .trapCode _ => 0xCB
  | .bkpt _ => 0xCC
  | .ifence _ => 0xCD
  | .eret _ => 0xD0
  | .mfsp _ => 0xD1
  | .mtsp _ => 0xD2
  | .haltctx _ => 0xD3
  | .pref _ => 0xF8
  | .evict _ => 0xF9
  | .prio _ => 0xFA
  | .unassignedHint w => w.opc.toNat
  | .clauseStart _ _ => 256
  | .variableResultComplete _ _ => 256
  | .walkStart _ => 256
  | .walkComplete _ => 256
  | .invalidateContext _ _ => 256
  | .invalidatePages _ _ _ => 256
  | .invalidateRanges _ _ => 256
  | .invalidateNodes _ _ => 256
  | .invalidateReserved _ _ _ => 256
  | .invalidationComplete _ => 256
  | .copyEngineRow _ => 256
  | .copyEngineComplete _ => 256
  | .sequencerOpStart _ => 256
  | .kStep _ => 256
  | .drainRow _ => 256
  | .matrixOpComplete _ => 256
  | .factorColumn _ => 256
  | .factorGrowth _ => 256
  | .msgputAppend _ => 256
  | .creditRequest _ => 256
  | .creditGrant _ => 256
  | .creditReturn _ _ => 256
  | .taskSpawn _ _ _ => 256
  | .sleepExpiry _ _ => 256
  | .groupEnd _ => 256
  | .launchRecordAccept _ _ => 256
  | .workgroupStart _ _ => 256
  | .launchComplete _ => 256
  | .commNegotiate _ _ => 256
  | .commAbortNotice _ _ _ => 256
  | .commTimeout _ _ => 256
  | .slotRequest _ _ => 256
  | .slotDecision _ => 256
  | .slotReclaim _ _ => 256
  | .chunkReceive _ _ => 256
  | .chunkResendRequest _ _ _ _ => 256
  | .chunkAck _ _ _ _ => 256
  | .instanceComplete _ _ _ => 256
  | .flitReceive _ _ => 256
  | .linkTrained _ _ _ _ => 256
  | .timeSyncSend _ => 256
  | .timeSyncReceive _ _ => 256
  | .syncWaitExpiry => 256
  | .masterLeaves _ => 256
  | .fabricAccess _ => 256
  | .hostMemRead _ _ => 256
  | .hostMemWrite _ _ => 256
  | .haltCtxCmd _ => 256
  | .resumeCtx _ => 256
  | .switchOut _ => 256
  | .switchIn _ => 256
  | .killCtx _ => 256
  | .quiesceCtx _ => 256
  | .createCtx _ => 256
  | .ctxcmdReserved _ _ => 256
  | .sliceatReached _ => 256
  | .sliceendReached _ => 256
  | .sliceatWrite _ _ => 256
  | .tsliceExpiry _ => 256
  | .contextHalted _ => 256
  | .saveComplete _ => 256
  | .contextKilled _ => 256
  | .lqtailWrite _ _ _ => 256
  | .lqbaseWrite _ _ _ => 256
  | .eqheadWrite _ _ => 256
  | .grantWrite _ _ _ => 256
  | .sharesWrite _ _ => 256
  | .adoptCarry _ => 256
  | .holdCtx _ _ => 256
  | .carryWritten _ => 256
  | .plimitWrite _ => 256
  | .registerWrite _ _ _ _ => 256
  | .clockStepDecision _ _ => 256
  | .thermalTrip _ => 256
  | .thermalMigration _ _ _ => 256
  | .uncorrectableError _ _ => 256
  | .resetPart _ => 256
  | .attestationReport _ => 256
  | .remoteAccessResponse _ _ => 256
  | .hostFence _ => 256
  | .hostCoherentAgentAccess _ _ _ => 256

/-! ## The encoder, from the same tables -/

/-- The head of a word: [63:48] (08 R174). -/
def encHead (g : Guard) (opc : Nat) : BitVec 16 := b1 g.neg ++ g.pred ++ BitVec.ofNat 8 opc ++ g.stall

/-- 08 R177. -/
def encV (opc : Nat) (w : WV) : DWord :=
  (encHead w.g opc ++ encOpd w.dst ++ encOpd w.a ++ encOpd w.b ++ encOpd w.c ++ b1 w.la ++ b1 w.lb ++ b1 w.lc ++ w.mod : BitVec 64)
/-- 08 R178. -/
def encI (opc : Nat) (w : WI) : DWord :=
  (encHead w.g opc ++ encOpd w.dst ++ encOpd w.a ++ encOpd w.b ++ w.imm ++ b1 w.la ++ b1 w.lb ++ w.mod : BitVec 64)
/-- 08 R179. -/
def encC (opc : Nat) (w : WC) : DWord :=
  (encHead w.g opc ++ w.pd1 ++ w.pd2 ++ b1 w.rsv ++ w.a ++ w.b ++ w.pc ++ b1 w.pneg ++ w.comb ++ b1 w.la ++ b1 w.lb ++ w.cond ++ w.ty ++ w.low : BitVec 64)
/-- 08 R180. -/
def encM (opc : Nat) (w : WM) : DWord :=
  (encHead w.g opc ++ encOpd w.data ++ encOpd w.base ++ encOpd w.off ++ w.imm ++ w.scope ++ w.order ++ b1 w.ctr ++ w.size ++ w.space ++ b1 w.ld ++ b1 w.lo : BitVec 64)
/-- 12 R256. -/
def encT (opc : Nat) (w : WT) : DWord :=
  (encHead w.g opc ++ encOpd w.data ++ encOpd w.base ++ encOpd w.off ++ encOpd w.b ++ w.scope ++ w.order ++ w.op ++ b1 w.ctr ++ b1 w.rsv ++ b1 w.lb ++ b1 w.lo : BitVec 64)
/-- 08 R181. -/
def encX (opc : Nat) (w : WX) : DWord :=
  (encHead w.g opc ++ encOpd w.base ++ w.t ++ w.x ++ w.slot ++ w.p ++ w.fa ++ w.fb ++ b1 w.fromAcc ++ w.ta ++ w.mod : BitVec 64)
/-- 08 R182. -/
def encA (opc : Nat) (w : WA) : DWord :=
  (encHead w.g opc ++ encOpd w.base ++ encOpd w.opnd ++ encOpd w.task ++ w.imm ++ w.target ++ b1 w.rsv ++ w.mod : BitVec 64)
/-- 08 R183. -/
def encB (opc : Nat) (w : WB) : DWord := (encHead w.g opc ++ w.tgt ++ w.rcv : BitVec 64)
/-- 08 R184. -/
def encS (opc : Nat) (w : WS) : DWord := (encHead w.g opc ++ encOpd w.reg ++ w.num ++ w.mod : BitVec 64)
/-- 08 R187. -/
def encH (w : WH) : DWord := (encHead w.g w.opc.toNat ++ encOpd w.dst ++ w.low : BitVec 64)

/-- The word of an instruction (08 R174 to R185); an event has none. -/
def encode : Instr → Option DWord
  | .nop w => some (encI 0x00 w)
  | .mov w => some (encI 0x01 w)
  | .movi w => some (encI 0x02 w)
  | .sel w => some (encV 0x03 w)
  | .iadd w => some (encI 0x04 w)
  | .isub w => some (encI 0x05 w)
  | .iaddc w => some (encV 0x06 w)
  | .add64 w => some (encI 0x07 w)
  | .sub64 w => some (encI 0x08 w)
  | .lea w => some (encI 0x09 w)
  | .imul w => some (encI 0x0A w)
  | .imulhi w => some (encI 0x0B w)
  | .umulhi w => some (encI 0x0C w)
  | .imad w => some (encV 0x0D w)
  | .imadw w => some (encV 0x0E w)
  | .idiv w => some (encI 0x0F w)
  | .udiv w => some (encI 0x10 w)
  | .irem w => some (encI 0x11 w)
  | .urem w => some (encI 0x12 w)
  | .imin w => some (encI 0x13 w)
  | .imax w => some (encI 0x14 w)
  | .umin w => some (encI 0x15 w)
  | .umax w => some (encI 0x16 w)
  | .iabs w => some (encI 0x17 w)
  | .ineg w => some (encI 0x18 w)
  | .iand w => some (encI 0x19 w)
  | .ior w => some (encI 0x1A w)
  | .ixor w => some (encI 0x1B w)
  | .andn w => some (encI 0x1C w)
  | .inot w => some (encI 0x1D w)
  | .shl w => some (encI 0x1E w)
  | .shr w => some (encI 0x1F w)
  | .sar w => some (encI 0x20 w)
  | .rotl w => some (encI 0x21 w)
  | .funnel w => some (encV 0x22 w)
  | .bfx w => some (encI 0x23 w)
  | .bfi w => some (encV 0x24 w)
  | .popc w => some (encI 0x25 w)
  | .clz w => some (encI 0x26 w)
  | .ctz w => some (encI 0x27 w)
  | .brev w => some (encI 0x28 w)
  | .prmt w => some (encV 0x29 w)
  | .icmp w => some (encC 0x2A w)
  | .ucmp w => some (encC 0x2B w)
  | .plop w => some (encC 0x30 w)
  | .pstore w => some (encI 0x31 w)
  | .pload w => some (encI 0x32 w)
  | .pmov w => some (encC 0x33 w)
  | .shfl w => some (encI 0x34 w)
  | .vote w => some (encI 0x35 w)
  | .redux w => some (encI 0x36 w)
  | .firstl w => some (encI 0x37 w)
  | .mfs w => some (encS 0x38 w)
  | .mts w => some (encS 0x39 w)
  | .fadd w => some (encV 0x40 w)
  | .fsub w => some (encV 0x41 w)
  | .fmul w => some (encV 0x42 w)
  | .ffma w => some (encV 0x43 w)
  | .fdiv w => some (encV 0x44 w)
  | .fsqrt w => some (encV 0x45 w)
  | .fmin w => some (encV 0x46 w)
  | .fmax w => some (encV 0x47 w)
  | .fminnum w => some (encV 0x48 w)
  | .fmaxnum w => some (encV 0x49 w)
  | .fabs w => some (encV 0x4A w)
  | .fneg w => some (encV 0x4B w)
  | .fcopysign w => some (encV 0x4C w)
  | .fcmp w => some (encC 0x4D w)
  | .fclass w => some (encC 0x4E w)
  | .frint w => some (encV 0x4F w)
  | .fscaleb w => some (encV 0x50 w)
  | .flogb w => some (encV 0x51 w)
  | .cvt w => some (encV 0x52 w)
  | .cvti w => some (encV 0x53 w)
  | .icvtf w => some (encV 0x54 w)
  | .frcp w => some (encV 0x55 w)
  | .frsq w => some (encV 0x56 w)
  | .fexp2 w => some (encV 0x57 w)
  | .flog2 w => some (encV 0x58 w)
  | .fsin w => some (encV 0x59 w)
  | .fcos w => some (encV 0x5A w)
  | .ftanh w => some (encV 0x5B w)
  | .dot w => some (encV 0x5C w)
  | .expr w => some (encI 0x5D w)
  | .rng w => some (encV 0x5E w)
  | .qmx w => some (encV 0x5F w)
  | .ld w => some (encM 0x80 w)
  | .st w => some (encM 0x81 w)
  | .lds w => some (encM 0x82 w)
  | .sts w => some (encM 0x83 w)
  | .ldu w => some (encM 0x84 w)
  | .atom w => some (encT 0x85 w)
  | .atoms w => some (encT 0x86 w)
  | .red w => some (encM 0x87 w)
  | .stmc w => some (encM 0x88 w)
  | .fence w => some (encM 0x89 w)
  | .cctl w => some (encM 0x8A w)
  | .msgput w => some (encA 0x8B w)
  | .msgtake w => some (encA 0x8C w)
  | .mloop w => some (encX 0xA0 w)
  | .mconv w => some (encX 0xA1 w)
  | .mzero w => some (encX 0xA2 w)
  | .mlda w => some (encX 0xA3 w)
  | .msta w => some (encX 0xA4 w)
  | .accrd w => some (encX 0xA5 w)
  | .accwr w => some (encX 0xA6 w)
  | .drain w => some (encX 0xA7 w)
  | .epload w => some (encA 0xA8 w)
  | .faclu w => some (encX 0xA9 w)
  | .facch w => some (encX 0xAA w)
  | .facqr w => some (encX 0xAB w)
  | .trsm w => some (encX 0xAC w)
  | .pvapply w => some (encX 0xAD w)
  | .pvmov w => some (encX 0xAE w)
  | .cpy w => some (encA 0xB0 w)
  | .gather w => some (encA 0xB1 w)
  | .scatter w => some (encA 0xB2 w)
  | .cinit w => some (encA 0xB3 w)
  | .cstart w => some (encA 0xB4 w)
  | .cquery w => some (encA 0xB5 w)
  | .cfree w => some (encA 0xB6 w)
  | .tdef w => some (encA 0xB7 w)
  | .tsig w => some (encA 0xB8 w)
  | .bar w => some (encA 0xB9 w)
  | .barc w => some (encA 0xBA w)
  | .launch w => some (encA 0xBB w)
  | .selsched w => some (encA 0xBC w)
  | .bra w => some (encB 0xC0 w)
  | .brx w => some (encB 0xC1 w)
  | .call w => some (encB 0xC2 w)
  | .callx w => some (encB 0xC3 w)
  | .ret w => some (encB 0xC4 w)
  | .exitLanes w => some (encB 0xC5 w)
  | .regang w => some (encB 0xC6 w)
  | .waitCtr w => some (encI 0xC7 w)
  | .yield w => some (encI 0xC8 w)
  | .sleep w => some (encI 0xC9 w)
  | .xlate w => some (encI 0xCA w)
  | .trapCode w => some (encI 0xCB w)
  | .bkpt w => some (encI 0xCC w)
  | .ifence w => some (encM 0xCD w)
  | .eret w => some (encB 0xD0 w)
  | .mfsp w => some (encS 0xD1 w)
  | .mtsp w => some (encS 0xD2 w)
  | .haltctx w => some (encI 0xD3 w)
  | .pref w => some (encM 0xF8 w)
  | .evict w => some (encM 0xF9 w)
  | .prio w => some (encI 0xFA w)
  | .unassignedHint w => some (encH w)
  | .clauseStart _ _ => none
  | .variableResultComplete _ _ => none
  | .walkStart _ => none
  | .walkComplete _ => none
  | .invalidateContext _ _ => none
  | .invalidatePages _ _ _ => none
  | .invalidateRanges _ _ => none
  | .invalidateNodes _ _ => none
  | .invalidateReserved _ _ _ => none
  | .invalidationComplete _ => none
  | .copyEngineRow _ => none
  | .copyEngineComplete _ => none
  | .sequencerOpStart _ => none
  | .kStep _ => none
  | .drainRow _ => none
  | .matrixOpComplete _ => none
  | .factorColumn _ => none
  | .factorGrowth _ => none
  | .msgputAppend _ => none
  | .creditRequest _ => none
  | .creditGrant _ => none
  | .creditReturn _ _ => none
  | .taskSpawn _ _ _ => none
  | .sleepExpiry _ _ => none
  | .groupEnd _ => none
  | .launchRecordAccept _ _ => none
  | .workgroupStart _ _ => none
  | .launchComplete _ => none
  | .commNegotiate _ _ => none
  | .commAbortNotice _ _ _ => none
  | .commTimeout _ _ => none
  | .slotRequest _ _ => none
  | .slotDecision _ => none
  | .slotReclaim _ _ => none
  | .chunkReceive _ _ => none
  | .chunkResendRequest _ _ _ _ => none
  | .chunkAck _ _ _ _ => none
  | .instanceComplete _ _ _ => none
  | .flitReceive _ _ => none
  | .linkTrained _ _ _ _ => none
  | .timeSyncSend _ => none
  | .timeSyncReceive _ _ => none
  | .syncWaitExpiry => none
  | .masterLeaves _ => none
  | .fabricAccess _ => none
  | .hostMemRead _ _ => none
  | .hostMemWrite _ _ => none
  | .haltCtxCmd _ => none
  | .resumeCtx _ => none
  | .switchOut _ => none
  | .switchIn _ => none
  | .killCtx _ => none
  | .quiesceCtx _ => none
  | .createCtx _ => none
  | .ctxcmdReserved _ _ => none
  | .sliceatReached _ => none
  | .sliceendReached _ => none
  | .sliceatWrite _ _ => none
  | .tsliceExpiry _ => none
  | .contextHalted _ => none
  | .saveComplete _ => none
  | .contextKilled _ => none
  | .lqtailWrite _ _ _ => none
  | .lqbaseWrite _ _ _ => none
  | .eqheadWrite _ _ => none
  | .grantWrite _ _ _ => none
  | .sharesWrite _ _ => none
  | .adoptCarry _ => none
  | .holdCtx _ _ => none
  | .carryWritten _ => none
  | .plimitWrite _ => none
  | .registerWrite _ _ _ _ => none
  | .clockStepDecision _ _ => none
  | .thermalTrip _ => none
  | .thermalMigration _ _ _ => none
  | .uncorrectableError _ _ => none
  | .resetPart _ => none
  | .attestationReport _ => none
  | .remoteAccessResponse _ _ => none
  | .hostFence _ => none
  | .hostCoherentAgentAccess _ _ _ => none

/-! ## Words as the hardware stores them -/

/-- The eight bytes of a word, little-endian (00 R1). -/
def wordBytes (w : DWord) : List Byte := (List.range 8).map fun k => w.extractLsb' (8 * k) 8

/-- The word whose little-endian bytes these are (00 R1). -/
def bytesWord : List Byte → Nat
  | [] => 0
  | b :: bs => b.toNat + 256 * bytesWord bs

/-- Decoding from bytes: an instruction is eight bytes (08 R174); the rest of the list is handed back. -/
def decodeBytes (bs : List Byte) : Option (Instr × List Byte) :=
  if bs.length < 8 then none
  else (decode (BitVec.ofNat 64 (bytesWord (bs.take 8)))).map fun i => (i, bs.drop 8)

/-- The instruction this decoder reads from an operation-table word of nbits bits whose value is w, every bit above nbits being 0. -/
def decodeTableWord (nbits w : Nat) : Option Instr :=
  (decodeBytes (wordBytes (BitVec.ofNat 64 (w % 2 ^ nbits)))).map (·.1)

/-! ## Checks on an instruction's own fields: ILLEGAL_OPERAND (08 R175, R176, R186 step 3) -/

/-- A field that may name a destination (08 R175): v, s, o or vz. -/
def Opd.isDst : Opd → Bool
  | .v _ | .s _ | .o _ | .z => true
  | _ => false
/-- A field that names something (not a reserved value). -/
def Opd.named : Opd → Bool
  | .rsv _ => false
  | _ => true
/-- The register k places on. -/
def Opd.plus (k : Nat) : Opd → Opd
  | .v n => .v (n + BitVec.ofNat _ k)
  | .s n => .s (n + BitVec.ofNat _ k)
  | .o n => .o (n + BitVec.ofNat _ k)
  | x => x
/-- A field that names a 64-bit value: an even v, s or o, or l0 (08 R152). -/
def Opd.even : Opd → Bool
  | .v n => n.toNat % 2 = 0
  | .s n => n.toNat % 2 = 0
  | .o n => n.toNat % 2 = 0
  | .l n => n = 0#1
  | _ => false
/-- A v register whose number is a multiple of 4 (08 R152). -/
def Opd.quad : Opd → Bool
  | .v n => n.toNat % 4 = 0
  | _ => false
/-- An s register. -/
def Opd.isS : Opd → Bool
  | .s _ => true
  | _ => false
/-- A v register. -/
def Opd.isV : Opd → Bool
  | .v _ => true
  | _ => false
/-- An s register whose number is a multiple of k. -/
def Opd.sMul (k : Nat) : Opd → Bool
  | .s n => n.toNat % k = 0
  | _ => false
/-- A v or an s register. -/
def Opd.isVS (o : Opd) : Bool := o.isV || o.isS
/-- A v or s register, or vz. -/
def Opd.isVSZ (o : Opd) : Bool := o.isV || o.isS || o == .z
/-- A uniform operand: s or vz (08 R164). -/
def Opd.uniform (o : Opd) : Bool := o.isS || o == .z

/-- A source of n words (0 = the field is unused and holds vz, its last-use bit zero). -/
def srcOk (n : Nat) (o : Opd) (last : Bool) : Bool :=
  match n with
  | 0 => o == .z && !last
  | 1 => o.named
  | 2 => o.even
  | _ => o.quad
/-- A destination of n words. -/
def dstOk (n : Nat) (o : Opd) : Bool :=
  match n with
  | 0 => o == .z
  | 1 => o.isDst
  | 2 => o.isDst && o.even
  | _ => o.quad

/-- 08 R154: a predicate field other than 12, 13, 14. -/
def predOk (p : BitVec 4) : Bool := !(p == 12#4 || p == 13#4 || p == 14#4)
/-- 08 R154 for the guard. -/
def Guard.ok (g : Guard) : Bool := predOk g.pred

/-- A bit field is zero. -/
def zf {n : Nat} (x : BitVec n) : Bool := x == 0

/-- 10 R203: I-format words with opcode 0x00 to 0x29. `nd na nb` operand widths in words, `own` when imm8 is the instruction's own operand, `x` when mod [8] is named, `len` when mod [4:0] is. -/
def ckInt (nd na nb : Nat) (own x len : Bool) (w : WI) : Bool :=
  let imm := w.mod.getLsbD 9
  w.g.ok && !w.mod.getLsbD 10 && zf (w.mod.extractLsb' 5 3) && (len || zf (w.mod.extractLsb' 0 5)) &&
  (x || !w.mod.getLsbD 8) && dstOk nd w.dst && srcOk na w.a w.la &&
  (if imm then nb != 0 && !own && srcOk 0 w.b w.lb else srcOk nb w.b w.lb && (own || zf w.imm))

/-- V-format integer words (10 R206): widths, and the mod bits named by `mask`. -/
def ckIntV (nd na nb nc : Nat) (mask : BitVec 9) (w : WV) : Bool :=
  w.g.ok && dstOk nd w.dst && srcOk na w.a w.la && srcOk nb w.b w.lb && srcOk nc w.c w.lc && zf (w.mod &&& ~~~mask)

/-- The type field of a float word (08 R177). -/
def fTy (m : BitVec 9) : Nat := (m.extractLsb' 6 3).toNat
/-- The rounding field of a float word (08 R177, 06 R111). -/
def fRnd (m : BitVec 9) : Nat := (m.extractLsb' 3 3).toNat
/-- Registers of one value of a float type. -/
def tyWords (t : Nat) : Nat := if t = 3 then 2 else 1

/-- 11 R225: a row of the mod table. `rnd` the highest rounding value, `sat`, `nega`, `b0` whether bits [2], [1], [0] may be set, `nb nc` whether b and c are operands; FSCALEB's b is one word (`b32`). -/
def ckFlt (types : Nat → Bool) (rnd : Nat) (sat nega b0 ub uc b32 : Bool) (w : WV) : Bool :=
  let n := tyWords (fTy w.mod)
  w.g.ok && types (fTy w.mod) && decide (fRnd w.mod ≤ rnd) && (sat || !w.mod.getLsbD 2) && (nega || !w.mod.getLsbD 1) &&
  (b0 || !w.mod.getLsbD 0) && dstOk n w.dst && srcOk n w.a w.la &&
  srcOk (if ub then (if b32 then 1 else n) else 0) w.b w.lb && srcOk (if uc then n else 0) w.c w.lc

/-- All six float types. -/
def tyAll (t : Nat) : Bool := decide (t ≤ 5)
/-- The scalar float types. -/
def tyScalar (t : Nat) : Bool := decide (t ≤ 3)
/-- The types of the approximate functions (11 R225). -/
def tyApprox (t : Nat) : Bool := decide (t ≤ 5) && t != 3

/-- 08 R179: the fields every C-format word shares. -/
def ckC (w : WC) : Bool :=
  w.g.ok && predOk w.pd1 && predOk w.pd2 && !w.rsv && !(w.pd1 == w.pd2 && w.pd1 != 15#4) && (zf w.comb || predOk w.pc)
/-- A C-format compare of two operands of n words. -/
def ckCmp (n nb : Nat) (w : WC) : Bool :=
  ckC w && srcOk n (decOpd w.a) w.la && srcOk nb (decOpd w.b) w.lb && zf w.low

/-- Words of an access of size code z (08 R180). -/
def szWords (z : BitVec 3) : Nat := if z.toNat ≤ 2 then 1 else if z.toNat = 3 then 2 else 4

/-- 03 R60: a weak access has scope 0, a strong one a scope 0x0 to 0x5. -/
def scopeOk (order : BitVec 2) (scope : BitVec 3) : Bool := if zf order then zf scope else decide (scope.toNat ≤ 5)
/-- 08 R180: base an even v or s pair, offset v or vz, whose last-use bit is ignored (08 R158). -/
def addrOk (base off : Opd) : Bool := base.isVS && base.even && (off.isV || off == .z)

/-- 12 R247: loads; vz discards a value of any size. -/
def ckLoad (spad : Bool) (w : WM) : Bool :=
  w.g.ok && decide (w.size.toNat ≤ 4) && (w.data == .z || dstOk (szWords w.size) w.data) && addrOk w.base w.off && !w.ld &&
  scopeOk w.order w.scope && w.order != 3#2 &&
  (if spad then w.space == 1#2 else w.space == 0#2 || (w.space == 2#2 && zf w.order))
/-- 12 R247: stores; vz stores zero at any size. -/
def ckStore (spad : Bool) (w : WM) : Bool :=
  w.g.ok && decide (w.size.toNat ≤ 4) && (w.data == .z || srcOk (szWords w.size) w.data w.ld) && addrOk w.base w.off && !w.ctr &&
  scopeOk w.order w.scope && w.order != 2#2 && w.space == (if spad then 1#2 else 0#2)

/-- 12 R257: a 64-bit atomic operation. -/
def aop64 (op : BitVec 4) : Bool := decide (0xC ≤ op.toNat)
/-- 12 R257: compare and swap. -/
def aopCas (op : BitVec 4) : Bool := op == 0x9#4 || op == 0xE#4

/-- 12 R256. -/
def ckAtom (w : WT) : Bool :=
  let n := if aop64 w.op then 2 else 1
  w.g.ok && (w.data == .z || dstOk n w.data) && addrOk w.base w.off && !w.rsv && !(w.data == .z && w.ctr) && srcOk n w.b w.lb &&
  (!aopCas w.op ||
    (match w.b with
     | .v r => n == 1 || r.toNat % 4 == 0
     | .s r => r.toNat != 127 && (n == 1 || r.toNat % 4 == 0)
     | .o r => r.toNat != 7 && (n == 1 || r.toNat % 4 == 0)
     | .l r => n == 1 && r == 0#1
     | _ => false))

/-- 12 R259. -/
def ckRed (w : WM) : Bool :=
  let op := w.imm.extractLsb' 4 4
  w.g.ok && zf (w.imm.extractLsb' 0 4) && !w.ctr && scopeOk w.order w.scope && w.order != 2#2 && (w.space == 0#2 || w.space == 1#2) &&
  !(op == 8#4 || op == 9#4 || op == 0xD#4 || op == 0xE#4) && w.size == (if aop64 op then 3#3 else 2#3) &&
  srcOk (if aop64 op then 2 else 1) w.data w.ld && addrOk w.base w.off

/-- An M-format word whose size, space, counter and last-use bits are zero and whose three register fields hold vz (12 R261, 22 R388). -/
def ckFenceLike (w : WM) : Bool :=
  w.g.ok && w.data == .z && w.base == .z && w.off == .z && zf w.imm && !w.ctr && zf w.size && zf w.space && !w.ld && !w.lo &&
  decide (w.scope.toNat ≤ 5)

/-- 14 R267: the operand pairs the array accepts. -/
def pairOk (fa fb : BitVec 4) : Bool :=
  let a := fa.toNat; let b := fb.toNat
  let five (x : Nat) := x == 4 || x == 5 || x == 6 || x == 7 || x == 0xB
  let four (x : Nat) := x == 8 || x == 0xC
  (a == b && (a ≤ 3 || a == 9 || a == 0xA)) || (five a && five b) || (four a && four b)
/-- 14 R272: whether side data must, may or must not be given for a format. -/
def sideOk (f : BitVec 4) (s : Bool) : Bool :=
  let a := f.toNat
  if a == 0xB || a == 0xC then s else if 4 ≤ a && a ≤ 8 then true else !s

/-- 14 R273, R275, 08 R181: the format fields of MLOOP and MCONV. -/
def ckLoop (conv : Bool) (w : WX) : Bool :=
  w.g.ok && w.base.sMul 8 && decide (w.fa.toNat ≤ 0xC) && decide (w.fb.toNat ≤ 0xC) && zf (w.mod.extractLsb' 3 6) &&
  (if conv then !w.mod.getLsbD 0 && !w.mod.getLsbD 1 && !w.fromAcc && zf w.ta else w.fromAcc || zf w.ta)
/-- 14 R278 check 2, as far as it looks at the word: R267, R272, R273, R275, R276. -/
def ownLoop (conv : Bool) (w : WX) : Bool :=
  let sa := w.mod.getLsbD 0; let sb := w.mod.getLsbD 1; let nodrain := w.mod.getLsbD 2
  let f64 := w.fa.toNat == 0
  let n := match w.base with | .s r => r.toNat | _ => 128
  pairOk w.fa w.fb && (!f64 || w.t.toNat % 2 == 0) &&
  (!nodrain || (zf w.x && zf w.slot)) &&
  (if conv then n ≤ 112 && !(w.fa.toNat == 6 || w.fa.toNat == 7 || w.fa.toNat == 8 || w.fa.toNat ≥ 0xA) && w.fb != 0xB#4
   else
    sideOk w.fb sb && (!(sa || sb) || n ≤ 112) &&
    (if w.fromAcc then !sa && (w.fa.toNat == 1 || w.fa.toNat == 2 || w.fa.toNat == 3 || w.fa.toNat == 4 || w.fa.toNat == 5) &&
        w.ta != w.t && !(f64 && w.ta.toNat == w.t.toNat + 1)
     else sideOk w.fa sa))

/-- 14 R283: a pair of tiles begins at an even one. -/
def tilePair (wide : Bool) (t : BitVec 3) : Bool := !wide || t.toNat % 2 == 0
/-- 14 R283: the row selector. -/
def rowSelOk (slot : BitVec 8) : Bool := slot.getLsbD 7 || !slot.getLsbD 6
/-- X-format fields that tile instructions leave zero. -/
def xRest (w : WX) : Bool := zf w.x && zf w.fa && zf w.fb && !w.fromAcc && zf w.ta
/-- An even v or o pair (14 R283). -/
def pairVO : Opd → Bool
  | .v n => n.toNat % 2 = 0
  | .o n => n.toNat % 2 = 0
  | _ => false
/-- 14 R283: ACCRD and ACCWR; `m8` whether mod [8] is the counter. -/
def ckAcc (m8 : Bool) (w : WX) : Bool :=
  let w64 := w.mod.getLsbD 0
  w.g.ok && pairVO w.base && xRest w && zf w.p && rowSelOk w.slot && zf (w.mod.extractLsb' 2 6) && (m8 || !w.mod.getLsbD 8) &&
  (w64 || !w.mod.getLsbD 1)
/-- 18 R315: the format fields the factorisations share. -/
def ckFac (w : WX) : Bool := w.g.ok && decide (w.fa.toNat ≤ 0xC) && zf w.fb && !w.fromAcc && zf w.ta
/-- 18 R317 check 2, as far as it looks at the word. -/
def ownFac (w : WX) : Bool := decide (w.fa.toNat ≤ 1) && tilePair (w.fa == 0#4) w.t

/-- 05 R97, R99; 08 R176, R182: the fields of CPY, GATHER and SCATTER that the format itself settles. DESIGN CHOICE (log 58): R98 lets the task register of target 0x1 be v or s, and R97 lists no cause for another; it is ILLEGAL_OPERAND here, ahead of a poisoned register. -/
def ckCopy (w : WA) : Bool :=
  w.g.ok && zf w.imm && !w.rsv && decide (w.target.toNat ≤ 1) && (zf w.target || w.task.isVS) && zf (w.mod.extractLsb' 3 6) && w.mod.extractLsb' 1 2 != 3#2
/-- 05 R97, second row, as far as it looks at the register fields: it comes after a poisoned register. -/
def ownCopy (w : WA) : Bool := w.base.sMul 16 && w.opnd.isVS && (!zf w.target || w.task == .z)

/-- The whole 16-register block of MSGPUT and MSGTAKE: s16n or v16n (12 R264, R265). -/
def blk16 : Opd → Bool
  | .v n => n.toNat % 16 = 0
  | .s n => n.toNat % 16 = 0
  | _ => false

/-- A-format task instruction (22 R389): imm8 bits allowed by `im`, mod bits allowed by `mm`. -/
def ckTask (w : WA) (im : BitVec 8) (mm : BitVec 9) : Bool := w.g.ok && zf (w.imm &&& ~~~im) && !w.rsv && zf (w.mod &&& ~~~mm)
/-- 64-bit special registers (08 R159). -/
def srWide (num : Nat) : Bool := num == 0x10 || num == 0x40 || num == 0x50 || num == 0x51 || num == 0x54
/-- Numbers of the table of 08 R159. -/
def srNamed (num : Nat) : Bool :=
  num ≤ 8 || num == 0x10 || (0x20 ≤ num && num ≤ 0x26) || num == 0x28 || (0x30 ≤ num && num ≤ 0x40) || (0x50 ≤ num && num ≤ 0x54) || (0x60 ≤ num && num ≤ 0x67)

/-- 03 R57, 22 R389: a barrier's scope, 0x1 to 0x5. -/
def barScope (m : BitVec 9) : Bool := decide (1 ≤ (m.extractLsb' 0 3).toNat) && decide ((m.extractLsb' 0 3).toNat ≤ 5)

/-- I-format control words: register fields and last-use bits that must be vz and zero (22 R382). -/
def ckCtl (w : WI) : Bool := w.g.ok && w.dst == .z && w.a == .z && w.b == .z && !w.la && !w.lb

/-- 08 R186 step 3: the checks on the fields of a word that its format and its field table give, instruction by instruction. Events have no word; hints never fault (08 R187). -/
def Instr.formatOk : Instr → Bool
  | .nop w => w.g.ok && w.dst == .z && w.a == .z && w.b == .z && zf w.imm && !w.la && !w.lb && zf w.mod
  | .mov w => let n := if w.mod.getLsbD 8 then 2 else 1; ckInt n n 0 false true false w
  | .movi w => ckInt 1 0 0 true true false w
  | .sel w => ckIntV 1 1 1 0 0x1F w && predOk (w.mod.extractLsb' 0 4)
  | .iadd w | .isub w => ckInt 1 1 1 false true false w
  | .iaddc w => ckIntV 2 1 1 1 1 w
  | .add64 w | .sub64 w => ckInt 2 2 2 false false false w
  | .lea w => ckInt 2 2 1 true true false w && zf (w.imm.extractLsb' 5 3)
  | .imul w | .imulhi w | .umulhi w => ckInt 1 1 1 false false false w
  | .imad w => ckIntV 1 1 1 1 0 w
  | .imadw w => ckIntV 2 1 1 2 1 w
  | .idiv w | .udiv w | .irem w | .urem w => ckInt 1 1 1 false false false w
  | .imin w | .imax w | .umin w | .umax w => ckInt 1 1 1 false false false w
  | .iabs w | .ineg w => ckInt 1 1 0 false true false w
  | .iand w | .ior w | .ixor w | .andn w => ckInt 1 1 1 false false false w
  | .inot w => ckInt 1 1 0 false false false w
  | .shl w | .shr w | .sar w | .rotl w => ckInt 1 1 1 false false false w
  | .funnel w => ckIntV 1 1 1 1 0 w
  | .bfx w => ckInt 1 1 1 false true true w
  | .bfi w => ckIntV 1 1 1 1 0x1F w
  | .popc w | .clz w | .ctz w | .brev w => ckInt 1 1 0 false false false w
  | .prmt w => ckIntV 1 1 1 1 0 w
  | .icmp w | .ucmp w =>
    let n := if w.ty == 1#3 then 2 else 1
    ckCmp n n w && decide (w.ty.toNat ≤ 1) && decide (w.cond.toNat ≤ 5)
  | .plop w => ckC w && zf (w.a.extractLsb' 5 4) && zf (w.b.extractLsb' 5 4) && predOk (w.a.extractLsb' 0 4) && predOk (w.b.extractLsb' 0 4) &&
      !w.la && !w.lb && zf w.ty && zf w.low
  | .pstore w => w.g.ok && dstOk 1 w.dst && srcOk 0 w.a w.la && srcOk 0 w.b w.lb && zf (w.mod &&& ~~~(0x100#11)) &&
      (if w.mod.getLsbD 8 then zf w.imm else zf (w.imm.extractLsb' 4 4) && predOk (w.imm.extractLsb' 0 4))
  | .pload w => w.g.ok && w.dst == .z && srcOk 1 w.a w.la && srcOk 0 w.b w.lb && zf (w.mod &&& ~~~(0x100#11)) &&
      (if w.mod.getLsbD 8 then zf w.imm else zf (w.imm.extractLsb' 4 4) && predOk (w.imm.extractLsb' 0 4))
  | .pmov w => ckCmp (if w.ty == 1#3 then 2 else 1) 0 w && decide (w.ty.toNat ≤ 1) && zf w.cond
  | .shfl w => w.g.ok && dstOk 1 w.dst && srcOk 1 w.a w.la && zf (w.mod.extractLsb' 0 4) && decide ((w.mod.extractLsb' 4 3).toNat ≤ 5) &&
      (if w.mod.getLsbD 9 then srcOk 0 w.b w.lb else srcOk 1 w.b w.lb && zf w.imm)
  | .vote w => w.g.ok && dstOk 1 w.dst && srcOk 0 w.a w.la && srcOk 0 w.b w.lb && zf (w.imm.extractLsb' 5 3) && predOk (w.imm.extractLsb' 0 4) &&
      zf (w.mod.extractLsb' 2 9)
  | .redux w => w.g.ok && dstOk 1 w.dst && srcOk 1 w.a w.la && srcOk 0 w.b w.lb && zf w.imm && zf (w.mod.extractLsb' 3 7)
  | .firstl w => w.g.ok && dstOk 1 w.dst && srcOk (if w.mod.getLsbD 8 then 0 else 1) w.a w.la && srcOk 0 w.b w.lb && zf w.imm && zf (w.mod &&& ~~~(0x100#11))
  | .mfs w | .mts w => w.g.ok && zf w.mod && (if 0x800 ≤ w.num.toNat then w.reg.isDst else srReg w)
  | .mfsp w | .mtsp w => w.g.ok && zf w.mod && (if 0x800 ≤ w.num.toNat then decide (w.num.toNat ≤ 0x804) && w.reg.isDst else srReg w)
  | .fadd w | .fsub w | .fmul w => ckFlt tyAll 5 true true false true false false w
  | .ffma w => ckFlt tyAll 5 true true true true true false w
  | .fdiv w => ckFlt tyAll 5 true true true true false false w
  | .fsqrt w => ckFlt tyAll 5 true true true false false false w
  | .fmin w | .fmax w | .fminnum w | .fmaxnum w => ckFlt tyAll 0 false true false true false false w
  | .fabs w | .fneg w => ckFlt tyAll 0 false false false false false false w
  | .fcopysign w => ckFlt tyAll 0 false false false true false false w
  | .fcmp w => let n := tyWords w.ty.toNat; ckCmp n n w && decide (w.ty.toNat ≤ 3) && decide (w.cond.toNat ≤ 0xD)
  | .fclass w => ckCmp (tyWords w.ty.toNat) 0 w && decide (w.ty.toNat ≤ 3)
  | .frint w => ckFlt tyAll 5 false true false false false false w
  | .fscaleb w => ckFlt tyScalar 5 true true false true false true w
  | .flogb w => ckFlt tyScalar 0 false false false false false false w
  | .cvt w =>
    let conv := (w.mod.extractLsb' 4 5).toNat; let rnd := (w.mod.extractLsb' 1 3).toNat
    w.g.ok && decide (conv ≤ 0x19) && decide (rnd ≤ 6) && (conv != 0x11 || rnd == 0) &&
    dstOk (if conv == 3 || conv == 6 || conv == 9 then 2 else 1) w.dst && srcOk (if conv ≤ 2 then 2 else 1) w.a w.la &&
    srcOk (if conv == 0x18 || conv == 0x19 then 1 else 0) w.b w.lb && srcOk (if rnd == 6 then 1 else 0) w.c w.lc
  | .cvti w =>
    let ty := (w.mod.extractLsb' 7 2).toNat; let dt := (w.mod.extractLsb' 4 3).toNat
    w.g.ok && decide ((w.mod.extractLsb' 1 3).toNat ≤ 5) && !w.mod.getLsbD 0 && dstOk (if dt == 2 || dt == 3 then 2 else 1) w.dst &&
    srcOk (tyWords ty) w.a w.la && srcOk 0 w.b w.lb && srcOk 0 w.c w.lc
  | .icvtf w =>
    let st := (w.mod.extractLsb' 6 3).toNat; let dt := (w.mod.extractLsb' 4 2).toNat; let rnd := (w.mod.extractLsb' 1 3).toNat
    w.g.ok && decide (rnd ≤ 6) && dstOk (tyWords dt) w.dst && srcOk (if st == 2 || st == 3 then 2 else 1) w.a w.la && srcOk 0 w.b w.lb &&
    srcOk (if rnd == 6 then 1 else 0) w.c w.lc
  | .frcp w | .frsq w | .fexp2 w | .flog2 w | .fsin w | .fcos w | .ftanh w => ckFlt tyApprox 0 false true true false false false w
  | .dot w =>
    let f := (w.mod.extractLsb' 5 4).toNat
    w.g.ok && (f == 2 || f == 3 || f == 4 || f == 5 || f == 8 || f == 9 || f == 0xA) && zf (w.mod.extractLsb' 2 3) &&
    (!(f == 9 || f == 0xA) || zf (w.mod.extractLsb' 0 2)) && dstOk 1 w.dst && srcOk 1 w.a w.la && srcOk 1 w.b w.lb && srcOk 1 w.c w.lc
  | .expr w => w.g.ok && dstOk 1 w.dst && zf w.mod &&
      (match w.a with | .v n => n.toNat % 4 == 0 | .o n => n.toNat % 4 == 0 | _ => false) &&
      (match w.b with | .s n => n.toNat % 4 == 0 | .z => true | _ => false)
  | .rng w => w.g.ok && dstOk (if w.mod.getLsbD 8 then 2 else 1) w.dst && srcOk 0 w.a w.la && srcOk 0 w.b w.lb && srcOk 0 w.c w.lc && zf (w.mod.extractLsb' 0 8)
  | .qmx w => w.g.ok && dstOk 1 w.dst && srcOk 1 w.a w.la && srcOk 0 w.b w.lb && srcOk 0 w.c w.lc && decide (fTy w.mod ≤ 4) && zf (w.mod.extractLsb' 0 6)
  | .ld w => ckLoad false w
  | .st w | .stmc w => ckStore false w
  | .lds w => ckLoad true w
  | .sts w => ckStore true w
  | .ldu w => ckLoad false w && w.data.isS && w.base.isS && w.off == .z && decide (w.size.toNat ≤ 3)
  | .atom w | .atoms w => ckAtom w
  | .red w => ckRed w
  | .fence w => ckFenceLike w
  | .cctl w => w.g.ok && w.data == .z && !w.ld && zf (w.imm.extractLsb' 2 6) && w.imm.extractLsb' 0 2 != 3#2 && zf w.scope && zf w.order && zf w.size &&
      zf w.space && !w.ctr && addrOk w.base w.off
  | .msgput w => ckTask w (if w.mod.getLsbD 0 then 0x0F else 0) 1 && blk16 w.base && w.opnd.named && w.task == .z && zf w.target
  | .msgtake w => ckTask w 0x3F 0x100 && blk16 w.opnd && w.base == .z && w.task == .z && zf w.target && predOk (w.imm.extractLsb' 2 4)
  | .mloop w => ckLoop false w
  | .mconv w => ckLoop true w
  | .mzero w => w.g.ok && w.base == .z && xRest w && zf w.slot && zf w.p && zf (w.mod.extractLsb' 1 8)
  | .mlda w | .msta w => w.g.ok && w.base.sMul 2 && xRest w && zf w.slot && zf w.p && zf w.mod
  | .accrd w => ckAcc true w
  | .accwr w => ckAcc false w
  | .drain w =>
    let n := match w.base with | .s r => r.toNat | _ => 128
    w.g.ok && w.base.sMul 8 && n < 128 && zf w.p && zf w.fa && zf w.fb && !w.fromAcc && zf w.ta && decide ((w.mod.extractLsb' 0 2).toNat ≤ 2) &&
    zf (w.mod.extractLsb' 2 7)
  | .epload w => ckTask w 0xFF 0xF && w.opnd.isS && w.base == .z && w.task == .z && zf w.target
  | .faclu w => ckFac w && w.base.uniform && zf w.x && zf w.slot && zf (w.p.extractLsb' 2 2) && zf (w.mod.extractLsb' 1 8)
  | .facch w => ckFac w && w.base.uniform && zf w.x && zf w.slot && zf w.p && zf w.mod
  | .facqr w => w.g.ok
  | .trsm w => ckFac w && w.base == .z && zf w.slot && zf w.p && zf (w.mod.extractLsb' 3 6)
  | .pvapply w => w.g.ok && w.base == .z && xRest w && zf w.slot && zf (w.p.extractLsb' 2 2) && zf (w.mod.extractLsb' 2 7)
  | .pvmov w =>
    let form := (w.mod.extractLsb' 1 2).toNat
    w.g.ok && w.base == .z && xRest w && !w.mod.getLsbD 0 && zf (w.mod.extractLsb' 3 6) &&
    (if form ≤ 1 then zf w.t && zf w.slot else rowSelOk w.slot) && (form != 1 || zf (w.p.extractLsb' 0 2)) && (form != 2 || zf (w.p.extractLsb' 2 2)) &&
    (form != 3 || zf (w.p.extractLsb' 0 2))
  | .cpy w | .gather w | .scatter w => ckCopy w
  | .cinit w | .cfree w => ckTask w 0 0 && zf w.target
  | .cstart w => ckTask w 0 0 && decide (w.target.toNat ≤ 1)
  | .cquery w => ckTask w 0xFF 0 && zf w.target
  | .tdef w => ckTask w 0 0 && w.base.sMul 4 && w.opnd == .z && w.task.isVS && zf w.target
  | .tsig w => ckTask w 0 0 && w.base == .z && w.opnd == .z && w.task.isVS && zf w.target
  | .bar w => ckTask w 0xFF 0x7 && w.base.named && w.opnd == .z && w.task == .z && zf w.target
  | .barc w => ckTask w 0xFF 0x7 && w.base.named && w.opnd.even && w.task == .z && zf w.target
  | .launch w => ckTask w 0 0 && w.base.sMul 2 && (match w.opnd with | .v _ | .s _ | .o _ => true | _ => false) && decide (w.target.toNat ≤ 1) &&
      (if zf w.target then w.task == .z else w.task.isVS)
  | .selsched w => ckTask w 0xF 0 && w.base == .z && (match w.opnd with | .v _ | .s _ | .o _ => w.opnd.even | _ => false) && w.task.isVS && zf w.target
  | .bra w => w.g.ok
  | .brx w => w.g.ok && pairTgt w && zf (w.tgt.extractLsb' 0 23)
  | .call w => w.g.ok && zf w.rcv
  | .callx w => w.g.ok && pairTgt w && zf (w.tgt.extractLsb' 0 23) && zf w.rcv
  | .ret w | .exitLanes w => w.g.ok && zf w.tgt && zf w.rcv
  | .regang w => zf w.tgt && zf w.rcv && w.g.pred == 15#4 && !w.g.neg
  | .waitCtr w => ckCtl w && zf (w.imm.extractLsb' 6 2) && zf (w.mod.extractLsb' 6 5) && !zf (w.mod.extractLsb' 0 6)
  | .yield w => ckCtl w && zf w.imm && zf w.mod
  | .sleep w => w.g.ok && w.dst == .z && w.b == .z && !w.lb && zf (w.mod &&& ~~~(0x200#11)) &&
      !w.la && (if w.mod.getLsbD 9 then w.a == .z else (match w.a with | .v _ | .s _ | .o _ => true | _ => false) && zf w.imm)
  | .xlate w => w.g.ok && w.dst == .z && w.a == .z && !w.la && !w.lb && zf w.mod
  | .trapCode w | .bkpt w => ckCtl w && zf w.mod
  | .ifence w => ckFenceLike w && zf w.order
  | .eret w => zf w.tgt && zf w.rcv && w.g.pred == 15#4 && !w.g.neg
  | .haltctx w => w.g.ok && w.dst == .z && w.b == .z && zf w.imm && !w.la && !w.lb && zf (w.mod.extractLsb' 2 9) && w.a.named
  | _ => true
where
  /-- 08 R183, 22 R376: [47:39] names the even v, o or s pair of a register target. -/
  pairTgt (w : WB) : Bool :=
    match decOpd (w.tgt.extractLsb' 23 9) with
    | .v n => n.toNat % 2 == 0
    | .s n => n.toNat % 2 == 0
    | .o n => n.toNat % 2 == 0
    | _ => false
  /-- 08 R159, R160, R184: a listed number below 0x800, with a register of its width. -/
  srReg (w : WS) : Bool := srNamed w.num.toNat && w.reg.isDst && (!srWide w.num.toNat || w.reg.even)

/-- 19 R343, R344: the register fields of the collective instructions; they are looked at after a poisoned register. -/
def ownComm : Instr → Bool
  | .cinit w => w.base.sMul 16 && w.opnd == .z && w.task.isS
  | .cstart w => w.base.sMul 16 && (match w.base with | .s n => n.toNat ≤ 96 | _ => false) && w.task.isVS && (if zf w.target then w.opnd == .z else w.opnd.isVS)
  | .cquery w => w.base == .z && (match w.opnd with | .v _ | .s _ | .o _ => true | _ => false) && w.task.isVS
  | .cfree w => w.base == .z && w.opnd == .z && w.task.isVS
  | _ => true

/-- 08 R186 step 4: what an instruction's own description says of the word's fields, checked where that description orders it (after a poisoned operand's trap). -/
def Instr.ownOk : Instr → Bool
  | .cpy w | .gather w | .scatter w => ownCopy w
  | .cinit w => ownComm (.cinit w)
  | .cstart w => ownComm (.cstart w)
  | .cquery w => ownComm (.cquery w) && decide (w.imm.toNat ≤ 7)
  | .cfree w => ownComm (.cfree w)
  | .msgput w => predOk (w.imm.extractLsb' 0 4)
  | .mloop w => ownLoop false w
  | .mconv w => ownLoop true w
  | .mzero w | .pvapply w | .accrd w | .accwr w => tilePair (w.mod.getLsbD 0) w.t
  | .drain w => tilePair (w.mod.extractLsb' 0 2 == 2#2) w.t
  | .faclu w | .facch w => ownFac w
  | .facqr w => ownFac w && w.slot.getLsbD 7 && ckFac w && w.base.uniform && zf w.x && zf w.p && zf w.mod
  | .trsm w => ownFac w && w.x != w.t && tilePair (w.fa == 0#4) w.x
  | .bar w | .barc w => barScope w.mod && decide (w.imm.toNat ≤ 7)
  | .selsched w => predOk (w.imm.extractLsb' 0 4)
  | .haltctx w => decide ((w.mod.extractLsb' 0 2).toNat ≤ 2) && (match w.a with | .l _ => false | _ => true)
  | _ => true

/-- Every check on the fields of a word. -/
def Instr.fieldsOk (i : Instr) : Bool := i.formatOk && i.ownOk

/-- The operand fields of an instruction that name registers (08 R152: a v register must lie within the allocation). -/
def Instr.opds (i : Instr) : List Opd :=
  match encode i with
  | none => []
  | some w =>
    let f (k : Nat) := decOpd (fld w k 9)
    let op := i.opcode
    if op = 0x30 || op = 0xAB then []
    else if op = 0xCA then [f 39, f 30]
    else if op = 0xC1 || op = 0xC3 then [f 39]
    else if 0xC0 ≤ op && op ≤ 0xC6 || op = 0xD0 then []
    else if op = 0x2A || op = 0x2B || op = 0x33 || op = 0x4D || op = 0x4E then [f 30, f 21]
    else if op = 0x38 || op = 0x39 || op = 0xD1 || op = 0xD2 then [f 39]
    else if 0xA0 ≤ op && op ≤ 0xAE && op != 0xA8 then [f 39]
    else if op = 0x85 || op = 0x86 then [f 39, f 30, f 21, f 12]
    else if (op = 3 || op = 6 || op = 0xD || op = 0xE || op = 0x22 || op = 0x24 || op = 0x29 || (0x40 ≤ op && op ≤ 0x5F && op != 0x5D)) then [f 39, f 30, f 21, f 12]
    else [f 39, f 30, f 21]

/-- 12 R256: the new and the compare value of a CAS lie below the allocated count. -/
def casFits (regs : Nat) (w : WT) : Bool :=
  match w.b with
  | .v r => !aopCas w.op || decide (r.toNat + (if aop64 w.op then 4 else 2) ≤ regs)
  | _ => true
/-- 08 R152: every v register an operand field names lies below the allocated count. -/
def Instr.inAlloc (regs : Nat) (i : Instr) : Bool :=
  (i.opds.all fun o => match o with
    | .v n => decide (n.toNat < regs)
    | _ => true) && (match i with | .atom w | .atoms w => casFits regs w | _ => true)

/-! ## Clause classes (08 R164, R165, R185) -/

/-- The clause classes, 08 R164. -/
inductive Cls where
  | general | vector | matrix | async | system
deriving DecidableEq, Repr, Inhabited

/-- 08 R163, R164: the class field of a header; 0x5 to 0x7 are none. -/
def clsOf (x : Nat) : Option Cls :=
  match x with
  | 0 => some .general | 1 => some .vector | 2 => some .matrix | 3 => some .async | 4 => some .system
  | _ => none

/-- 08 R165: instructions legal only as the last word of their clause. -/
def lastWord (op : Nat) : Bool := (0xC0 ≤ op && op ≤ 0xC6) || op == 0xC8 || op == 0xC9 || op == 0xD0

/-- The destination and the sources of an integer instruction, opcode 0x00 to 0x29 (10 R203, R206): the operand fields it uses. -/
def Instr.intOpds (i : Instr) : List Opd :=
  match encode i with
  | none => []
  | some w =>
    let f (k : Nat) := decOpd (fld w k 9)
    let op := i.opcode
    let three := op = 0x06 || op = 0x0D || op = 0x0E || op = 0x22 || op = 0x24 || op = 0x29
    let unary := op = 0x01 || op = 0x17 || op = 0x18 || op = 0x1D || (0x25 ≤ op && op ≤ 0x28)
    if op = 0 then []
    else if op = 2 then [f 39]
    else if three then [f 39, f 30, f 21, f 12]
    else if unary || (op != 3 && fbit w 9) then [f 39, f 30]
    else [f 39, f 30, f 21]
/-- 08 R164: a uniform integer instruction, opcode 0x00 to 0x29 with destination and sources s, vz or an immediate. -/
def Instr.uniform (i : Instr) : Bool := decide (i.opcode ≤ 0x29) && i.intOpds.all Opd.uniform

/-- 08 R164, R165, R185: whether a class admits an instruction at a position. -/
def Instr.classOk (c : Cls) (last : Bool) (i : Instr) : Bool :=
  let op := i.opcode
  (!lastWord op || last) &&
  (op == 0 || 0xF8 ≤ op ||
   (match c with
    | .general => op ≤ 0x8C || (0xC0 ≤ op && op ≤ 0xCD)
    | .vector => op ≤ 0x5F
    | .matrix => (0xA0 ≤ op && op ≤ 0xAE) || i.uniform
    | .async => (0xB0 ≤ op && op ≤ 0xBC) || i.uniform
    | .system => op ≤ 0x8C || (0xC0 ≤ op && op ≤ 0xCD) || (0xD0 ≤ op && op ≤ 0xD3)))

/-! ## Clause headers (08 R163) -/

/-- A clause header's fields. -/
structure Header where
  cls : BitVec 3
  count : BitVec 4
  w0 : BitVec 4
  w1 : BitVec 4
  wm : BitVec 4
  wc : BitVec 4
  wg : BitVec 4
  wx : BitVec 4
  yld : Bool
  low : BitVec 27
deriving DecidableEq, Repr, Inhabited

/-- 08 R163, R167: a word with TAG 0b11111 read as a header. -/
def decHeader (w : DWord) : Option Header :=
  if fld w 59 5 = 0x1F#5 then
    some ⟨fld w 56 3, fld w 52 4, fld w 48 4, fld w 44 4, fld w 40 4, fld w 36 4, fld w 32 4, fld w 28 4, fbit w 27, fld w 0 27⟩
  else none
/-- 08 R163: the word of a header. -/
def encHeader (h : Header) : DWord :=
  (0x1F#5 ++ h.cls ++ h.count ++ h.w0 ++ h.w1 ++ h.wm ++ h.wc ++ h.wg ++ h.wx ++ b1 h.yld ++ h.low : BitVec 64)
/-- 08 R163: CLASS 0x5 to 0x7 or a nonzero reserved bit is ILLEGAL_HEADER. -/
def Header.ok (h : Header) : Bool := decide (h.cls.toNat ≤ 4) && zf h.low

end Sys2Proof
end

