-- ==== Sys2Proof/Machine/State.lean ====
section
/-! DEFINITION. Everything the spec gives the machine, as plain data; faults, refusals, and the state at reset. -/

namespace Sys2Proof.Machine

/-- A 32-bit register with its poison tag (08 R157) and stamp tag (07 R147). A predicate, a tile element and a pv entry use the same cell with stamp 0. -/
structure RegCell where
  val : Word
  poison : Bool
  stamp : BitVec 4
deriving DecidableEq, Repr, Inhabited

/-- An access that has issued and that the group has not performed yet (03 R54, R56; log 60): `kind` 0 a read, 1 a write, 2 a read-modify-write `op`, of `n` bytes at `at_` in memory or the scratchpad. `mask` holds the active lanes of its gang at its issue: what they access later follows it on their path. Whatever a lane of `ord` accesses from now on comes after it, for a reconvergence, a divergence or an acquire has put it before. What it reads goes to the cells `keys` of the pending result `vp`, with the stamp `stamp` for memory. -/
structure Late where
  mask : Nat
  kind : Nat
  spad : Bool
  at_ : Nat
  n : Nat
  op : Nat
  val : DWord
  poison : Bool
  cmp : DWord
  cmpPoison : Bool
  vp : Nat
  keys : List Nat
  stamp : BitVec 4
  ord : Nat
deriving DecidableEq, Repr, Inhabited

/-- A reconvergence entry (21 R362): the header R, the saved mask, the fall-through and the pending lanes. -/
structure RecEntry where
  hdr : DWord
  saved : BitVec 4
  fall : DWord
  pend : BitVec 4
deriving DecidableEq, Repr, Inhabited

/-- A return-stack entry (22 R378). -/
structure RetEntry where
  ret : DWord
  siteHdr : DWord
  siteIdx : Nat
  pushed : Bool
  depth : Nat
deriving DecidableEq, Repr, Inhabited

/-- A slice (21 R361): active mask, lanes that have not exited, stacks (top first), RNG counter (11 R243), and whether it has popped at its parting's header (21 R363). -/
structure Slice where
  active : BitVec 4
  live : BitVec 4
  recs : List RecEntry
  rets : List RetEntry
  rng : BitVec 55
deriving DecidableEq, Repr, Inhabited

/-- Why a gang is not ready (21 R374). -/
inductive Hold where
  | free                                  -- not held
  | wait (mask : BitVec 6) (n : Nat)      -- WAIT, 22 R383
  | sleep (upTo : Nat)                    -- SLEEP until this clk, 22 R385
  | sleepTsc (upTo : Nat)                 -- SLEEP that a migration has carried along: until this $tsc, 23 R411
  | barGather (hdr : DWord) (idx : Nat)   -- waits for its group at a BAR or BARC, 22 R394
  | bar (id : Nat)                        -- has arrived, 22 R394
  | atHeader (r : DWord)                  -- waits at a parting's header, 21 R364
  | regang (hdr : DWord) (idx : Nat)      -- stands at a REGANG, 21 R365
  | launch                                -- waits for a LAUNCH status, 22 R397
  | factor                                -- its factorisation runs, 18 R314
  | exiting                               -- the group's last lane has exited, 22 R380
  | seqFull                               -- stalls for a place in its quadrant's sequencer queue, 14 R280
  | copyFull                              -- stalls for a place in its core's copy engine, 05 R91
  | credit (core q : Nat)                 -- stalls for a credit of a target queue, 04 R88
deriving DecidableEq, Repr, Inhabited

/-- A gang (21 R361): slices that issue as one. `hdr` is its open clause's header, `stream` its clause stream, `due` the clk from which its next instruction may issue (08 R170), `since` the clk it became ready (21 R374), `wakeAt` the clk at which a SLEEP ends that goes on while it waits at a parting's header (22 R385), else 0. -/
structure Gang where
  slices : List Nat
  pc : DWord
  idx : Nat
  hdr : Option Header
  stream : Option Nat
  due : Nat
  since : Nat
  hold : Hold
  yld : Bool
  sleepN : Option Nat
  wakeAt : Nat
deriving DecidableEq, Repr, Inhabited

/-- An open parting (21 R362): its header, if any, the slices of the old gang, and the lanes, exited ones too, that come together again when it closes. -/
structure Parting where
  hdr : Option DWord
  slices : List Nat
  lanes : Nat
deriving DecidableEq, Repr, Inhabited

/-- The special registers a group holds (08 R159 to R161; 25 R431). $fpflags is per lane and lies in the register file. -/
structure SRegs where
  fpcr : Word
  trapen : Word
  drainflags : Word
  dbgctl : Word
  role : Word
  ctr : Word
  rngkey : DWord
  utvec : DWord
  epc : DWord
  ecause : Word
  elanes : Word
  eaddr : DWord
  handler : Bool
deriving DecidableEq, Repr, Inhabited

/-- What a trap entry saves for one slice (25 R415): its mask, its stack depths, l0 and l1 of its lanes. -/
structure TrapSlice where
  slice : Nat
  active : BitVec 4
  recDepth : Nat
  retDepth : Nat
  l0 : List RegCell
  l1 : List RegCell
deriving DecidableEq, Repr, Inhabited

/-- A factorisation's resume point (18 R325). `armed` once an ERET has passed and the group has issued nothing since. -/
structure ResumePoint where
  hdr : DWord
  idx : Nat
  k : Nat
  amax : DWord
  amaxPoison : Bool
  armed : Bool
deriving DecidableEq, Repr, Inhabited

/-- A result that is not readable yet (08 R171 to R173): the cell before it and the clk from which it is readable, which for a variable-latency result that has been written lies beyond every clk, as `unwaited` says: it is readable once a wait has covered it. For $fpflags `old` holds the bits that are not visible yet (10 R208). -/
structure Hazard where
  key : Nat
  old : RegCell
  ready : Nat
deriving DecidableEq, Repr, Inhabited

/-- A special-register write younger than 2 clk (08 R160): the value before it. -/
structure SrHazard where
  num : Nat
  lane : Nat
  old : DWord
  ready : Nat
deriving DecidableEq, Repr, Inhabited

/-- A pending variable-latency result (08 R172): the cells it will write, `known` or not yet; the registers among them, and those in which the value of a fixed-latency write will remain (R173). -/
structure VPend where
  id : Nat
  known : Bool
  writes : List (Nat × RegCell)
  keys : List Nat
  gone : List Nat
deriving DecidableEq, Repr, Inhabited

/-- A remote access of a context that an engine (`dist` false, `op` its operation) or the distributor (`dist` true, `op` the context and source) waits for: its identifier, its place in the operation, the response. -/
structure EngWait where
  id : Nat
  ctx : Nat
  dist : Bool
  op : Nat
  k : Nat
  resp : Option RemoteResp
deriving DecidableEq, Repr, Inhabited

/-- An outstanding operation on a counter (08 R162): 0 w0, 1 w1, 2 wm, 3 wc, 4 wg, 5 wx; `fin` when its work is done and only its turn to complete is missing (03 R70). -/
structure Tok where
  ctr : Nat
  id : Nat
  fin : Bool
deriving DecidableEq, Repr, Inhabited

/-- The state of a remote access its gang waits for (12 R266): which access of which instruction, the slice it belongs to (64 a fetch, which belongs to none; 65 one that nobody asks for any more and that is still out), the request with no identifier, the response. A store or atomic is `made` by an instruction that has committed: its gang issues nothing until it is answered, and an old value goes to the cells `keys` of the pending result `vp`. -/
structure RemoteWait where
  id : Nat
  hdr : DWord
  idx : Nat
  lane : Nat
  slice : Nat
  req : FabReq
  resp : Option RemoteResp
  made : Bool
  vp : Nat
  keys : List Nat
deriving DecidableEq, Repr, Inhabited

/-- A group (21 R359): identity, place, registers, tiles, control state, counters. Register-file keys: see Machine/Operands.lean. `prio` is the level of the last PRIO, made at `prioAt`, `prioMid` and `prioMidAt` that of the one before it, `prioOld` the level before both (08 R188); `trapAt` one more than the clk in which the group last entered its handler (25 R416); `far` the outstanding loads that go through a node index (23 R410); `late` the accesses that have issued and are not performed yet, oldest first (03 R56); `due` the flags of matrix operations, each with the operation's place on wm, that no wait has covered yet (15 R301). -/
structure Group where
  ctx : Nat
  lid : Nat
  wk : Nat
  quad : Nat
  resident : Bool
  grp : Nat
  ngrp : Nat
  wgx : Nat
  wgy : Nat
  wgz : Nat
  cx : Nat
  cy : Nat
  wIndex : Nat
  nsl : Nat
  regs : Nat
  tiles : Nat
  slices : List Slice
  gangs : List Gang
  partings : List Parting
  rf : Sparse RegCell
  tile : Sparse RegCell
  pv : Sparse RegCell
  sr : SRegs
  trap : Option (List TrapSlice)
  prio : BitVec 2
  prioOld : BitVec 2
  prioAt : Nat
  prioMid : BitVec 2
  prioMidAt : Nat
  resume : Option ResumePoint
  hz : List Hazard
  srhz : List SrHazard
  vp : List VPend
  out : List Tok
  remote : List RemoteWait
  trapAt : Nat
  fresh : Bool
  far : List Nat
  late : List Late
  due : List (Nat × BitVec 5)
deriving DecidableEq, Repr, Inhabited

/-- The launch record as read (23 R403). -/
structure LRec where
  entry : DWord
  w : Nat
  h : Nat
  lcw : Nat
  lch : Nat
  groups : Nat
  slices : Nat
  gx : Nat
  gy : Nat
  gz : Nat
  regs : Nat
  tiles : Nat
  contract : Nat
  pers : Bool
  cor : Bool
  rev : Nat
  nsched : Nat
  spad : Nat
  nconst : Nat
  constptr : DWord
  rolemap : DWord
  npre : Nat
  preptr : DWord
  sched : List (DWord × Nat)
  reserved : Bool
  raw : List Byte
deriving DecidableEq, Repr, Inhabited

/-- A launch (21 R355 to R360, 23 R406): where its record came from, its tables, its core map and how many workgroups each virtual core has started. `dev` is the handle of a device launch; `before` the turn in which the launch started (12 R253). -/
structure Launch where
  ctx : Nat
  queue : Nat
  index : Nat
  dev : Option Nat
  rec_ : LRec
  consts : List (Nat × Word)
  map : List Nat
  started : List Nat
  task : Option (Nat × Nat)
  complete : Bool
  before : Option Nat
deriving DecidableEq, Repr, Inhabited

/-- A device-side launch request waiting for the distributor (22 R397): where its status goes, and the record with its tables as read. -/
structure DevReq where
  ctx : Nat
  gid : Nat
  slices : List Nat
  dst : Opd
  lanes : Nat
  task : Option (Nat × Nat)
  rec_ : LRec
  consts : List (Nat × DWord)
  pre : List (DWord × Nat × List PWord × Bool)
deriving DecidableEq, Repr, Inhabited

/-- A workgroup's members that have not ended (22 R393), where it runs, and the $tsc from which it has run there (23 R410). -/
structure WorkGroup where
  lid : Nat
  core : Nat
  members : Nat
  placedAt : Nat
deriving DecidableEq, Repr, Inhabited

/-- A continuation registered by BARC (21 R369, 22 R395). -/
structure Cont where
  entry : DWord
  nsl : Nat
  grp : Nat
  ngrp : Nat
  wgx : Nat
  wgy : Nat
  wgz : Nat
  cx : Nat
  cy : Nat
  wIndex : Nat
  quad : Nat
  role : Word
  ctr : Word
  sregs : List (Nat × RegCell)
  lid : Nat
  wk : Nat
  ctx : Nat
  bar : Nat
  ready : Bool
deriving DecidableEq, Repr, Inhabited

/-- A barrier (22 R393): the arrivals of the phase, the named expected count if one was named, the phase. -/
structure Barrier where
  arrived : Nat
  named : Option Nat
  phase : Nat
deriving DecidableEq, Repr, Inhabited

/-- The state of a task entry (21 R367). -/
inductive TaskSt where
  | free | waiting | spawning
deriving DecidableEq, Repr, Inhabited

/-- A task-table entry (21 R367, R368). -/
structure TaskEntry where
  st : TaskSt
  entry : DWord
  slices : Nat
  role : Nat
  argOff : Nat
  argN : Nat
  count : Nat
  lid : Nat
  ctx : Nat
  wgx : Nat
  wgy : Nat
  wgz : Nat
  cx : Nat
  cy : Nat
deriving DecidableEq, Repr, Inhabited

/-- A message queue of a core as one partition sees it (04 R84 to R88): configuration, pointers, entries reserved by credits out, held requests (sending core, oldest first). -/
structure MsgQ where
  cfg : Word
  ptr : Word
  reserved : Nat
  held : List Nat
deriving DecidableEq, Repr, Inhabited

/-- A credit line (04 R87, R88): target core and queue, count, whether the count is void, whether a request is out, last use. -/
structure Credit where
  core : Nat
  q : Nat
  count : Nat
  void : Bool
  asked : Bool
  used : Nat
deriving DecidableEq, Repr, Inhabited

/-- A message between cores of a partition (04 R86, R87). -/
inductive Msg where
  | append (part gid core q : Nat) (void : Bool) (data : List PWord)
  | request (part src core q : Nat)
  | grant (part src core q n : Nat) (void : Bool)
deriving DecidableEq, Repr, Inhabited

/-- A view of the scratchpads: bytes and marks. -/
structure SpadView where
  bytes : Sparse Byte
  marks : Sparse Bool
deriving DecidableEq, Repr, Inhabited

/-- Where an access goes: the physical addresses of the copies it touches, the node (0 = this device), the attributes. -/
structure Where where
  pas : List Nat
  node : Nat
  attr : DWord
deriving DecidableEq, Repr, Inhabited

/-- A piece of a copy's row: its place in the row, its scratchpad offset, its memory address when in bounds (05 R95, R96, R102). -/
structure Piece where
  k : Nat
  sp : Nat
  va : Option DWord
deriving DecidableEq, Repr, Inhabited

/-- A write of a row: its place, its value, its mark, the STAMP of its source if it has one. -/
structure PieceVal where
  p : Piece
  w : Option Where
  val : Nat
  poison : Bool
  stamp : Option (BitVec 4)
deriving DecidableEq, Repr, Inhabited

/-- An element of a copy's row that is not copied yet (05 R102: the accesses of an operation are unordered): its row and its pieces; its source is still `unread`, or read. -/
structure CopyLate where
  row : Nat
  ps : List PieceVal
  unread : Bool
deriving DecidableEq, Repr, Inhabited

/-- A copy-engine operation (05 R91 to R107): the record and operand block as read at issue, the next row; `seen` the scratchpad lines, each with its stamp (16 × line + stamp; inbound), or the remote places (outbound) it has written; `pend` the elements of the rows before that are not copied yet, `marked` the words, each with its row, into which it has written a poisoned piece; `old` the scratchpads as they have stood since it issued, for one that reads an index list. -/
structure CopyOp where
  gid : Nat
  lid : Nat
  ctx : Nat
  core : Nat
  kind : Nat
  rec_ : List Word
  blk : List Word
  hint : Nat
  task : Option Nat
  tok : Nat
  row : Nat
  seen : List Nat
  pend : List CopyLate
  marked : List (Nat × Nat)
  old : List SpadView
deriving DecidableEq, Repr, Inhabited

/-- A real number kept exactly: ± m · 2^e. -/
structure ExReal where
  neg : Bool
  m : Nat
  e : Int
deriving DecidableEq, Repr, Inhabited

/-- One output element of a running loop (14 R288): the chain partials, the open group of each chain held exactly, what has been met among the terms, and the flags so far. `c0` is the initial value; for an f64 loop acc holds the pair. -/
structure ElemAcc where
  c0 : DWord
  acc0 : DWord
  acc1 : DWord
  open0 : List ExReal
  open1 : List ExReal
  nan : Bool
  pinf : Bool
  ninf : Bool
  poison : Bool
  flags : BitVec 5
deriving DecidableEq, Repr, Inhabited

/-- A drain parameter block with its vectors as read (15 R293, R294). -/
structure DrainData where
  k : List PWord
  cv : List (PWord × PWord)
  rv : List (PWord × PWord)
  s0 : DWord
  s1 : DWord
  mb : DWord
  s0p : Nat
  s1p : Nat
  mp : Nat
  tid : Nat
  flags : BitVec 8
deriving DecidableEq, Repr, Inhabited

/-- A store of an engine that is not performed yet (15 R308; 14 R282; 19 R350): a scratchpad offset or a physical address, with the CACHE attribute of its page. -/
structure SeqStore where
  spad : Bool
  at_ : Nat
  n : Nat
  val : Nat
  poison : Bool
  code : Nat
deriving DecidableEq, Repr, Inhabited

/-- What a sequencer operation does (14 R280): its operands as read at issue. -/
inductive SeqKind where
  /-- MLOOP and MCONV: tile, second tile, slot, P, formats, A tile, descriptor words, whether it drains. -/
  | loop (conv : Bool) (t x slot p fa fb : Nat) (ta : Option Nat) (sa sb nodrain : Bool) (desc : List Word) (prog : List Word)
  /-- DRAIN: tile, second tile, kind (0 f32, 1 s32, 2 f64), slot, address of the block. -/
  | drain (t x kind slot : Nat) (dpb : DWord) (prog : List Word)
  | mzero (t : Nat) (wide : Bool)
  | mlda (t off pitch : Nat)
  | msta (t off pitch : Nat)
  | accrd (t row : Nat) (wide : Bool) (h : Nat) (lanes : List (Nat × Nat × Nat)) (vp : Nat)
  | accwr (t row : Nat) (wide : Bool) (h : Nat) (cells : List (Nat × RegCell × RegCell))
  | pvapply (t m : Nat) (wide inv : Bool)
  | pvmov (form t row d src : Nat)
  | epload (slot n off : Nat)
  /-- FACLU 0, FACCH 1, FACQR 2, TRSM 3. -/
  | fac (which : Nat) (f64 : Bool) (t b pv : Nat) (sg : Opd) (zp up tr unit : Bool) (tau : Nat) (lanes : Nat)
deriving DecidableEq, Repr, Inhabited

/-- A sequencer operation with its progress (14 R288, 15 R310, 18 R324). `phase` 0 queued, 1 running, 2 draining, 3 done. `pend` holds its stores that are not performed yet, oldest first. `old` is the model's own: the scratchpads as they have stood since it issued, each until a write replaced it, for an operation whose accesses race with those writes (14 R282; log 62); none once its context has been saved. -/
structure SeqOp where
  id : Nat
  gid : Nat
  ctx : Nat
  kind : SeqKind
  tok : Nat
  phase : Nat
  kdone : Nat
  elems : List ElemAcc
  dpb : Option DrainData
  row : Nat
  key : DWord
  amax : DWord
  amaxPoison : Bool
  hdr : DWord
  idx : Nat
  pend : List SeqStore
  old : List SpadView
deriving DecidableEq, Repr, Inhabited

/-- A lookaside entry of a core (02 R33): the virtual range it covers, the physical base of that range, the attributes, the node, whether a range entry made it, and the size of the page (R34; 4 KiB for a range entry). -/
structure LookAside where
  core : Nat
  ctx : Nat
  lo : Nat
  hi : Nat
  phys : Nat
  attr : DWord
  node : Nat
  nodeOk : Bool
  range : Bool
  size : Nat
deriving DecidableEq, Repr, Inhabited

/-- Whose access needs a lookup (02 R35): the unit and slice of State.cur, and for a gang the clk from which its instruction may issue, which no two of its instructions share. -/
structure Asker where
  unit : Nat
  slice : Nat
  due : Nat
deriving DecidableEq, Repr, Inhabited

/-- A lookup that missed (02 R36): waiting for a walker, walking, stale. `err` keeps the cause of a failed walk, 1 ordinary, 2 poisoned read, 3 hole or window, for the accesses `who` that needed it. -/
structure Lookup where
  id : Nat
  core : Nat
  ctx : Nat
  va : Nat
  started : Bool
  stale : Bool
  err : Nat
  who : List Asker
deriving DecidableEq, Repr, Inhabited

/-- A die-cache line (04 R77, R78). State.cache lists lines in the order of their last use, the latest first; a first victim stands last. -/
structure CacheLine where
  die : Nat
  set : Nat
  way : Nat
  line : Nat
  dirty : Bool
deriving DecidableEq, Repr, Inhabited

/-- The state of a context (25 R425). -/
inductive CtxSt where
  | idle | running | halting | halted | saving | saved | killing | killed
deriving DecidableEq, Repr, Inhabited

/-- A stop record before it is written (25 R422); `unit`, the group that stopped, is not written. -/
structure StopRec where
  ts : DWord
  src : Nat
  kind : Nat
  cause : Nat
  detail : Nat
  late : Bool
  first : Bool
  lanes : Nat
  pc : DWord
  idx : Nat
  grp : Nat
  quad : Nat
  wg : Nat
  addr : DWord
  kleft : Nat
  row : Nat
  slot : Nat
  uop : Nat
  tile : Nat
  crow : Nat
  col : Nat
  dev : Bool
  lref : Nat
  unit : Nat
deriving DecidableEq, Repr, Inhabited

/-- An invalidation command accepted and not complete (02 R40): sequence number, kind, first page, pages, and the walks that were in flight when it was accepted. -/
structure InvCmd where
  seq : BitVec 16
  kind : Nat
  page : Nat
  pages : Nat
  walks : List Nat
deriving DecidableEq, Repr, Inhabited

/-- A launch queue's registers (23 R400) with what a switch-out window latches (23 R402) and the completions to count in order (23 R401). -/
structure LQueue where
  base : DWord
  tail : BitVec 16
  acc : BitVec 16
  cpl : BitVec 16
  err : Bool
  code : BitVec 8
  idx : BitVec 16
  latBase : Option DWord
  latTail : Option (BitVec 16)
  done : List Nat
deriving DecidableEq, Repr, Inhabited

/-- A collective instance at this member (19 R342, R346, R351): its number, its records, who started it, its algorithm (`fixed` once a chunk has been sent, R335), how many of the member's own duties are done, the chunks received by key, those sent with their target node, those not yet acknowledged, those that failed once; `since` the turn in which its CSTART issued, `pend` its stores that are not performed yet. -/
structure CInst where
  num : Nat
  src : List Word
  dst : List Word
  gid : Nat
  lid : Nat
  tok : Nat
  task : Option Nat
  core : Nat
  alg : Nat
  next : Nat
  got : List Nat
  sent : List (Nat × Chunk)
  unacked : List Nat
  failed : List Nat
  fixed : Bool
  since : Nat
  pend : List SeqStore
deriving DecidableEq, Repr, Inhabited

/-- A communicator's status (19 R333). -/
inductive CommSt where
  | pending | ready | timeout | mismatch | free
deriving DecidableEq, Repr, Inhabited

/-- A communicator entry (19 R331 to R348). `slot` is 0 not requested, 1 granted, 2 refused, 3 not decided; `issued` the $tsc of its CINIT; `decided` a decision that came before every member had arrived; `told` the members with which every member has arrived (R333). -/
structure Comm where
  st : CommSt
  fields : List Word
  members : List Nat
  arrived : List CommMsg
  deadline : Option DWord
  contract : Nat
  lver : Nat
  slot : Nat
  nextInst : Nat
  lastAlg : Nat
  insts : List CInst
  shadow : List (Chunk × List Nat)
  cinit : Option (Nat × Nat)
  cfree : List (Nat × Nat)
  me : Nat
  issued : DWord
  decided : Option Bool
  told : List Nat
deriving DecidableEq, Repr, Inhabited

/-- What a switch-out keeps of one core of the partition (25 R426). -/
structure SavedCore where
  core : Nat
  spad : Sparse Byte
  spadPoison : Sparse Bool
  spadStamp : Sparse (BitVec 4)
  slots : Sparse Word
  tasks : Sparse TaskEntry
  mqs : List (Nat × MsgQ)
  credits : List Credit
deriving DecidableEq, Repr, Inhabited

/-- A context: its register block (02 R38, R44; 23 R400; 25 R424; 28 R454), the descriptor as last read (02 R27), the internal record buffer (25 R423), its communicators (19 R331), its saved cores and the image in the save area, by the number of its free bytes and its length (25 R426), the preload slots of carried launches (28 R457). `live`: its state lies on the chip; `haltBy` 1 the host or 2 HALTCTX ordered the halt; `redist`: an uncorrectable error halted it (25 R429); `rotate`: its quantum ended (27 R442); `atDone`, `endDone`: $tsc has reached SLICEAT, SLICEEND. -/
structure Ctx where
  st : CtxSt
  cause : Nat
  badcmd : Bool
  quiesce : Bool
  haltpend : Bool
  wantSave : Bool
  stopbase : DWord
  stopseq : Word
  savebase : DWord
  sliceat : DWord
  sliceend : DWord
  latens : DWord
  invaddr : DWord
  badkind : Bool
  invdone : BitVec 16
  invs : List InvCmd
  killed : Bool
  kts : DWord
  lq : List LQueue
  rot : Nat
  hold : Bool
  done : Bool
  badcarry : Bool
  carrybase : DWord
  carryPre : List (DWord × Nat × List PWord × Bool)
  sup : Bool
  rv : Bool
  root : Nat
  rangetab : Nat
  rangecnt : Nat
  nodetab : Nat
  descErr : Nat
  recs : List StopRec
  comms : Sparse Comm
  devq : List DevReq
  handles : Nat
  runSince : DWord
  lateFrom : Option DWord
  saved : List SavedCore
  image : Option (Nat × Nat)
  live : Bool
  haltBy : Nat
  redist : Bool
  rotate : Bool
  atDone : Bool
  endDone : Bool
  ended : List (Word × Bool)
deriving DecidableEq, Repr, Inhabited

/-- An event that waits to be written to the queue of a partition (27 R444, R445). -/
structure Event where
  ts : DWord
  src : Nat
  seq : Nat
  kind : Nat
  cause : Nat
  ctx : Nat
  data : Nat
deriving DecidableEq, Repr, Inhabited

/-- A partition: its register block (04 R79, R81; 27 R439), and the events and switch-ins it holds (27 R442, R445). `ageOld`: values of AGEMAX replaced of late, each with the clk of the write that replaced it (27 R440). -/
structure Part where
  quads : BitVec 256
  spsets : BitVec 512
  slotlo : Nat
  slotn : Nat
  tasklo : Nat
  taskn : Nat
  hostsh : Nat
  fabsh : Nat
  memsh : Nat
  tslice : Nat
  lquota : Nat
  agemax : Nat
  ageOld : List (Nat × Nat)
  sup : BitVec 16
  pwinb : List DWord
  pwinl : List DWord
  dcways : BitVec 24
  hbmb : DWord
  fabb : DWord
  hostb : DWord
  issue : DWord
  eqbase : DWord
  eqhead : BitVec 16
  eqtail : BitVec 16
  ien : Bool
  signalled : Bool
  dropped : Nat
  heldIn : List (Nat × Bool)
  evq : List Event
deriving DecidableEq, Repr, Inhabited

/-- An Asterism port (19 R328, R329): trained, link version (0 never trained), partner, the tries of the flit in flight, the last synchronisation, the offset of the master's time from $tsc, the lowest node number joined beyond the partner. -/
structure Port where
  up : Bool
  version : Nat
  node : Nat
  tries : Nat
  lastSync : DWord
  offset : Int
  far : Nat
deriving DecidableEq, Repr, Inhabited

/-- A switch's reduction slots (19 R334). -/
structure Switch where
  granted : List Nat
  reqs : List SlotReq
  refused : List Nat
deriving DecidableEq, Repr, Inhabited

/-- The device registers and what boot, power and time-keeping hold (29 R458 to R462; 19 R329). `stopped`: a thermal trip; `clockOff`: every context has halted since and the clocks have stopped; `slewNs`: nanoseconds passed that have not yet allowed a slew. -/
structure Dev where
  bootState : BitVec 2
  edFail : Bool
  mlFail : Bool
  svn : Word
  digest : BitVec 512
  plimit : Nat
  powerMw : Nat
  maxC : Nat
  mhz : Nat
  trip : Bool
  tthr : Bool
  pthr : Bool
  cecnt : DWord
  synced : Bool
  mayCreate : Bool
  master : Nat
  fenced : List Nat
  stopped : Bool
  clockOff : Bool
  slewNs : Nat
  ports : List Port
deriving DecidableEq, Repr, Inhabited

/-- What the part has sent to the outside and not yet been taken: remote requests (27 R441), chunks and acknowledgements (19 R341, R346), time flits (19 R329), read data for the host (03 R76), interrupts (27 R445), reports (29 R459). -/
structure Outbox where
  fab : List FabReq
  resps : List (Nat × RemoteResp)
  chunks : List (Nat × Chunk)
  comms : List (Nat × CommMsg)
  aborts : List (Nat × BitVec 32 × Bool)
  resend : List (Nat × Nat × Nat)
  acks : List (Nat × Nat × Nat)
  slotreqs : List SlotReq
  sync : List (Nat × DWord)
  reads : List (Nat × List PWord)
  msix : List Nat
  reports : List (List Byte × List Byte × List Byte)
deriving DecidableEq, Repr, Inhabited

/-- Eight aligned bytes of memory, with the marks of their two words, as they stood until the turn given replaced them. The latest entry stands for earlier ones of the same contents. -/
structure Past where
  pa : Nat
  word : DWord
  marks : Bool × Bool
  upTo : Nat
deriving DecidableEq, Repr, Inhabited

/-- Who acts in a step: a gang, by the group's number and the gang's first slice, or a unit, with a number from 64 on for its kind in place of the slice. -/
structure Cur where
  gid : Nat
  slice : Nat
deriving DecidableEq, Repr, Inhabited

/-- The machine. `rr` is the stream that issued last in a quadrant and `issuedAt` one more than the clk in which it did (23 R409); `tried` the streams whose instruction could not issue since. `dropped` tells when a core (its number) and when the cores for a context (64 on) last dropped the instruction words that they held, by the turn (22 R388; 28 R452); until then a core may hold any word that memory has had since, as `past` keeps it, and so may a constant cache since its launch began (12 R253). The fields `agenda`, `turn`, `free`, `cur`, `nextId` and `past` are the model's own: which agent moves, how often it has moved, the draw of free values, who acts, and the next identifier. -/
structure State where
  clk : Nat
  tsc : DWord
  agenda : List Turn
  turn : Nat
  free : Nat
  cur : Option Cur
  nextId : Nat
  mem : List Host.Cell
  memPoison : Sparse Bool
  spad : Sparse Byte
  spadPoison : Sparse Bool
  spadStamp : Sparse (BitVec 4)
  slots : Sparse Word
  slotOld : Sparse (List (Nat × Word))
  groups : Sparse Group
  wgs : Sparse WorkGroup
  launches : Sparse Launch
  conts : Sparse Cont
  bars : Sparse Barrier
  tasks : Sparse TaskEntry
  mqs : Sparse MsgQ
  credits : Sparse (List Credit)
  msgs : Sparse Msg
  copies : Sparse CopyOp
  seqs : Sparse (List SeqOp)
  looks : List LookAside
  lookups : Sparse Lookup
  cache : List CacheLine
  past : List Past
  dropped : Sparse Nat
  waits : List EngWait
  rr : Sparse Nat
  issuedAt : Sparse Nat
  tried : Sparse Nat
  ctxs : Sparse Ctx
  parts : Sparse Part
  switches : Sparse Switch
  dev : Dev
  out : Outbox
deriving DecidableEq, Repr, Inhabited

/-- Reasons the machine takes no further step. -/
inductive Fault where
  /-- Raised by step after a thermal trip, once every context has halted, for any turn that is not the host's: the part has stopped its clocks (29 R460). Safe: nothing is claimed beyond it. -/
  | clocksStopped
deriving DecidableEq, Repr, Inhabited

/-- Instructions this model gives no meaning. -/
inductive Refusal where
  /-- Raised by exec for an instruction not modelled. Safe: nothing is claimed of it. -/
  | notModelled (mnemonic : String)
deriving DecidableEq, Repr, Inhabited

/-- A launch queue after reset (23 R400). -/
def LQueue.reset : LQueue := ⟨0, 0, 0, 0, false, 0, 0, none, none, []⟩

/-- A context after reset: IDLE, every register of its block at its After reset value (02 R38, R44; 23 R400; 25 R424; 28 R454). -/
def Ctx.reset : Ctx where
  st := .idle
  cause := 0
  badcmd := false
  quiesce := false
  haltpend := false
  wantSave := false
  stopbase := 0
  stopseq := 0
  savebase := 0
  sliceat := 0
  sliceend := 0
  latens := 0
  invaddr := 0
  badkind := false
  invdone := 0
  invs := []
  killed := false
  kts := 0
  lq := [LQueue.reset, LQueue.reset, LQueue.reset, LQueue.reset]
  rot := 4
  hold := false
  done := false
  badcarry := false
  carrybase := 0
  carryPre := []
  sup := false
  rv := false
  root := 0
  rangetab := 0
  rangecnt := 0
  nodetab := 0
  descErr := 0
  recs := []
  comms := []
  devq := []
  handles := 0
  runSince := 0
  lateFrom := none
  saved := []
  image := none
  live := false
  haltBy := 0
  redist := false
  rotate := false
  atDone := false
  endDone := false
  ended := []

/-- A partition after reset (27 R439; 04 R79, R81). -/
def Part.reset : Part where
  quads := 0
  spsets := 0
  slotlo := 0
  slotn := 0
  tasklo := 0
  taskn := 0
  hostsh := 0
  fabsh := 0
  memsh := 0
  tslice := 0
  lquota := 16
  agemax := 256
  ageOld := []
  sup := 0
  pwinb := [0, 0, 0, 0]
  pwinl := [0, 0, 0, 0]
  dcways := 0xFFFFFF
  hbmb := 0
  fabb := 0
  hostb := 0
  issue := 0
  eqbase := 0
  eqhead := 0
  eqtail := 0
  ien := false
  signalled := false
  dropped := 0
  heldIn := []
  evq := []

/-- A port after reset: its link is not trained (19 R328; log entry 8). -/
def Port.reset : Port := ⟨false, 0, 0, 0, 0, 0, 0⟩

/-- The device registers after reset (29 R461); the rest by log entry 8. -/
def Dev.reset : Dev where
  bootState := 0
  edFail := false
  mlFail := false
  svn := 0
  digest := 0
  plimit := 3400
  powerMw := 0
  maxC := 0
  mhz := 2100
  trip := false
  tthr := false
  pthr := false
  cecnt := 0
  synced := false
  mayCreate := false
  master := 0
  fenced := []
  stopped := false
  clockOff := false
  slewNs := 0
  ports := List.replicate Config.ports Port.reset

/-- Nothing sent. -/
def Outbox.reset : Outbox := ⟨[], [], [], [], [], [], [], [], [], [], [], []⟩

/-- The machine right after reset (29 R458, R461; 25 R424; 27 R439): in ROM, every context IDLE, nothing resident, no memory listed. -/
def State.reset : State where
  clk := 0
  tsc := 0
  agenda := []
  turn := 0
  free := 0
  cur := none
  nextId := 1
  mem := []
  memPoison := []
  spad := []
  spadPoison := []
  spadStamp := []
  slots := []
  slotOld := []
  groups := []
  wgs := []
  launches := []
  conts := []
  bars := []
  tasks := []
  mqs := []
  credits := []
  msgs := []
  copies := []
  seqs := []
  looks := []
  lookups := []
  cache := []
  past := []
  dropped := []
  waits := []
  rr := []
  issuedAt := []
  tried := []
  ctxs := []
  parts := []
  switches := []
  dev := Dev.reset
  out := Outbox.reset

end Sys2Proof.Machine
end

