-- ==== Sys2Proof/Machine/Base.lean ====
section
/-! DEFINITION. Sparse data, memory and its poison marks, and the accessors of the parts of the state. -/

namespace Sys2Proof.Machine

/-- What one step answers. -/
abbrev Answer := Host.Outcome State Fault Refusal

/-! ## Data by key -/

/-- The entry for a key. -/
def sget {α : Type} (k : Nat) : Sparse α → Option α
  | [] => none
  | (a, v) :: t => if a = k then some v else sget k t

/-- The entry for a key, or the default. -/
def sgetD {α : Type} (d : α) (k : Nat) (m : Sparse α) : α := (sget k m).getD d

/-- Put an entry in its place, replacing one of the same key. -/
def sset {α : Type} (k : Nat) (v : α) : Sparse α → Sparse α
  | [] => [(k, v)]
  | (a, w) :: t => if k < a then (k, v) :: (a, w) :: t else if a = k then (k, v) :: t else (a, w) :: sset k v t

/-- Remove the entry for a key. -/
def serase {α : Type} (k : Nat) (m : Sparse α) : Sparse α := m.filter fun p => p.1 != k

/-- Put an entry, listing nothing that equals the default. -/
def sput {α : Type} [BEq α] (d : α) (k : Nat) (v : α) (m : Sparse α) : Sparse α := if v == d then serase k m else sset k v m

/-- Keys strictly rising from `lo`, no entry equal to the default. -/
def canonFrom {α : Type} [BEq α] (d : α) : Nat → Sparse α → Bool
  | _, [] => true
  | lo, (k, v) :: t => decide (lo ≤ k) && !(v == d) && canonFrom d (k + 1) t

/-- The canonical form of sparse data. -/
def canon {α : Type} [BEq α] (d : α) (m : Sparse α) : Bool := canonFrom d 0 m

/-! ## Memory -/

/-- What a byte of memory that nothing has written reads as (log entry 3). -/
def Memory.blank : Byte := 0

/-- Memory is in its canonical form. -/
def Memory.wf (m : List Host.Cell) : Bool := canon Memory.blank m

/-- One byte of memory at a physical address. -/
def readByte (s : State) (a : Nat) : Byte := sgetD Memory.blank a s.mem

/-- Store one byte. -/
def writeByte (a : Nat) (b : Byte) (s : State) : State := { s with mem := sput Memory.blank a b s.mem }

/-- The n bytes from an address as one little-endian number (00 R1). -/
def readMem (s : State) (a : Nat) : Nat → Nat
  | 0 => 0
  | n + 1 => (readByte s a).toNat + 256 * readMem s (a + 1) n

/-- Store n bytes of a number, little-endian. -/
def writeBytes (a : Nat) (v : Nat) : Nat → State → State
  | 0, s => s
  | n + 1, s => writeBytes (a + 1) (v / 256) n (writeByte a (BitVec.ofNat 8 v) s)

/-- The poison mark of the aligned 32-bit word that holds an address (12 R250). -/
def markAt (s : State) (a : Nat) : Bool := sgetD false (a / 4) s.memPoison

/-- The aligned words that n bytes from an address touch. -/
def wordsOf (a n : Nat) : List Nat := if n = 0 then [] else (List.range ((a + n - 1) / 4 - a / 4 + 1)).map (· + a / 4)

/-- Some word that n bytes from an address touch is marked (12 R250). -/
def markedMem (s : State) (a n : Nat) : Bool := (wordsOf a n).any fun w => sgetD false w s.memPoison

/-- Store n bytes with the poison mark of every word written (12 R250). -/
def writeMem (a n : Nat) (v : Nat) (p : Bool) (s : State) : State :=
  let s := writeBytes a v n s
  { s with memPoison := (wordsOf a n).foldl (fun m w => sput false w p m) s.memPoison }

/-- The n bytes from an address, lowest first. -/
def readByteList (s : State) (a n : Nat) : List Byte := (List.range n).map fun k => readByte s (a + k)

/-- 25 R424: the pages the save area needs under a partition's grants. -/
def Part.savePages (p : Part) : BitVec 32 :=
  if p.quads == 0 && p.spsets == 0 && p.slotn == 0 && p.taskn == 0 then 0 else Config.savePages p.quads.toNat p.spsets.toNat p.slotn p.taskn

/-- Store a list of bytes, clearing the marks of the words written. -/
def writeByteList (a : Nat) (bs : List Byte) (s : State) : State := writeMem a bs.length (bytesWord bs) false s

/-- One 32-bit word of memory with its mark. -/
def readPWord (s : State) (a : Nat) : PWord := ⟨BitVec.ofNat 32 (readMem s a 4), markAt s a⟩

/-- 06 R129: what a poisoned 32-bit register reads as. -/
def poisonWord : Word := 0x7FA55A5A#32
/-- 06 R129: what a poisoned pair reads as. -/
def poisonPair : DWord := 0x7FF55A5A7FA55A5A#64

/-! ## Parts of the state -/

/-- A group by its number. -/
def State.group? (s : State) (gid : Nat) : Option Group := sget gid s.groups
/-- Write a group back. -/
def State.setGroup (gid : Nat) (g : Group) (s : State) : State := { s with groups := sset gid g s.groups }
/-- A group ends. -/
def State.dropGroup (gid : Nat) (s : State) : State := { s with groups := serase gid s.groups }
/-- A context (device-wide number: partition × 16 + number, 25 R431). -/
def State.ctx (s : State) (c : Nat) : Ctx := sgetD Ctx.reset c s.ctxs
/-- Write a context back. -/
def State.setCtx (c : Nat) (x : Ctx) (s : State) : State := { s with ctxs := sput Ctx.reset c x s.ctxs }
/-- A partition. -/
def State.part (s : State) (p : Nat) : Part := sgetD Part.reset p s.parts
/-- Write a partition back. -/
def State.setPart (p : Nat) (x : Part) (s : State) : State := { s with parts := sput Part.reset p x s.parts }
/-- The partition of a context (25 R431). -/
def partOf (c : Nat) : Nat := c / 16
/-- A context that runs, or that still brings its work to a point where it can stop. -/
def CtxSt.stopsOrRuns : CtxSt → Bool
  | .running | .halting | .saving => true
  | _ => false
/-- Change a group in place. -/
def State.updGroup (gid : Nat) (f : Group → Group) (s : State) : State :=
  match s.group? gid with
  | some g => s.setGroup gid (f g)
  | none => s
/-- Change a context in place. -/
def State.updCtx (c : Nat) (f : Ctx → Ctx) (s : State) : State := s.setCtx c (f (s.ctx c))
/-- Change a partition in place. -/
def State.updPart (p : Nat) (f : Part → Part) (s : State) : State := s.setPart p (f (s.part p))

/-- A free value for a key (log entry 1); the same until the draw advances. -/
def State.draw (s : State) (key : Nat) : Nat := Config.freeNat s.free key
/-- A free choice of one of n. -/
def State.pick (s : State) (key n : Nat) : Nat := if n = 0 then 0 else s.draw key % n
/-- A free bit. -/
def State.coin (s : State) (key : Nat) : Bool := s.draw key % 2 == 1
/-- Advance the draw. -/
def State.bump (s : State) : State := { s with free := s.free + 1 }
/-- A new identifier is `nextId`; take it. -/
def State.takeId (s : State) : State := { s with nextId := s.nextId + 1 }

/-! ## Places of the package -/

/-- The core of a quadrant number (27 R439: 4 × (die × 16 + core) + quadrant). -/
def coreOf (q : Nat) : Nat := q / 4
/-- The compute die of a core number die × 16 + core (01 R9). -/
def dieOf (core : Nat) : Nat := core / 16
/-- The core a group runs on. -/
def Group.core (g : Group) : Nat := coreOf g.quad
/-- The partition a group runs in. -/
def Group.part (g : Group) : Nat := partOf g.ctx
/-- Lanes of a group: 4 per slice (01 R10). -/
def Group.lanes (g : Group) : Nat := 4 * g.nsl

/-- 27 R439: a partition holds a quadrant. -/
def Part.hasQuad (p : Part) (q : Nat) : Bool := p.quads.getLsbD q
/-- 04 R81: the bank sets a partition holds on a core, ascending. -/
def Part.sets (p : Part) (core : Nat) : List Nat := (List.range 8).filter fun k => p.spsets.getLsbD (8 * core + k)
/-- 04 R82: a partition's scratchpad bytes on a core. -/
def Part.spadSize (p : Part) (core : Nat) : Nat := (p.sets core).length * 0x100000

/-- 27 R440: AGEMAX is written; the same value again is no new one. -/
def Part.setAge (clk n : Nat) (p : Part) : Part :=
  if n == p.agemax then p
  else { p with agemax := n, ageOld := (p.agemax, clk) :: p.ageOld.filter fun x => decide (clk < x.2 + 2) }

/-- 27 R440: $agemax as a decision sees it: a new value applies from 2 clk after its write; before that it or one it has replaced. -/
def Part.ageNow (p : Part) (s : State) : Nat :=
  match p.ageOld.filter fun x => decide (s.clk < x.2 + 2) with
  | [] => p.agemax
  | old => ((p.agemax :: old.map (·.1))[s.pick 60000 (old.length + 1)]?).getD p.agemax

/-! ## The scratchpad (04 R80 to R83) -/

/-- 04 R82: where offset o of a partition's scratchpad lies on a core: the index of the physical byte, core × 8 MiB + bank × 128 KiB + byte. -/
def spadPlace (p : Part) (core o : Nat) : Nat :=
  let sj := ((p.sets core)[o / 0x100000 % 8]?).getD 0
  core * 0x800000 + (8 * sj + o / 64 % 8) * 0x20000 + (o / 512 % 2048) * 64 + o % 64

/-- One scratchpad byte. -/
def spadByte (s : State) (part core o : Nat) : Byte := sgetD 0 (spadPlace (s.part part) core o) s.spad
/-- n scratchpad bytes as a number. -/
def readSpad (s : State) (part core o : Nat) : Nat → Nat
  | 0 => 0
  | n + 1 => (spadByte s part core o).toNat + 256 * readSpad s part core (o + 1) n
/-- Some word of n scratchpad bytes is marked (04 R83). -/
def markedSpad (s : State) (part core o n : Nat) : Bool :=
  (wordsOf o n).any fun w => sgetD false (spadPlace (s.part part) core (4 * w) / 4) s.spadPoison
/-- The stamp of the line that holds an offset (07 R147). -/
def stampSpad (s : State) (part core o : Nat) : BitVec 4 := sgetD 0 (spadPlace (s.part part) core o / 64) s.spadStamp

/-- Store n bytes of a number without marks. -/
def spadBytes (part core o v : Nat) : Nat → State → State
  | 0, s => s
  | n + 1, s => spadBytes part core (o + 1) (v / 256) n { s with spad := sput 0 (spadPlace (s.part part) core o) (BitVec.ofNat 8 v) s.spad }
/-- The 64-byte lines that n bytes from an offset touch. -/
def linesOf (o n : Nat) : List Nat := if n = 0 then [] else (List.range ((o + n - 1) / 64 - o / 64 + 1)).map (· + o / 64)
/-- Store n bytes with the marks of the words written and the stamp of the lines written (04 R83; 07 R147: 0 but for inbound copies). -/
def writeSpad (part core o n v : Nat) (p : Bool) (stamp : BitVec 4) (s : State) : State :=
  let s := spadBytes part core o v n s
  { s with
    spadPoison := (wordsOf o n).foldl (fun m w => sput false (spadPlace (s.part part) core (4 * w) / 4) p m) s.spadPoison
    spadStamp := (linesOf o n).foldl (fun m l => sput 0 (spadPlace (s.part part) core (64 * l) / 64) stamp m) s.spadStamp }
/-- One aligned scratchpad word with its mark. -/
def spadPWord (s : State) (part core o : Nat) : PWord := ⟨BitVec.ofNat 32 (readSpad s part core o 4), markedSpad s part core o 4⟩

/-! ## Physical addresses (02 R20, R21) -/

/-- What lies at a physical address. -/
inductive Region where
  | hbm (stack : Nat) | tier2 | host | devreg | hole
deriving DecidableEq, Repr, Inhabited

/-- 02 R20, R21. -/
def regionOf (pa : Nat) : Region :=
  if pa < 0x8000000000 then (if pa % 0x1000000000 ≤ 0xB2D05DFFF then .hbm (pa / 0x1000000000) else .hole)
  else if 0x10000000000 ≤ pa && pa < 0x20000000000 then (if pa - 0x10000000000 ≤ 0xEE6B27FFFF then .tier2 else .hole)
  else if 0x8000000000000 ≤ pa && pa < 0xF000000000000 then .host
  else if 0xF000000000000 ≤ pa && pa < 0x10000000000000 then .devreg
  else .hole

/-- 02 R22: the tier code of a region; 3 agrees with none. -/
def Region.tier : Region → Nat
  | .hbm _ => 0 | .tier2 => 1 | .host => 2 | _ => 3

/-- 27 R441: an address lies inside a valid window of the partition. -/
def inWindow (p : Part) (pa : Nat) : Bool :=
  (p.pwinb.zip p.pwinl).any fun (b, l) => l.getLsbD 0 && decide ((b.extractLsb' 12 40).toNat ≤ pa / 4096) && decide (pa / 4096 ≤ (l.extractLsb' 12 40).toNat)
/-- 27 R441: an address the partition's contexts may produce: inside a window, or host memory. -/
def reachable (p : Part) (pa : Nat) : Bool := inWindow p pa || regionOf pa == .host

/-! ## The die cache (04 R77 to R79): residency only -/

/-- 04 R77: the home die of an address. -/
def homeDie (pa : Nat) : Nat :=
  match regionOf pa with
  | .hbm st => st / 2
  | _ => pa / 4096 % 4

/-- A line that holds an address is there. -/
def cacheHas (s : State) (pa : Nat) : Bool := s.cache.any fun c => c.die == homeDie pa && c.line == pa / 64

/-- An access of a line that the cache holds makes it the most recently used; of another, nothing (04 R78, R79). -/
def cacheHit (pa : Nat) (write : Bool) (s : State) : State :=
  match s.cache.find? fun c => c.die == homeDie pa && c.line == pa / 64 with
  | some c => { s with cache := { c with dirty := c.dirty || write } :: s.cache.erase c }
  | none => s

/-- 04 R78, R79: a line that misses is allocated in a granted way, as the first victim where `first` says so; a full set gives up the least recently used line among its granted ways. DESIGN CHOICE (log 7): of several empty granted ways it takes the lowest-numbered. -/
def cacheAlloc (ways : BitVec 24) (pa : Nat) (write first : Bool) (s : State) : State :=
  if cacheHas s pa then cacheHit pa write s
  else
    let die := homeDie pa; let line := pa / 64; let set := Config.cacheSet line % 65536
    let inSet (c : CacheLine) : Bool := c.die == die && c.set == set
    let put (k : Nat) (l : List CacheLine) : State := { s with cache := if first then l ++ [⟨die, set, k, line, write⟩] else ⟨die, set, k, line, write⟩ :: l }
    match ((List.range 24).filter fun k => ways.getLsbD k).find? (fun k => !s.cache.any fun c => inSet c && c.way == k) with
    | some k => put k s.cache
    | none =>
      match (s.cache.filter fun c => inSet c && ways.getLsbD c.way).getLast? with
      | none => s
      | some v => put v.way (s.cache.erase v)

/-- 12 R262 .ev, 04 R78: drop a line. -/
def cacheDrop (pa : Nat) (s : State) : State :=
  { s with cache := s.cache.filter fun c => !(c.die == homeDie pa && c.line == pa / 64) }

/-- 04 R78: what an access with the CACHE attribute `code` does to residency. -/
def cacheAccess (ways : BitVec 24) (code pa : Nat) (write : Bool) (s : State) : State :=
  if code = 2 then (if write then cacheDrop pa s else cacheHit pa false s) else cacheAlloc ways pa write (code == 1) s

/-- 04 R77: n bytes of memory accessed by an agent that no mapping entry serves (the host, a walker, the fabric, a record): lines held are used, and none is allocated (log 27). -/
def cachePass (pa n : Nat) (write : Bool) (s : State) : State :=
  if s.cache.isEmpty then s else (List.range ((pa + n + 63) / 64 - pa / 64)).foldl (fun s k => cacheHit ((pa / 64 + k) * 64) write s) s

/-- 27 R439, R443: HBMB and HOSTB count the bytes an access moves; how many it moves the spec does not say, so the amount is free (log entry 1). -/
def countBytes (part pa : Nat) (s : State) : State :=
  let n := BitVec.ofNat 64 (s.draw (2 ^ 70 + pa))
  match regionOf pa with
  | .hbm _ | .tier2 => s.updPart part fun p => { p with hbmb := p.hbmb + n }
  | .host => s.updPart part fun p => { p with hostb := p.hostb + n }
  | _ => s

/-- The same for an agent that works for a partition: the bytes are counted. -/
def agentPass (part pa n : Nat) (write : Bool) (s : State) : State := cachePass pa n write (countBytes part pa s)

/-- A walk reads tables in device or host memory: the bytes of each are free (log entry 1). -/
def countWalk (part : Nat) (s : State) : State :=
  s.updPart part fun p => { p with hbmb := p.hbmb + BitVec.ofNat 64 (s.draw (2 ^ 72)), hostb := p.hostb + BitVec.ofNat 64 (s.draw (2 ^ 72 + 1)) }

/-- 27 R439, R443: FABB counts the bytes sent on the ports; the framing is not given, so the amount is free (log entry 1). -/
def countFab (part : Nat) (s : State) : State :=
  s.updPart part fun p => { p with fabb := p.fabb + BitVec.ofNat 64 (s.draw (2 ^ 71 + s.nextId)) }

/-- 04 R77, R78: what one access through a mapping entry does to residency; `code` is its CACHE attribute. The bytes it moves are counted. A line of host memory is held only as the CXL.cache rules allow (02 R23), which the spec does not give: free (log 27). -/
def cacheTouch (part code pa : Nat) (write : Bool) (s : State) : State :=
  let s := countBytes part pa s
  match regionOf pa with
  | .hbm _ | .tier2 => cacheAccess (s.part part).dcways code pa write s
  | .host => if s.coin (36000 + pa) then cacheAccess (s.part part).dcways code pa write s else if code = 2 && write then cacheDrop pa s else cacheHit pa write s
  | _ => s

/-! ## Soft errors (02 R48, R49; 12 R250) -/

/-- The store that a site names is there: populated memory, a line that the die cache holds, a bank of a core. -/
def softHeld (s : State) : SoftSite → Bool
  | .memory pa => (match regionOf pa with | .hbm _ | .tier2 => true | _ => false)
  | .cached pa => cacheHas s pa
  | .spad k => decide (k < 64 * 0x800000)

/-- The marks of `n` words from word `w`. -/
def markWords (w n : Nat) (m : Sparse Bool) : Sparse Bool := (List.range n).foldl (fun m k => sput false (w + k) true m) m

/-- The data a failed check covers carries its poison on (02 R49): the words keep their bits and are marked. -/
def softPoison (site : SoftSite) (s : State) : State :=
  match site with
  | .memory pa => { s with memPoison := markWords (pa / 32 * 8) 8 s.memPoison }
  | .cached pa => { s with memPoison := markWords (pa / 8 * 2) 2 s.memPoison }
  | .spad k => { s with spadPoison := markWords (k / 4) 1 s.spadPoison }

/-- 02 R48, R49: a check finds n wrong symbols. One is corrected and counted, two are detected and carried on as poison; of more the table says nothing, and the model shows none (log 44). -/
def softError (site : SoftSite) (n : Nat) (s : State) : State :=
  if !softHeld s site then s
  else if n == 1 then { s with dev := { s.dev with cecnt := s.dev.cecnt + 1 } }
  else if n == 2 then softPoison site s
  else s

/-! ## Time -/

/-- Time passes (log entry 2): clk periods and ns of $tsc. In a new clk every stream that is due is a candidate again (23 R409). -/
def State.pass (clks ns : Nat) (s : State) : State := { s with clk := s.clk + clks, tsc := s.tsc + BitVec.ofNat 64 ns, tried := if clks == 0 then s.tried else [] }

/-- 19 R329: $tsc slews toward the master's time, by at most 0.1 percent of the time that passes: by the offset last told at a trained port (log 64). -/
def State.slew (ns : Nat) (s : State) : Int :=
  let up := s.dev.ports.filter (·.up)
  let o := ((up[s.pick 87200 up.length]?).map (·.offset)).getD 0
  let most : Int := ((s.dev.slewNs + ns) / 1000 : Nat)
  if s.dev.master == Config.nodeId.toNat then 0 else max (-most) (min most o)
/-- The slew of a time that passes; what does not make up 1,000 ns is kept for the next time. -/
def State.slewed (ns : Nat) (s0 : State) : State :=
  let d := s0.slew ns
  let s : State := { s0 with dev := { s0.dev with slewNs := (s0.dev.slewNs + ns) % 1000 } }
  if d == 0 then s else { s with tsc := s.tsc + BitVec.ofInt 64 d, dev := { s.dev with ports := s.dev.ports.map fun x => { x with offset := x.offset - d } } }

/-- 25 R423: a source number. -/
def srcNum (core engine : Nat) : Nat := Config.nodeId.toNat * 2048 + core / 16 * 512 + core % 16 * 16 + engine
/-- 25 R423: the source number of port p. -/
def portSrc (p : Nat) : Nat := Config.nodeId.toNat * 2048 + (16 + p % 16) * 16 + (0xE + p / 16)

/-! ## Events to the host (27 R444, R445) -/

/-- The sixteen-, eight- and four-byte little-endian fields of records. -/
def leBytes (n v : Nat) : List Byte := (List.range n).map fun k => BitVec.ofNat 8 (v / 256 ^ k)

/-- 27 R439: the number of events the queue holds; 13 to 15 taken as 12. -/
def Part.eqSize (p : Part) : Nat := 2 ^ min (p.eqbase.extractLsb' 0 4).toNat 12

/-- 27 R444: the 32 bytes of an event. -/
def Event.bytes (e : Event) : List Byte :=
  leBytes 8 e.ts.toNat ++ leBytes 4 e.src ++ leBytes 4 e.seq ++ leBytes 1 e.kind ++ leBytes 1 e.cause ++ leBytes 1 (e.ctx % 16) ++ leBytes 1 0 ++ leBytes 4 e.data ++ leBytes 8 0

/-- 27 R445: EQTAIL advances, and the host is signalled when it asked for it and has not been. -/
def advanceEvents (part : Nat) (s : State) : State :=
  let p := s.part part
  let s1 := s.setPart part { p with eqtail := p.eqtail + 1, signalled := p.signalled || p.ien }
  { s1 with out := if p.ien && !p.signalled then { s1.out with msix := s1.out.msix ++ [part] } else s1.out }

/-- 27 R444: one event of 32 bytes, written at its place, and EQTAIL advanced; a full queue drops and counts it, a LOST event by its own count (R445). -/
def writeEvent (part : Nat) (e : Event) (s : State) : State :=
  let p := s.part part
  if (p.eqtail - p.eqhead).toNat == p.eqSize then s.setPart part { p with dropped := p.dropped + (if e.kind == 8 then e.data else 1) }
  else
    let at_ := (p.eqbase.extractLsb' 12 40).toNat * 4096 + 32 * (p.eqtail.toNat % p.eqSize)
    advanceEvents part (writeByteList at_ e.bytes (agentPass part at_ 32 true s))

/-- 27 R445: events take their positions in ascending TS, those of one TS in ascending SRC. -/
def Event.before (a b : Event) : Bool := decide (a.ts < b.ts) || (a.ts == b.ts && decide (a.src < b.src))
/-- An event among those that wait. -/
def evInsert (e : Event) : List Event → List Event
  | [] => [e]
  | a :: t => if e.before a then e :: a :: t else a :: evInsert e t

/-- 27 R445: an event of now waits until no other event can come before it (log entry 65). -/
def pushEvent (part src seq kind cause ctx data : Nat) (s : State) : State :=
  s.updPart part fun p => { p with evq := evInsert ⟨s.tsc, src, seq, kind, cause, ctx, data⟩ p.evq }

/-- The events of a partition that wait are written, in their order. -/
def flushPart (part : Nat) (s : State) : State :=
  (s.part part).evq.foldl (fun s e => writeEvent part e s) (s.updPart part fun p => { p with evq := [] })
/-- 27 R445: $tsc has moved on, so that no event can come before one that waits: they are written. -/
def State.flushEvents (ns : Nat) (s : State) : State := if ns == 0 then s else (s.parts.map (·.1)).foldl (fun s p => flushPart p s) s

/-- Some context still comes to its stop. -/
def State.stopping (s : State) : Bool := s.ctxs.any fun p => p.2.st.stopsOrRuns || p.2.st == .killing
/-- 29 R460: after a thermal trip, once no context is left to come to its stop, the clocks are off for good; no time passes any more, and an event that waits is written at once. -/
def State.tripped (s : State) : State :=
  if s.dev.stopped && (s.dev.clockOff || !s.stopping) then State.flushEvents 1 { s with dev := { s.dev with clockOff := true } } else s

/-! ## Stop records (25 R422 to R424) -/

/-- A record with every field zero but the time. -/
def StopRec.blank (ts : DWord) : StopRec := ⟨ts, 0, 0, 0, 0, false, false, 0, 0, 0, 0, 0, 0, 0, 0, 0, 0, 0, 0, 0, 0, false, 0, 0⟩

/-- 25 R422: the 128 bytes of a record. -/
def StopRec.bytes (r : StopRec) (seq : Nat) : List Byte :=
  let b (x : Bool) : Nat := if x then 1 else 0
  leBytes 8 r.ts.toNat ++ leBytes 4 r.src ++ leBytes 4 seq ++ leBytes 1 r.kind ++ leBytes 1 r.cause ++ leBytes 1 r.detail ++
  leBytes 1 (b r.first + 2 * b r.late) ++ leBytes 4 r.lanes ++ leBytes 8 r.pc.toNat ++ leBytes 1 r.idx ++ leBytes 1 r.grp ++ leBytes 1 r.quad ++
  leBytes 1 0 ++ leBytes 4 r.wg ++ leBytes 8 r.addr.toNat ++ leBytes 4 r.kleft ++ leBytes 1 r.row ++ leBytes 1 r.slot ++ leBytes 1 r.uop ++
  leBytes 1 r.tile ++ leBytes 4 r.crow ++ leBytes 1 r.col ++ leBytes 3 0 ++ leBytes 4 (r.lref + 0x80000000 * b r.dev) ++ leBytes 60 0

/-- 25 R424: one record takes the next SEQ and is written at BASE + 128 × (s mod 2^LG) when EN = 1. -/
def writeRec (c : Nat) (r : StopRec) (s : State) : State :=
  let x := s.ctx c
  let lg := min (x.stopbase.extractLsb' 1 4).toNat 12
  let s := s.setCtx c { x with stopseq := x.stopseq + 1 }
  if x.stopbase.getLsbD 0 then
    let at_ := (x.stopbase.extractLsb' 12 40).toNat * 4096 + 128 * (x.stopseq.toNat % 2 ^ lg)
    writeByteList at_ (r.bytes x.stopseq.toNat) (agentPass (partOf c) at_ 128 true s)
  else s

/-- Insert a record by ascending TS, ties to the lower SRC (25 R423). -/
def recInsert (r : StopRec) : List StopRec → List StopRec
  | [] => [r]
  | a :: t => if r.ts < a.ts || (r.ts == a.ts && r.src < a.src) then r :: a :: t else a :: recInsert r t

/-- 25 R423: the record numbers of a launch, for LREF and DEV. -/
def launchRef (s : State) (lid : Nat) : Bool × Nat :=
  match sget lid s.launches with
  | some l => (match l.dev with | some h => (true, h) | none => (false, l.queue * 65536 + l.index))
  | none => (false, 0)

/-- A record of kind 0x06 written on its own (25 R422, R423). -/
def ctxRec (c cause detail : Nat) (late : Bool) (s : State) : State :=
  writeRec c { StopRec.blank s.tsc with src := srcNum 0 0xF, kind := 6, cause := cause, detail := detail, late := late } s

end Sys2Proof.Machine
end

