-- ==== Sys2Proof/Machine/Translate.lean ====
section
/-! DEFINITION. Address translation: lookasides, lookups that wait for a walk, the checks an access makes, and the walk itself (02 R18 to R36; 27 R441). -/

namespace Sys2Proof.Machine

/-! ## Attributes (02 R29) -/

def atNode (a : DWord) : Nat := (a.extractLsb' 56 8).toNat
def atStamp (a : DWord) : BitVec 4 := a.extractLsb' 52 4
def atRset (a : DWord) : Bool := a.getLsbD 10
def atCache (a : DWord) : Nat := (a.extractLsb' 8 2).toNat
def atTier (a : DWord) : Nat := (a.extractLsb' 6 2).toNat
def atPriv (a : DWord) : Bool := a.getLsbD 5
def atX (a : DWord) : Bool := a.getLsbD 4
def atW (a : DWord) : Bool := a.getLsbD 3
def atR (a : DWord) : Bool := a.getLsbD 2

/-- Kinds of access, 02 R30. -/
inductive Acc where
  | read | write | update | fetch
deriving DecidableEq, Repr, Inhabited

/-- 02 R30: the attributes allow the access; `sys` when it comes from a system-class clause. -/
def permits (a : DWord) (k : Acc) (sys : Bool) : Bool :=
  (sys || !atPriv a) &&
  (match k with
   | .read => atR a
   | .write => atW a
   | .update => atR a && atW a
   | .fetch => atX a)

/-- The distance between the copies of a replica page (02 R24). -/
def replicaStep : Nat := 0x2000000000

/-- The outcome of looking an address up in a core's lookasides. -/
inductive Look where
  | at_ (w : Where)      -- translated and permitted
  | trans (detail : Nat) -- TRANSLATION, 12 R249 check 5
  | perm                 -- PERMISSION, check 6
  | miss                 -- needs a walk
deriving DecidableEq, Repr, Inhabited

/-- 02 R24: the four copies of the whole page of `size` bytes that holds an address are populated. -/
def copiesPopulated (pa size : Nat) : Bool :=
  (List.range 4).all fun d => (regionOf (pa / size * size + d * replicaStep)).tier == 0 && (regionOf (pa / size * size + (size - 1) + d * replicaStep)).tier == 0

/-- 02 R22, R24, R30, R21: the attributes and the physical address agree, and nothing falls in a hole. `pas` are the copies touched, `size` the size of the page that holds the address (R34; 4 KiB for a range entry). -/
def attrValid (a : DWord) (base size : Nat) (pas : List Nat) : Bool :=
  let tierOk (pa : Nat) : Bool := (regionOf pa).tier == atTier a
  atTier a != 3 && atCache a != 3 && (!atW a || atR a) &&
  (if atNode a != 0 then !atRset a && tierOk base
   else pas.all tierOk && (!atRset a || (atTier a == 0 && base < replicaStep && copiesPopulated base size)))

/-- 02 R25: the copies an access touches: all four for a multicast store, the local one otherwise. -/
def copiesOf (a : DWord) (pa die : Nat) (all : Bool) : List Nat :=
  if atRset a then (if all then (List.range 4).map fun d => pa + d * replicaStep else [pa + die * replicaStep]) else [pa]

/-- The lookaside entry of a core that covers an address; range entries come first (02 R32). -/
def findLook (s : State) (core c va : Nat) : Option LookAside :=
  let cov (e : LookAside) : Bool := e.core == core && e.ctx == c && e.lo ≤ va && va ≤ e.hi
  match s.looks.find? (fun e => cov e && e.range) with
  | some e => some e
  | none => s.looks.find? cov

/-- Who makes the accesses of this step. -/
def State.asker (s : State) : Option Asker :=
  s.cur.map fun c => ⟨c.gid, c.slice, ((s.group? c.gid).bind fun g => (g.gangs.find? fun a => a.slices.head? == some c.slice).map (·.due)).getD 0⟩

/-- The cause kept from the walk that failed for an access of this step (02 R35). -/
def State.failed (s : State) (core c va : Nat) : Option Nat :=
  s.asker.bind fun w => (s.lookups.find? fun p => p.2.core == core && p.2.ctx == c && p.2.va == va / 4096 && p.2.err != 0 && p.2.who.contains w).map (·.2.err)

/-- 12 R249 checks 4 to 6 for one address: [63:57], translation, hole, permission, windows (27 R441). `all` for a multicast store. -/
def lookVa (s : State) (core c : Nat) (va : DWord) (k : Acc) (sys all : Bool) : Look :=
  if va.extractLsb' 57 7 != 0 then .trans 0
  else
    match s.failed core c va.toNat, findLook s core c va.toNat with
    | some err, _ => .trans (err - 1)
    | none, none => .miss
    | none, some e =>
      let pa := e.phys + (va.toNat - e.lo)
      let pas := copiesOf e.attr pa (dieOf core) all
      if !attrValid e.attr pa e.size pas then .trans 0
      else if atNode e.attr != 0 && !e.nodeOk then .trans 0
      else if !permits e.attr k sys then .perm
      else if atNode e.attr == 0 && !pas.all (reachable (s.part (partOf c))) then .perm
      else .at_ ⟨pas, if atNode e.attr == 0 then 0 else e.node + 1, e.attr⟩

/-- 02 R36: a missed lookup waits for a walker; one lookup stands for every access of a core to the same page that has asked before its walk is over. -/
def askWalk (core c : Nat) (va : Nat) (s : State) : State :=
  let new (l : List Asker) : List Asker := s.asker.toList.filter fun w => !l.contains w
  match s.lookups.find? fun p => p.2.core == core && p.2.ctx == c && p.2.va == va / 4096 && p.2.err == 0 with
  | some p => if (new p.2.who).isEmpty then s else { s with lookups := sset p.1 { p.2 with who := p.2.who ++ new p.2.who } s.lookups }
  | none => ({ s with lookups := sset s.nextId ⟨s.nextId, core, c, va / 4096, false, false, 0, new []⟩ s.lookups }).takeId

/-- Failed walks that no access but those of this step needed are forgotten. -/
def dropFailed (mine : Lookup → Bool) (s : State) : State :=
  { s with lookups := s.lookups.filter fun p => !(p.2.err != 0 && mine p.2 && p.2.who.all s.asker.toList.contains) }
/-- A failed walk is forgotten once the access that needed it has taken its fault (02 R35). -/
def forgetWalk (core c : Nat) (va : Nat) (s : State) : State := dropFailed (fun l => l.core == core && l.ctx == c && l.va == va / 4096) s

/-! ## The walk (02 R31 to R35) -/

/-- The outcome of a walk: the addresses it translates, the physical address of the first, the attributes, the size of the page, whether a range entry made it. -/
inductive WalkRes where
  | found (lo hi phys : Nat) (attr : DWord) (size : Nat) (range : Bool)
  | bad (err : Nat)  -- 1 ordinary, 2 a poisoned read, 3 a hole, the device range or no window
deriving DecidableEq, Repr, Inhabited

/-- A read of a translation structure: 2 when poisoned, 3 when it may not be read (02 R35). -/
def walkRead (s : State) (p : Part) (pa n : Nat) : Except Nat Nat :=
  match regionOf pa with
  | .hole | .devreg => .error 3
  | _ => if !reachable p pa then .error 3 else if markedMem s pa n then .error 2 else .ok (readMem s pa n)

/-- What the range table says of an address: the addresses around it that one and the same answer holds for, and the OFFSET and attributes of the entry that covers them, if one does. -/
structure RangeHit where
  lo : Nat
  hi : Nat
  entry : Option (Nat × DWord)
deriving DecidableEq, Repr, Inhabited

/-- 02 R32, R33: an answer beside a lower entry that does not cover the address: what that entry leaves of it around the address. -/
def RangeHit.beside (base last va : Nat) (r : RangeHit) : RangeHit :=
  if last < base then r
  else if last < va then { r with lo := max r.lo (last + 1) }
  else if va < base then { r with hi := min r.hi (base - 1) }
  else r

/-- 02 R31, R32: the first valid range entry that covers the address, from entry i on, with the addresses around it for which the answer is the same. DESIGN CHOICE (log 57): R31 ignores only LEAF and CONT of word 3 and says nothing of V there, bit 0; the model ignores it, for V of word 0 says that the entry is valid. -/
def rangeWalk (s : State) (p : Part) (tab va : Nat) : Nat → Nat → Except Nat RangeHit
  | _, 0 => .ok ⟨0, 2 ^ 57 - 1, none⟩
  | i, n + 1 =>
    match walkRead s p (tab + 32 * i) 8, walkRead s p (tab + 32 * i + 8) 8, walkRead s p (tab + 32 * i + 16) 8, walkRead s p (tab + 32 * i + 24) 8 with
    | .ok w0, .ok w1, .ok w2, .ok w3 =>
      let base := w0 / 4096 % 2 ^ 45 * 4096; let last := w1 / 4096 % 2 ^ 45 * 4096 + 0xFFF
      if w0 % 2 == 1 && decide (base ≤ va) && decide (va ≤ last) then .ok ⟨base, last, some (w2 / 4096 * 4096, BitVec.ofNat 64 w3)⟩
      else (rangeWalk s p tab va (i + 1) n).map fun r => if w0 % 2 == 1 then r.beside base last va else r
    | .error e, _, _, _ => .error e
    | _, .error e, _, _ => .error e
    | _, _, .error e, _ => .error e
    | _, _, _, .error e => .error e

/-- Bits of a page entry (02 R29, R34): V, LEAF, CONT, and the physical address. -/
def pteV (e : Nat) : Bool := e % 2 == 1
def pteLeaf (e : Nat) : Bool := e / 2 % 2 == 1
def pteCont (e : Nat) : Bool := e / 2048 % 2 == 1
def ptePa (e : Nat) : Nat := e / 4096 % 2 ^ 40 * 4096

/-- A leaf translates the whole page of `size` bytes that holds the address; physical bits below the size count as zero (02 R34, R35). -/
def leafPage (va size e : Nat) : WalkRes := .found (va / size * size) (va / size * size + size - 1) (ptePa e / size * size) (BitVec.ofNat 64 e) size false

/-- 02 R35: the sixteen entries of the CONT group that holds entry k of a table, so far as they are CONT leaves. DESIGN CHOICE (log 57): R35 lets any one of the sixteen translate where they differ, and says nothing of those among them that are no CONT leaves: the model picks among the CONT leaves alone, and an own entry that is no CONT leaf decides by itself. -/
def contGroup (s : State) (p : Part) (table k : Nat) : List Nat :=
  (List.range 16).filterMap fun j => match walkRead s p (table + (k / 16 * 16 + j) * 8) 8 with
    | .ok e => if pteV e && pteLeaf e && pteCont e then some e else none
    | .error _ => none

/-- 02 R34, R35: the page walk from a level down. Where the entries of a CONT group differ, any one of them translates, page by page (R35). -/
def pageWalk (s : State) (p : Part) (va : Nat) : Nat → Nat → WalkRes
  | table, level =>
    let k := va / 2 ^ (12 + 9 * level) % 512
    match walkRead s p (table + k * 8) 8 with
    | .error e => .bad e
    | .ok e =>
      if !pteV e then .bad 1
      else if pteLeaf e then
        let one := 4096 * 512 ^ level
        match level with
        | 0 | 1 =>
          if pteCont e then
            let es := contGroup s p table k
            let e1 := (es[s.pick (34000 + va / 4096) es.length]?).getD e
            match leafPage va (16 * one) e1 with
            | .found lo hi phys attr size r =>
              if es.length == 16 && es.all (fun x => leafPage va (16 * one) x == leafPage va (16 * one) e) then .found lo hi phys attr size r
              else .found (va / 4096 * 4096) (va / 4096 * 4096 + 0xFFF) (phys + (va / 4096 * 4096 - lo)) attr size r
            | x => x
          else leafPage va one e
        | 2 => if pteCont e then .bad 1 else leafPage va one e
        | _ => .bad 1
      else
        match level with
        | 0 => .bad 1
        | l + 1 => pageWalk s p va (ptePa e) l

/-- 02 R32, R33: a page translates only the addresses of the page that no range entry covers. -/
def WalkRes.within (lo hi : Nat) : WalkRes → WalkRes
  | .found a b phys attr size range => .found (max a lo) (min b hi) (phys + (max a lo - a)) attr size range
  | x => x

/-- 02 R32: range table, then page tables. -/
def walk (s : State) (c : Nat) (va : Nat) : WalkRes :=
  let x := s.ctx c; let p := s.part (partOf c)
  if x.descErr != 0 then .bad x.descErr else
  match rangeWalk s p x.rangetab va 0 x.rangecnt with
  | .error e => .bad e
  | .ok ⟨lo, hi, some (off, attr)⟩ =>
    let d : Int := (BitVec.ofNat 64 off).toInt
    -- OFFSET is signed: the sum taken over the integers lies in 0 to 2^52 − 1 (02 R32)
    if (va : Int) + d < 0 || (va : Int) + d ≥ 2 ^ 52 then .bad 1
    else if (lo : Int) + d ≥ 0 && (hi : Int) + d < 2 ^ 52 then .found lo hi ((lo : Int) + d).toNat attr 4096 true
    else let page := va / 4096 * 4096; .found page (page + 0xFFF) ((page : Int) + d).toNat attr 4096 true
  | .ok ⟨lo, hi, none⟩ => if x.rv then (pageWalk s p va x.root 4).within lo hi else .bad 1

/-- The translation structure lies where it may be read. -/
def walkable (s : State) (p : Part) (pa : Nat) : Bool := match walkRead s p pa 1 with | .error 3 => false | _ => true
/-- The range entries a walk reads, in their order: as far as the one that covers the address. -/
def rangeReads (s : State) (p : Part) (tab va : Nat) : Nat → Nat → List Nat
  | _, 0 => []
  | i, n + 1 =>
    (tab + 32 * i) ::
    match walkRead s p (tab + 32 * i) 32 with
    | .error _ => []
    | .ok _ => match rangeWalk s p tab va i 1 with | .ok ⟨_, _, some _⟩ => [] | _ => rangeReads s p tab va (i + 1) n
/-- The page entries it reads, from a level down. -/
def pageReads (s : State) (p : Part) (va : Nat) : Nat → Nat → List Nat
  | table, level =>
    let at_ := table + va / 2 ^ (12 + 9 * level) % 512 * 8
    at_ :: match walkRead s p at_ 8, level with
      | .ok e, l + 1 => if pteV e && !pteLeaf e then pageReads s p va (ptePa e) l else []
      | _, _ => []
/-- What a walk reads: addresses with their bytes. -/
def walkReads (s : State) (c va : Nat) : List (Nat × Nat) :=
  let x := s.ctx c; let p := s.part (partOf c)
  if x.descErr != 0 then []
  else
    let ranged : Bool := match rangeWalk s p x.rangetab va 0 x.rangecnt with | .ok ⟨_, _, none⟩ => false | _ => true
    let node (a : DWord) : List (Nat × Nat) := if atNode a == 0 then [] else [(x.nodetab + 4 * atNode a, 4)]
    ((rangeReads s p x.rangetab va 0 x.rangecnt).map fun a => (a, 32)) ++ (if ranged || !x.rv then [] else (pageReads s p va x.root 4).map fun a => (a, 8)) ++
    (match walk s c va with | .found _ _ _ attr _ _ => node attr | .bad _ => [])
/-- 02 R36, 04 R77: its reads pass through the die cache. -/
def walkPass (c va : Nat) (s : State) : State :=
  if s.cache.isEmpty then s else ((walkReads s c va).filter fun r => walkable s (s.part (partOf c)) r.1).foldl (fun s r => cachePass r.1 r.2 false s) s

/-- 02 R28: the node number behind a node index, and whether the entry is valid; an error when it cannot be read. -/
def nodeOf (s : State) (c n : Nat) : Except Nat (Nat × Bool) :=
  if n == 0 then .ok (0, true)
  else
    match walkRead s (s.part (partOf c)) ((s.ctx c).nodetab + 4 * n) 4 with
    | .error e => .error e
    | .ok w => .ok (w % 2 ^ 21, w / 2 ^ 31 % 2 == 1)

/-- 02 R27: read the descriptor of a context (at its free place, log entry 5). DESIGN CHOICE (log 57): of the 64 bytes a failed check is looked for in bytes 0 to 31, the ones that hold fields; R27 has the part ignore the rest. -/
def readDescriptor (c : Nat) (s : State) : State :=
  let d := Config.descriptorAddr c
  let w0 := readMem s d 8
  let err := match walkRead s (s.part (partOf c)) d 32 with | .ok _ => 0 | .error e => e
  (if err == 3 then s else agentPass (partOf c) d 64 false s).updCtx c fun x => { x with
    descErr := err
    rv := w0 % 2 == 1
    root := w0 / 4096 % 2 ^ 40 * 4096
    rangetab := readMem s (d + 8) 8 / 4096 % 2 ^ 40 * 4096
    rangecnt := min (readMem s (d + 16) 2 % 8192) 4096
    nodetab := readMem s (d + 24) 8 / 4096 % 2 ^ 40 * 4096 }

/-- 02 R33: a core holds at most 256 range and 4,096 page entries; a full lookaside gives up one freely chosen entry. -/
def installLook (e : LookAside) (s : State) : State :=
  let same := s.looks.filter fun x => x.core == e.core && x.range == e.range
  let cap := if e.range then 256 else 4096
  let keep := if same.length < cap then s.looks
    else match same[s.pick 33 same.length]? with
      | some v => s.looks.erase v
      | none => s.looks
  { s with looks := e :: keep }

end Sys2Proof.Machine
end

