-- ==== Sys2Proof/Machine/Gangs.lean ====
section
/-! DEFINITION. Slices, gangs and divergence: arriving at a header, parting, fusing, branching (21 R361 to R365; 22 R377 to R381). -/

namespace Sys2Proof.Machine

/-- The gang whose first slice is given. -/
def Group.gang? (g : Group) (slice : Nat) : Option Gang := g.gangs.find? fun a => a.slices.head? == some slice

/-- The gangs that are held mid-clause give up their streams (23 R408). -/
def Group.noStreams (g : Group) : Group := { g with gangs := g.gangs.map fun a => { a with stream := none } }

/-- Gangs in ascending order of their first slice. -/
def gangInsert (a : Gang) : List Gang → List Gang
  | [] => [a]
  | b :: t => if a.slices.headD 0 < b.slices.headD 0 then a :: b :: t else b :: gangInsert a t

/-- Replace the gang of a first slice by others. -/
def Group.putGangs (slice : Nat) (new : List Gang) (g : Group) : Group :=
  { g with gangs := new.foldl (fun l a => gangInsert a l) (g.gangs.filter fun a => a.slices.head? != some slice) }

/-- Change one gang. -/
def Group.updGang (slice : Nat) (f : Gang → Gang) (g : Group) : Group :=
  { g with gangs := g.gangs.map fun a => if a.slices.head? == some slice then f a else a }

/-- A slice of a group. -/
def Group.slice (g : Group) (i : Nat) : Slice := (g.slices[i]?).getD default

/-- Change one slice. -/
def Group.updSlice (i : Nat) (f : Slice → Slice) (g : Group) : Group :=
  { g with slices := (g.slices.zipIdx).map fun (x, k) => if k == i then f x else x }

/-- The mask of a slice's active lanes as lane bits of the group (01 R10). -/
def Group.activeMask (g : Group) (slices : List Nat) : Nat :=
  slices.foldl (fun m i => m + (g.slice i).active.toNat * 2 ^ (4 * i)) 0

/-- The lanes of the group that have not exited. -/
def Group.liveMask (g : Group) : Nat := (g.slices.zipIdx).foldl (fun m x => m + x.1.live.toNat * 2 ^ (4 * x.2)) 0

/-- 03 R56: what one of the lanes given has accessed, on whatever side, comes before what any of them accesses from now on. The lanes are those of a branch that diverges, or those that come together again, exited ones included. -/
def Group.join (lanes : Nat) (g : Group) : Group :=
  if g.late.isEmpty then g
  else { g with late := g.late.map fun x => if (x.mask ||| x.ord) &&& lanes != 0 then { x with ord := x.ord ||| lanes } else x }

/-- The lanes, exited ones too, that a slice's step from one stack to a shorter one brings together: those that the entries popped have saved. -/
def Slice.popped (x y : Slice) : BitVec 4 := (x.recs.take (x.recs.length - y.recs.length)).foldl (fun m r => m ||| r.saved) 0
/-- The lanes, exited ones too, of a slice that are together again once it has popped every entry of the header given, the next of its stack. -/
def Slice.scope (r : DWord) (x : Slice) : BitVec 4 := ((x.recs.dropWhile (·.hdr != r)).takeWhile (·.hdr == r)).foldl (fun m e => m ||| e.saved) x.active
/-- 4 bits of each slice as lane bits of the group. -/
def laneBits (f : Nat → BitVec 4) (slices : List Nat) : Nat := slices.foldl (fun m i => m + (f i).toNat * 2 ^ (4 * i)) 0
/-- 03 R56: where slices of a gang have popped since the group was `old`, the gang's lanes have come together. -/
def Group.rejoin (old : Group) (slices : List Nat) (g : Group) : Group :=
  let m := laneBits (fun i => (old.slice i).popped (g.slice i)) slices
  if m == 0 then g else g.join (m ||| g.activeMask slices)

/-- The lanes of a mask, ascending. -/
def maskLanes (m : Nat) : List Nat := (List.range 32).filter fun k => m.testBit k
/-- A set of lanes as a mask. -/
def lanesMask (ls : List Nat) : Nat := ls.foldl (fun m k => m ||| 2 ^ k) 0
/-- The four lane bits of a slice in a mask. -/
def sliceBits (m i : Nat) : BitVec 4 := BitVec.ofNat 4 (m / 2 ^ (4 * i))

/-- 21 R363: what a slice does on reaching header r, and where it continues; lanes that have exited have left every mask. A fall-through that is r itself is reached at once. -/
def resolveAt (r : DWord) : Nat → Slice → Slice × DWord
  | 0, x => (x, r)
  | n + 1, x =>
    match x.recs with
    | [] => (x, r)
    | e :: t =>
      if e.hdr != r then (x, r)
      else if e.pend &&& x.live != 0 then
        let y := { x with active := e.pend &&& x.live, recs := { e with pend := 0 } :: t }
        if e.fall == r then resolveAt r n y else (y, e.fall)
      else resolveAt r n { x with active := e.saved &&& x.live, recs := t }

/-- Split a list of slices with their program counters into one list per program counter, in order of first appearance. -/
def byPc : List (Nat × DWord) → List (DWord × List Nat)
  | [] => []
  | (i, p) :: t =>
    let rest := byPc t
    if rest.any (·.1 == p) then rest.map fun (q, l) => if q == p then (q, i :: l) else (q, l)
    else (p, [i]) :: rest

/-- The innermost open parting that holds a slice. -/
def Group.innermost (g : Group) (slice : Nat) : Option Parting := g.partings.find? fun p => p.slices.contains slice

/-- A slice has exited when no lane of it is left (22 R380). -/
def Slice.gone (x : Slice) : Bool := x.live == 0

/-- 21 R364: every slice of a parting has exited or waits at its header. -/
def Group.partingDone (g : Group) (p : Parting) (r : DWord) : Bool :=
  p.slices.all fun i => (g.slice i).gone || g.gangs.any fun a => a.slices.contains i && a.hold == .atHeader r

/-- 21 R364: gangs whose innermost parting has its header where they stand wait there; a parting whose slices all wait fuses and closes. -/
def fuse (clk : Nat) : Nat → Group → Group
  | 0, g => g
  | n + 1, g =>
    match g.partings.find? (fun p => match p.hdr with
        | some r => p.slices.any (fun i => !(g.slice i).gone) && g.partingDone p r && (g.innermost ((p.slices.find? fun i => !(g.slice i).gone).getD 0) == some p)
        | none => false) with
    | none => { g with partings := g.partings.filter fun p => p.slices.any fun i => !(g.slice i).gone }
    | some p =>
      let r := p.hdr.getD 0
      let mem := g.gangs.filter fun a => a.slices.any p.slices.contains
      let rest := g.gangs.filter fun a => !a.slices.any p.slices.contains
      let sl := p.slices.filter fun i => !(g.slice i).gone
      let due := mem.foldl (fun m a => max m a.due) 0
      let parts := g.partings.erase p
      let wait := match parts.find? (fun q => q.slices.contains (sl.headD 0)) with
        | some q => q.hdr == some r
        | none => false
      let wake := mem.foldl (fun m a => max m a.wakeAt) 0
      let one : Gang := ⟨sl, r, 0, none, none, due, clk, if wait then .atHeader r else if clk < wake then .sleep wake else .free, false, none, if wait then wake else 0⟩
      fuse clk n ({ g with gangs := gangInsert one rest, partings := parts }.join (p.lanes ||| g.activeMask sl))

/-- 21 R363, R364: the gang's slices have reached the headers given; masks and stacks resolve, the gang parts if the slices now differ, and waiting slices fuse. `fresh` when the slices differ because of the instruction itself (a branch or an EXIT) and its parting is already recorded. -/
def arrive (clk : Nat) (a : Gang) (pcs : List (Nat × DWord)) (g : Group) : Group :=
  let res := pcs.map fun (i, p) => (i, p, resolveAt p 9 (g.slice i))
  let g1 := res.foldl (fun g (i, _, x, _) => g.updSlice i fun _ => x) g
  let went := res.map fun (i, _, _, q) => (i, q)
  let groups := byPc went
  let g1 := groups.foldl (fun h p => g.rejoin p.2 h) g1
  -- the gang parts at one header and no parting with that header is open for these slices
  let at1 := pcs.headD (0, 0) |>.2
  let oneHdr := pcs.all fun (_, p) => p == at1
  let common := res.all fun (i, p, x, _) => (x.recs.headD default).hdr == p && !x.recs.isEmpty || ((g.slice i).recs.headD default).hdr == p && !(g.slice i).recs.isEmpty
  let covered := match g1.innermost (a.slices.headD 0) with
    | some q => q.hdr == some at1
    | none => false
  let g2 := if groups.length > 1 && oneHdr && !covered then { g1 with partings := ⟨if common then some at1 else none, a.slices, laneBits (fun i => (g.slice i).scope at1) a.slices⟩ :: g1.partings } else g1
  let mk (k : Nat) (p : DWord) (sl : List Nat) : Gang :=
    let stood := (went.zip pcs).any fun ((i, q), (_, r)) => sl.contains i && q == p && q == r
    let waits : Bool := match g2.innermost (sl.headD 0) with
      | some q => q.hdr == some p && stood
      | none => false
    ⟨sl, p, 0, none, if k == 0 && !waits && !a.yld && a.sleepN.isNone then a.stream else none, a.due, clk, if waits then .atHeader p else .free, false, none, 0⟩
  let gs := (groups.zipIdx).map fun ((p, sl), k) => mk k p sl
  let gs := match a.sleepN with
    | some n => gs.map fun b => if b.hold == .free then { b with hold := .sleep (clk + 16 * n) } else { b with wakeAt := clk + 16 * n }
    | none => gs
  fuse clk 9 (g2.putGangs (a.slices.headD 0) gs)

/-- The address of word k of a clause (08 R167). -/
def wordAddr (pc : DWord) (k : Nat) : DWord := pc + BitVec.ofNat 64 (8 * (k + 1))
/-- 08 R167: the header after a clause. -/
def nextHeader (pc : DWord) (h : Header) : DWord := pc + BitVec.ofNat 64 (8 * (h.count.toNat + 2))

/-- The gang goes on after a committed instruction with stall count st: the next word of its clause, or the next header (08 R167, R170). -/
def stepOn (clk : Nat) (st : Nat) (slice : Nat) (g : Group) : Group :=
  match g.gang? slice with
  | none => g
  | some a =>
    let a := { a with due := clk + st + 1 }
    match a.hdr with
    | none => g
    | some h =>
      if a.idx < h.count.toNat then g.updGang slice fun _ => { a with idx := a.idx + 1 }
      else
        let a := { a with yld := a.yld || h.yld }
        arrive clk a (a.slices.map fun i => (i, nextHeader a.pc h)) g

/-- 21 R362: one slice at a branch: taken lanes `tk` of its active lanes. -/
def branchSlice (tgt fall : DWord) (r : Option DWord) (tk : BitVec 4) (x : Slice) : Option (Slice × DWord) :=
  let t := tk &&& x.active
  if t == x.active then some (x, tgt)
  else if t == 0 then some (x, fall)
  else match r with
    | none => none
    | some h => if x.recs.length < 8 then some ({ x with active := t, recs := ⟨h, x.active, fall, x.active &&& ~~~t⟩ :: x.recs }, tgt) else none

/-- 21 R362: the whole gang branches; `none` is ILLEGAL_TARGET. A slice that lands on its own entry's header is resolved as on any arrival. -/
def branch (clk st slice : Nat) (tgt fall : DWord) (r : Option DWord) (takes : Nat) (g : Group) : Option Group :=
  match g.gang? slice with
  | none => some g
  | some a =>
    let moved := a.slices.map fun i => (i, branchSlice tgt fall r (sliceBits takes i) (g.slice i))
    if moved.any (fun m => m.2.isNone) then none
    else
      let mv := moved.map fun (i, o) => (i, o.getD (default, 0))
      let g1 := mv.foldl (fun g (i, x, _) => g.updSlice i fun _ => x) g
      let pcs := mv.map fun (i, _, p) => (i, p)
      let parted := (byPc pcs).length > 1
      let m := g.activeMask a.slices
      let g1 := if parted || mv.any (fun (i, x, _) => x.recs.length != (g.slice i).recs.length) then g1.join m else g1
      let g2 := if parted then { g1 with partings := ⟨r, a.slices, m⟩ :: g1.partings } else g1
      some (arriveEach clk { a with due := clk + st + 1, yld := a.yld || (match a.hdr with | some h => h.yld | none => false) } (byPc pcs) g2)
where
  /-- Each new gang arrives at its own header. -/
  arriveEach (clk : Nat) (a : Gang) (gs : List (DWord × List Nat)) (g : Group) : Group :=
    let new := (gs.zipIdx).map fun ((p, sl), k) => { a with slices := sl, pc := p, idx := 0, hdr := none, stream := if k == 0 then a.stream else none }
    let g := g.putGangs (a.slices.headD 0) new
    new.foldl (fun g b => arrive clk b (b.slices.map fun i => (i, b.pc)) g) g

/-- The other gangs of a group have exited or stand held as `h` says. -/
def Group.gathered (g : Group) (h : Gang → Bool) : Bool := g.gangs.all h

/-- 21 R365, 22 R394: fuse every gang of the group into one, closing every open parting; it stands at the word given. -/
def fuseAll (a : Gang) (g : Group) : Group :=
  let sl := (List.range g.nsl).filter fun i => !(g.slice i).gone
  { g with gangs := [{ a with slices := sl, hold := .free }], partings := [] }

end Sys2Proof.Machine
end

