-- ==== Sys2Proof/Machine/Operands.lean ====
section
/-! DEFINITION. The register file: where each register lies, every operand form, reads before a result is readable, last use, destinations, the last-result file (08 R151 to R158, R171 to R175; 06 R129). -/

namespace Sys2Proof.Machine

/-! ## Keys of the register file -/

/-- v0 to v255 of a lane. -/
def keyV (lane n : Nat) : Nat := lane * 1024 + n
/-- o0 to o7 of a lane. -/
def keyO (lane n : Nat) : Nat := lane * 1024 + 256 + n
/-- l0 and l1 of a lane. -/
def keyL (lane n : Nat) : Nat := lane * 1024 + 264 + n
/-- p0 to p11 of a lane. -/
def keyP (lane n : Nat) : Nat := lane * 1024 + 272 + n
/-- $fpflags of a lane (08 R159). -/
def keyF (lane : Nat) : Nat := lane * 1024 + 300
/-- s0 to s127. -/
def keyS (n : Nat) : Nat := 32 * 1024 + n

/-- 21 R359: what a register holds at a group's start: v, o, l poisoned; predicates false, flags 0, s 0, none poisoned. -/
def rfStart (key : Nat) : RegCell := ⟨0, decide (key < 32 * 1024) && decide (key % 1024 < 272), 0⟩

/-- A cell as kept: the value of a poisoned cell is not kept (06 R129 gives what it reads as). -/
def cell (v : Word) (p : Bool) (st : BitVec 4 := 0) : RegCell := ⟨if p then 0 else v, p, st⟩
/-- A poisoned cell. -/
def poisoned : RegCell := ⟨0, true, 0⟩

/-- 06 R129: the value a register reads as. -/
def RegCell.get (c : RegCell) : Word := if c.poison then poisonWord else c.val
/-- The same for a memory word. -/
def pwGet (c : PWord) : Word := if c.poison then poisonWord else c.val

/-- The cell held, whatever is pending. -/
def Group.cellAt (g : Group) (key : Nat) : RegCell := (sget key g.rf).getD (rfStart key)

/-- Store a cell. -/
def Group.putCell (key : Nat) (c : RegCell) (g : Group) : Group :=
  { g with rf := if c == rfStart key then serase key g.rf else sset key c g.rf }

/-- 08 R173: the newest-first hazards of a key, each a free choice between the value before it and the value after it. -/
def hazPick (s : State) (key lane : Nat) : List Hazard → RegCell → RegCell
  | [], c => c
  | h :: t, c => if h.key == key && h.ready > s.clk then (if s.coin (((key * 32 + lane) * 32 + t.length) * 4) then hazPick s key lane t h.old else c) else hazPick s key lane t c

/-- 08 R173: a register as an instruction that issues now reads it in a lane. -/
def Group.read (s : State) (g : Group) (key lane : Nat) : RegCell :=
  g.vp.foldl (fun c v =>
    if v.keys.contains key && v.known && s.coin (((key * 32 + lane) * 64 + v.id % 64) * 4 + 1) then ((v.writes.find? (·.1 == key)).map (·.2)).getD c else c)
    (hazPick s key lane g.hz (g.cellAt key))

/-- Where a result of a counter that has been written and that no wait has covered stands among the hazards: beyond every clk (2^64 periods are three centuries). -/
def unwaited (ctr : Nat) : Nat := 2 ^ 64 + ctr
/-- The hazards that are left when a wait has covered what stands at `cov`; of a register whose result is covered the older ones are past too. Hazards of $fpflags (10 R208) hide bits of their own each. -/
def dropWaited (cov : Nat → Bool) : List Nat → List Hazard → List Hazard
  | _, [] => []
  | done, h :: t =>
    if done.contains h.key then dropWaited cov done t
    else if cov h.ready then dropWaited cov (if h.key < 32 * 1024 && h.key % 1024 == 300 then done else h.key :: done) t
    else h :: dropWaited cov done t
/-- 15 R301: the flags that matrix operations which have completed have set become visible. An MTS of $drainflags younger than 2 clk hides none of them. -/
def Group.pay (g : Group) : Group :=
  let ended (x : Nat × BitVec 5) : Bool := !g.out.any fun t => t.ctr == 2 && t.id == x.1
  let bits : BitVec 5 := (g.due.filter ended).foldl (fun b x => b ||| x.2) 0
  { g with
    sr := { g.sr with drainflags := g.sr.drainflags ||| bits.setWidth 32 }
    srhz := g.srhz.map fun h => if h.num == 0x23 then { h with old := h.old ||| bits.setWidth 64 } else h
    due := g.due.filter fun x => !ended x }
/-- 08 R172; 03 R70, R71; 15 R301: a wait on some counters ends: the results of their operations that have completed are readable. -/
def Group.covered (ctrs : Nat → Bool) (g : Group) : Group :=
  let g1 := if ctrs 2 && !g.due.isEmpty then g.pay else g
  { g1 with hz := dropWaited (fun r => [0, 1].any fun c => ctrs c && r == unwaited c) [] g1.hz }

/-- 08 R173: a register whose result is not readable yet. -/
def Group.early (s : State) (g : Group) (key : Nat) : Bool :=
  g.hz.any (fun h => h.key == key && h.ready > s.clk) || g.vp.any (fun v => v.keys.contains key)
/-- A variable-latency write of a register is pending. -/
def Group.pending (g : Group) (key : Nat) : Bool := g.vp.any fun v => v.keys.contains key

/-! ## Operands -/

/-- The key of word k of an operand in a lane; vz has none. -/
def opdKey? (o : Opd) (lane k : Nat) : Option Nat :=
  match o with
  | .v n => some (keyV lane (n.toNat + k))
  | .s n => some (keyS (n.toNat + k))
  | .o n => some (keyO lane (n.toNat + k))
  | .l n => some (keyL lane (n.toNat + k))
  | .z => none
  | .rsv _ => none

/-- The keys of an n-word operand in a lane. -/
def opdKeys (o : Opd) (n lane : Nat) : List Nat := (List.range n).filterMap fun k => opdKey? o lane k

/-- The lane whose choice an early read of an operand follows: an s register is read once for every lane (08 R155; 12 R246). -/
def readLane (o : Opd) (lane : Nat) : Nat := match o with | .s _ => 0 | _ => lane

/-- Word k of an operand in a lane (08 R151: vz reads 0, never poisoned). -/
def rdCell (s : State) (g : Group) (o : Opd) (lane k : Nat) : RegCell :=
  match opdKey? o lane k with
  | some key => g.read s key (readLane o lane)
  | none => ⟨0, false, 0⟩

/-- A value of a lane with its poison. -/
structure PVal where
  val : DWord
  poison : Bool
deriving DecidableEq, Repr, Inhabited

/-- A 32-bit operand. -/
def rd32 (s : State) (g : Group) (o : Opd) (lane : Nat) : PVal :=
  let c := rdCell s g o lane 0
  ⟨c.get.setWidth 64, c.poison⟩
/-- A 64-bit operand (06 R129: poisoned when either register is, and then the whole pair reads as one value). -/
def rd64 (s : State) (g : Group) (o : Opd) (lane : Nat) : PVal :=
  let c := rdCell s g o lane 0; let d := rdCell s g o lane 1
  if c.poison || d.poison then ⟨poisonPair, true⟩ else ⟨d.val ++ c.val, false⟩
/-- A source of n words, 1 or 2. -/
def rdN (s : State) (g : Group) (o : Opd) (n lane : Nat) : PVal := if n = 2 then rd64 s g o lane else rd32 s g o lane

/-- 10 R211: a predicate as a value: false when poisoned; 15 is pt. -/
def rdPred (s : State) (g : Group) (p lane : Nat) : Bool × Bool :=
  if p = 15 then (true, false)
  else
    let c := g.read s (keyP lane p) lane
    (!c.poison && c.val != 0, c.poison)

/-! ## Writing -/

/-- Drop hazards that have passed. -/
def Group.prune (clk : Nat) (g : Group) : Group :=
  { g with hz := g.hz.filter (·.ready > clk), srhz := g.srhz.filter (·.ready > clk) }

/-- A write that is readable from a clk on. The writes before it are past from then on too; where a variable-latency write of the register is pending, either may remain (08 R173). -/
def Group.writeAt (s : State) (ready key : Nat) (c : RegCell) (g : Group) : Group :=
  let h : Hazard := ⟨key, g.cellAt key, ready⟩
  let g1 := g.putCell key c
  { g1 with
    hz := h :: g1.hz.map fun x => if x.key == key then { x with ready := min x.ready ready } else x
    vp := g1.vp.map fun v => if v.keys.contains key && s.coin (key * 4 + 2) then { v with gone := key :: v.gone } else v }

/-- A fixed-latency write (08 R171): readable from clk + lat. -/
def Group.writeFixed (s : State) (lat key : Nat) (c : RegCell) (g : Group) : Group := g.writeAt s (s.clk + lat) key c

/-- The result of one lane: its words, low first. -/
structure LaneRes where
  lane : Nat
  words : List RegCell
deriving DecidableEq, Repr, Inhabited

/-- 08 R155: the results an instruction writes to its destination: per lane, or the leader's alone for an s register. -/
def dstWrites (o : Opd) (rs : List LaneRes) : List (Nat × RegCell) :=
  match o with
  | .s _ =>
    match rs with
    | [] => []
    | r :: _ => (r.words.zipIdx).filterMap fun (c, k) => (opdKey? o r.lane k).map fun key => (key, c)
  | _ => rs.flatMap fun r => (r.words.zipIdx).filterMap fun (c, k) => (opdKey? o r.lane k).map fun key => (key, c)

/-- The clk from which a register is readable, as its newest write says. -/
def Group.readyAt (s : State) (g : Group) (key : Nat) : Nat := match g.hz.find? (·.key == key) with | some h => h.ready | none => s.clk

/-- 08 R153: what one result does to l0 and l1 of its lane, with the clk from which each is readable: l1 under the latency of the result it copies. For an s destination the one value written enters every lane's file (log entry 21). -/
def lastResult (s : State) (lat : Nat) (g : Group) (o : Opd) (rs : List LaneRes) : List (Nat × Nat × RegCell) :=
  let one := match o, rs with
    | .s _, r :: _ => some r.words
    | _, _ => none
  rs.flatMap fun r =>
    match one.getD r.words with
    | [c] => [(keyL r.lane 1, g.readyAt s (keyL r.lane 0), g.cellAt (keyL r.lane 0)), (keyL r.lane 0, s.clk + lat, c)]
    | [c, d] => [(keyL r.lane 0, s.clk + lat, c), (keyL r.lane 1, s.clk + lat, d)]
    | _ => []

/-- A list of fixed-latency writes. -/
def Group.writeAll (s : State) (lat : Nat) (ws : List (Nat × RegCell)) (g : Group) : Group :=
  ws.foldl (fun g w => g.writeFixed s lat w.1 w.2) g

/-- A list of writes, each with the clk from which it is readable. -/
def Group.writeEach (s : State) (ws : List (Nat × Nat × RegCell)) (g : Group) : Group := ws.foldl (fun g w => g.writeAt s w.2.1 w.1 w.2.2) g

/-- A fixed-latency result with its shift of the last-result file (08 R153, R155). -/
def Group.writeDst (s : State) (lat : Nat) (o : Opd) (rs : List LaneRes) (g : Group) : Group :=
  (g.writeAll s lat (dstWrites o rs)).writeEach s (lastResult s lat g o rs)

/-- A predicate result (08 R154: a write to pt is discarded). -/
def Group.writePred (s : State) (lat p lane : Nat) (v poison : Bool) (g : Group) : Group :=
  if p = 15 then g else g.writeFixed s lat (keyP lane p) (cell (if v then 1 else 0) poison)

/-- 08 R158: the registers a last-use bit poisons, in the acting lanes; s, l and vz are not affected. The stamp tag stays: only a write changes it (07 R147). -/
def lastUse (lanes : List Nat) (us : List (Opd × Nat × Bool)) (g : Group) : Group :=
  us.foldl (fun g u =>
    if u.2.2 then
      match u.1 with
      | .v _ | .o _ => lanes.foldl (fun g L => (opdKeys u.1 u.2.1 L).foldl (fun g k => g.putCell k ⟨0, true, (g.cellAt k).stamp⟩) g) g
      | _ => g
    else g) g

/-- The words of a 32- or 64-bit result with one poison tag (06 R129). -/
def resWords (n : Nat) (v : DWord) (p : Bool) : List RegCell :=
  if n = 2 then [cell (v.setWidth 32) p, cell (v.extractLsb' 32 32) p] else [cell (v.setWidth 32) p]

end Sys2Proof.Machine
end

