-- ==== Sys2Proof/Machine/Flags.lean ====
section
/-! DEFINITION. Flags: $fpflags per lane, the kinds of floating-point exception, and special registers younger than 2 clk (08 R160, R161; 11 R226). -/

namespace Sys2Proof.Machine

/-- 08 R160: bits of FLAGS: invalid, divzero, overflow, underflow, inexact. -/
abbrev FpFlags := BitVec 5
def fInvalid : FpFlags := 1
def fDivzero : FpFlags := 2
def fOverflow : FpFlags := 4
def fUnderflow : FpFlags := 8
def fInexact : FpFlags := 16

/-- 08 R160: bit [6] POISON and bit [5] INTDIV of $fpflags. -/
def poisonFlag : Word := 0x40
def intdivFlag : Word := 0x20

/-- Set bits of a lane's $fpflags; they become visible with the instruction's latency (10 R208). -/
def Group.orFlags (s : State) (lat lane : Nat) (bits : Word) (g : Group) : Group :=
  if bits == 0 then g
  else
    let key := keyF lane; let c := g.cellAt key; let soon := s.clk + lat
    -- the bits that a slower result was to show later show with this one
    let late (h : Hazard) : Bool := h.key == key && decide (soon < h.ready)
    let hid := (bits &&& ~~~c.val) ||| g.hz.foldl (fun b h => if late h then b ||| (h.old.val &&& bits) else b) 0
    let g1 := g.putCell key ⟨c.val ||| bits, false, 0⟩
    { g1 with hz := ⟨key, ⟨hid, false, 0⟩, soon⟩ :: g1.hz.map fun h => if late h then { h with old := ⟨h.old.val &&& ~~~bits, false, 0⟩ } else h }

/-- The poison bit of the lanes that read a poisoned source (08 R157). -/
def Group.notePoison (s : State) (lat : Nat) (lanes : List Nat) (g : Group) : Group :=
  lanes.foldl (fun g L => g.orFlags s lat L poisonFlag) g

/-- The lowest kind of a set of exceptions (11 R226). -/
def lowestKind (e : FpFlags) : Nat := ((List.range 5).find? fun k => e.getLsbD k).getD 0

/-- Set bits of $drainflags.FLAGS (08 R161). -/
def Group.orDrain (bits : BitVec 5) (g : Group) : Group := { g with sr := { g.sr with drainflags := g.sr.drainflags ||| bits.setWidth 32 } }
/-- 15 R301: flags that a matrix operation on wm has set, visible once a wait covers it. -/
def Group.owe (tok : Nat) (bits : BitVec 5) (g : Group) : Group := if bits == 0 then g else { g with due := g.due ++ [(tok, bits)] }
/-- Set $drainflags.ZP (08 R161). -/
def Group.setZp (g : Group) : Group := { g with sr := { g.sr with drainflags := g.sr.drainflags ||| 0x20 } }

/-- $fpflags of a lane as an instruction that issues now sees them: bits of a result that is not readable yet are there or not (10 R208). -/
def Group.flagsAt (s : State) (g : Group) (lane : Nat) : Word :=
  g.hz.foldl (fun v h => if h.key == keyF lane && decide (s.clk < h.ready) && s.coin ((keyF lane * 64 + h.ready % 64) * 4 + 3) then v &&& ~~~h.old.val else v) (g.cellAt (keyF lane)).val
/-- Bits of $fpflags that are certain now hide no longer. -/
def Group.showFlags (key : Nat) (bits : Word) (g : Group) : Group :=
  { g with hz := g.hz.map fun h => if h.key == key then { h with old := ⟨h.old.val &&& ~~~bits, false, 0⟩ } else h }

/-- 08 R160: a special register written less than 2 clk ago reads, for the whole instruction, as its old or its new value. -/
def srPick (s : State) (num lane : Nat) : List SrHazard → DWord → DWord
  | [], v => v
  | h :: t, v => if h.num == num && h.lane == lane && h.ready > s.clk then (if s.coin (40000 + num * 64 + h.ready % 64) then srPick s num lane t h.old else v) else srPick s num lane t v

/-- The special registers as an instruction that issues now sees them (08 R160). -/
def Group.effSr (s : State) (g : Group) : SRegs :=
  let r := g.sr
  let p (n : Nat) (v : Word) : Word := (srPick s n 0 g.srhz (v.setWidth 64)).setWidth 32
  let q (n : Nat) (v : DWord) : DWord := srPick s n 0 g.srhz v
  if g.srhz.isEmpty then r
  else { r with fpcr := p 0x20 r.fpcr, trapen := p 0x22 r.trapen, dbgctl := p 0x24 r.dbgctl, role := p 0x25 r.role, rngkey := q 0x40 r.rngkey,
                utvec := q 0x50 r.utvec, epc := q 0x51 r.epc, ecause := p 0x52 r.ecause, elanes := p 0x53 r.elanes, eaddr := q 0x54 r.eaddr, drainflags := p 0x23 r.drainflags }

/-- 08 R169: every fixed-latency result of the instructions before a resume point is complete when the group goes on; one of variable latency is readable once a wait has covered it (R172). -/
def Group.settled (g : Group) : Group := { g with hz := g.hz.filter fun h => decide (2 ^ 64 ≤ h.ready), srhz := [] }

/-- 08 R161: $trapen.POISON. -/
def SRegs.trapPoison (r : SRegs) : Bool := r.trapen.getLsbD 0
/-- 08 R161: $trapen.CMIX. -/
def SRegs.trapCmix (r : SRegs) : Bool := r.trapen.getLsbD 1
/-- 08 R161: $trapen.INTDIV. -/
def SRegs.trapIntdiv (r : SRegs) : Bool := r.trapen.getLsbD 2

end Sys2Proof.Machine
end

