-- ==== Sys2Proof/Machine/Num.lean ====
section
/-! DEFINITION. Number formats, exact values, rounding, the counter hash, MX blocks and conversions (06 R108 to R128). -/

namespace Sys2Proof.Machine

/-! ## Formats (06 R108, R109, R116) -/

/-- A floating-point format: width, fraction bits, bias, the code of the largest finite value, whether it has infinities, its default NaN. -/
structure Fmt where
  width : Nat
  frac : Nat
  bias : Nat
  maxCode : Nat
  inf : Bool
  nan : Nat
deriving DecidableEq, Repr, Inhabited

def f64 : Fmt := ⟨64, 52, 1023, 0x7FEFFFFFFFFFFFFF, true, 0x7FF8000000000000⟩
def f32 : Fmt := ⟨32, 23, 127, 0x7F7FFFFF, true, 0x7FC00000⟩
def f16 : Fmt := ⟨16, 10, 15, 0x7BFF, true, 0x7E00⟩
def bf16 : Fmt := ⟨16, 7, 127, 0x7F7F, true, 0x7FC0⟩
def e4m3 : Fmt := ⟨8, 3, 7, 0x7E, false, 0x7F⟩
def e5m2 : Fmt := ⟨8, 2, 15, 0x7B, true, 0x7E⟩
def e2m3 : Fmt := ⟨6, 3, 1, 0x1F, false, 0⟩
def e3m2 : Fmt := ⟨6, 2, 3, 0x1F, false, 0⟩
def e2m1 : Fmt := ⟨4, 1, 1, 0x7, false, 0⟩

/-- 06 R116: emax_elem. -/
def Fmt.emaxElem (f : Fmt) : Nat := if f == e4m3 then 8 else if f == e5m2 then 15 else if f == e3m2 then 4 else 2
/-- The exponent of the smallest normal. -/
def Fmt.emin (f : Fmt) : Int := 1 - f.bias
/-- The sign bit with a magnitude code. -/
def Fmt.signed (f : Fmt) (neg : Bool) (code : Nat) : DWord := BitVec.ofNat 64 ((if neg then 2 ^ (f.width - 1) else 0) + code)
/-- The code of infinity: just above the largest finite value. -/
def Fmt.infBits (f : Fmt) (neg : Bool) : DWord := f.signed neg (f.maxCode + 1)
/-- The default NaN (06 R109). -/
def Fmt.nanBits (f : Fmt) : DWord := BitVec.ofNat 64 f.nan

/-- A value of a format, decoded exactly. -/
inductive FVal where
  | nan (sig : Bool)
  | inf (neg : Bool)
  | fin (x : ExReal)
deriving DecidableEq, Repr, Inhabited

/-- A zero. -/
def exZero (neg : Bool) : ExReal := ⟨neg, 0, 0⟩

/-- Decode the low bits of a word as a format (06 R108, R116). -/
def Fmt.dec (f : Fmt) (w : DWord) : FVal :=
  let v := w.toNat % 2 ^ f.width
  let neg := v.testBit (f.width - 1)
  let code := v % 2 ^ (f.width - 1)
  let ef := code / 2 ^ f.frac; let m := code % 2 ^ f.frac
  if code > f.maxCode then
    (if f.inf && m == 0 then .inf neg else .nan (f != e4m3 && !m.testBit (f.frac - 1)))
  else if ef == 0 then .fin ⟨neg, m, f.emin - f.frac⟩
  else .fin ⟨neg, 2 ^ f.frac + m, (ef : Int) - f.bias - f.frac⟩

/-- A code that is subnormal: exponent field zero, fraction not (06 R108). -/
def Fmt.subnormal (f : Fmt) (w : DWord) : Bool :=
  let code := w.toNat % 2 ^ (f.width - 1)
  code != 0 && decide (code < 2 ^ f.frac)
/-- Zero of the same sign. -/
def Fmt.flush (f : Fmt) (w : DWord) : DWord := if f.subnormal w then f.signed (w.toNat % 2 ^ f.width ≥ 2 ^ (f.width - 1)) 0 else w

/-! ## Exact arithmetic -/

/-- Number of bits of a natural number. -/
def bitLen (m : Nat) : Nat := if m = 0 then 0 else Nat.log2 m + 1

/-- 2^k for an exponent that may be below zero, taken as 0 there. -/
def pow2 (k : Int) : Nat := if k < 0 then 0 else 2 ^ k.toNat

/-- The signed significand at a common exponent. -/
def ExReal.at (x : ExReal) (e : Int) : Int :=
  let v : Int := x.m * 2 ^ (x.e - e).toNat
  if x.neg then -v else v

/-- A signed integer times 2^e. -/
def exOf (v : Int) (e : Int) : ExReal := ⟨decide (v < 0), v.natAbs, e⟩

/-- Exact sum; an exact zero is +0, its sign the caller's. -/
def exAdd (x y : ExReal) : ExReal :=
  if x.m = 0 then (if y.m = 0 then ⟨false, 0, 0⟩ else y) else if y.m = 0 then x else
  let e := min x.e y.e
  exOf (x.at e + y.at e) e
/-- Exact product. -/
def exMul (x y : ExReal) : ExReal := ⟨x.neg != y.neg, x.m * y.m, x.e + y.e⟩
/-- Negation. -/
def exNeg (x : ExReal) : ExReal := { x with neg := !x.neg }
/-- Comparison: −1, 0, 1. -/
def exCmp (x y : ExReal) : Int :=
  let e := min x.e y.e
  let a := x.at e; let b := y.at e
  if a < b then -1 else if b < a then 1 else 0
/-- floor(log2 |x|) of a nonzero value. -/
def exLog (x : ExReal) : Int := x.e + Nat.log2 x.m

/-- The integer square root by its bits, highest first. -/
def isqrt (n : Nat) : Nat := (List.range (bitLen n / 2 + 1)).foldr (fun k r => let c := r + 2 ^ k; if c * c ≤ n then c else r) 0

/-! ## Rounding (06 R111 to R115) -/

/-- The rounding modes; `sr` with the draw H(key, c) [15:0] (06 R114). -/
inductive Rnd where
  | rn | rz | ru | rd | rna
  | sr (draw : Nat)
deriving DecidableEq, Repr, Inhabited

/-- A rounded result: its bits and the exceptions it raises. -/
structure FRes where
  bits : DWord
  flags : FpFlags
deriving DecidableEq, Repr, Inhabited

/-- Whether a mode moves a magnitude up: kept part k, the discarded part as twice-compared to one half (0 none, 1 below, 2 half, 3 above). -/
def roundsUp (mode : Rnd) (neg : Bool) (k rem : Nat) : Bool :=
  match mode with
  | .rn => rem == 3 || (rem == 2 && k % 2 == 1)
  | .rna => rem ≥ 2
  | .rz => false
  | .ru => rem != 0 && !neg
  | .rd => rem != 0 && neg
  | .sr _ => false

/-- m · 2^e, with something in (0, 1) units of 2^e added when `sticky`, over the quantum 2^q: the kept part and the discarded part. -/
def split2 (m : Nat) (e q : Int) (sticky : Bool) : Nat × Nat :=
  if q ≤ e then (m * 2 ^ (e - q).toNat, if sticky then 1 else 0)
  else
    let sh := (q - e).toNat
    let k := m / 2 ^ sh; let r := m % 2 ^ sh; let half := 2 ^ (sh - 1)
    (k, if r == 0 && !sticky then 0 else if r < half then 1 else if r == half && !sticky then 2 else 3)

/-- 06 R114: the 16 bits below the last kept bit. -/
def srBits (m : Nat) (e q : Int) : Nat :=
  if q ≤ e then 0 else let sh := (q - e).toNat; (m % 2 ^ sh) * 65536 / 2 ^ sh

/-- 06 R112, R114, R110: round a finite value to a format. `sticky`: the value lies strictly between m · 2^e and (m + 1) · 2^e; `fz` flushes a subnormal result. -/
def roundTo (f : Fmt) (mode : Rnd) (sat fz : Bool) (x : ExReal) (sticky : Bool := false) : FRes :=
  if x.m = 0 then ⟨f.signed x.neg 0, 0⟩
  else
    let lead := x.e + Nat.log2 x.m
    let q := max (lead - f.frac) (f.emin - f.frac)
    let (k, rem) := split2 x.m x.e q sticky
    let up := match mode with
      | .sr d => rem != 0 && decide (srBits x.m x.e q + d ≥ 65536)
      | _ => roundsUp mode x.neg k rem
    let k' := if up then k + 1 else k
    let code := ((q + f.frac + f.bias - 1) * 2 ^ f.frac + k').toNat
    let neg := x.neg
    if code > f.maxCode then
      let big := f.signed neg f.maxCode
      let toInf := match mode with
        | .rn | .rna | .sr _ => true
        | .rz => false
        | .ru => !neg
        | .rd => neg
      ⟨if sat || !f.inf || !toInf then big else f.infBits neg, fOverflow ||| fInexact⟩
    else
      let tiny := match mode with
        | .sr _ => decide (code < 2 ^ f.frac)
        | _ => -- after rounding to the precision under an unbounded exponent range
          let qu := lead - f.frac
          let (ku, ru) := split2 x.m x.e qu sticky
          let v := if roundsUp mode neg ku ru then ku + 1 else ku
          if lead ≥ f.emin then false else !(lead + 1 == f.emin && v == 2 ^ (f.frac + 1))
      let inex := rem != 0
      if fz && code != 0 && code < 2 ^ f.frac then ⟨f.signed neg 0, fUnderflow ||| fInexact⟩
      else ⟨f.signed neg code, (if inex then fInexact else 0) ||| (if inex && tiny then fUnderflow else 0)⟩

/-- round_f32 of R112: `rz` is the contract's RM bit. -/
def roundF32 (x : ExReal) (rz : Bool) : FRes := roundTo f32 (if rz then .rz else .rn) false false x

/-- add_f32 of R112. -/
def addF32 (a b : DWord) (rz : Bool) : FRes :=
  match f32.dec a, f32.dec b with
  | .nan _, _ => ⟨f32.nanBits, 0⟩
  | _, .nan _ => ⟨f32.nanBits, 0⟩
  | .inf p, .inf q => if p != q then ⟨f32.nanBits, fInvalid⟩ else ⟨f32.infBits p, 0⟩
  | .inf p, _ => ⟨f32.infBits p, 0⟩
  | _, .inf q => ⟨f32.infBits q, 0⟩
  | .fin x, .fin y =>
    if x.m == 0 && y.m == 0 && x.neg && y.neg then ⟨0x80000000, 0⟩
    else
      let s := exAdd x y
      if s.m == 0 then ⟨0, 0⟩ else roundF32 s rz

/-! ## The counter hash (06 R113) -/

/-- fmix64. -/
def fmix64 (x : DWord) : DWord :=
  let x := x ^^^ (x >>> 33)
  let x := x * 0xFF51AFD7ED558CCD#64
  let x := x ^^^ (x >>> 33)
  let x := x * 0xC4CEB9FE1A85EC53#64
  x ^^^ (x >>> 33)
/-- H(key, c). -/
def hashH (key c : DWord) : DWord := fmix64 (key ^^^ fmix64 c)
/-- The draw of sr_round (06 R114). -/
def srDraw (key c : DWord) : Rnd := .sr ((hashH key c).toNat % 65536)

/-! ## Converting between formats (06 R126, R127) -/

/-- 06 R126: into a floating-point format. -/
def convTo (f : Fmt) (mode : Rnd) (sat fz : Bool) (v : FVal) : FRes :=
  match v with
  | .nan sig =>
    if f.nan == 0 then ⟨0, fInvalid⟩ else ⟨f.nanBits, if sig then fInvalid else 0⟩
  | .inf neg => if f.inf then ⟨f.infBits neg, 0⟩ else ⟨f.signed neg f.maxCode, fInvalid⟩
  | .fin x => roundTo f mode sat fz x

/-- 06 R127: into E8M0. -/
def convE8M0 (v : FVal) : FRes :=
  match v with
  | .nan sig => ⟨0xFF, if sig then fInvalid else 0⟩
  | .inf _ => ⟨0xFF, fInvalid⟩
  | .fin x =>
    if x.m = 0 then ⟨0, fUnderflow ||| fInexact⟩
    else
      let l := exLog x
      let pow := x.m == 2 ^ Nat.log2 x.m
      if l < -127 then ⟨0, fUnderflow ||| fInexact⟩
      else if l > 127 then ⟨0xFE, fOverflow ||| fInexact⟩
      else ⟨BitVec.ofInt 64 (l + 127), if pow then 0 else fInexact⟩

/-- A value rounded to an integer, and whether it was inexact. -/
def roundInt (mode : Rnd) (x : ExReal) (sticky : Bool := false) : Int × Bool :=
  let (k, rem) := split2 x.m x.e 0 sticky
  let k' := if roundsUp mode x.neg k rem then k + 1 else k
  (if x.neg then -(k' : Int) else k', rem != 0)

/-- 06 R126, R127: into an integer type with limits lo and hi. -/
def convInt (lo hi : Int) (mode : Rnd) (v : FVal) : Int × FpFlags :=
  match v with
  | .nan _ => (0, fInvalid)
  | .inf neg => (if neg then lo else hi, fInvalid)
  | .fin x =>
    let (n, inex) := roundInt mode x
    if n < lo then (lo, fInvalid) else if n > hi then (hi, fInvalid) else (n, if inex then fInexact else 0)

/-- An integer as an exact value; zero is +0. -/
def exInt (n : Int) : ExReal := exOf n 0

/-- 06 R117: an E8M0 byte. -/
def decE8M0 (b : Nat) : FVal := if b == 0xFF then .nan false else .fin ⟨false, 1, (b : Int) - 127⟩

/-! ## MX blocks (06 R119 to R121) -/

/-- 06 R121: 2^(scale − 127) × e, rounded to a format under .rn. A signalling NaN element raises invalid (06 R109). -/
def mxExpand (f ef : Fmt) (scale : Nat) (e : DWord) : FRes :=
  if scale == 0xFF then ⟨f.nanBits, 0⟩
  else convTo f .rn false false (match ef.dec e with
    | .fin x => .fin { x with e := x.e + scale - 127 }
    | v => v)

/-- 06 R120: one block of values: its scale byte, and its elements with the exceptions of each. `mode` and `fo` as 07 R145 gives for a drain. -/
def mxQuantise (ef : Fmt) (mode : Rnd) (fo : Bool) (vs : List FVal) : Nat × List FRes :=
  let fin := vs.filterMap fun v => match v with
    | .fin x => some x
    | _ => none
  if fin.length != vs.length then (0xFF, vs.map fun _ => ⟨0, fInvalid⟩)
  else
    let nz := fin.filter (·.m != 0)
    let top := nz.foldl (fun (b : Option Int) x => some (match b with | none => exLog x | some y => max y (exLog x))) none
    let s : Int := match top with
      | none => -127
      | some l => max (-127) (min 127 (l - ef.emaxElem))
    ((s + 127).toNat, fin.map fun x => roundTo ef mode true fo { x with e := x.e - s })

/-! ## Asymmetric integers (06 R122, R123) -/

/-- 06 R123: the code q of a group whose record is r dequantised, as f32; whether it raises invalid. -/
def dequant (q zp : Nat) (r : Word) : FRes :=
  match f16.dec (r.setWidth 64) with
  | .nan _ => ⟨f32.nanBits, 0⟩
  | .inf neg => if q == zp then ⟨f32.nanBits, fInvalid⟩ else ⟨f32.infBits (neg != decide (q < zp)), 0⟩
  | .fin x =>
    let d : Int := (q : Int) - zp
    if d == 0 then ⟨f32.signed x.neg 0, 0⟩ else roundTo f32 .rn false false (exMul x (exInt d))

/-! ## Packing (06 R124, R125) -/

/-- 06 R124: the nibble that holds element e of a line. -/
def nibbleOf (e : Nat) : Nat := e % 8 * 16 + e / 8

/-- Bits of a format's element width from packed bytes: element e of a line, `at` giving the line's byte k. -/
def packedElem (width : Nat) (at_ : Nat → Nat) (e : Nat) : Nat :=
  if width = 4 then let n := nibbleOf e; at_ (n / 2) / (if n % 2 = 0 then 1 else 16) % 16
  else if width = 6 then let b := 6 * e; (at_ (b / 8) + 256 * at_ (b / 8 + 1)) / 2 ^ (b % 8) % 64
  else at_ e

end Sys2Proof.Machine
end

