-- ==== Sys2Proof/Machine/Ops.lean ====
section
/-! DEFINITION. The shared operations of every instruction: counters, fetch, the context halt, the user trap and its return, and the course of one instruction from its checks to its commit. -/

namespace Sys2Proof.Machine

/-! ## Cause codes (25 R414) -/
def cILLOPCODE : Nat := 0x01
def cOPERAND : Nat := 0x02
def cHEADER : Nat := 0x03
def cCLASS : Nat := 0x04
def cTARGET : Nat := 0x05
def cPRIVILEGE : Nat := 0x06
def cSTALL : Nat := 0x07
def cPOISON : Nat := 0x08
def cTRANS : Nat := 0x20
def cPERM : Nat := 0x21
def cALIGN : Nat := 0x22
def cCMIX : Nat := 0x23
def cSPAD : Nat := 0x28

/-! ## Outstanding counters (08 R162; 03 R69, R70) -/

/-- The value of a counter. -/
def Group.count (g : Group) (ctr : Nat) : Nat := (g.out.filter (·.ctr == ctr)).length

/-- 03 R70: operations with nothing left to do complete once every older one of their counter has; on wg, at once. -/
def dropVoid (ctr : Nat) : List Tok → List Tok
  | [] => []
  | t :: r => if t.ctr != ctr then t :: dropVoid ctr r else if t.fin then dropVoid ctr r else if ctr == 4 then t :: dropVoid ctr r else t :: r

/-- A new operation on a counter; `void` when it completes with no access (03 R69). -/
def Group.addTok (ctr id : Nat) (void : Bool) (g : Group) : Group :=
  { g with out := dropVoid ctr (g.out ++ [⟨ctr, id, void⟩]) }

/-- The oldest operation of a counter. -/
def Group.oldest (g : Group) (ctr : Nat) : Option Tok := g.out.find? (·.ctr == ctr)

/-- An operation completes. -/
def Group.endTok (ctr id : Nat) (g : Group) : Group :=
  { g with out := dropVoid ctr (g.out.filter fun t => !(t.ctr == ctr && t.id == id)) }

/-- 08 R168: the waits of a header are met. -/
def Group.waitsMet (g : Group) (h : Header) : Bool :=
  [h.w0, h.w1, h.wm, h.wc, h.wg, h.wx].zipIdx.all fun (t, c) => t == 15#4 || decide (g.count c ≤ t.toNat)

/-- 22 R383: WAIT's condition. -/
def Group.waitDone (g : Group) (mask : BitVec 6) (n : Nat) : Bool := (List.range 6).all fun c => !mask.getLsbD c || decide (g.count c ≤ n)

/-! ## Modes -/

/-- 25 R431: the context of a group is a supervisor context. -/
def isSup (s : State) (g : Group) : Bool := (s.ctx g.ctx).sup
/-- 08 R166: privileged mode. -/
def privileged (s : State) (g : Group) : Bool := g.sr.handler || isSup s g
/-- 25 R415: while a gang is in its handler the other gangs of its group do not issue. -/
def Group.heldByHandler (g : Group) (a : Gang) : Bool :=
  g.sr.handler && !((g.trap.getD []).any fun t => a.slices.contains t.slice)

/-! ## Remote accesses (12 R266; 27 R441) -/

/-- A remote access of the instruction at (hdr, idx) for a lane, or for another reader of the slice given: sent once; its gang waits for the response. -/
def remote (gid : Nat) (hdr : DWord) (idx lane slice : Nat) (mk : Nat → FabReq) (s : State) : Option RemoteResp × State :=
  match s.group? gid with
  | none => (none, s)
  | some g =>
    match g.remote.find? fun r => r.hdr == hdr && r.idx == idx && r.lane == lane && r.slice == slice && r.req == mk 0 with
    | some r => (r.resp, s)
    | none =>
      let id := s.nextId
      let s := s.setGroup gid { g with remote := ⟨id, hdr, idx, lane, slice, mk 0, none, false, 0, []⟩ :: g.remote }
      (none, (countFab g.part { s with out := { s.out with fab := s.out.fab ++ [mk id] } }).takeId)

/-- A store or atomic that a gang's instruction has made is not answered yet: the gang issues nothing (12 R266). -/
def Group.awaits (g : Group) (a : Gang) : Bool := g.remote.any fun r => r.made && a.slices.contains r.slice

/-! ## Fetch (02 R30; 22 R388; log entry 22) -/

/-- The outcome of a fetch. -/
inductive Fetched where
  | ok (w : DWord)
  | wait (s : State)
  | fault (cause detail : Nat)
deriving Repr

/-- 22 R388, 28 R452: the turn in which a core last dropped the instruction words that it held for a context. -/
def State.droppedAt (s : State) (core c : Nat) : Nat := max (sgetD 0 core s.dropped) (sgetD 0 (64 + c) s.dropped)

/-- What a fetch of a word of this device's memory gives: the word as it stands, or, by a free choice, as it has stood since the core last dropped its words (22 R388; 28 R452). A marked word gives a free value (log 22). -/
def fetchLocal (s : State) (core c pa : Nat) : DWord :=
  let word (marked : Bool) (w : DWord) : DWord := if marked then BitVec.ofNat 64 (s.draw 50) else w
  let now := word (markedMem s pa 8) (BitVec.ofNat 64 (readMem s pa 8))
  match s.past.filter fun p => p.pa == pa && decide (s.droppedAt core c < p.upTo) with
  | [] => now
  | old => ((now :: old.map fun p => word (p.marks.1 || p.marks.2) p.word)[s.pick (2 ^ 73 + pa) (old.length + 1)]?).getD now

/-- Fetch one aligned word for a group; `sys` when it belongs to a system-class clause (02 R30). -/
def fetchAs (s : State) (gid : Nat) (g : Group) (sys : Bool) (va : DWord) : Fetched :=
  match lookVa s g.core g.ctx va .fetch sys false with
  | .trans d => .fault cTRANS d
  | .perm => .fault cPERM 0
  | .miss => .wait (askWalk g.core g.ctx va.toNat s)
  | .at_ w =>
    if w.node == 0 then .ok (fetchLocal s g.core g.ctx (w.pas.headD 0))
    else
      match remote gid va 0 64 64 (fun id => ⟨id, g.part, w.node - 1, w.pas.headD 0, 0, 8, 0, [], []⟩) s with
      | (some (.done [l, h]), _) => .ok (pwGet h ++ pwGet l)
      | (some .undeliverable, _) => .fault cTRANS 0
      | (some .refused, _) => .fault cPERM 0
      | (some _, _) => .ok (BitVec.ofNat 64 (s.draw 50))
      | (none, s) => .wait s

/-- A header of system class (08 R164). -/
def sysHeader (w : DWord) : Bool := match decHeader w with | some h => h.cls == 4#3 | none => false

/-- Fetch the word where a clause begins, or may begin: it names its own class, and a page with PRIV = 1 is open to a system-class header alone (02 R30; 08 R166; log 22). -/
def fetchWord (s : State) (gid : Nat) (g : Group) (va : DWord) : Fetched :=
  match fetchAs s gid g true va with
  | .ok w =>
    if sysHeader w then .ok w
    else match fetchAs s gid g false va with
      | .ok _ => .ok w
      | x => x
  | x => x

/-- Fetch an instruction word of a clause with the header given. -/
def fetchInstr (s : State) (gid : Nat) (g : Group) (h : Header) (va : DWord) : Fetched := fetchAs s gid g (h.cls == 4#3) va

/-- A fetch from this device's memory passes through the die cache and moves bytes like any access (04 R77; 27 R439). -/
def fetchPass (s : State) (g : Group) (va : DWord) : State :=
  match lookVa s g.core g.ctx va .fetch true false with
  | .at_ w => if w.node == 0 then cacheTouch g.part (atCache w.attr) (w.pas.headD 0) false s else s
  | _ => s

/-! ## The context halt (25 R418 to R425) -/

/-- The stop record of a group (25 R422). -/
def groupRec (s : State) (gid : Nat) (slice cause detail : Nat) (addr : DWord) (lanes : Nat) (first : Bool) : StopRec :=
  match s.group? gid with
  | none => StopRec.blank s.tsc
  | some g =>
    let a := (g.gang? slice).getD ((g.gangs.headD default))
    let (dev, lref) := launchRef s g.lid
    { StopRec.blank s.tsc with
      src := srcNum g.core (g.quad % 4), kind := 1, cause := cause, detail := detail, first := first, lanes := lanes,
      pc := a.pc, idx := a.idx, grp := g.grp, quad := g.quad % 4, wg := g.wIndex, addr := addr, dev := dev, lref := lref, unit := gid }

/-- 25 R418, R425, R433: the halt line of a context, with the record of the unit that raised it. -/
def raiseHalt (c : Nat) (r : StopRec) (s : State) : State :=
  let x := s.ctx c
  match x.st with
  | .running => s.setCtx c { x with st := .halting, recs := x.recs ++ [r] }
  | .halting => s.setCtx c { x with recs := x.recs ++ [r] }
  | .saving => s.setCtx c { x with recs := x.recs ++ [r], haltpend := true }
  | _ => s

/-- 29 R460: the record of a thermal trip. -/
def tripRec (s : State) : StopRec := { StopRec.blank s.tsc with src := srcNum 0 0xF, kind := 6, cause := 0x50, first := true }

/-- A gang raises a halt cause (25 R414): the context halts precisely at its instruction, nothing of it committed. -/
def haltAt (gid slice cause detail : Nat) (addr : DWord) (lanes : Nat) (s : State) : State :=
  match s.group? gid with
  | none => s
  | some g => raiseHalt g.ctx (groupRec s gid slice cause detail addr lanes true) s

/-! ## The user trap (25 R415 to R417) and its return (25 R430) -/

/-- 25 R415: what a trap entry saves for a slice. -/
def trapSlice (g : Group) (i : Nat) : TrapSlice :=
  let x := g.slice i
  ⟨i, x.active, x.recs.length, x.rets.length, (List.range 4).map (fun k => g.cellAt (keyL (4 * i + k) 0)), (List.range 4).map fun k => g.cellAt (keyL (4 * i + k) 1)⟩

/-- 25 R415: entry itself: the saved registers written, HANDLER set, the masks opened, the pc at $utvec. -/
def enterHandler (clk : Nat) (a : Gang) (cause idx lanes : Nat) (addr vec : DWord) (g : Group) : Group :=
  let saves := a.slices.map (trapSlice g)
  let g1 := a.slices.foldl (fun g i => g.updSlice i fun x => { x with active := x.live }) g
  { g1 with
    sr := { g1.sr with epc := a.pc, ecause := BitVec.ofNat 32 (idx * 256 + cause), elanes := BitVec.ofNat 32 lanes, eaddr := addr, handler := true }
    trap := some saves
    trapAt := clk + 1
    resume := g1.resume.map fun r => { r with armed := false }
    gangs := g1.gangs.map fun b => if b.slices == a.slices then { b with pc := vec, idx := 0, hdr := none, hold := .free, since := clk } else { b with stream := none } }

/-- 18 R325: the group's first instruction after an ERET is not the one at its resume point. -/
def passesBy (s : State) (gid slice : Nat) : Bool :=
  match s.group? gid with
  | some g => (match g.resume, g.gang? slice with | some r, some a => r.armed && !(a.pc == r.hdr && a.idx == r.idx) | _, _ => false)
  | none => false
/-- 27 R439, R443: an instruction of a gang has issued, though it has not committed; a resume point that it passes by is gone (18 R325). -/
def countIssue (gid slice : Nat) (s0 s : State) : State :=
  match s0.group? gid with
  | some g =>
    let t := s.updPart g.part fun p => { p with issue := p.issue + 1 }
    if passesBy s0 gid slice then t.updGroup gid fun h => { h with resume := none } else t
  | none => s

/-- 25 R415: a gang raises a user-trap cause: it enters its handler, or the context halts with that cause, or with ILLEGAL_TARGET where $utvec names no header. -/
def takeTrap (gid slice cause lanes : Nat) (addr : DWord) (s : State) : State :=
  match s.group? gid with
  | none => s
  | some g =>
    match g.gang? slice with
    | none => s
    | some a =>
      let vec := (g.effSr s).utvec
      if vec == 0 || g.sr.handler then haltAt gid slice cause 0 addr lanes s
      else if vec.toNat % 8 != 0 then haltAt gid slice cTARGET 0 addr lanes s
      else
        match fetchWord s gid g vec with
        | .wait s' => s'
        | .fault _ _ => forgetWalk g.core g.ctx vec.toNat (haltAt gid slice cTARGET 0 addr lanes s)
        | .ok w =>
          match decHeader w with
          | none => haltAt gid slice cTARGET 0 addr lanes s
          | some _ => (fetchPass s g vec).setGroup gid (enterHandler s.clk a cause a.idx lanes addr vec g)

/-- 25 R430: the restored state of one slice. -/
def restoreSlice (t : TrapSlice) (g : Group) : Group :=
  let g := g.updSlice t.slice fun x => { x with active := t.active &&& x.live }
  let g := (t.l0.zipIdx).foldl (fun g (c, k) => g.putCell (keyL (4 * t.slice + k) 0) c) g
  (t.l1.zipIdx).foldl (fun g (c, k) => g.putCell (keyL (4 * t.slice + k) 1) c) g

/-- 25 R430: leave the handler: masks, l0 and l1 restored, HANDLER cleared, the gang at word i of the clause at h, its header waits to be evaluated (08 R169). -/
def leaveHandler (clk : Nat) (a : Gang) (h : DWord) (i : Nat) (g : Group) : Group :=
  let g1 := ((g.trap.getD []).foldl (fun g t => restoreSlice t g) g).settled
  { g1 with
    sr := { g1.sr with handler := false }
    trap := none
    resume := g1.resume.map fun r => { r with armed := true }
    gangs := g1.gangs.map fun b => if b.slices == a.slices then { b with pc := h, idx := i, hdr := none, stream := none, hold := .free, since := clk } else { b with since := clk } }

/-! ## The course of one instruction -/

/-- What an instruction reads and writes, for the checks of 08 R157, R158, R173. -/
structure Uses where
  src : List (Opd × Nat × Bool)
  preds : List Nat
  dst : List (Opd × Nat)
  pdst : List Nat
  fixedDst : Bool
deriving DecidableEq, Repr, Inhabited

/-- Nothing read and nothing written. -/
def Uses.none : Uses := ⟨[], [], [], [], true⟩

/-- The gang that issues and what it sees: `s0` the state before anything is committed, `s` with last use applied; `lanes` the acting lanes, `sr` the special registers in force. -/
structure Env where
  s0 : State
  s : State
  gid : Nat
  g0 : Group
  g : Group
  a : Gang
  hdr : Header
  lanes : List Nat
  sr : SRegs
deriving Repr

/-- What an instruction comes to. -/
inductive Act where
  | done (g : Group) (s : State)      -- committed: its group and the rest of the state; the gang goes on
  | moved (g : Group) (s : State)     -- committed, with the gang already placed
  | gone (s : State)                  -- committed, and the group has ended
  | stall (s : State)                 -- nothing committed; it issues again later
  | halt (cause detail : Nat) (addr : DWord) (lanes : Nat)
  | haltIn (s : State) (cause detail : Nat) (addr : DWord) (lanes : Nat)   -- the same after reads that memory has served (04 R77)
  | trap (cause lanes : Nat) (addr : DWord)
  | selfTrap (cause lanes : Nat) (addr : DWord)   -- TRAP and BKPT: the entry is the instruction's own effect
deriving Repr

/-- 08 R174: the lanes in which an instruction acts, and the lanes whose guard is poisoned (10 R211: false there). A hint never faults, and the spec does not say in which lanes one acts whose guard field holds 12 to 14: in none (log 27). -/
def actingLanes (s : State) (g : Group) (a : Gang) (gd : Guard) : List Nat × List Nat :=
  let act := maskLanes (g.activeMask a.slices)
  (act.filter (fun L => predOk gd.pred && (let p := rdPred s g gd.pred.toNat L; !p.2 && (p.1 != gd.neg))),
   act.filter fun L => predOk gd.pred && (rdPred s g gd.pred.toNat L).2)

/-- 08 R173: an early read, or a fixed-latency write over a pending variable-latency one; the guard is read in every active lane of the gang. -/
def stallShort (s : State) (g : Group) (a : Gang) (lanes : List Nat) (gd : Guard) (u : Uses) : Bool :=
  let act := maskLanes (g.activeMask a.slices)
  let srcKeys := lanes.flatMap fun L => (u.src.flatMap fun x => opdKeys x.1 x.2.1 L) ++ (u.preds.filterMap fun p => if p = 15 then none else some (keyP L p))
  let gKeys := if gd.pred == 15#4 then [] else act.map fun L => keyP L gd.pred.toNat
  let dKeys := lanes.flatMap fun L => (u.dst.flatMap fun x => opdKeys x.1 x.2 L) ++ (u.pdst.filterMap fun p => if p = 15 then none else some (keyP L p))
  (srcKeys ++ gKeys).any (g.early s) || (u.fixedDst && dKeys.any g.pending)

/-- The remote accesses that are left once the instruction of a gang is over: those of other gangs, and of its own and of fetches those still out, which must be answered (02 R42, R45) though nobody asks for an answer any more. Stores and atomics made are awaited. -/
def restRemote (slices : List Nat) (l : List RemoteWait) : List RemoteWait :=
  l.filterMap fun r =>
    if r.made then some r
    else if slices.contains r.slice then (if r.resp.isSome then none else some { r with slice := 65 })
    else if 64 ≤ r.slice && r.resp.isSome then none else some r

/-- The instruction of the gang of the slices given commits: the issue is counted (27 R439), the free draw advances, the gang's remote responses are forgotten. -/
def commit (gid : Nat) (slices : List Nat) (armed : Bool) (g : Group) (s : State) : State :=
  let g := { g.prune s.clk with remote := restRemote slices g.remote, resume := if armed then none else g.resume }
  ((s.setGroup gid g).updPart g.part fun p => { p with issue := p.issue + 1 }).bump

/-- 18 R325: the group is at its first instruction after an ERET, with a resume point held. -/
def wasArmed (s : State) (gid : Nat) : Bool :=
  match s.group? gid with
  | some g => (match g.resume with | some r => r.armed | none => false)
  | none => false

/-- Failed walks that a gang's access needed are forgotten once it has taken its fault: the next access walks again (02 R35). -/
def forgetErrs (gid : Nat) (s : State) : State :=
  match s.group? gid with
  | some g => dropFailed (fun l => l.core == g.core && l.ctx == g.ctx) s
  | none => s

/-- The slices of the gang that issues. -/
def slicesAt (s : State) (gid slice : Nat) : List Nat :=
  match s.group? gid with
  | some g => ((g.gang? slice).map (·.slices)).getD []
  | none => []

/-- The responses that a gang's instruction has had are forgotten: when it issues again its accesses go out anew. -/
def dropRemote (gid slice : Nat) (s : State) : State :=
  let sl := slicesAt s gid slice
  s.updGroup gid fun g => { g with remote := restRemote sl g.remote }

/-- The group is in its handler, as it was not before. -/
def enteredBy (gid : Nat) (s t : State) : Bool :=
  let inside (s : State) : Bool := match s.group? gid with | some g => g.sr.handler | none => false
  inside t && !inside s
/-- An instruction has issued when it traps (27 R443), into the handler or into a halt; while $utvec's word is being fetched it has not. -/
def issueTrap (gid slice cause lanes : Nat) (addr : DWord) (s : State) : State :=
  let t := takeTrap gid slice cause lanes addr s
  let recs (s : State) : Nat := match s.group? gid with | some g => (s.ctx g.ctx).recs.length | none => 0
  if enteredBy gid s t || recs t != recs s then countIssue gid slice s t else t
/-- TRAP and BKPT have completed when they enter the handler: the stall count holds its first instruction (08 R170). -/
def selfTrap (gid slice stall cause lanes : Nat) (addr : DWord) (s : State) : State :=
  let t := issueTrap gid slice cause lanes addr s
  if enteredBy gid s t then t.updGroup gid fun g => g.updGang slice fun a => { a with due := s.clk + stall + 1 } else t

/-- What an instruction comes to, as a state. -/
def finish (gid slice stall : Nat) (s0 : State) : Act → State
  | .done g s => commit gid (slicesAt s0 gid slice) (wasArmed s0 gid) (stepOn s.clk stall slice g) s
  | .moved g s => commit gid (slicesAt s0 gid slice) (wasArmed s0 gid) g s
  | .gone s => (match s0.group? gid with | some g => s.updPart g.part fun p => { p with issue := p.issue + 1 } | none => s).bump
  | .stall s => s
  | .halt cause detail addr lanes => (countIssue gid slice s0 (forgetErrs gid (dropRemote gid slice (haltAt gid slice cause detail addr lanes s0)))).bump
  | .haltIn s cause detail addr lanes => (countIssue gid slice s0 (forgetErrs gid (dropRemote gid slice (haltAt gid slice cause detail addr lanes s)))).bump
  | .trap cause lanes addr => (issueTrap gid slice cause lanes addr s0).bump
  | .selfTrap cause lanes addr => (selfTrap gid slice stall cause lanes addr s0).bump

/-- The gang that is to issue: its group, the gang, its open clause's header. -/
def curGang (s : State) : Option (Nat × Nat × Group × Gang × Header) :=
  match s.cur with
  | none => none
  | some c =>
    match s.group? c.gid with
    | none => none
    | some g =>
      match g.gang? c.slice with
      | none => none
      | some a => a.hdr.map fun h => (c.gid, c.slice, g, a, h)

/-- 08 R186: the decode checks in their order; `none` when all pass. -/
def decodeCheck (i : Instr) (g : Group) (a : Gang) (h : Header) : Option Nat :=
  if !(match clsOf h.cls.toNat with | some c => i.classOk c (a.idx == h.count.toNat) | none => false) then some cCLASS
  else if i.opcode < 0xF8 && !(i.formatOk && i.inAlloc g.regs) then some cOPERAND
  else none

/-- The environment of an instruction: acting lanes, special registers in force, last use applied (08 R158). -/
def mkEnv (s : State) (gid : Nat) (g : Group) (a : Gang) (h : Header) (gd : Guard) (u : Uses) : Env :=
  let lanes := (actingLanes s g a gd).1
  { s0 := s, s := s, gid := gid, g0 := g, g := lastUse lanes u.src g, a := a, hdr := h, lanes := lanes, sr := g.effSr s }

/-- One instruction of the current gang: decode checks (08 R186), STALL_SHORT (08 R173), a poisoned guard (10 R211), then its own meaning. An instruction with no gang to issue it does not occur. DESIGN CHOICE (log 74): $eaddr of a poisoned guard's trap is 0; R211 describes $elanes alone. -/
def runInstr (i : Instr) (gd : Guard) (u : Uses) (body : Env → Act) (s : State) : Answer :=
  match curGang s with
  | none => .next s
  | some (gid, slice, g, a, h) =>
    .next (finish gid slice gd.stall.toNat s
      (match decodeCheck i g a h with
       | some c => .halt c 0 0 0
       | none =>
         let env := mkEnv s gid g a h gd u
         let bad := (actingLanes s g a gd).2
         if env.sr.dbgctl.getLsbD 0 && decide (i.opcode < 0xF8) && stallShort s g a env.lanes gd u then .halt cSTALL 0 0 0
         else if !bad.isEmpty && env.sr.trapPoison && decide (i.opcode < 0xF8) then .trap cPOISON (lanesMask bad) 0
         else body env))

/-- The leader: the lowest-numbered acting lane (08 R155; 05 R101). -/
def Env.leader (e : Env) : Option Nat := e.lanes.head?
/-- The acting lanes as a mask. -/
def Env.mask (e : Env) : Nat := lanesMask e.lanes
/-- The partition of the group. -/
def Env.part (e : Env) : Nat := e.g0.part
/-- A 32-bit source in a lane. -/
def Env.r32 (e : Env) (o : Opd) (L : Nat) : PVal := rd32 e.s0 e.g0 o L
/-- A source of n words in a lane. -/
def Env.rN (e : Env) (o : Opd) (n L : Nat) : PVal := rdN e.s0 e.g0 o n L
/-- The cell of word k of an operand in a lane. -/
def Env.rc (e : Env) (o : Opd) (L k : Nat) : RegCell := rdCell e.s0 e.g0 o L k
/-- Descriptor registers s[n] to s[n + k − 1], and whether one is poisoned. -/
def Env.sregs (e : Env) (o : Opd) (k : Nat) : List Word × Bool := ((List.range k).map fun j => (e.rc o 0 j).get, (List.range k).any fun j => (e.rc o 0 j).poison)

/-- 08 R157: a leader that reads a poisoned source sets its poison bit. -/
def Env.noteLead (e : Env) (p : Bool) (g : Group) : Group := if p then g.notePoison e.s 2 e.leader.toList else g

/-- The same where the leader reads for the whole gang: the environment with that bit set. -/
def Env.led (e : Env) (p : Bool) : Env := { e with g := e.noteLead p e.g }
/-- The same where every acting lane reads (14 R278). -/
def Env.readAll (e : Env) (p : Bool) : Env := { e with g := if p then e.g.notePoison e.s 2 e.lanes else e.g }

/-- The clause is system class. -/
def Env.sys (e : Env) : Bool := e.hdr.cls == 4#3
/-- A value read for the whole group: from the leader, or lane 0 for a register that is not per lane. -/
def Env.lead (e : Env) : Nat := e.leader.getD 0

/-- 08 R162: an instruction whose issue would take a counter above 63 stalls. -/
def Env.full (e : Env) (ctr : Nat) : Bool := decide (63 ≤ e.g0.count ctr)

/-- 21 R374: an instruction that a full engine queue or a want of credit keeps back: nothing of it is committed; its gang gives up its stream and is not ready until the hold ends. -/
def Env.keepBack (e : Env) (h : Hold) (s : State) : Act :=
  .stall (s.updGroup e.gid fun g => g.updGang (e.a.slices.headD 0) fun a => { a with hold := h, stream := none })

/-- A result in each acting lane: its words (32- or 64-bit), whether poisoned. -/
def laneResults (e : Env) (n : Nat) (f : Nat → PVal) : List LaneRes := e.lanes.map fun L => let r := f L; ⟨L, resWords n r.val r.poison⟩

/-- A register-only instruction with a fixed latency: per-lane result of n words, the lanes that read poison (08 R157), and the bits it sets in $fpflags. -/
def regResult (e : Env) (lat n : Nat) (dst : Opd) (f : Nat → PVal) (flags : Nat → Word) : Act :=
  let rs := laneResults e n f
  let g := e.g.writeDst e.s lat dst rs
  let g := e.lanes.foldl (fun g L => g.orFlags e.s lat L (flags L ||| (if (f L).poison then poisonFlag else 0))) g
  .done g e.s

/-- 08 R173: the registers of a variable-latency result over which a fixed-latency write is in flight, and in which that write's value remains, by a free choice. -/
def overlaps (e : Env) (g : Group) (keys : List Nat) : List Nat :=
  if g.hz.isEmpty then [] else keys.filter fun k => g.hz.any (fun h => h.key == k && h.ready > e.s.clk && h.ready < 2 ^ 64) && e.s.coin (k * 4 + 2)

/-- A variable-latency result (08 R172): pending on the counter, with the cells it will write and the bits it will set in $fpflags (10 R208); `known` unless an access that it needs has not been performed yet. With no acting lane there is nothing to wait for (03 R69). -/
def pendResult (e : Env) (ctr : Nat) (ws : List (Nat × RegCell)) (fl : List (Nat × Word)) (g : Group) (s : State) (known : Bool := true) : Act :=
  if e.full ctr then .stall e.s0
  else
    let id := s.nextId
    let g := g.addTok ctr id e.lanes.isEmpty
    if e.lanes.isEmpty then .done g s.takeId
    else .done { g with vp := g.vp ++ [⟨id, known, ws ++ fl.filterMap (fun (L, b) => if b == 0 then none else some (keyF L, ⟨b, false, 0⟩)), ws.map (·.1), overlaps e g (ws.map (·.1))⟩] } s.takeId

/-- 10 R208: what completing a variable-latency result of a counter writes: the cells in which no other value remains (08 R173); flag bits are added. Until a wait covers it, each may still be read as before. -/
def Group.land (ctr : Nat) (v : VPend) (g : Group) : Group :=
  v.writes.foldl (fun g (k, c) =>
    let old := g.cellAt k
    let flag : Bool := k < 32 * 1024 && k % 1024 == 300
    let g1 := if flag then g.putCell k ⟨old.val ||| c.val, false, 0⟩ else if v.keys.contains k && !v.gone.contains k then g.putCell k c else g
    { g1 with hz := ⟨k, if flag then ⟨c.val &&& ~~~old.val, false, 0⟩ else old, unwaited ctr⟩ :: g1.hz }) g

end Sys2Proof.Machine
end

