-- ==== Sys2Proof/Machine/Integer.lean ====
section
/-! DEFINITION. Integer, address and bit instructions (10 R203 to R209). Each acts in every acting lane; a result is poisoned where a source is (08 R157). -/

/-- 10 R205: the X bit of the mod field. -/
def Sys2Proof.WI.x (w : Sys2Proof.WI) : Bool := w.mod.getLsbD 8

namespace Sys2Proof.Machine

/-! ## Shapes -/

/-- 10 R203: the second source of an I-format word: b, or imm8, zero-extended for shifts and BFX. -/
def Env.srcB (e : Env) (zx : Bool) (w : WI) (L : Nat) : PVal :=
  if w.mod.getLsbD 9 then ⟨if zx then w.imm.setWidth 64 else w.imm.signExtend 64, false⟩ else e.r32 w.b L

/-- The sources and destination of an I-format word of n-word values. -/
def usesI (nd na nb : Nat) (w : WI) : Uses :=
  ⟨[(w.a, na, w.la)] ++ (if w.mod.getLsbD 9 then [] else [(w.b, nb, w.lb)]), [], [(w.dst, nd)], [], true⟩
/-- The sources and destination of a V-format word. -/
def usesV (nd na nb nc : Nat) (w : WV) : Uses :=
  ⟨[(w.a, na, w.la), (w.b, nb, w.lb), (w.c, nc, w.lc)], [], [(w.dst, nd)], [], true⟩

/-- A 32-bit value with its poison. -/
def pval (v : Word) (p : Bool) : PVal := ⟨v.setWidth 64, p⟩
/-- The low 32 bits of a value. -/
def PVal.w (v : PVal) : Word := v.val.setWidth 32

/-- A 32-bit operation on one source. -/
def int1 (i : Instr) (w : WI) (f : Word → Word) (s : State) : Answer :=
  runInstr i w.g (usesI 1 1 1 w) (fun e => regResult e 2 1 w.dst (fun L => let a := e.r32 w.a L; pval (f a.w) a.poison) fun _ => 0) s
/-- A 32-bit operation on two sources; `zx` when imm8 is zero-extended. -/
def int2 (i : Instr) (w : WI) (zx : Bool) (f : Word → Word → Word) (s : State) : Answer :=
  runInstr i w.g (usesI 1 1 1 w)
    (fun e => regResult e 2 1 w.dst (fun L => let a := e.r32 w.a L; let b := e.srcB zx w L; pval (f a.w b.w) (a.poison || b.poison)) fun _ => 0) s
/-- A 64-bit operation on two pairs. -/
def int64 (i : Instr) (w : WI) (f : DWord → DWord → DWord) (s : State) : Answer :=
  runInstr i w.g (usesI 2 2 2 w)
    (fun e => regResult e 2 2 w.dst (fun L => let a := e.rN w.a 2 L
                                              let b := if w.mod.getLsbD 9 then ⟨w.imm.signExtend 64, false⟩ else e.rN w.b 2 L
                                              ⟨f a.val b.val, a.poison || b.poison⟩) fun _ => 0) s
/-- A 32-bit operation on three sources. -/
def int3 (i : Instr) (w : WV) (f : Word → Word → Word → Word) (s : State) : Answer :=
  runInstr i w.g (usesV 1 1 1 1 w)
    (fun e => regResult e 2 1 w.dst (fun L => let a := e.r32 w.a L; let b := e.r32 w.b L; let c := e.r32 w.c L
                                              pval (f a.w b.w c.w) (a.poison || b.poison || c.poison)) fun _ => 0) s

/-- 10 R205 .sat: an exact signed result clamped to 32 bits. -/
def satInt (x : Int) : Word := BitVec.ofInt 32 (max (-2147483648) (min 2147483647 x))
/-! ## Moves and arithmetic (10 R205, R206) -/

/-- NOP: nothing, and the last-result file does not shift (10 R205). -/
def execNop (w : WI) (s : State) : Answer := runInstr (.nop w) w.g .none (fun e => .done e.g e.s) s
/-- MOV: d := a, a pair under .64. -/
def execMov (w : WI) (s : State) : Answer :=
  let n := if w.x then 2 else 1
  runInstr (.mov w) w.g (usesI n n n w) (fun e => regResult e 2 n w.dst (fun L => e.rN w.a n L) fun _ => 0) s

/-- MOVI: d := imm8, sign- or zero-extended. -/
def execMovi (w : WI) (s : State) : Answer :=
  runInstr (.movi w) w.g (usesI 1 1 1 w) (fun e => regResult e 2 1 w.dst (fun _ => pval (if w.x then w.imm.setWidth 32 else w.imm.signExtend 32) false) fun _ => 0) s
/-- IADD. -/
def execIadd (w : WI) (s : State) : Answer := int2 (.iadd w) w false (fun a b => if w.x then satInt (a.toInt + b.toInt) else a + b) s
/-- ISUB. -/
def execIsub (w : WI) (s : State) : Answer := int2 (.isub w) w false (fun a b => if w.x then satInt (a.toInt - b.toInt) else a - b) s
/-- ADD64. -/
def execAdd64 (w : WI) (s : State) : Answer := int64 (.add64 w) w (fun a b => a + b) s
/-- SUB64. -/
def execSub64 (w : WI) (s : State) : Answer := int64 (.sub64 w) w (fun a b => a - b) s
/-- LEA: d := a + (ext(b) << sh), sh in imm8. -/
def execLea (w : WI) (s : State) : Answer :=
  runInstr (.lea w) w.g (usesI 2 2 1 w)
    (fun e => regResult e 2 2 w.dst (fun L => let a := e.rN w.a 2 L; let b := e.r32 w.b L
                                              let x : DWord := if w.x then b.w.signExtend 64 else b.w.setWidth 64
                                              ⟨a.val + (x <<< (w.imm.toNat % 32)), a.poison || b.poison⟩) fun _ => 0) s
/-- IMUL. -/
def execImul (w : WI) (s : State) : Answer := int2 (.imul w) w false (fun a b => a * b) s
/-- IMULHI: bits [63:32] of the signed product. -/
def execImulhi (w : WI) (s : State) : Answer := int2 (.imulhi w) w false (fun a b => BitVec.ofInt 32 (a.toInt * b.toInt / 2 ^ 32)) s
/-- UMULHI: bits [63:32] of the unsigned product. -/
def execUmulhi (w : WI) (s : State) : Answer := int2 (.umulhi w) w false (fun a b => BitVec.ofNat 32 (a.toNat * b.toNat / 2 ^ 32)) s
/-- IMIN. -/
def execImin (w : WI) (s : State) : Answer := int2 (.imin w) w false (fun a b => if b.slt a then b else a) s
/-- IMAX. -/
def execImax (w : WI) (s : State) : Answer := int2 (.imax w) w false (fun a b => if a.slt b then b else a) s
/-- UMIN. -/
def execUmin (w : WI) (s : State) : Answer := int2 (.umin w) w false (fun a b => if b.ult a then b else a) s
/-- UMAX. -/
def execUmax (w : WI) (s : State) : Answer := int2 (.umax w) w false (fun a b => if a.ult b then b else a) s
/-- IABS: the most negative value stays, or saturates. -/
def execIabs (w : WI) (s : State) : Answer := int1 (.iabs w) w (fun a => if w.x then satInt a.toInt.natAbs else if a.msb then -a else a) s
/-- INEG. -/
def execIneg (w : WI) (s : State) : Answer := int1 (.ineg w) w (fun a => if w.x then satInt (-a.toInt) else -a) s
/-- SEL: d := P ? a : b; every source read counts for poison (08 R157; 10 R211). -/
def execSel (w : WV) (s : State) : Answer :=
  let p := (w.mod.extractLsb' 0 4).toNat
  runInstr (.sel w) w.g { usesV 1 1 1 1 w with preds := [p] }
    (fun e => regResult e 2 1 w.dst (fun L => let a := e.r32 w.a L; let b := e.r32 w.b L; let q := rdPred e.s0 e.g0 p L
                                              pval (if q.1 != w.mod.getLsbD 4 then a.w else b.w) (a.poison || b.poison || q.2)) fun _ => 0) s
/-- 10 R206: the pair IADDC gives: the sum or difference, and the carry or borrow out. -/
def addCarry (borrow : Bool) (a b c : Word) : DWord :=
  let cin := c.toNat % 2
  if borrow then (BitVec.ofNat 32 (if a.toNat < b.toNat + cin then 1 else 0)) ++ (a - b - BitVec.ofNat 32 cin)
  else (BitVec.ofNat 32 ((a.toNat + b.toNat + cin) / 2 ^ 32)) ++ (a + b + BitVec.ofNat 32 cin)
/-- IADDC: addition or subtraction with carry into an even pair. -/
def execIaddc (w : WV) (s : State) : Answer :=
  runInstr (.iaddc w) w.g (usesV 2 1 1 1 w)
    (fun e => regResult e 2 2 w.dst (fun L => let a := e.r32 w.a L; let b := e.r32 w.b L; let c := e.r32 w.c L
                                              ⟨addCarry (w.mod.getLsbD 0) a.w b.w c.w, a.poison || b.poison || c.poison⟩) fun _ => 0) s
/-- IMAD. -/
def execImad (w : WV) (s : State) : Answer := int3 (.imad w) w (fun a b c => a * b + c) s
/-- IMADW: ext(a) × ext(b) + c modulo 2^64. -/
def execImadw (w : WV) (s : State) : Answer :=
  let x (a : Word) : DWord := if w.mod.getLsbD 0 then a.signExtend 64 else a.setWidth 64
  runInstr (.imadw w) w.g (usesV 2 1 1 2 w)
    (fun e => regResult e 2 2 w.dst (fun L => let a := e.r32 w.a L; let b := e.r32 w.b L; let c := e.rN w.c 2 L
                                              ⟨x a.w * x b.w + c.val, a.poison || b.poison || c.poison⟩) fun _ => 0) s

/-! ## Division (10 R207) -/

/-- 10 R207: quotient, remainder and what is bad: 0 nothing, 1 a zero divisor, 2 overflow. -/
def divRem (signed : Bool) (x y : Word) : Word × Word × Nat :=
  if y == 0 then (0xFFFFFFFF#32, x, 1)
  else if signed && x == 0x80000000#32 && y == 0xFFFFFFFF#32 then (0x80000000#32, 0, 2)
  else if signed then (BitVec.ofInt 32 (Int.tdiv x.toInt y.toInt), BitVec.ofInt 32 (Int.tmod x.toInt y.toInt), 0)
  else (x / y, x % y, 0)

/-- 10 R207: a division: a trap that commits nothing in any lane when one is enabled and some lane is bad; otherwise results, and INTDIV set in the bad lanes. -/
def intDiv (i : Instr) (w : WI) (signed rem : Bool) (s : State) : Answer :=
  runInstr i w.g (usesI 1 1 1 w)
    (fun e =>
      let d (L : Nat) := divRem signed (e.r32 w.a L).w (e.srcB false w L).w
      let bad := e.lanes.filter fun L => (d L).2.2 != 0
      if !bad.isEmpty && e.sr.trapIntdiv then
        .trap (if bad.any fun L => (d L).2.2 == 1 then 0x15 else 0x16) (lanesMask bad) 0
      else
        regResult e 2 1 w.dst (fun L => pval (if rem then (d L).2.1 else (d L).1) ((e.r32 w.a L).poison || (e.srcB false w L).poison))
          fun L => if (d L).2.2 != 0 then intdivFlag else 0) s

/-- IDIV. -/
def execIdiv (w : WI) (s : State) : Answer := intDiv (.idiv w) w true false s
/-- UDIV. -/
def execUdiv (w : WI) (s : State) : Answer := intDiv (.udiv w) w false false s
/-- IREM. -/
def execIrem (w : WI) (s : State) : Answer := intDiv (.irem w) w true true s
/-- UREM. -/
def execUrem (w : WI) (s : State) : Answer := intDiv (.urem w) w false true s

/-! ## Bit operations (10 R209) -/

/-- AND. -/
def execIand (w : WI) (s : State) : Answer := int2 (.iand w) w false (fun a b => a &&& b) s
/-- OR. -/
def execIor (w : WI) (s : State) : Answer := int2 (.ior w) w false (fun a b => a ||| b) s
/-- XOR. -/
def execIxor (w : WI) (s : State) : Answer := int2 (.ixor w) w false (fun a b => a ^^^ b) s
/-- ANDN: a AND NOT b. -/
def execAndn (w : WI) (s : State) : Answer := int2 (.andn w) w false (fun a b => a &&& ~~~b) s
/-- NOT. -/
def execInot (w : WI) (s : State) : Answer := int1 (.inot w) w (fun a => ~~~a) s

/-- SHL: 0 for an amount of 32 or more. -/
def shl (a n : Word) : Word := if n.toNat ≥ 32 then 0 else a <<< n.toNat
/-- SHR. -/
def shr (a n : Word) : Word := if n.toNat ≥ 32 then 0 else a >>> n.toNat
/-- SAR. -/
def sar (a n : Word) : Word := if n.toNat ≥ 32 then (if a.msb then 0xFFFFFFFF#32 else 0) else a.sshiftRight n.toNat
/-- ROTL: left by n & 31. -/
def rotl (a n : Word) : Word := a.rotateLeft (n.toNat % 32)
/-- BFX: a field of len bits from pos = n & 31. -/
def bfx (signed : Bool) (len : Nat) (a n : Word) : Word :=
  let f := a.toNat / 2 ^ (n.toNat % 32) % 2 ^ len
  if signed && f.testBit (len - 1) then BitVec.ofInt 32 ((f : Int) - 2 ^ len) else BitVec.ofNat 32 f
/-- POPC. -/
def popc (a : Word) : Word := BitVec.ofNat 32 ((List.range 32).countP fun k => a.getLsbD k)
/-- CLZ; 32 for zero. -/
def clz (a : Word) : Word := BitVec.ofNat 32 (((List.range 32).find? fun k => a.getLsbD (31 - k)).getD 32)
/-- CTZ; 32 for zero. -/
def ctz (a : Word) : Word := BitVec.ofNat 32 (((List.range 32).find? fun k => a.getLsbD k).getD 32)
/-- BREV. -/
def brev (a : Word) : Word := a.reverse
/-- BFI: b inserted in a at pos = c & 31, len bits. -/
def bfi (len : Nat) (a b c : Word) : Word :=
  let pos := c.toNat % 32
  let m : Word := BitVec.ofNat 32 ((2 ^ len - 1) * 2 ^ pos)
  (a &&& ~~~m) ||| ((b <<< pos) &&& m)
/-- FUNNEL: ((b:a) >> (c & 63)) [31:0]. -/
def funnel (a b c : Word) : Word := ((b ++ a : BitVec 64) >>> (c.toNat % 64)).setWidth 32
/-- PRMT: four bytes picked from b:a, each replaced by its sign under bit 3 of its selector. -/
def prmt (a b c : Word) : Word :=
  let x : DWord := b ++ a
  let byte (i : Nat) : BitVec 8 :=
    let y := x.extractLsb' (8 * (c.extractLsb' (4 * i) 3).toNat) 8
    if c.getLsbD (4 * i + 3) then (if y.msb then 0xFF else 0) else y
  byte 3 ++ byte 2 ++ byte 1 ++ byte 0

/-- SHL. -/
def execShl (w : WI) (s : State) : Answer := int2 (.shl w) w true shl s
/-- SHR. -/
def execShr (w : WI) (s : State) : Answer := int2 (.shr w) w true shr s
/-- SAR. -/
def execSar (w : WI) (s : State) : Answer := int2 (.sar w) w true sar s
/-- ROTL. -/
def execRotl (w : WI) (s : State) : Answer := int2 (.rotl w) w true rotl s
/-- FUNNEL. -/
def execFunnel (w : WV) (s : State) : Answer := int3 (.funnel w) w funnel s
/-- BFX. -/
def execBfx (w : WI) (s : State) : Answer := int2 (.bfx w) w true (bfx w.x ((w.mod.extractLsb' 0 5).toNat + 1)) s
/-- BFI. -/
def execBfi (w : WV) (s : State) : Answer := int3 (.bfi w) w (bfi ((w.mod.extractLsb' 0 5).toNat + 1)) s
/-- POPC. -/
def execPopc (w : WI) (s : State) : Answer := int1 (.popc w) w popc s
/-- CLZ. -/
def execClz (w : WI) (s : State) : Answer := int1 (.clz w) w clz s
/-- CTZ. -/
def execCtz (w : WI) (s : State) : Answer := int1 (.ctz w) w ctz s
/-- BREV. -/
def execBrev (w : WI) (s : State) : Answer := int1 (.brev w) w brev s
/-- PRMT. -/
def execPrmt (w : WV) (s : State) : Answer := int3 (.prmt w) w prmt s

end Sys2Proof.Machine
end

