-- ==== Sys2Proof/Machine/Predicate.lean ====
section
/-! DEFINITION. Compares, predicates and lane operations (10 R210 to R219; 08 R179). -/

namespace Sys2Proof.Machine

/-! ## C-format results -/

/-- 08 R179: ∘ of the combine field. -/
def combine (comb : BitVec 2) (c pc : Bool) : Bool :=
  match comb.toNat with | 0 => c | 1 => c && pc | 2 => c || pc | _ => c != pc

/-- What a C-format word reads and writes besides its condition's sources. -/
def usesC (src : List (Opd × Nat × Bool)) (preds : List Nat) (w : WC) : Uses :=
  ⟨src, preds ++ (if w.comb == 0 then [] else [w.pc.toNat]), [], [w.pd1.toNat, w.pd2.toNat], true⟩

/-- 08 R179, 10 R211: write pd1 and pd2 from a condition per lane (its value, whether poisoned), with the bits it sets in $fpflags. -/
def cmpResult (e : Env) (w : WC) (lat : Nat) (cond : Nat → Bool × Bool) (flags : Nat → Word) : Act :=
  .done (e.lanes.foldl (fun g L =>
    let c := cond L
    let pc := rdPred e.s0 e.g0 w.pc.toNat L
    let p := c.2 || (w.comb != 0 && pc.2)
    let q := pc.1 != w.pneg
    let g := g.writePred e.s lat w.pd1.toNat L (combine w.comb c.1 q) p
    let g := g.writePred e.s lat w.pd2.toNat L (combine w.comb (!c.1) q) p
    g.orFlags e.s lat L (flags L ||| (if p then poisonFlag else 0))) e.g) e.s

/-- 08 R179: the conditions 0x0 to 0x5 from "equal" and "less". -/
def condHolds (cond : Nat) (eq lt : Bool) : Bool :=
  match cond with | 0 => eq | 1 => !eq | 2 => lt | 3 => lt || eq | 4 => !(lt || eq) | _ => !lt

/-- 10 R210: an integer compare, signed or not, of registers or pairs. -/
def intCmp (i : Instr) (signed : Bool) (w : WC) (s : State) : Answer :=
  let n := if w.ty == 1#3 then 2 else 1
  let a := decOpd w.a; let b := decOpd w.b
  runInstr i w.g (usesC [(a, n, w.la), (b, n, w.lb)] [] w)
    (fun e => cmpResult e w 2 (fun L =>
      let x := e.rN a n L; let y := e.rN b n L
      let lt := if n = 2 then (if signed then x.val.slt y.val else x.val.ult y.val) else (if signed then x.w.slt y.w else x.w.ult y.w)
      (condHolds w.cond.toNat (x.val == y.val) lt, x.poison || y.poison)) fun _ => 0) s

/-- ICMP (10 R210). -/
def execIcmp (w : WC) (s : State) : Answer := intCmp (.icmp w) true w s
/-- UCMP (10 R210). -/
def execUcmp (w : WC) (s : State) : Answer := intCmp (.ucmp w) false w s

/-- PLOP (10 R212): a truth table of two predicates. -/
def execPlop (w : WC) (s : State) : Answer :=
  let pa := (w.a.extractLsb' 0 4).toNat; let pb := (w.b.extractLsb' 0 4).toNat
  runInstr (.plop w) w.g (usesC [] [pa, pb] w)
    (fun e => cmpResult e w 2 (fun L =>
      let x := rdPred e.s0 e.g0 pa L; let y := rdPred e.s0 e.g0 pb L
      let i := 2 * (x.1 != w.a.getLsbD 4).toNat + (y.1 != w.b.getLsbD 4).toNat
      (w.cond.getLsbD i, x.2 || y.2)) fun _ => 0) s

/-- PMOV (10 R213): cond := (a ≠ 0). -/
def execPmov (w : WC) (s : State) : Answer :=
  let n := if w.ty == 1#3 then 2 else 1; let a := decOpd w.a
  runInstr (.pmov w) w.g (usesC [(a, n, w.la)] [] w)
    (fun e => cmpResult e w 2 (fun L => let x := e.rN a n L; (x.val != 0, x.poison)) fun _ => 0) s

/-! ## Predicates as numbers (10 R214) -/

/-- The twelve predicates of a group's lane. -/
def allPreds : List Nat := List.range 12

/-- PSTORE: a mask of one predicate over the acting lanes, or the lane's twelve predicates with pt in [15]. -/
def execPstore (w : WI) (s : State) : Answer :=
  let n := (w.imm.extractLsb' 0 4).toNat
  runInstr (.pstore w) w.g ⟨[], if w.x then allPreds else [n], [(w.dst, 1)], [], true⟩
    (fun e =>
      let rd (p L : Nat) := rdPred e.s0 e.g0 p L
      if w.x then
        regResult e 2 1 w.dst (fun L => pval (BitVec.ofNat 32 (0x8000 + lanesMask (allPreds.filter fun p => (rd p L).1))) (allPreds.any fun p => (rd p L).2)) fun _ => 0
      else
        regResult e 2 1 w.dst (fun _ => pval (BitVec.ofNat 32 (lanesMask (e.lanes.filter fun L => (rd n L).1))) (e.lanes.any fun L => (rd n L).2)) fun _ => 0) s

/-- PLOAD: predicates from bit L of a, or p0 to p11 from a [11:0]. -/
def execPload (w : WI) (s : State) : Answer :=
  let n := (w.imm.extractLsb' 0 4).toNat
  runInstr (.pload w) w.g ⟨[(w.a, 1, w.la)], [], [], if w.x then allPreds else [n], true⟩
    (fun e =>
      let g := e.lanes.foldl (fun g L =>
        let a := e.r32 w.a L
        let g := if w.x then allPreds.foldl (fun g p => g.writePred e.s 2 p L (a.val.getLsbD p) a.poison) g
                 else g.writePred e.s 2 n L (a.val.getLsbD L) a.poison
        g.orFlags e.s 2 L (if a.poison then poisonFlag else 0)) e.g
      .done g e.s) s

/-! ## Lane operations (10 R215 to R219): the participating lanes are the acting lanes of the gang -/

/-- 10 R216: the lane SHFL reads. -/
def shflSrc (mode seg L k : Nat) (part : Nat → Bool) : Nat :=
  let size := 2 ^ seg; let base := L / size * size; let i : Int := L - base
  let j : Int := match mode with | 0 => k | 1 => i - k | 2 => i + k | _ => (i.toNat ^^^ k : Nat)
  if 0 ≤ j && j < size && part (base + j.toNat) then base + j.toNat else L

/-- SHFL: a of another lane, its value and poison tag. A lane's own a that no lane takes sets no POISON flag (log 48). -/
def execShfl (w : WI) (s : State) : Answer :=
  runInstr (.shfl w) w.g { usesI 1 1 1 w with fixedDst := false }
    (fun e =>
      let f (L : Nat) : PVal :=
        let k := e.srcB true w L
        let a := e.r32 w.a (shflSrc (w.mod.extractLsb' 7 2).toNat (w.mod.extractLsb' 4 3).toNat L k.w.toNat e.lanes.contains)
        pval a.w (a.poison || k.poison)
      pendResult e (w.mod.getLsbD 10).toNat (dstWrites w.dst (laneResults e 1 f)) (e.lanes.map fun L => (L, if (f L).poison then poisonFlag else 0)) e.g e.s) s

/-- VOTE: all, any, uniform, ballot. -/
def execVote (w : WI) (s : State) : Answer :=
  let n := (w.imm.extractLsb' 0 4).toNat
  runInstr (.vote w) w.g ⟨[], [n], [(w.dst, 1)], [], true⟩
    (fun e =>
      let t := e.lanes.filter fun L => (rdPred e.s0 e.g0 n L).1 != w.imm.getLsbD 4
      let v : Nat := match (w.mod.extractLsb' 0 2).toNat with
        | 0 => (t.length == e.lanes.length).toNat
        | 1 => (!t.isEmpty).toNat
        | 2 => (t.isEmpty || t.length == e.lanes.length).toNat
        | _ => lanesMask t
      regResult e 2 1 w.dst (fun _ => pval (BitVec.ofNat 32 v) (e.lanes.any fun L => (rdPred e.s0 e.g0 n L).2)) fun _ => 0) s

/-- 10 R218: the operations of REDUX. -/
def reduxOp (op : Nat) (a b : Word) : Word :=
  match op with
  | 0 => a + b | 1 => if b.slt a then b else a | 2 => if a.slt b then b else a | 3 => if b.ult a then b else a | 4 => if a.ult b then b else a
  | 5 => a &&& b | 6 => a ||| b | _ => a ^^^ b

/-- REDUX: a over all participating lanes. -/
def execRedux (w : WI) (s : State) : Answer :=
  runInstr (.redux w) w.g { usesI 1 1 0 w with fixedDst := false }
    (fun e =>
      let xs := e.lanes.map fun L => e.r32 w.a L
      let v := match xs with | [] => 0 | x :: t => t.foldl (fun r y => reduxOp (w.mod.extractLsb' 0 3).toNat r y.w) x.w
      let p := xs.any (·.poison)
      pendResult e (w.mod.getLsbD 10).toNat (dstWrites w.dst (laneResults e 1 fun _ => pval v p)) (e.lanes.map fun L => (L, if p then poisonFlag else 0)) e.g e.s) s

/-- FIRSTL: the lowest participating lane, or the lowest with a nonzero a. -/
def execFirstl (w : WI) (s : State) : Answer :=
  runInstr (.firstl w) w.g (usesI 1 (if w.x then 0 else 1) 0 w)
    (fun e =>
      let v := if w.x then e.leader else e.lanes.find? fun L => (e.r32 w.a L).w != 0
      regResult e 2 1 w.dst (fun _ => pval (match v with | some L => BitVec.ofNat 32 L | none => 0xFFFFFFFF#32) (!w.x && e.lanes.any fun L => (e.r32 w.a L).poison)) fun _ => 0) s

end Sys2Proof.Machine
end

