-- ==== Sys2Proof/Machine/Special.lean ====
section
/-! DEFINITION. Special registers: MFS, MTS, MFSP, MTSP and the registers of the message queues (08 R159 to R161; 10 R220 to R222; 25 R431; 04 R84, R85, R88). -/

namespace Sys2Proof.Machine

/-! ## Message queues as registers (04 R84 to R88) -/

/-- The key of queue q of a core as a partition sees it. DESIGN CHOICE (log 59): where two partitions hold quadrants of one core, each has its own four queues and sixteen credit lines there. -/
def mqKey (part core q : Nat) : Nat := (part * 64 + core) * 4 + q
/-- A queue as it is after reset. -/
def MsgQ.reset : MsgQ := ⟨0, 0, 0, []⟩
/-- A queue. -/
def State.mq (s : State) (part core q : Nat) : MsgQ := sgetD MsgQ.reset (mqKey part core q) s.mqs
/-- Write a queue back. -/
def State.setMq (part core q : Nat) (m : MsgQ) (s : State) : State := { s with mqs := sput MsgQ.reset (mqKey part core q) m s.mqs }

/-- EN. -/
def MsgQ.en (m : MsgQ) : Bool := m.cfg.getLsbD 31
/-- SIG. -/
def MsgQ.sig (m : MsgQ) : Bool := m.cfg.getLsbD 30
/-- TASK. -/
def MsgQ.task (m : MsgQ) : Nat := (m.cfg.extractLsb' 20 10).toNat
/-- LG. -/
def cfgLg (c : Word) : Nat := (c.extractLsb' 16 4).toNat
/-- BASE, in 4 KiB units. -/
def cfgBase (c : Word) : Nat := (c.extractLsb' 0 11).toNat
/-- TAIL. -/
def MsgQ.tail (m : MsgQ) : BitVec 16 := m.ptr.extractLsb' 16 16
/-- HEAD. -/
def MsgQ.head (m : MsgQ) : BitVec 16 := m.ptr.extractLsb' 0 16
/-- 04 R85: the entries the queue holds. -/
def MsgQ.entries (m : MsgQ) : Nat := (m.tail - m.head).toNat
/-- 04 R87: free entries that no credit reserves. -/
def MsgQ.unreserved (m : MsgQ) : Nat := 2 ^ cfgLg m.cfg - m.entries - m.reserved
/-- 04 R85: the scratchpad offset of entry n. -/
def MsgQ.place (m : MsgQ) (n : Nat) : Nat := cfgBase m.cfg * 4096 + 64 * (n % 2 ^ cfgLg m.cfg)
/-- Set DROP. -/
def MsgQ.drop (m : MsgQ) : MsgQ := { m with cfg := m.cfg ||| 0x8000 }

/-- A message between cores sets out. -/
def sendMsg (m : Msg) (s : State) : State := ({ s with msgs := sset s.nextId m s.msgs }).takeId

/-- 04 R88: enabling a queue revokes its void credits, those on their way included. -/
def revokeVoid (part core q : Nat) (s : State) : State :=
  { s with
    credits := s.credits.map fun (k, l) => (k, if k / 64 == part then l.map fun c => if c.core == core && c.q == q && c.void then { c with count := 0, void := false } else c else l)
    msgs := s.msgs.map fun (k, m) => (k, match m with
      | .grant p src c qq n v => if p == part && c == core && qq == q && v then .grant p src c qq 0 false else .grant p src c qq n v
      | x => x) }

/-- 04 R85: an MTS to $mqcfgq: the fault it raises, or the state after it; `seen` is the queue as the instruction sees it. DESIGN CHOICE (log 59): where EN stays 1 and a changed BASE or LG names a region past the scratchpad, SCRATCH_BOUNDS comes before ILLEGAL_OPERAND; R85 gives the two no order. -/
def writeMqCfg (part core q : Nat) (seen : MsgQ) (v : Word) (s : State) : Except Nat State :=
  let m := s.mq part core q
  let en := v.getLsbD 31
  if en && decide (cfgLg v > 12) then .error cOPERAND
  else if en && decide (cfgBase v * 4096 + 64 * 2 ^ cfgLg v > (s.part part).spadSize core) then .error cSPAD
  else if en && seen.en && (cfgLg v != cfgLg seen.cfg || cfgBase v != cfgBase seen.cfg) then .error cOPERAND
  else
    let cfg := (v &&& 0xFFFF07FF#32) ||| (if m.cfg.getLsbD 15 && !v.getLsbD 15 then 0x8000#32 else 0)
    let s1 := s.setMq part core q { m with cfg := cfg, held := if en then m.held else [] }
    -- while EN = 0 every request is granted at once, the held ones too (04 R88)
    let s2 := if en then s1 else m.held.foldl (fun s src => sendMsg (.grant part src core q 4 true) s) s1
    .ok (if en && !m.en then revokeVoid part core q s2 else s2)

/-- 04 R85: an MTS to $mqptrq. -/
def writeMqPtr (part core q : Nat) (seen : MsgQ) (v : Word) (s : State) : Except Nat State :=
  if seen.en then .error cOPERAND else .ok (s.setMq part core q { s.mq part core q with ptr := v })

/-! ## Numbers (08 R159; 25 R431) -/

/-- 07 R135: $ctrcapN. -/
def ctrCap (n : Nat) : Word :=
  match n with
  | 1 => 0x87821801#32 | 2 => 0x44021802#32 | 3 => 0x08432003#32 | 4 => 0x08642004#32 | 5 => 0x0C603005#32
  | _ => 0xC0000000#32

/-- 10 R208, R222: $fpflags of a lane as an MFS that issues now reads it: pending results may or may not have set their bits. -/
def flagsNow (s : State) (g : Group) (L : Nat) : Word :=
  g.vp.foldl (fun v p => match p.writes.find? (·.1 == keyF L) with
    | some (_, c) => if p.known && s.coin (50000 + p.id * 64 + L) then v ||| c.val else v
    | none => v) ((srPick s 0x21 L g.srhz ((g.flagsAt s L).setWidth 64)).setWidth 32)

/-- A queue of the group's core as its instruction sees it: $mqcfgq or $mqptrq written less than 2 clk ago reads as before or after (08 R160); the moment is the issue (DEDUCED, log 50). -/
def Env.mqSeen (e : Env) (q : Nat) : MsgQ :=
  let m := e.s0.mq e.part e.g0.core q
  { m with cfg := (srPick e.s0 (0x60 + q) 0 e.g0.srhz (m.cfg.setWidth 64)).setWidth 32, ptr := (srPick e.s0 (0x64 + q) 0 e.g0.srhz (m.ptr.setWidth 64)).setWidth 32 }

/-- The value of a special register in a lane. -/
def srValue (e : Env) (num L : Nat) : DWord :=
  let g := e.g0; let r := e.sr; let n32 (v : Nat) : DWord := BitVec.ofNat 64 v; let w (v : Word) : DWord := v.setWidth 64
  if 0x30 ≤ num && num ≤ 0x3F then w (ctrCap (num - 0x30))
  else if 0x60 ≤ num && num ≤ 0x63 then w (e.mqSeen (num - 0x60)).cfg
  else if 0x64 ≤ num && num ≤ 0x67 then w (e.mqSeen (num - 0x64)).ptr
  else
    match num with
    | 0x000 => n32 L
    | 0x001 => n32 (L / 4)
    | 0x002 => n32 g.grp
    | 0x003 => n32 g.wgx
    | 0x004 => n32 g.wgy
    | 0x005 => n32 g.wgz
    | 0x006 => n32 g.cx
    | 0x007 => n32 g.cy
    | 0x008 => n32 g.ngrp
    | 0x010 => e.s0.tsc + BitVec.ofNat 64 (e.s0.pick 51 2)
    | 0x020 => w r.fpcr
    | 0x021 => w (flagsNow e.s0 g L)
    | 0x022 => w r.trapen
    | 0x023 => w r.drainflags
    | 0x024 => w r.dbgctl
    | 0x025 => w r.role
    | 0x026 => n32 ((e.s0.part e.part).ageNow e.s0 % 65536)
    | 0x028 => w r.ctr
    | 0x040 => r.rngkey
    | 0x050 => r.utvec
    | 0x051 => r.epc
    | 0x052 => w r.ecause
    | 0x053 => w r.elanes
    | 0x054 => r.eaddr
    | 0x800 => n32 ((if isSup e.s0 g then 2 else 0) + (if g.sr.handler then 1 else 0))
    | 0x801 => n32 (g.ctx % 4096)
    | 0x802 => Config.nodeId.setWidth 64
    | 0x803 => w (e.s0.ctx g.ctx).stopseq
    | 0x804 => srPick e.s0 0x804 0 g.srhz (n32 (if g.resume.isSome then 1 else 0))
    | _ => 0

/-- Whether a number may be reached: `priv` for MFSP and MTSP. The cause it raises otherwise (08 R160; 25 R431). -/
def srCheck (e : Env) (priv : Bool) (num : Nat) : Option Nat :=
  if num ≥ 0x800 then
    (if !priv then some cPRIVILEGE
     else if !(e.g0.sr.handler || (isSup e.s0 e.g0 && num != 0x804)) then some cPRIVILEGE
     else none)
  else none

/-- MFS and MFSP: the value in each acting lane; never poisoned (10 R220, R221). -/
def readSr (i : Instr) (priv : Bool) (w : WS) (s : State) : Answer :=
  let num := w.num.toNat; let n := if srWide num then 2 else 1
  runInstr i w.g ⟨[], [], [(w.reg, n)], [], true⟩
    (fun e => match srCheck e priv num with
      | some c => .halt c 0 0 0
      | none => regResult e 2 n w.reg (fun L => ⟨srValue e num L, false⟩) fun _ => 0) s

/-- 08 R160, R161: a value a register's description forbids. -/
def srForbids (num : Nat) (v : DWord) : Bool := (num == 0x20 && decide (v.toNat % 8 > 4)) || (num == 0x25 && v.toNat % 4 == 3)

/-- 08 R160, R161: the special registers of a group after a write; read-only ones do not change. -/
def SRegs.set (num : Nat) (v : DWord) (r : SRegs) : SRegs :=
  let w : Word := v.setWidth 32
  match num with
  | 0x20 => { r with fpcr := w &&& 0x1FF7 }
  | 0x22 => { r with trapen := w &&& 0x7 }
  | 0x23 => { r with drainflags := w &&& 0x3F }
  | 0x24 => { r with dbgctl := w &&& 0x1 }
  | 0x25 => { r with role := w &&& 0x3 }
  | 0x40 => { r with rngkey := v }
  | 0x50 => { r with utvec := v }
  | 0x51 => { r with epc := v }
  | 0x52 => { r with ecause := w &&& 0xFFF }
  | 0x53 => { r with elanes := w }
  | 0x54 => { r with eaddr := v }
  | _ => r

/-- An MTS of $fpflags in a lane: an instruction that issues less than 2 clk later sees the value before it or this one (08 R160). -/
def Group.setFlags (s : State) (lane : Nat) (v : Word) (g : Group) : Group :=
  let old := (g.cellAt (keyF lane)).val
  let g1 := (g.showFlags (keyF lane) (~~~0)).putCell (keyF lane) ⟨v, false, 0⟩
  { g1 with srhz := ⟨0x21, lane, old.setWidth 64, s.clk + 2⟩ :: g1.srhz }

/-- What an MTS of a register that is not held per lane does with its one value. -/
def mtsOne (e : Env) (num : Nat) (v : DWord) (g : Group) : Act :=
  if 0x60 ≤ num && num ≤ 0x67 then
    let q := num % 4
    match (if num ≤ 0x63 then writeMqCfg e.part g.core q (e.mqSeen q) (v.setWidth 32) e.s else writeMqPtr e.part g.core q (e.mqSeen q) (v.setWidth 32) e.s) with
    | .error c => .halt c 0 0 0
    | .ok s => .done { g with srhz := ⟨num, 0, srValue e num 0, e.s.clk + 2⟩ :: g.srhz } s
  else if srForbids num v then .halt cOPERAND 0 0 0
  else if num == 0x804 then
    .done (if v.getLsbD 0 then g else { g with resume := none, srhz := ⟨num, 0, if g.resume.isSome then 1 else 0, e.s.clk + 2⟩ :: g.srhz }) e.s
  else .done { g with sr := g.sr.set num v, srhz := ⟨num, 0, srValue { e with sr := g.sr } num 0, e.s.clk + 2⟩ :: g.srhz } e.s

/-- MTS and MTSP (10 R220 to R222): one value from the leader or an s source, or one per acting lane for a register held per lane ($lane, $slice, $fpflags); a poisoned source traps when enabled. -/
def writeSr (i : Instr) (priv : Bool) (w : WS) (s : State) : Answer :=
  let num := w.num.toNat; let n := if srWide num then 2 else 1
  runInstr i w.g ⟨[(w.reg, n, false)], [], [], [], true⟩
    (fun e => match srCheck e priv num with
      | some c => .halt c 0 0 0
      | none =>
        let give := if num == 0x21 || num ≤ 0x001 || w.reg.isS then e.lanes else e.lanes.take 1
        let bad := give.filter fun L => (e.rN w.reg n L).poison
        if e.lanes.isEmpty then .done e.g e.s
        else if !bad.isEmpty && e.sr.trapPoison then .trap cPOISON (lanesMask bad) 0
        else if num == 0x21 then
          .done (e.lanes.foldl (fun g L => g.setFlags e.s L ((e.rN w.reg 1 L).w &&& 0x7F)) e.g) e.s
        else mtsOne e num (e.rN w.reg n e.lead).val (e.g.notePoison e.s 2 bad)) s

/-- MFS (10 R220). -/
def execMfs (w : WS) (s : State) : Answer := readSr (.mfs w) false w s
/-- MTS (10 R220). -/
def execMts (w : WS) (s : State) : Answer := writeSr (.mts w) false w s
/-- MFSP (25 R431). -/
def execMfsp (w : WS) (s : State) : Answer := readSr (.mfsp w) true w s
/-- MTSP (25 R431). -/
def execMtsp (w : WS) (s : State) : Answer := writeSr (.mtsp w) true w s

end Sys2Proof.Machine
end

