-- ==== Sys2Proof/Machine/Contract.lean ====
section
/-! DEFINITION. Numeric contracts: the Ephemeris, dot_contract term by term, the FP64 chain, integer chains (07 R131 to R144). -/

namespace Sys2Proof.Machine

/-- An Ephemeris entry (07 R131). -/
structure Eph where
  ft : Nat
  fo : Bool
  fi : Bool
  rz : Bool
  al : Bool
  ch : Bool
  lg : Nat
  w : Nat
deriving DecidableEq, Repr, Inhabited

/-- 07 R131, R135: the entry of a contract. -/
def eph (n : Nat) : Eph :=
  let e := ctrCap n
  ⟨(e.extractLsb' 26 4).toNat, e.getLsbD 25, e.getLsbD 24, e.getLsbD 23, e.getLsbD 22, e.getLsbD 21, (e.extractLsb' 16 5).toNat, (e.extractLsb' 8 8).toNat⟩

/-- The contract in force for a group (07 R134). -/
def Env.eph (e : Env) : Eph := Sys2Proof.Machine.eph (e.sr.ctr.toNat % 256)

/-- 07 R138, R139: a narrow term of format f with FI applied; `scale` the exponent of its MX block. -/
def narrowTerm (e : Eph) (f : Fmt) (w : DWord) (scale : Int) : FVal :=
  match f.dec (if e.fi then f.flush w else w) with
  | .fin x => .fin { x with e := x.e + scale }
  | v => v

/-- The exact product of two terms; 0 times infinity is NaN. -/
def termMul (a b : FVal) : FVal :=
  match a, b with
  | .nan _, _ => .nan false
  | _, .nan _ => .nan false
  | .inf p, .inf q => .inf (p != q)
  | .inf p, .fin y => if y.m == 0 then .nan false else .inf (p != y.neg)
  | .fin x, .inf q => if x.m == 0 then .nan false else .inf (x.neg != q)
  | .fin x, .fin y => .fin (exMul x y)

/-- 07 R139: one term moved to a multiple of 2^q, and whether it changed. -/
def toWindow (al : Bool) (q : Int) (x : ExReal) : ExReal × Bool :=
  if x.m == 0 then (x, false)
  else
    let (k, rem) := split2 x.m x.e q false
    let k := if al && roundsUp .rn x.neg k rem then k + 1 else k
    if q ≤ x.e then (x, false) else (⟨x.neg, k, q⟩, rem != 0)

/-- 07 R139: the result h of one group of terms and its exceptions. -/
def groupSum (e : Eph) (terms : List ExReal) : FRes :=
  let nz := terms.filter (·.m != 0)
  match nz with
  | [] => ⟨0, 0⟩
  | t :: r =>
    let emax := r.foldl (fun m x => max m (exLog x)) (exLog t)
    let q := emax - e.w + 1
    let ws := nz.map (toWindow e.al q)
    let s := ws.foldl (fun s x => exAdd s x.1) (exZero false)
    let moved : FpFlags := if ws.any (·.2) then fInexact else 0
    if s.m == 0 then ⟨0, moved⟩
    else
      let h := roundF32 s e.rz
      if e.fo && f32.subnormal h.bits then ⟨f32.flush h.bits, moved ||| h.flags ||| fUnderflow ||| fInexact⟩
      else ⟨h.bits, moved ||| h.flags⟩

/-- 07 R139, 14 R288: an accumulation as it begins, from the value c (a pair for the FP64 chain). -/
def ElemAcc.start (c : DWord) (poison : Bool) : ElemAcc := ⟨c, c, 0, [], [], false, false, false, poison, 0⟩

/-- Close the open group of a chain. -/
def ElemAcc.close (e : Eph) (second : Bool) (a : ElemAcc) : ElemAcc :=
  let h := groupSum e (if second then a.open1 else a.open0)
  if second then
    let r := addF32 a.acc1 h.bits e.rz
    { a with acc1 := r.bits, open1 := [], flags := a.flags ||| h.flags ||| r.flags }
  else
    let r := addF32 a.acc0 h.bits e.rz
    { a with acc0 := r.bits, open0 := [], flags := a.flags ||| h.flags ||| r.flags }

/-- 07 R139: term k of an accumulation with groups of G terms. -/
def ElemAcc.term (e : Eph) (g k : Nat) (p : FVal) (poison : Bool) (a : ElemAcc) : ElemAcc :=
  let a := { a with poison := a.poison || poison }
  match p with
  | .nan _ => { a with nan := true }
  | .inf neg => if neg then { a with ninf := true } else { a with pinf := true }
  | .fin x =>
    let second := e.ch && k % 2 == 1
    let a := if second then { a with open1 := a.open1 ++ [x] } else { a with open0 := a.open0 ++ [x] }
    if (if second then a.open1 else a.open0).length ≥ g then a.close e second else a

/-- 07 R139: the value and the exceptions when every term is in. -/
def ElemAcc.finish (e : Eph) (a : ElemAcc) : FRes :=
  match f32.dec a.c0 with
  | .nan _ => ⟨f32.nanBits, fInvalid⟩
  | _ =>
    if a.nan || (a.pinf && a.ninf) then ⟨f32.nanBits, fInvalid⟩
    else if a.pinf || a.ninf then addF32 a.c0 (f32.infBits a.ninf) e.rz
    else
      let a := if a.open0.isEmpty then a else a.close e false
      let a := if a.open1.isEmpty then a else a.close e true
      if e.ch then let r := addF32 a.acc0 a.acc1 e.rz; ⟨r.bits, a.flags ||| r.flags⟩ else ⟨a.acc0, a.flags⟩

/-- 07 R139: the whole function, for the terms p in order with groups of G terms. -/
def dotContract (e : Eph) (g : Nat) (c : DWord) (ps : List FVal) : FRes :=
  (ps.zipIdx.foldl (fun a (p, k) => a.term e g k p false) (ElemAcc.start c false)).finish e

/-- 07 R143: the signed limits of 32 bits. -/
def satS32 (x : Int) : Int := max (-2147483648) (min 2147483647 x)

/-- 07 R139, R141: terms of a group; `dflt` where the entry takes it from the operation. -/
def Eph.group (e : Eph) (dflt : Nat) : Nat := if e.lg == 0 then dflt else 2 ^ e.lg

/-- 07 R144: one step of the FP64 chain. DEDUCED (log 47): an exact zero is +0, but -0 where the product and the accumulator are both -0; R112 leaves that sign to each instruction, and R144 gives none. -/
def chain64 (acc a b : DWord) : FRes :=
  match termMul (f64.dec a) (f64.dec b), f64.dec acc with
  | .fin p, .fin z =>
    let s := exAdd p z
    if s.m == 0 then ⟨f64.signed (p.m == 0 && z.m == 0 && p.neg && z.neg) 0, 0⟩ else roundTo f64 .rn false false s
  | .nan _, _ => ⟨f64.nanBits, fInvalid⟩
  | _, .nan _ => ⟨f64.nanBits, fInvalid⟩
  | .inf p, .inf q => if p != q then ⟨f64.nanBits, fInvalid⟩ else ⟨f64.infBits p, 0⟩
  | .inf p, .fin _ => ⟨f64.infBits p, 0⟩
  | .fin _, .inf q => ⟨f64.infBits q, 0⟩

end Sys2Proof.Machine
end

