-- ==== Sys2Proof/Machine/Approx.lean ====
section
/-! DEFINITION. The approximate functions (11 R238, R239): the exact real is enclosed between two integers at 640 fraction bits; where both ends give one answer that answer is the function's (log entry 23). -/

namespace Sys2Proof.Machine

/-- Fraction bits of the enclosures. -/
def apN : Nat := 640
/-- floor(ln 2 · 2^640). -/
def ln2Fix : Nat := 0xb17217f7d1cf79abc9e3b39803f2f6af40f343267298b62d8a0d175b8baafa2be7b876206debac98559552fb4afa1b10ed2eae35c138214427573b291169b8253e96ca16224ae8c51acbda11317c387e
/-- floor(π/2 · 2^640). -/
def halfPiFix : Nat := 0x1921fb54442d18469898cc51701b839a252049c1114cf98e804177d4c76273644a29410f31c6809bbdf2a33679a748636605614dbe4be286e9fc26adadaa3848bc90b6aecc4bcfd8de89885d34c6fdad6

/-- What is known of a function's exact real value: it is a dyadic number, or lies strictly between lo and hi units of 2^e. -/
inductive Enc where
  | exact (x : ExReal)
  | within (neg : Bool) (lo hi : Nat) (e : Int)
deriving DecidableEq, Repr, Inhabited

/-- The sum of t^k / k! at 640 bits, each term rounded down: it lies below e^t by less than 200 units for t below 1. -/
def expSum (t : Nat) : Nat → Nat → Nat → Nat
  | _, _, 0 => 0
  | k, term, n + 1 => term + expSum t (k + 1) (term * t / 2 ^ apN / (k + 1)) n
/-- e^t for 0 ≤ t < 1, from below. -/
def expLow (t : Nat) : Nat := expSum t 0 (2 ^ apN) 150

/-- Alternating series of sin or cos at 640 bits from a term on: term k is t^k / k!. -/
def trigSum (t2 : Nat) : Nat → Nat → Bool → Nat → Int
  | _, _, _, 0 => 0
  | k, term, neg, n + 1 => (if neg then -(term : Int) else term) + trigSum t2 (k + 2) (term * t2 / 2 ^ apN / ((k + 1) * (k + 2))) (!neg) n

/-- atanh(z) / z as a power series in z²: sum of z2^k / (2k+1), rounded down. -/
def atanhSum (z2 : Nat) : Nat → Nat → Nat → Nat
  | _, _, 0 => 0
  | k, term, n + 1 => term / (2 * k + 1) + atanhSum z2 (k + 1) (term * z2 / 2 ^ apN) n

/-- A positive dyadic number as units of 2^-640, exact for exponents from −640 up. -/
def fixOf (x : ExReal) : Nat := x.m * 2 ^ (x.e + apN).toNat

/-- 1/x. -/
def encRcp (x : ExReal) : Enc :=
  let k := bitLen x.m + 80
  let q := 2 ^ k / x.m
  if 2 ^ k % x.m == 0 then .exact ⟨x.neg, q, -x.e - k⟩ else .within x.neg q (q + 1) (-x.e - k)

/-- 1/√x for x above zero: the square root of 1/x. -/
def encRsq (x : ExReal) : Enc :=
  let (m, e) := if x.e % 2 == 0 then (x.m, x.e) else (2 * x.m, x.e - 1)
  let n := 2 ^ 400 / m
  let r := isqrt n
  if 2 ^ 400 % m == 0 && r * r == n then .exact ⟨false, r, -(e / 2) - 200⟩
  else .within false r (r + 1) (-(e / 2) - 200)

/-- 2^x. -/
def encExp2 (x : ExReal) : Enc :=
  if x.m == 0 then .exact ⟨false, 1, 0⟩
  else if exLog x ≥ 9 then .within false 1 2 (if x.neg then -600 else 600)
  else
    let v := x.at (-apN)
    let n := v / 2 ^ apN; let f := (v % 2 ^ apN).toNat
    if f == 0 then .exact ⟨false, 1, n⟩
    else
      let lo := expLow (f * ln2Fix / 2 ^ apN)
      .within false lo (lo + 400) (n - apN)

/-- log2 x for x above zero. -/
def encLog2 (x : ExReal) : Enc :=
  let k := exLog x
  if x.m == 2 ^ Nat.log2 x.m then .exact (exInt k)
  else
    -- x = 2^k r, r in (1, 2); z = (r - 1) / (r + 1)
    let d := 2 ^ Nat.log2 x.m
    let zl := (x.m - d) * 2 ^ apN / (x.m + d)
    let al := zl * atanhSum (zl * zl / 2 ^ apN) 0 (2 ^ apN) 240 / 2 ^ apN
    let lo : Int := k * 2 ^ apN + (2 * al * 2 ^ apN / (ln2Fix + 1) : Nat)
    let hi : Int := k * 2 ^ apN + (2 * (al + 600) * 2 ^ apN / ln2Fix + 1 : Nat)
    if lo ≥ 0 then .within false lo.toNat hi.toNat (-apN) else .within true (-hi).toNat (-lo).toNat (-apN)

/-- sin x or cos x for x not zero. -/
def encTrig (cos : Bool) (x : ExReal) : Enc :=
  let v := x.m * 2 ^ (x.e + apN).toNat
  let n := v / halfPiFix
  let r : Int := (v : Int) - n * halfPiFix      -- r exceeds the true remainder by less than n units
  let t := r.toNat; let t2 := t * t / 2 ^ apN
  let err : Int := n + 400
  let c := trigSum t2 0 (2 ^ apN) false 90
  let s := trigSum t2 1 t false 90
  let q := (n + (if cos then 1 else 0)) % 4
  let m : Int := match q with | 0 => s | 1 => c | 2 => -s | _ => -c
  let m := if x.neg && !cos then -m else m
  if m - err ≥ 0 then .within false (m - err).toNat (m + err).toNat (-apN)
  else if m + err ≤ 0 then .within true (-m - err).toNat (-m + err).toNat (-apN)
  else .within (decide (m < 0)) 0 err.toNat (-apN)

/-- tanh x for x not zero: (e^(2x) − 1) / (e^(2x) + 1), with e^(2x) as the 64th power of e^(2x/64). -/
def encTanh (x : ExReal) : Enc :=
  if exLog x ≥ 5 then .within x.neg (2 ^ apN - 2 ^ (apN - 90)) (2 ^ apN) (-apN)
  else
    let t := fixOf { x with e := x.e + 1 } / 64
    let sq (v : Nat) : Nat := v * v / 2 ^ apN
    let lo := (List.range 6).foldl (fun v _ => sq v) (expLow t)
    let hi := (List.range 6).foldl (fun v _ => sq v + 1) (expLow t + 400)
    .within x.neg ((lo - 2 ^ apN) * 2 ^ apN / (lo + 2 ^ apN)) ((hi - 2 ^ apN) * 2 ^ apN / (hi + 2 ^ apN) + 1) (-apN)

/-- The functions. -/
inductive ApFn where
  | rcp | rsq | exp2 | log2 | sin | cos | tanh
deriving DecidableEq, Repr, Inhabited

/-- The exact real value of a function at a finite argument that the special-value table does not list. -/
def ApFn.enc (fn : ApFn) (x : ExReal) : Enc :=
  match fn with
  | .rcp => encRcp x
  | .rsq => encRsq x
  | .exp2 => encExp2 x
  | .log2 => encLog2 x
  | .sin => encTrig false x
  | .cos => if x.m == 0 then .exact ⟨false, 1, 0⟩ else encTrig true x
  | .tanh => encTanh x

/-- 11 R239: the special-value table; a result as a decoded value with its exception. -/
def ApFn.special (fn : ApFn) (x : FVal) : Option (FVal × FpFlags) :=
  let nan : FVal := .nan false
  match x, fn with
  | .nan sig, _ => some (nan, if sig then fInvalid else 0)
  | .inf neg, .rcp => some (.fin (exZero neg), 0)
  | .inf neg, .rsq => some (if neg then (nan, fInvalid) else (.fin (exZero false), 0))
  | .inf neg, .exp2 => some (if neg then (.fin (exZero false), 0) else (.inf false, 0))
  | .inf neg, .log2 => some (if neg then (nan, fInvalid) else (.inf false, 0))
  | .inf _, .sin => some (nan, fInvalid)
  | .inf _, .cos => some (nan, fInvalid)
  | .inf neg, .tanh => some (.fin ⟨neg, 1, 0⟩, 0)
  | .fin x, .rcp => if x.m == 0 then some (.inf x.neg, fDivzero) else none
  | .fin x, .rsq => if x.m == 0 then some (.inf x.neg, fDivzero) else if x.neg then some (nan, fInvalid) else none
  | .fin x, .log2 => if x.m == 0 then some (.inf true, fDivzero) else if x.neg then some (nan, fInvalid)
                     else if exCmp x ⟨false, 1, 0⟩ == 0 then some (.fin (exZero false), 0) else none
  | .fin x, .sin => if x.m == 0 then some (.fin x, 0) else none
  | .fin x, .tanh => if x.m == 0 then some (.fin x, 0) else none
  | .fin _, _ => none

/-- x truncated toward zero to a number of significant bits, on the f32 subnormal grid where it is coarser. -/
def truncSig (bits : Int) (grid : Bool) (x : ExReal) : ExReal :=
  if x.m == 0 then x
  else
    let q := if grid then max (exLog x - bits + 1) (-149) else exLog x - bits + 1
    if q ≤ x.e then x else ⟨x.neg, (split2 x.m x.e q false).1, q⟩

/-- 11 R238: the result for an exact real y: y = x, or strictly above x in magnitude by less than one unit when `open_`. -/
def apRound (ft : Nat) (t : Fmt) (fz : Bool) (x : ExReal) (open_ : Bool) : FRes :=
  if x.m == 0 && !open_ then ⟨t.signed x.neg 0, 0⟩
  else if x.m != 0 && exLog x ≥ 128 then ⟨t.infBits x.neg, fOverflow ||| fInexact⟩
  else
    let z := if ft == 1 then (let z := truncSig 17 false x; if z.m == 0 || exLog z < -126 then exZero x.neg else z)
      else if ft == 2 then truncSig 22 true x
      else match f32.dec (roundTo f32 .rn false false x open_).bits with
        | .fin z => z
        | _ => ⟨x.neg, 1, 128⟩
    let r := roundTo t .rn false fz z
    let v := match t.dec r.bits with
      | .fin v => v
      | _ => ⟨x.neg, 1, 4000⟩
    let inex := open_ || exCmp v x != 0
    let small := v.m == 0 || exLog v < t.emin
    ⟨r.bits, r.flags &&& fOverflow ||| (if inex || r.flags &&& fOverflow != 0 then fInexact else 0) |||
      (if (inex && small) || r.flags &&& fUnderflow != 0 then fUnderflow ||| fInexact else 0)⟩

/-- 11 R238, R239: a function of an operand of type t. When the enclosure does not settle the result it is a free value (log entry 23). -/
def approx (fn : ApFn) (ft : Nat) (t : Fmt) (fz : Bool) (a : DWord) (free : Nat) : FRes :=
  let a := if fz then t.flush a else a
  let x := match t.dec a with
    | .fin x => if ft == 1 && x.m != 0 && exLog x < -126 then .fin (exZero x.neg) else .fin x
    | v => v
  match fn.special x with
  | some (v, fl) => let r := convTo t .rn false fz v; ⟨r.bits, r.flags ||| fl⟩
  | none =>
    match x with
    | .fin x =>
      match fn.enc x with
      | .exact y => apRound ft t fz y false
      | .within neg lo hi e =>
        let p := apRound ft t fz ⟨neg, lo, e⟩ true; let q := apRound ft t fz ⟨neg, hi - 1, e⟩ true
        if p == q then p else ⟨BitVec.ofNat 64 (free % 2 ^ t.width), fInexact⟩
    | _ => ⟨t.nanBits, 0⟩

end Sys2Proof.Machine
end

