-- ==== Sys2Proof/Machine/Float.lean ====
section
/-! DEFINITION. Floating-point arithmetic, compares, conversions and the approximate functions on registers (11 R224 to R239). -/

namespace Sys2Proof.Machine

/-! ## Control (08 R160; 06 R110, R111; 11 R226) -/

/-- The scalar format of a type code. -/
def tyFmt (t : Nat) : Fmt := match t with | 0 => f16 | 1 => bf16 | 2 => f32 | 3 => f64 | 4 => f16 | _ => bf16
/-- A packed type. -/
def tyPacked (t : Nat) : Bool := t == 4 || t == 5
/-- 06 R110: the flush-to-zero opt-in of a format in $fpcr. -/
def fzOf (fpcr : Word) (f : Fmt) : Bool :=
  if f == f64 then fpcr.getLsbD 4 else if f == f32 then fpcr.getLsbD 5 else if f == f16 then fpcr.getLsbD 6 else if f == bf16 then fpcr.getLsbD 7 else false
/-- 06 R111: the rounding mode of a field value; .dyn through $fpcr.RMODE. -/
def modeOf (fpcr : Word) (r : Nat) : Rnd :=
  match (if r == 5 then fpcr.toNat % 8 else r) with
  | 1 => .rz | 2 => .ru | 3 => .rd | 4 => .rna | _ => .rn
/-- $fpcr.TE. -/
def teOf (fpcr : Word) : FpFlags := fpcr.extractLsb' 8 5

/-- The outcome of one lane before the trap check: value, poison, exceptions. -/
structure LaneF where
  val : DWord
  poison : Bool
  flags : FpFlags
deriving DecidableEq, Repr, Inhabited

/-- 11 R226: the lanes that raised the lowest enabled kind, with the kind; `none` when no enabled kind was raised. -/
def fpTrap (e : Env) (f : Nat → LaneF) : Option (Nat × List Nat) :=
  let fl (L : Nat) : FpFlags := if (f L).poison then 0 else (f L).flags
  let all := e.lanes.foldl (fun a L => a ||| fl L) 0 &&& teOf e.sr.fpcr
  if all == 0 then none
  else let k := lowestKind all; some (k, e.lanes.filter fun L => (fl L).getLsbD k)

/-- The bits an outcome sets in $fpflags. -/
def LaneF.bits (r : LaneF) : Word := if r.poison then poisonFlag else r.flags.setWidth 32

/-- 11 R226: the handling every float instruction shares, with a register result of n words: fixed latency, or on a counter. -/
def fpResult (e : Env) (lat : Nat) (ctr : Option Nat) (n : Nat) (dst : Opd) (addr : DWord) (f : Nat → LaneF) : Act :=
  match fpTrap e f with
  | some (k, ls) => .trap (0x10 + k) (lanesMask ls) addr
  | none =>
    let rs := laneResults e n fun L => ⟨(f L).val, (f L).poison⟩
    match ctr with
    | none => .done (e.lanes.foldl (fun g L => g.orFlags e.s lat L (f L).bits) (e.g.writeDst e.s lat dst rs)) e.s
    | some c => pendResult e c (dstWrites dst rs) (e.lanes.map fun L => (L, (f L).bits)) e.g e.s

/-! ## Operations on one element (11 R227 to R229, R233): operands are already flushed and negated -/

/-- A NaN operand gives the default NaN, invalid when one is signalling (11 R228). -/
def nanRes (f : Fmt) (vs : List FVal) : FRes := ⟨f.nanBits, if vs.any fun v => v == .nan true then fInvalid else 0⟩
/-- Some operand is a NaN. -/
def anyNan (vs : List FVal) : Bool := vs.any fun v => match v with | .nan _ => true | _ => false

/-- 11 R228: round an exact sum of x and y; an exact zero is +0, or −0 under .rd, and −0 when both are −0. -/
def roundSum (f : Fmt) (mode : Rnd) (sat fz : Bool) (x y : ExReal) : FRes :=
  let s := exAdd x y
  if s.m == 0 then
    ⟨f.signed ((x.m == 0 && y.m == 0 && x.neg && y.neg) || mode == .rd) 0, 0⟩
  else roundTo f mode sat fz s

/-- a × b + c with one rounding, from a decoded product. -/
def addVals (f : Fmt) (mode : Rnd) (sat fz : Bool) (a b : FVal) : FRes :=
  match a, b with
  | .inf p, .inf q => if p != q then ⟨f.nanBits, fInvalid⟩ else ⟨f.infBits p, 0⟩
  | .inf p, _ => ⟨f.infBits p, 0⟩
  | _, .inf q => ⟨f.infBits q, 0⟩
  | .fin x, .fin y => roundSum f mode sat fz x y
  | _, _ => ⟨f.nanBits, 0⟩

/-- FADD, FSUB. -/
def opAdd (f : Fmt) (mode : Rnd) (sat fz : Bool) (a b : DWord) : FRes :=
  let x := f.dec a; let y := f.dec b
  if anyNan [x, y] then nanRes f [x, y] else addVals f mode sat fz x y
/-- The sign bit inverted. -/
def Fmt.neg (f : Fmt) (w : DWord) : DWord := w ^^^ BitVec.ofNat 64 (2 ^ (f.width - 1))
/-- FMUL. -/
def opMul (f : Fmt) (mode : Rnd) (sat fz : Bool) (a b : DWord) : FRes :=
  let x := f.dec a; let y := f.dec b
  if anyNan [x, y] then nanRes f [x, y]
  else match termMul x y with
    | .nan _ => ⟨f.nanBits, fInvalid⟩
    | .inf p => ⟨f.infBits p, 0⟩
    | .fin z => roundTo f mode sat fz z
/-- FFMA. -/
def opFma (f : Fmt) (mode : Rnd) (sat fz : Bool) (a b c : DWord) : FRes :=
  let x := f.dec a; let y := f.dec b; let z := f.dec c
  if anyNan [x, y] then nanRes f [x, y, z]
  else match termMul x y with
    | .nan _ => ⟨f.nanBits, fInvalid⟩
    | p => if anyNan [z] then nanRes f [z] else addVals f mode sat fz p z
/-- FDIV. -/
def opDiv (f : Fmt) (mode : Rnd) (sat fz : Bool) (a b : DWord) : FRes :=
  match f.dec a, f.dec b with
  | .fin x, .fin y =>
    let neg := x.neg != y.neg
    if y.m == 0 then (if x.m == 0 then ⟨f.nanBits, fInvalid⟩ else ⟨f.infBits neg, fDivzero⟩)
    else if x.m == 0 then ⟨f.signed neg 0, 0⟩
    else
      let k := bitLen y.m + 70
      roundTo f mode sat fz ⟨neg, x.m * 2 ^ k / y.m, x.e - y.e - k⟩ (x.m * 2 ^ k % y.m != 0)
  | .inf _, .inf _ => ⟨f.nanBits, fInvalid⟩
  | .inf p, .fin y => ⟨f.infBits (p != y.neg), 0⟩
  | .fin x, .inf q => ⟨f.signed (x.neg != q) 0, 0⟩
  | x, y => nanRes f [x, y]
/-- FSQRT. -/
def opSqrt (f : Fmt) (mode : Rnd) (sat fz : Bool) (a : DWord) : FRes :=
  match f.dec a with
  | .fin x =>
    if x.m == 0 then ⟨f.signed x.neg 0, 0⟩
    else if x.neg then ⟨f.nanBits, fInvalid⟩
    else
      let e := x.e - 140 - (x.e % 2)
      let n := x.m * 2 ^ (x.e - e).toNat
      let r := isqrt n
      roundTo f mode sat fz ⟨false, r, e / 2⟩ (r * r != n)
  | .inf neg => if neg then ⟨f.nanBits, fInvalid⟩ else ⟨f.infBits false, 0⟩
  | x => nanRes f [x]

/-- 11 R229: FMIN, FMAX and their Number forms. -/
def opMinMax (f : Fmt) (max num : Bool) (a b : DWord) : FRes :=
  let x := f.dec a; let y := f.dec b
  let fl := (nanRes f [x, y]).flags
  let n (v : FVal) : Bool := anyNan [v]
  if n x && n y then ⟨f.nanBits, fl⟩
  else if n x || n y then (if num then ⟨if n x then b else a, fl⟩ else ⟨f.nanBits, fl⟩)
  else
    let neg (w : DWord) : Bool := w.getLsbD (f.width - 1)
    let mag (w : DWord) : Nat := w.toNat % 2 ^ (f.width - 1)
    let lt := if neg a != neg b then neg a else if neg a then mag b < mag a else mag a < mag b
    ⟨if lt == max then b else a, 0⟩

/-- FRINT (11 R233). -/
def opRint (f : Fmt) (mode : Rnd) (a : DWord) : FRes :=
  match f.dec a with
  | .fin x =>
    let (k, inex) := roundInt mode x
    ⟨(roundTo f .rn false false ⟨x.neg, k.natAbs, 0⟩).bits, if inex then fInexact else 0⟩
  | .inf neg => ⟨f.infBits neg, 0⟩
  | x => nanRes f [x]
/-- FSCALEB (11 R233); beyond 10,000 the power of two changes no result. -/
def opScaleb (f : Fmt) (mode : Rnd) (sat fz : Bool) (a : DWord) (b : Word) : FRes :=
  match f.dec a with
  | .fin x => roundTo f mode sat fz { x with e := x.e + max (-10000) (min 10000 b.toInt) }
  | .inf neg => ⟨f.infBits neg, 0⟩
  | x => nanRes f [x]
/-- FLOGB (11 R233). -/
def opLogb (f : Fmt) (a : DWord) : FRes :=
  match f.dec a with
  | .fin x => if x.m == 0 then ⟨f.infBits true, fDivzero⟩ else roundTo f .rn false false (exInt (exLog x))
  | .inf _ => ⟨f.infBits false, 0⟩
  | x => nanRes f [x]

/-! ## Whole registers (11 R224) -/

/-- One register value taken element by element: scalar formats from the low bits, packed formats in two halves. -/
def perElem (t : Nat) (op : Fmt → (Nat → DWord → DWord) → FRes) : FRes :=
  let f := tyFmt t
  if tyPacked t then
    let lo := op f fun _ w => w.extractLsb' 0 16 |>.setWidth 64
    let hi := op f fun _ w => w.extractLsb' 16 16 |>.setWidth 64
    ⟨lo.bits ||| (hi.bits <<< 16), lo.flags ||| hi.flags⟩
  else op f fun _ w => BitVec.ofNat 64 (w.toNat % 2 ^ f.width)

/-- Latency of float arithmetic by type (08 R171). -/
def fpLat (t : Nat) : Nat := if t == 3 then 6 else 4

/-- A V-format float word: how many of a, b, c it reads, negations, and its operation on flushed, negated elements. -/
def fltV (i : Instr) (w : WV) (nsrc : Nat) (ctr : Bool) (op : Fmt → Rnd → Bool → Bool → DWord → DWord → DWord → FRes) (s : State) : Answer :=
  let t := fTy w.mod; let n := tyWords t
  runInstr i w.g { usesV n n (if nsrc ≥ 2 then n else 0) (if nsrc ≥ 3 then n else 0) w with fixedDst := !ctr }
    (fun e =>
      fpResult e (fpLat t) (if ctr then some (w.mod.getLsbD 0).toNat else none) n w.dst 0 fun L =>
        let a := e.rN w.a n L
        let b := if nsrc ≥ 2 then e.rN w.b n L else ⟨0, false⟩
        let c := if nsrc ≥ 3 then e.rN w.c n L else ⟨0, false⟩
        let r := perElem t fun f el =>
          let fz := fzOf e.sr.fpcr f
          let pr (ng : Bool) (x : DWord) : DWord := let x := if fz then f.flush x else x; if ng then f.neg x else x
          op f (modeOf e.sr.fpcr (fRnd w.mod)) (w.mod.getLsbD 2) fz (pr (w.mod.getLsbD 1) (el 0 a.val)) (pr false (el 1 b.val))
            (pr (nsrc ≥ 3 && w.mod.getLsbD 0) (el 2 c.val))
        ⟨r.bits, a.poison || b.poison || c.poison, r.flags⟩) s

/-- FADD (11 R227). -/
def execFadd (w : WV) (s : State) : Answer := fltV (.fadd w) w 2 false (fun f m sat fz a b _ => opAdd f m sat fz a b) s
/-- FSUB (11 R227). -/
def execFsub (w : WV) (s : State) : Answer := fltV (.fsub w) w 2 false (fun f m sat fz a b _ => opAdd f m sat fz a (f.neg b)) s
/-- FMUL (11 R227). -/
def execFmul (w : WV) (s : State) : Answer := fltV (.fmul w) w 2 false (fun f m sat fz a b _ => opMul f m sat fz a b) s
/-- FFMA (11 R227). -/
def execFfma (w : WV) (s : State) : Answer := fltV (.ffma w) w 3 false (fun f m sat fz a b c => opFma f m sat fz a b c) s
/-- FDIV (11 R227). -/
def execFdiv (w : WV) (s : State) : Answer := fltV (.fdiv w) w 2 true (fun f m sat fz a b _ => opDiv f m sat fz a b) s
/-- FSQRT (11 R227). -/
def execFsqrt (w : WV) (s : State) : Answer := fltV (.fsqrt w) w 1 true (fun f m sat fz a _ _ => opSqrt f m sat fz a) s
/-- FMIN (11 R229). -/
def execFmin (w : WV) (s : State) : Answer := fltV (.fmin w) w 2 false (fun f _ _ _ a b _ => opMinMax f false false a b) s
/-- FMAX (11 R229). -/
def execFmax (w : WV) (s : State) : Answer := fltV (.fmax w) w 2 false (fun f _ _ _ a b _ => opMinMax f true false a b) s
/-- FMINNUM (11 R229). -/
def execFminnum (w : WV) (s : State) : Answer := fltV (.fminnum w) w 2 false (fun f _ _ _ a b _ => opMinMax f false true a b) s
/-- FMAXNUM (11 R229). -/
def execFmaxnum (w : WV) (s : State) : Answer := fltV (.fmaxnum w) w 2 false (fun f _ _ _ a b _ => opMinMax f true true a b) s
/-- FRINT (11 R233). -/
def execFrint (w : WV) (s : State) : Answer := fltV (.frint w) w 1 false (fun f m _ _ a _ _ => opRint f m a) s
/-- FLOGB (11 R233). -/
def execFlogb (w : WV) (s : State) : Answer := fltV (.flogb w) w 1 false (fun f _ _ _ a _ _ => opLogb f a) s
/-- FSCALEB (11 R233): b is one 32-bit register. -/
def execFscaleb (w : WV) (s : State) : Answer :=
  let t := fTy w.mod; let n := tyWords t; let f := tyFmt t
  runInstr (.fscaleb w) w.g (usesV n n 1 0 w)
    (fun e => fpResult e (fpLat t) none n w.dst 0 fun L =>
      let a := e.rN w.a n L; let b := e.r32 w.b L
      let fz := fzOf e.sr.fpcr f
      let x := BitVec.ofNat 64 (a.val.toNat % 2 ^ f.width)
      let x := if fz then f.flush x else x
      let r := opScaleb f (modeOf e.sr.fpcr (fRnd w.mod)) (w.mod.getLsbD 2) fz (if w.mod.getLsbD 1 then f.neg x else x) b.w
      ⟨r.bits, a.poison || b.poison, r.flags⟩) s

/-- FABS, FNEG, FCOPYSIGN (11 R230): on bits, no opt-in, no flag. -/
def fltBits (i : Instr) (w : WV) (two : Bool) (op : Fmt → DWord → DWord → DWord) (s : State) : Answer :=
  let t := fTy w.mod; let n := tyWords t
  runInstr i w.g (usesV n n (if two then n else 0) 0 w)
    (fun e => fpResult e (fpLat t) none n w.dst 0 fun L =>
      let a := e.rN w.a n L; let b := if two then e.rN w.b n L else ⟨0, false⟩
      ⟨(perElem t fun f el => ⟨op f (el 0 a.val) (el 1 b.val), 0⟩).bits, a.poison || b.poison, 0⟩) s
/-- The sign bit of a format as a word. -/
def Fmt.top (f : Fmt) : DWord := BitVec.ofNat 64 (2 ^ (f.width - 1))
/-- FABS. -/
def execFabs (w : WV) (s : State) : Answer := fltBits (.fabs w) w false (fun f a _ => a &&& ~~~f.top) s
/-- FNEG. -/
def execFneg (w : WV) (s : State) : Answer := fltBits (.fneg w) w false (fun f a _ => a ^^^ f.top) s
/-- FCOPYSIGN. -/
def execFcopysign (w : WV) (s : State) : Answer := fltBits (.fcopysign w) w true (fun f a b => (a &&& ~~~f.top) ||| (b &&& f.top)) s

/-! ## Compare and class (11 R231, R232) -/

/-- A C-format float result, with the trap check of R226: a lane whose combined result is poisoned, by its predicate pc too, raises POISON alone. -/
def fpCmpResult (e : Env) (w : WC) (lat : Nat) (f : Nat → LaneF) : Act :=
  let r (L : Nat) : LaneF := { f L with poison := (f L).poison || (w.comb != 0 && (rdPred e.s0 e.g0 w.pc.toNat L).2) }
  match fpTrap e r with
  | some (k, ls) => .trap (0x10 + k) (lanesMask ls) 0
  | none => cmpResult e w lat (fun L => ((r L).val == 1, (r L).poison)) fun L => (r L).bits

/-- 11 R231, 08 R179: a condition of two values; −0 equals +0. -/
def fcmpHolds (cond : Nat) (x y : FVal) : Bool :=
  let ex (v : FVal) : ExReal := match v with | .fin x => x | .inf neg => ⟨neg, 1, 5000⟩ | .nan _ => exZero false
  let nan := anyNan [x, y]
  let c := exCmp (ex x) (ex y)
  match cond with
  | 6 => !nan
  | 7 => nan
  | _ => if nan then (cond == 1 || cond ≥ 8) else condHolds (cond % 8) (c == 0) (c == -1)

/-- FCMP. -/
def execFcmp (w : WC) (s : State) : Answer :=
  let t := w.ty.toNat; let n := tyWords t; let f := tyFmt t
  let a := decOpd w.a; let b := decOpd w.b
  runInstr (.fcmp w) w.g (usesC [(a, n, w.la), (b, n, w.lb)] [] w)
    (fun e => fpCmpResult e w (fpLat t) fun L =>
      let x := e.rN a n L; let y := e.rN b n L
      let fl (v : DWord) : DWord := if fzOf e.sr.fpcr f then f.flush (BitVec.ofNat 64 (v.toNat % 2 ^ f.width)) else v
      let u := f.dec (fl x.val); let v := f.dec (fl y.val)
      let cond := w.cond.toNat
      let inv := u == .nan true || v == .nan true || (anyNan [u, v] && 2 ≤ cond && cond ≤ 5)
      ⟨if fcmpHolds cond u v then 1 else 0, x.poison || y.poison, if inv then fInvalid else 0⟩) s

/-- 11 R232: the classes. -/
def fclassHolds (f : Fmt) (k : Nat) (w : DWord) : Bool :=
  let neg := w.getLsbD (f.width - 1)
  let sub := f.subnormal w
  match f.dec w with
  | .nan sig => (match k with | 8 => sig | 9 => !sig | 14 => true | 15 => neg | _ => false)
  | .inf n => (match k with | 0 => n | 7 => !n | 13 => true | 15 => n | _ => false)
  | .fin x =>
    let zero := x.m == 0; let norm := !zero && !sub
    match k with
    | 1 => neg && norm | 2 => neg && sub | 3 => neg && zero | 4 => !neg && zero | 5 => !neg && sub | 6 => !neg && norm
    | 10 => true | 11 => zero | 12 => sub | 15 => neg | _ => false

/-- FCLASS: on bits; no flag. -/
def execFclass (w : WC) (s : State) : Answer :=
  let t := w.ty.toNat; let n := tyWords t; let f := tyFmt t; let a := decOpd w.a
  runInstr (.fclass w) w.g (usesC [(a, n, w.la)] [] w)
    (fun e => cmpResult e w (fpLat t) (fun L =>
      let x := e.rN a n L
      (fclassHolds f w.cond.toNat (BitVec.ofNat 64 (x.val.toNat % 2 ^ f.width)), x.poison)) fun _ => 0) s

/-! ## Conversions (11 R234 to R237) -/

/-- 11 R235: group_id. -/
def groupId (g : Group) : DWord := BitVec.ofNat 64 (((g.wgz * 2 ^ 21 + g.wgy) * 2 ^ 21 + g.wgx) * 32 + g.grp)

/-- 11 R234: source and destination formats of a CONV value below 0x18; none for E8M0. -/
def convFmts (c : Nat) : Option Fmt × Option Fmt :=
  match c with
  | 0x00 => (some f64, some f32) | 0x01 => (some f64, some f16) | 0x02 => (some f64, some bf16)
  | 0x03 => (some f32, some f64) | 0x04 => (some f32, some f16) | 0x05 => (some f32, some bf16)
  | 0x06 => (some f16, some f64) | 0x07 => (some f16, some f32) | 0x08 => (some f16, some bf16)
  | 0x09 => (some bf16, some f64) | 0x0A => (some bf16, some f32) | 0x0B => (some bf16, some f16)
  | 0x0C => (some f32, some e4m3) | 0x0D => (some f32, some e5m2) | 0x0E => (some f32, some e2m3) | 0x0F => (some f32, some e3m2)
  | 0x10 => (some f32, some e2m1) | 0x11 => (some f32, none)
  | 0x12 => (some e4m3, some f32) | 0x13 => (some e5m2, some f32) | 0x14 => (some e2m3, some f32) | 0x15 => (some e3m2, some f32)
  | 0x16 => (some e2m1, some f32) | 0x17 => (none, some f32)
  | 0x18 => (some f32, some f16) | _ => (some f32, some bf16)

/-- 11 R235, 06 R126: one element converted; `none` names E8M0. -/
def cvtElem (src dst : Option Fmt) (mode : Rnd) (sat : Bool) (fpcr : Word) (a : DWord) : FRes :=
  let v := match src with
    | some f => f.dec (if fzOf fpcr f then f.flush (BitVec.ofNat 64 (a.toNat % 2 ^ f.width)) else a)
    | none => decE8M0 (a.toNat % 256)
  match dst with
  | some f => convTo f mode sat (fzOf fpcr f) v
  | none => convE8M0 v

/-- 11 R235: the mode of a conversion in a lane; .sr draws by R114. -/
def cvtMode (e : Env) (rnd elem L : Nat) (c : Word) : Rnd :=
  if rnd == 6 then srDraw (e.sr.rngkey ^^^ groupId e.g0) (BitVec.ofNat 64 (2 ^ 63 + elem * 2 ^ 40 + c.toNat * 256 + L)) else modeOf e.sr.fpcr rnd

/-- CVT (11 R234, R235). -/
def execCvt (w : WV) (s : State) : Answer :=
  let conv := (w.mod.extractLsb' 4 5).toNat; let rnd := (w.mod.extractLsb' 1 3).toNat; let sat := w.mod.getLsbD 0
  let nd := if conv == 3 || conv == 6 || conv == 9 then 2 else 1; let na := if conv ≤ 2 then 2 else 1
  let two := conv ≥ 0x18
  runInstr (.cvt w) w.g (usesV nd na (if two then 1 else 0) (if rnd == 6 then 1 else 0) w)
    (fun e => fpResult e 4 none nd w.dst 0 fun L =>
      let a := e.rN w.a na L
      let b := if two then e.r32 w.b L else ⟨0, false⟩
      let c := if rnd == 6 then e.r32 w.c L else ⟨0, false⟩
      let (sf, df) := convFmts conv
      let r0 := cvtElem sf df (cvtMode e rnd 0 L c.w) sat e.sr.fpcr a.val
      let r := if two then let r1 := cvtElem sf df (cvtMode e rnd 1 L c.w) sat e.sr.fpcr b.val; FRes.mk (r0.bits ||| (r1.bits <<< 16)) (r0.flags ||| r1.flags) else r0
      ⟨r.bits, a.poison || b.poison || c.poison, r.flags⟩) s

/-- 11 R236: width and signedness of an integer type code. -/
def intTy (t : Nat) : Nat × Bool :=
  match t with | 0 => (32, true) | 1 => (32, false) | 2 => (64, true) | 3 => (64, false) | 4 => (16, true) | 5 => (16, false) | 6 => (8, true) | _ => (8, false)

/-- CVTI (11 R236). -/
def execCvti (w : WV) (s : State) : Answer :=
  let ty := (w.mod.extractLsb' 7 2).toNat; let dt := (w.mod.extractLsb' 4 3).toNat; let rnd := (w.mod.extractLsb' 1 3).toNat
  let f := tyFmt ty; let na := tyWords ty; let nd := if dt == 2 || dt == 3 then 2 else 1
  runInstr (.cvti w) w.g (usesV nd na 0 0 w)
    (fun e => fpResult e 4 none nd w.dst 0 fun L =>
      let a := e.rN w.a na L
      let x := BitVec.ofNat 64 (a.val.toNat % 2 ^ f.width)
      let (wd, sg) := intTy dt
      let (lo, hi) : Int × Int := if sg then (-(2 ^ (wd - 1)), 2 ^ (wd - 1) - 1) else (0, 2 ^ wd - 1)
      let (v, fl) := convInt lo hi (modeOf e.sr.fpcr rnd) (f.dec (if fzOf e.sr.fpcr f then f.flush x else x))
      ⟨BitVec.ofInt 64 v, a.poison, fl⟩) s

/-- ICVTF (11 R237). -/
def execIcvtf (w : WV) (s : State) : Answer :=
  let st := (w.mod.extractLsb' 6 3).toNat; let dt := (w.mod.extractLsb' 4 2).toNat; let rnd := (w.mod.extractLsb' 1 3).toNat
  let f := tyFmt dt; let na := if st == 2 || st == 3 then 2 else 1; let nd := tyWords dt
  runInstr (.icvtf w) w.g (usesV nd na 0 (if rnd == 6 then 1 else 0) w)
    (fun e => fpResult e 4 none nd w.dst 0 fun L =>
      let a := e.rN w.a na L
      let c := if rnd == 6 then e.r32 w.c L else ⟨0, false⟩
      let (wd, sg) := intTy st
      let u := a.val.toNat % 2 ^ wd
      let v : Int := if sg && u ≥ 2 ^ (wd - 1) then (u : Int) - 2 ^ wd else u
      let r := roundTo f (cvtMode e rnd 0 L c.w) (w.mod.getLsbD 0) (fzOf e.sr.fpcr f) (exInt v)
      ⟨r.bits, a.poison || c.poison, r.flags⟩) s

/-! ## Approximate functions (11 R238) -/

/-- A function of the approximate unit on a register. -/
def fltAp (i : Instr) (w : WV) (fn : ApFn) (s : State) : Answer :=
  fltV i w 1 true (fun f _ _ fz a _ _ =>
    let ft := match curGang s with | some (_, _, g, _, _) => (eph ((g.effSr s).ctr.toNat % 256)).ft | none => 3
    approx fn ft f fz a (s.draw 52)) s
/-- FRCP. -/
def execFrcp (w : WV) (s : State) : Answer := fltAp (.frcp w) w .rcp s
/-- FRSQ. -/
def execFrsq (w : WV) (s : State) : Answer := fltAp (.frsq w) w .rsq s
/-- FEXP2. -/
def execFexp2 (w : WV) (s : State) : Answer := fltAp (.fexp2 w) w .exp2 s
/-- FLOG2. -/
def execFlog2 (w : WV) (s : State) : Answer := fltAp (.flog2 w) w .log2 s
/-- FSIN. -/
def execFsin (w : WV) (s : State) : Answer := fltAp (.fsin w) w .sin s
/-- FCOS. -/
def execFcos (w : WV) (s : State) : Answer := fltAp (.fcos w) w .cos s
/-- FTANH. -/
def execFtanh (w : WV) (s : State) : Answer := fltAp (.ftanh w) w .tanh s

end Sys2Proof.Machine
end

