-- ==== Sys2Proof/Machine/Micro.lean ====
section
/-! DEFINITION. Micro-ops of element programs: their words, their checks and what they do to an element, shared by drains and EXPR (15 R289, R295 to R304; 11 R242). -/

namespace Sys2Proof.Machine

/-- A micro-op word (15 R295). -/
structure Uop where
  op : Nat
  dst : Nat
  sa : Nat
  sb : Nat
  sc : Nat
  ty : Nat
  rnd : Nat
  sat : Bool
  na : Bool
  nc : Bool
  sub : Nat
deriving DecidableEq, Repr, Inhabited

/-- 15 R295. -/
def decUop (w : Word) : Uop :=
  let f (lo n : Nat) : Nat := (w.extractLsb' lo n).toNat
  ⟨f 27 5, f 24 3, f 20 4, f 16 4, f 12 4, f 10 2, f 7 3, w.getLsbD 6, w.getLsbD 5, w.getLsbD 4, f 0 4⟩

/-- What runs a program: a drain of an f32 tile, an s32 tile or a pair, or EXPR. -/
inductive UKind where
  | f32 | s32 | f64 | expr
deriving DecidableEq, Repr, Inhabited

/-- 15 R298: how many sources an op reads. -/
def Uop.nsrc (u : Uop) : Nat :=
  match u.op with
  | 0x05 => 3 | 0x0A => 3 | 0x0C => 3
  | 0x02 => 2 | 0x03 => 2 | 0x04 => 2 | 0x06 => 2 | 0x07 => 2 | 0x0B => 2 | 0x12 => 2
  | 0 => 0
  | _ => 1
/-- The source codes an op reads. -/
def Uop.srcs (u : Uop) : List Nat := [u.sa, u.sb, u.sc].take u.nsrc

/-- 15 R299: the targets of CVT: a float format, or the width of a signed integer. -/
def cvtTarget (sub : Nat) : Option (Fmt ⊕ Nat) :=
  match sub with
  | 0 => some (.inl f32) | 1 => some (.inl f64) | 2 => some (.inr 32) | 3 => some (.inl f16) | 4 => some (.inl bf16)
  | 5 => some (.inl e4m3) | 6 => some (.inl e5m2) | 7 => some (.inl e2m3) | 8 => some (.inl e3m2) | 9 => some (.inl e2m1)
  | 0xA => some (.inr 8) | 0xB => some (.inr 4) | _ => none

/-- 15 R298: the types a table row allows (bit 0 f32, 1 f64, 2 s32). -/
def Uop.types (u : Uop) : Nat :=
  if 0x0D ≤ u.op && u.op ≤ 0x11 || u.op == 0x14 then 1 else if u.op == 0x12 then 3 else 7

/-- 15 R302, R303: the width in which an op reads e: ST .64 and STACC .f64 read 64 bits, other ops their TYPE (log entry 24). -/
def Uop.wide (u : Uop) : Bool := if u.op == 0x15 && u.sub % 8 == 1 || u.op == 0x17 && u.sub == 1 then true else u.ty == 1

/-- 15 R298, R299: NA, NC, SAT and RND stand where their rules allow them (log entry 24 for s32). -/
def Uop.modsOk (u : Uop) : Bool :=
  let flt := u.ty != 2
  let ar := (2 ≤ u.op && u.op ≤ 5) || u.op == 0x12
  let tgt := cvtTarget u.sub
  let below := match tgt with | some (.inl f) => decide (f.frac < (if u.ty == 1 then 52 else 23)) | _ => false
  (!u.na || (flt && ((2 ≤ u.op && u.op ≤ 7) || u.op == 0xA || u.op == 0x12 || (0xD ≤ u.op && u.op ≤ 0x11)))) &&
  (!u.nc || (flt && u.op == 5)) &&
  (!u.sat || (if flt then ar || (u.op == 0x13 && (match tgt with | some (.inl _) => true | _ => false)) else u.op == 2 || u.op == 3 || u.op == 8 || u.op == 9)) &&
  (u.rnd == 0 || (flt && ((ar && u.rnd ≤ 4) || (u.op == 0x13 && (u.rnd ≤ 4 || (u.rnd == 6 && below))))))

/-- 15 R304, 11 R242: a micro-op that may run; `owned` when the tile or pair STACC writes is the group's. DEDUCED (log 24): an unused source field that is not 0xF, and a DST of CMP that is not 0, are refused in EXPR as in the drain programs that R304 binds, though R242 lists reserved codes only. -/
def Uop.ok (k : UKind) (owned : Bool) (u : Uop) : Bool :=
  let codes := [u.sa, u.sb, u.sc]
  let readsE (c : Nat) : Bool := u.srcs.contains c
  u.op ≤ 0x17 && u.dst ≤ 4 && u.ty ≤ 2 && u.rnd != 5 && u.rnd != 7 && (u.types / 2 ^ u.ty % 2 == 1) &&
  (codes.drop u.nsrc).all (· == 0xF) &&
  (!(u.op == 0xB || u.op ≥ 0x15) || u.dst == 0) && u.modsOk &&
  (match u.op with
   | 0x0B => decide (u.sub ≤ (if u.ty == 2 then 5 else 0xD))
   | 0x13 => decide (u.sub ≤ 0xB)
   | 0x14 => 5 ≤ u.sub && u.sub ≤ 9
   | 0x15 => u.sub % 8 != 7
   | 0x17 => owned && (match k with | .f64 => u.sub == 1 | .s32 => u.sub == 0 | _ => u.sub == 0 || (3 ≤ u.sub && u.sub ≤ 6))
   | _ => u.sub == 0) &&
  (match k with
   | .expr => u.op ≤ 0x13 && u.rnd != 6 && !(u.ty == 1 && (u.dst == 4 || readsE 0 || readsE 2 || readsE 3 || readsE 4))
   | .f64 => !(readsE 0 && !u.wide) && !(u.op == 0x12 && u.sb == 0)
   | _ => u.ty != 1 && !(u.op == 0x15 && u.sub % 8 == 1))

/-- 15 R289, 11 R242: the micro-ops that run: before the first END, at most `n`. -/
def uopsOf (n : Nat) (ws : List Word) : List Uop := ((ws.take n).map decUop).takeWhile fun u => u.op != 0
/-- 15 R304: the index of the first micro-op that may not run. -/
def firstBadUop (k : UKind) (owned : Bool) (us : List Uop) : Option Nat := us.findIdx? fun u => !u.ok k owned

/-! ## Elements -/

/-- What an element reads and does not change: its row and column, e1 to e3 for EXPR (j, cv, rv there), vectors, constants. -/
structure UIn where
  i : Nat
  j : Nat
  e1 : PVal
  cv : PVal
  rv : PVal
  k : List PVal
deriving DecidableEq, Repr, Inhabited

/-- A store a program makes: the micro-op's index, its op and SUB, the value. -/
structure UOut where
  idx : Nat
  op : Nat
  sub : Nat
  val : PVal
deriving DecidableEq, Repr, Inhabited

/-- An element while its program runs: e, t0 to t3, m0 and m1, its stores, its exceptions with the micro-op that first raised each kind. -/
structure UEl where
  e : PVal
  t : List PVal
  m0 : PVal
  m1 : PVal
  outs : List UOut
  flags : FpFlags
  firsts : List (Nat × Nat)
  poisonRead : Bool
deriving DecidableEq, Repr, Inhabited

/-- A clear value. -/
def pv0 : PVal := ⟨0, false⟩
/-- 15 R289: an element at the start of its program. -/
def UEl.start (e : PVal) : UEl := ⟨e, [pv0, pv0, pv0, pv0], pv0, pv0, [], 0, [], false⟩

/-- 15 R297: an integer read in a type. -/
def uNum (ty : Nat) (v : Nat) : DWord :=
  match ty with
  | 0 => (roundTo f32 .rn false false (exInt v)).bits
  | 1 => (roundTo f64 .rn false false (exInt v)).bits
  | _ => BitVec.ofNat 64 v

/-- 15 R296, R297: a source read in a type. -/
def uRead (k : UKind) (inp : UIn) (x : UEl) (ty c : Nat) : PVal :=
  let low (v : PVal) : PVal := if ty == 1 then v else ⟨BitVec.ofNat 64 (v.val.toNat % 2 ^ 32), v.poison⟩
  let widen (v : PVal) : PVal := if ty == 1 then ⟨(convTo f64 .rn false false (f32.dec v.val)).bits, v.poison⟩ else low v
  match c with
  | 0x0 => low x.e
  | 0x1 => ⟨uNum ty inp.i, false⟩
  | 0x2 => if k == .expr then widen inp.e1 else ⟨uNum ty inp.j, false⟩
  | 0x3 => if k == .f64 then low inp.cv else widen inp.cv
  | 0x4 => if k == .f64 then low inp.rv else widen inp.rv
  | 0xD => ⟨uNum ty x.m0.val.toNat, x.m0.poison⟩
  | 0xE => ⟨uNum ty x.m1.val.toNat, x.m1.poison⟩
  | 0xF => pv0
  | c => if c ≤ 8 then widen ((inp.k[c - 5]?).getD pv0) else low ((x.t[c - 9]?).getD pv0)

/-- 15 R297, 06 R126: what widening a 32-bit source into f64 raises: invalid for a signalling NaN. -/
def uWidens (k : UKind) (inp : UIn) (ty c : Nat) : FpFlags :=
  let fl (v : PVal) : FpFlags := if ty == 1 && !v.poison then (convTo f64 .rn false false (f32.dec v.val)).flags else 0
  match c with
  | 0x2 => if k == .expr then fl inp.e1 else 0
  | 0x3 => if k == .f64 then 0 else fl inp.cv
  | 0x4 => if k == .f64 then 0 else fl inp.rv
  | c => if 5 ≤ c && c ≤ 8 then fl ((inp.k[c - 5]?).getD pv0) else 0

/-- 15 R298: the s32 forms. -/
def uInt (u : Uop) (a b c : Int) : DWord :=
  let r : Int := match u.op with
    | 2 => a + b | 3 => a - b | 4 => a * b | 5 => a * b + c | 6 => min a b | 7 => max a b | 8 => a.natAbs | 9 => -a | _ => min (max a b) c
  let r := if u.sat then satS32 r else r
  (BitVec.ofInt 32 r).setWidth 64

/-- 15 R298: the float forms. -/
def uFloat (e : Eph) (u : Uop) (free : Nat) (a b c : DWord) : FRes :=
  let f := if u.ty == 1 then f64 else f32
  let mode := modeOf 0 u.rnd
  let a := if u.na then f.neg a else a
  let c := if u.nc then f.neg c else c
  match u.op with
  | 2 => opAdd f mode u.sat false a b
  | 3 => opAdd f mode u.sat false a (f.neg b)
  | 4 => opMul f mode u.sat false a b
  | 5 => opFma f mode u.sat false a b c
  | 6 => opMinMax f false false a b
  | 7 => opMinMax f true false a b
  | 8 => ⟨a &&& ~~~f.top, 0⟩
  | 9 => ⟨a ^^^ f.top, 0⟩
  | 0xA => let t := opMinMax f true false a b; let r := opMinMax f false false t.bits c; ⟨r.bits, t.flags ||| r.flags⟩
  | 0xD => approx .exp2 e.ft f32 false a free
  | 0xE => approx .log2 e.ft f32 false a free
  | 0xF => approx .rcp e.ft f32 false a free
  | 0x10 => approx .rsq e.ft f32 false a free
  | 0x11 => approx .tanh e.ft f32 false a free
  | _ => opScaleb f mode u.sat false a (b.setWidth 32)

/-- 07 R145: a narrow format of a drain conversion. -/
def narrowFmt (f : Fmt) : Bool := f != f64 && f != f32

/-- 15 R299, 07 R145: CVT; narrowing in a drain follows the contract's RM and FO. -/
def uCvt (k : UKind) (e : Eph) (key : DWord) (tid : Nat) (inp : UIn) (u : Uop) (a : DWord) : FRes :=
  let src : FVal := match u.ty with
    | 0 => f32.dec a
    | 1 => f64.dec a
    | _ => .fin (exInt (a.setWidth 32 : Word).toInt)
  match cvtTarget u.sub with
  | some (.inl f) =>
    let drain := k != .expr && narrowFmt f
    let mode := if u.rnd == 6 then srDraw key (BitVec.ofNat 64 (tid * 2 ^ 40 + inp.i * 2 ^ 32 + inp.j))
                else if drain && u.rnd == 0 && e.rz then .rz else modeOf 0 u.rnd
    convTo f mode u.sat (drain && e.fo) src
  | some (.inr w) =>
    let (v, fl) := convInt (-(2 ^ (w - 1))) (2 ^ (w - 1) - 1) (modeOf 0 u.rnd) src
    ⟨BitVec.ofNat 64 (BitVec.ofInt w v).toNat, fl⟩
  | none => ⟨0, 0⟩

/-- Record exceptions of a micro-op, none from a poisoned value (06 R129). -/
def UEl.raise (idx : Nat) (fl : FpFlags) (p : Bool) (x : UEl) : UEl :=
  let x := { x with poisonRead := x.poisonRead || p }
  if p || fl == 0 then x
  else { x with flags := x.flags ||| fl, firsts := x.firsts ++ ((List.range 5).filter fun b => fl.getLsbD b && !x.firsts.any (·.1 == b)).map (·, idx) }
/-- Write a result to t0 to t3 or e. -/
def UEl.put (dst : Nat) (v : PVal) (x : UEl) : UEl := if dst == 4 then { x with e := v } else { x with t := x.t.set dst v }

/-- 15 R298 to R303: one micro-op other than QMX on one element. -/
def uStep (k : UKind) (e : Eph) (key : DWord) (tid free idx : Nat) (u : Uop) (inp : UIn) (x : UEl) : UEl :=
  let ty := if u.wide then 1 else u.ty
  let a := uRead k inp x ty u.sa
  let b := if u.nsrc ≥ 2 then uRead k inp x (if u.op == 0x12 then 2 else ty) u.sb else pv0
  let c := if u.nsrc ≥ 3 then uRead k inp x ty u.sc else pv0
  let p := a.poison || b.poison || c.poison
  let i32 (v : PVal) : Int := (v.val.setWidth 32 : Word).toInt
  let x := x.raise idx ((if u.nsrc ≥ 1 then uWidens k inp ty u.sa else 0) ||| (if u.nsrc ≥ 2 && u.op != 0x12 then uWidens k inp ty u.sb else 0) |||
    (if u.nsrc ≥ 3 then uWidens k inp ty u.sc else 0)) p
  match u.op with
  | 0x01 => (x.put u.dst ⟨a.val, p⟩).raise idx 0 p
  | 0x0C => (x.put u.dst ⟨if c.val != 0 then a.val else b.val, p⟩).raise idx 0 p
  | 0x0B =>
    let f := if u.ty == 1 then f64 else f32
    let u1 := f.dec a.val; let v1 := f.dec b.val
    let t := if u.ty == 2 then condHolds u.sub (i32 a == i32 b) (decide (i32 a < i32 b)) else fcmpHolds u.sub u1 v1
    let inv := u.ty != 2 && (u1 == .nan true || v1 == .nan true || (anyNan [u1, v1] && 2 ≤ u.sub && u.sub ≤ 5))
    ({ x with m0 := ⟨if t then 1 else 0, p⟩, m1 := ⟨if t then 0 else 1, p⟩ }).raise idx (if inv then fInvalid else 0) p
  | 0x13 => let r := uCvt k e key tid inp u a.val; (x.put u.dst ⟨r.bits, p⟩).raise idx r.flags p
  | 0x15 => ({ x with outs := x.outs ++ [UOut.mk idx u.op u.sub a] }).raise idx 0 p
  | 0x16 => ({ x with outs := x.outs ++ [UOut.mk idx u.op u.sub a] }).raise idx 0 p
  | 0x17 => ({ x with outs := x.outs ++ [UOut.mk idx u.op u.sub a] }).raise idx 0 p
  | _ =>
    if u.ty == 2 then (x.put u.dst ⟨uInt u (i32 a) (i32 b) (i32 c), p⟩).raise idx 0 p
    else let r := uFloat e u free a.val b.val c.val; (x.put u.dst ⟨r.bits, p⟩).raise idx r.flags p

/-- 15 R300: QMX over one block of elements. -/
def uQmx (k : UKind) (e : Eph) (idx : Nat) (u : Uop) (blk : List (UIn × UEl)) : List (UIn × UEl) :=
  let as_ := blk.map fun (inp, x) => uRead k inp x 0 u.sa
  let p := as_.any (·.poison)
  let f := match cvtTarget u.sub with | some (.inl f) => f | _ => e4m3
  let (sc, rs) := mxQuantise f (if e.rz then .rz else .rn) e.fo (as_.map fun a => f32.dec a.val)
  (blk.zip rs).map fun ((inp, x), r) => (inp, (x.put u.dst ⟨BitVec.ofNat 64 (sc * 256) ||| r.bits, p⟩).raise idx r.flags p)

/-- 15 R289: the program on the elements of a row, micro-op by micro-op. -/
def runUops (k : UKind) (e : Eph) (key : DWord) (tid free : Nat) (us : List Uop) (row : List (UIn × UEl)) : List (UIn × UEl) :=
  us.zipIdx.foldl (fun row (u, idx) =>
    if u.op == 0x14 then uQmx k e idx u (row.take 32) ++ (if row.length > 32 then uQmx k e idx u (row.drop 32) else [])
    else row.map fun (inp, x) => (inp, uStep k e key tid free idx u inp x)) row

end Sys2Proof.Machine
end

