-- ==== Sys2Proof/Machine/Element.lean ====
section
/-! DEFINITION. DOT, EXPR, RNG and QMX (11 R240 to R244). -/

namespace Sys2Proof.Machine

/-! ## DOT (11 R240, R241) -/

/-- 11 R240: element format and width of a FMT; none for the integer formats. -/
def dotFmt (f : Nat) : Option Fmt := match f with | 2 => some f16 | 3 => some bf16 | 4 => some e4m3 | 5 => some e5m2 | 8 => some e2m1 | _ => none
/-- Element width in bits. -/
def dotWidth (f : Nat) : Nat := match f with | 2 => 16 | 3 => 16 | 8 => 4 | 0xA => 4 | _ => 8
/-- Element k of a register. -/
def dotElem (wd k : Nat) (w : Word) : Nat := w.toNat / 2 ^ (wd * k) % 2 ^ wd

/-- 11 R240, R241: DOT of one lane. -/
def dotLane (e : Eph) (fmt : Nat) (nega negc : Bool) (a b c : Word) : FRes :=
  let wd := dotWidth fmt; let n := 32 / wd
  match dotFmt fmt with
  | some f =>
    let ps := (List.range n).map fun k =>
      let x := BitVec.ofNat 64 (dotElem wd k a); let y := BitVec.ofNat 64 (dotElem wd k b)
      termMul (narrowTerm e f (if nega then f.neg x else x) 0) (narrowTerm e f y 0)
    dotContract e (e.group n) ((if negc then c ^^^ 0x80000000#32 else c).setWidth 64) ps
  | none =>
    let sx (v : Nat) : Int := (BitVec.ofNat wd v).toInt
    let r := (List.range n).foldl (fun acc k => satS32 (acc + sx (dotElem wd k a) * sx (dotElem wd k b))) c.toInt
    ⟨(BitVec.ofInt 32 r).setWidth 64, 0⟩

/-- 07 R148: a stamp that is nonzero and differs from the contract in force. -/
def stampBad (ctr : Word) (st : BitVec 4) : Bool := st != 0 && decide (st.toNat ≠ ctr.toNat % 256)

/-- DOT: the stamp check first (07 R148), then the contract's dot product. DEDUCED (log 24): R148 says 'each active lane' and R174 lets an instruction act only where its guard holds; the check looks at the acting lanes. -/
def execDot (w : WV) (s : State) : Answer :=
  let fmt := (w.mod.extractLsb' 5 4).toNat
  runInstr (.dot w) w.g (usesV 1 1 1 1 w)
    (fun e =>
      let bad := e.lanes.filter fun L => stampBad e.sr.ctr (e.rc w.a L 0).stamp || stampBad e.sr.ctr (e.rc w.b L 0).stamp
      if !bad.isEmpty && e.sr.trapCmix then .trap cCMIX (lanesMask bad) 0
      else fpResult e 6 none 1 w.dst 0 fun L =>
        let a := e.r32 w.a L; let b := e.r32 w.b L; let c := e.r32 w.c L
        let r := dotLane e.eph fmt (w.mod.getLsbD 1) (w.mod.getLsbD 0) a.w b.w c.w
        ⟨r.bits, a.poison || b.poison || c.poison, r.flags⟩) s

/-! ## EXPR (11 R242) -/

/-- 15 R291: word k of a slot of a core; while EPLOADs write it, the value it has or one that it had before one of them (R307). -/
def slotWord (s : State) (core slot k : Nat) : Word :=
  let key := core * 4096 + slot * 16 + k
  let new := sgetD 0 key s.slots
  match sgetD [] key s.slotOld with
  | [] => new
  | old => ((new :: old.map (·.2))[s.pick (70000 + key) (old.length + 1)]?).getD new
/-- The 16 words of a slot. -/
def slotWords (s : State) (core slot : Nat) : List Word := (List.range 16).map fun k => slotWord s core slot k
/-- 15 R291: a slot of the partition's range. -/
def Part.hasSlot (p : Part) (slot : Nat) : Bool := decide (p.slotlo ≤ slot) && decide (slot < p.slotlo + p.slotn)

/-- The lane an EXPR runs in: e0 to e3 from four registers, k0 to k3 from four s registers or +0. -/
def exprLane (e : Env) (w : WI) (L : Nat) : UIn × UEl :=
  let q (o : Opd) (k : Nat) : PVal := let c := e.rc o L k; pval c.get c.poison
  (⟨L, 0, q w.a 1, q w.a 2, q w.a 3, (List.range 4).map (q w.b)⟩, .start (q w.a 0))

/-- EXPR: the slot's program on e0 to e3 in each acting lane; a lane whose d is poisoned raises POISON alone (R226). A poisoned e or k register
sets the POISON flag only where a micro-op reads it (log 48). -/
def execExpr (w : WI) (s : State) : Answer :=
  let slot := w.imm.toNat
  runInstr (.expr w) w.g ⟨[(w.a, 4, w.la), (w.b, 4, w.lb)], [], [(w.dst, 1)], [], true⟩
    (fun e =>
      if !(e.s0.part e.part).hasSlot slot then .halt cOPERAND 0 0 0
      else
        let us := uopsOf 7 (slotWords e.s0 e.g0.core slot)
        match firstBadUop .expr false us with
        | some k => .halt cOPERAND 0 (BitVec.ofNat 64 k) 0
        | none =>
          let run (L : Nat) : UEl := ((runUops .expr e.eph 0 0 (e.s0.draw 53) us [exprLane e w L]).headD (default, default)).2
          let t0 (x : UEl) : PVal := (x.t[0]?).getD pv0
          let f (L : Nat) : LaneF := let x := run L; ⟨(t0 x).val, (t0 x).poison, x.flags⟩
          match fpTrap e f with
          | some (k, ls) =>
            let idx := ls.foldl (fun m L => match (run L).firsts.find? (·.1 == k) with | some (_, i) => min m i | none => m) 16
            .trap (0x10 + k) (lanesMask ls) (BitVec.ofNat 64 idx)
          | none =>
            let rs := laneResults e 1 fun L => ⟨(f L).val, (f L).poison⟩
            .done (e.lanes.foldl (fun g L => g.orFlags e.s 8 L ((f L).bits ||| (if (run L).poisonRead then poisonFlag else 0)))
              (e.g.writeDst e.s 8 w.dst rs)) e.s) s

/-! ## RNG and QMX (11 R243, R244) -/

/-- RNG: H of the key and the slice's counter; every slice of the gang counts on. -/
def execRng (w : WV) (s : State) : Answer :=
  let n := if w.mod.getLsbD 8 then 2 else 1
  runInstr (.rng w) w.g (usesV n 0 0 0 w)
    (fun e =>
      let f (L : Nat) : PVal := ⟨hashH (e.sr.rngkey ^^^ groupId e.g0) (BitVec.ofNat 64 ((e.g0.slice (L / 4)).rng.toNat * 256 + L)), false⟩
      let g := e.g.writeDst e.s 4 w.dst (laneResults e n f)
      .done (e.a.slices.foldl (fun g i => g.updSlice i fun x => { x with rng := x.rng + 1 }) g) e.s) s

/-- QMX: MX quantisation of the participating lanes' values as one block. -/
def execQmx (w : WV) (s : State) : Answer :=
  let f := match fTy w.mod with | 0 => e4m3 | 1 => e5m2 | 2 => e2m3 | 3 => e3m2 | _ => e2m1
  runInstr (.qmx w) w.g (usesV 1 1 0 0 w)
    (fun e =>
      let p := e.lanes.any fun L => (e.r32 w.a L).poison
      let (sc, rs) := mxQuantise f .rn false (e.lanes.map fun L => f32.dec (e.r32 w.a L).val)
      fpResult e 4 none 1 w.dst 0 fun L =>
        match (e.lanes.zip rs).find? (·.1 == L) with
        | some (_, r) => ⟨BitVec.ofNat 64 (sc * 256) ||| r.bits, p, r.flags⟩
        | none => ⟨0, p, 0⟩) s

end Sys2Proof.Machine
end

