-- ==== Sys2Proof/Machine/Memory.lean ====
section
/-! DEFINITION. Loads, stores, atomics, fences and cache control (12 R246 to R263, R266). -/

namespace Sys2Proof.Machine

/-! ## Addresses and the checks of R249 -/

/-- 12 R246: the address of a lane. -/
def memAddr (e : Env) (base off : Opd) (imm : BitVec 8) (size L : Nat) : DWord :=
  (e.rN base 2 L).val + (e.r32 off L).w.signExtend 64 + BitVec.ofInt 64 (imm.toInt * size)

/-- 12 R249 check 2: the lanes with a poisoned operand among those listed with their words. -/
def poisonLanes (e : Env) (os : List (Opd × Nat)) : List Nat :=
  e.lanes.filter fun L => os.any fun (o, n) => (List.range n).any fun k => (e.rc o L k).poison

/-- The stop of a memory check: the failing lanes, the address of the lowest (12 R249; log entry 25). -/
def memHalt (cause detail : Nat) (addr : Nat → DWord) (ls : List Nat) : Act := .halt cause detail (addr (ls.headD 0)) (lanesMask ls)

/-- 27 R441: the places behind a node index are asked for leave alone (DESIGN CHOICE, log 61); an answer of the target device is its check 5 or 6, and `trans` and `perm` are the lanes that this device's checks 5, each with its DETAIL, and 6 stop. `none`: every lane has leave. -/
def remoteLeave (e : Env) (addr : Nat → DWord) (size : Nat) (trans : List (Nat × Nat)) (perm : List Nat) (ws : List (Nat × Where)) : Option Act :=
  let (s, rs) := (ws.filter fun p => p.2.node != 0).foldl (fun (s, rs) p =>
    let (r, s) := remote e.gid e.a.pc e.a.idx (100 + p.1) (p.1 / 4) (fun id => ⟨id, e.part, p.2.node - 1, p.2.pas.headD 0, 3, size, 0, [], []⟩) s; (s, rs ++ [(p.1, r)])) (e.s0, [])
  if rs.any (·.2.isNone) then some (.stall s)
  else
    let of (x : RemoteResp) (here : List Nat) : List Nat := e.lanes.filter fun L => here.contains L || rs.any fun p => p.1 == L && p.2 == some x
    let und := of .undeliverable (trans.map (·.1)); let ref := of .refused perm
    if !und.isEmpty then some (memHalt cTRANS (((trans.find? (·.1 == und.headD 0)).map (·.2)).getD 0) addr und) else if !ref.isEmpty then some (memHalt cPERM 0 addr ref) else none

/-- Checks 4 to 6 for a virtual address in each lane: where each goes, or what the instruction comes to. -/
def lookLanes (e : Env) (ls : List Nat) (size : Nat) (addr : Nat → DWord) (k : Acc) (all : Bool) : Act ⊕ List (Nat × Where) :=
  let far := ls.filter fun L => (addr L).extractLsb' 57 7 != 0
  if !far.isEmpty then .inl (memHalt cTRANS 0 addr far)
  else
    let looks := ls.map fun L => (L, lookVa e.s0 e.g0.core e.g0.ctx (addr L) k e.sys all)
    let missed := looks.filter fun p => match p.2 with | .miss => true | _ => false
    let trans := looks.filterMap fun p => match p.2 with | .trans d => some (p.1, d) | _ => none
    let perm := looks.filterMap fun p => match p.2 with | .perm => some p.1 | _ => none
    if !missed.isEmpty then .inl (.stall (missed.foldl (fun s p => askWalk e.g0.core e.g0.ctx (addr p.1).toNat s) e.s0))
    else
      let ws := looks.filterMap fun p => match p.2 with | .at_ w => some (p.1, w) | _ => none
      if trans.isEmpty && perm.isEmpty then .inr ws
      else .inl ((remoteLeave e addr size trans perm ws).getD (memHalt cPERM 0 addr perm))

/-- 12 R266: the remote accesses of an instruction: all responses, or what it comes to while they are out or when one is refused. -/
def remoteAll (e : Env) (addr : Nat → DWord) (ws : List (Nat × Where)) (mk : Nat → Where → Nat → FabReq) : Act ⊕ List (Nat × RemoteResp) :=
  let out := ws.filter fun p => p.2.node != 0
  let (s, rs) := out.foldl (fun (s, rs) p => let (r, s) := remote e.gid e.a.pc e.a.idx p.1 (p.1 / 4) (mk p.1 p.2) s; (s, rs ++ [(p.1, r)])) (e.s0, [])
  if rs.any (·.2.isNone) then .inl (.stall s)
  else
    let got := rs.filterMap fun p => p.2.map fun r => (p.1, r)
    let und := got.filterMap fun p => if p.2 == .undeliverable then some p.1 else none
    let ref := got.filterMap fun p => if p.2 == .refused then some p.1 else none
    if !und.isEmpty then .inl (memHalt cTRANS 0 addr und) else if !ref.isEmpty then .inl (memHalt cPERM 0 addr ref) else .inr got

/-- 12 R249, R266: what an instruction stores behind a node index goes out as it commits, with the lanes that store here; the gang waits for the answers. An old value goes to the cells `keys` of the pending result `vp`. -/
def remoteMake (e : Env) (ws : List (Nat × Where)) (mk : Nat → Where → Nat → FabReq) (vp : Nat) (keys : Nat → List Nat) (acc : State × Group) : State × Group :=
  (ws.filter fun p => p.2.node != 0).foldl (fun (s, g) p =>
    let id := s.nextId
    ((countFab e.part { s with out := { s.out with fab := s.out.fab ++ [mk p.1 p.2 id] } }).takeId,
     { g with remote := ⟨id, e.a.pc, e.a.idx, p.1, p.1 / 4, mk p.1 p.2 0, none, true, vp, keys p.1⟩ :: g.remote })) acc

/-- 12 R249 checks 2 to 6 over all lanes, `spad` for the scratchpad: the places of a global access. -/
def memChecks (e : Env) (ls : List Nat) (os : List (Opd × Nat)) (spad : Bool) (size : Nat) (addr : Nat → DWord) (k : Acc) (all : Bool) : Act ⊕ List (Nat × Where) :=
  let bad := poisonLanes e os
  let mis := ls.filter fun L => (addr L).toNat % size != 0
  if !bad.isEmpty && e.sr.trapPoison then .inl (.trap cPOISON (lanesMask bad) 0)
  else if !mis.isEmpty then .inl (memHalt cALIGN 0 addr mis)
  else if spad then
    let past := ls.filter fun L => (addr L).toNat + size > (e.s0.part e.part).spadSize e.g0.core
    if !past.isEmpty then .inl (memHalt cSPAD 0 addr past) else .inr []
  else lookLanes e ls size addr k all

/-- A free order of a list (03 R52; 12 R258). -/
def shuffle (s : State) (key : Nat) (l : List Nat) : List Nat :=
  l.zipIdx.foldl (fun acc (x, i) => let k := s.pick (key + i) (i + 1); acc.take k ++ x :: acc.drop k) []

/-! ## What a lane accesses in one moment (03 R51, R56; 12 R257, R258) -/

/-- The places of n bytes of memory, and of the scratchpad. -/
def memKeys (pa n : Nat) : List Nat := (List.range n).map fun j => 2 * (pa + j)
def spadKeys (s : State) (part core a n : Nat) : List Nat := (List.range n).map fun j => 2 * spadPlace (s.part part) core (a + j) + 1

/-- The halves of an access: offset and bytes; a 128-bit access has two (03 R51). -/
def halves (size : Nat) : List (Nat × Nat) := if size = 16 then [(0, 8), (8, 8)] else [(0, size)]

/-- Register cells of a half read: 8 bytes give two cells, fewer one; the mark of a half poisons its cells (12 R250; 06 R129). -/
def halfCells (n v : Nat) (p : Bool) (st : BitVec 4) : List RegCell :=
  if n = 8 then [cell (BitVec.ofNat 32 v) p st, cell (BitVec.ofNat 32 (v / 2 ^ 32)) p st] else [cell (BitVec.ofNat 32 v) p st]

/-- 12 R257: the new value from memory m, operand b and compare value c. -/
def aopVal (op : Nat) (m b c : DWord) : DWord :=
  let x : Word := m.setWidth 32; let y : Word := b.setWidth 32
  let z (w : Word) : DWord := w.setWidth 64
  match op with
  | 0x0 => z (x + y)
  | 0x1 => z (if y.slt x then y else x)
  | 0x2 => z (if x.slt y then y else x)
  | 0x3 => z (if y.ult x then y else x)
  | 0x4 => z (if x.ult y then y else x)
  | 0x5 => z (x &&& y)
  | 0x6 => z (x ||| y)
  | 0x7 => z (x ^^^ y)
  | 0x8 => z y
  | 0x9 => z (if x == (c.setWidth 32 : Word) then y else x)
  | 0xA => (opAdd f32 .rn false false (z x) (z y)).bits
  | 0xB => z (if y.ule x then 0 else x + 1)
  | 0xC => m + b
  | 0xD => b
  | 0xE => if m == c then b else m
  | _ => (opAdd f64 .rn false false m b).bits

/-- The bytes an access touches, and their mark, as they stand. -/
def Late.seen (x : Late) (s : State) (g : Group) : PVal :=
  if x.spad then ⟨BitVec.ofNat 64 (readSpad s g.part g.core x.at_ x.n), markedSpad s g.part g.core x.at_ x.n⟩ else ⟨BitVec.ofNat 64 (readMem s x.at_ x.n), markedMem s x.at_ x.n⟩
/-- Its bytes written; the stamp of a scratchpad line becomes 0 (07 R147). -/
def Late.put (x : Late) (v : PVal) (s : State) (g : Group) : State :=
  if x.spad then writeSpad g.part g.core x.at_ x.n v.val.toNat v.poison 0 s else writeMem x.at_ x.n v.val.toNat v.poison s
/-- The places it touches. -/
def Late.places (x : Late) (s : State) (g : Group) : List Nat := if x.spad then spadKeys s g.part g.core x.at_ x.n else memKeys x.at_ x.n

/-- The access is performed, whole and at this moment: the cells it reads, and the state after it (12 R251, R254, R258). -/
def Late.now (x : Late) (s : State) (g : Group) : List RegCell × State :=
  let m := x.seen s g
  match x.kind with
  | 0 => (halfCells x.n m.val.toNat m.poison (if x.spad then stampSpad s g.part g.core x.at_ else x.stamp), s)
  | 1 => ([], x.put ⟨x.val, x.poison⟩ s g)
  | _ => (halfCells x.n m.val.toNat m.poison 0, x.put ⟨aopVal x.op m.val x.val x.cmp, m.poison || x.poison || x.cmpPoison⟩ s g)

/-- A pending result still needs an access that is late, or one behind a node index that is not answered. -/
def Group.needs (g : Group) (vp : Nat) : Bool := g.late.any (·.vp == vp) || g.remote.any fun r => r.made && r.vp == vp
/-- What an access has read goes to its pending result, which is known once no access of it is left. -/
def Group.giveTo (vp : Nat) (keys : List Nat) (cs : List RegCell) (g : Group) : Group :=
  let new := keys.zip cs
  { g with vp := g.vp.map fun v => if v.id == vp then { v with known := v.known || !g.needs vp, writes := v.writes.map fun w => ((new.find? (·.1 == w.1)).getD w) } else v }
/-- The same for a late access. -/
def Late.give (x : Late) (cs : List RegCell) (g : Group) : Group := g.giveTo x.vp x.keys cs

/-- A late access is performed. -/
def Late.perform (x : Late) (acc : State × Group) : State × Group :=
  let r := x.now acc.1 acc.2
  (r.2, x.give r.1 acc.2)

/-- Those of a group's late accesses that `due` names are performed, oldest first. -/
def performLate (due : Late × Nat → Bool) (acc : State × Group) : State × Group :=
  if acc.2.late.isEmpty then acc
  else
    let l := acc.2.late.zipIdx
    (l.filter due).foldl (fun acc x => x.1.perform acc) (acc.1, { acc.2 with late := (l.filter fun x => !due x).map (·.1) })

/-- All of them, in the state. -/
def settleGroup (due : Late → Bool) (gid : Nat) (s : State) : State :=
  match s.group? gid with
  | none => s
  | some g => if g.late.isEmpty then s else let r := performLate (fun x => due x.1) (s, g); r.1.setGroup gid r.2

/-- 03 R54, R56, R65: which late accesses of its lanes an instruction comes after, if it acts: 0 none, 1 those that a reconvergence, a divergence or an acquire has put before it, 2 the loads of its path too, 3 all of its path, 4 all of the group, once every gang has come to it (R399: on every path). -/
def lateRule (i : Instr) : Nat :=
  match i with
  | .st w | .sts w | .stmc w | .red w => if w.order == 3#2 then 3 else 1
  | .atom w | .atoms w => if w.order == 3#2 || w.order == 0#2 then 3 else 1
  | .ld _ | .lds _ | .ldu _ | .msgtake _ => 1
  | .fence w => if w.order == 2#2 then 2 else 3
  | .regang _ | .bar _ | .barc _ => 4
  | .msgput _ | .ifence _ | .haltctx _ => 3
  | i => if 0xA0 ≤ i.opcode && i.opcode ≤ 0xBC then 3 else 0

/-- A late access comes before an instruction of that rule whose gang has the active lanes m. -/
def Late.before (rule m : Nat) (x : Late) : Bool := rule != 0 && (x.ord &&& m != 0 || (x.mask &&& m != 0 && (rule ≥ 3 || (rule == 2 && x.kind != 1))))

/-- Every other gang of a group stands where gangs gather (21 R365; 22 R394). -/
def Group.gathering (slice : Nat) (g : Group) : Bool :=
  g.gangs.all fun b => b.slices.head? == some slice || (match b.hold with | .regang .. | .barGather .. => true | _ => false)

/-- What the instruction of a group's gang has to come after is performed before it issues, if it acts in a lane (12 R261; 22 R394). -/
def readyLate (rule : Nat) (gd : Guard) (gid slice : Nat) (s : State) : State :=
  match s.group? gid with
  | none => s
  | some g =>
    if g.late.isEmpty then s
    else
      let due : Late → Bool := match g.gang? slice with
        | some a => if (actingLanes s g a gd).1.isEmpty then fun _ => false else fun x => x.before rule (g.activeMask a.slices) || (rule == 4 && g.gathering slice)
        | none => fun _ => false
      let r := performLate (fun x => due x.1) (s, g)
      r.1.setGroup gid r.2
/-- Late accesses of groups are performed or not, by a free choice. -/
def driftLate (s : State) : State :=
  s.groups.foldl (fun s p => if p.2.late.isEmpty then s else let r := performLate (fun x => s.coin (8800000 + 100 * p.1 + x.2)) (s, p.2); r.1.setGroup p.1 r.2) s

/-- The active lanes of the gang that issues: its side of a divergence. -/
def Env.side (e : Env) : Nat := e.g0.activeMask e.a.slices
/-- Lanes of the group stand on another side. -/
def Env.divided (e : Env) : Bool := e.side != e.g0.liveMask

/-- 03 R53, R56: one unit of an instruction's access, in a lane. Late accesses of its own path to a place of it come first; those of another side come first or not, by a free choice; those of its own instruction have no order to it (R52) and wait on. It is performed now, or, where the group is divided, may be performed later, by a free choice: what another side accesses meanwhile comes before it. -/
def accessUnit (e : Env) (pick : Nat) (x : Late) (acc : State × Group) : List RegCell × State × Group :=
  let acc := performLate (fun y => (y.1.places acc.1 acc.2).any (x.places acc.1 acc.2).contains && (y.1.vp != x.vp || x.vp == 0) && ((y.1.mask ||| y.1.ord) &&& x.mask != 0 || acc.1.coin (8900000 + 1000 * pick + y.2))) acc
  if e.divided && acc.1.coin pick then (if x.kind == 1 then [] else halfCells x.n 0 false 0, acc.1, { acc.2 with late := acc.2.late ++ [x] })
  else let r := x.now acc.1 acc.2; (r.1, r.2, acc.2)

/-! ## Loads (12 R251 to R253) -/

/-- Cells of a half of local memory. -/
def loadHalf (s : State) (pa : Nat) (st : BitVec 4) (h : Nat × Nat) : List RegCell := halfCells h.2 (readMem s (pa + h.1) h.2) (markedMem s (pa + h.1) h.2) st

/-- Cells of a remote response; a discarded read is poisoned (12 R266). -/
def respCells (size : Nat) (st : BitVec 4) (r : RemoteResp) : List RegCell :=
  match r with
  | .done ws =>
    (halves size).flatMap fun (o, n) =>
      let lo := (ws[o / 4]?).getD ⟨0, false⟩; let hi := (ws[o / 4 + 1]?).getD ⟨0, false⟩
      if n = 8 then halfCells 8 ((pwGet lo).toNat + 2 ^ 32 * (pwGet hi).toNat) (lo.poison || hi.poison) st
      else halfCells n ((pwGet lo).toNat % 2 ^ (8 * n)) lo.poison st
  | _ => List.replicate (max 1 (size / 4)) ⟨0, true, st⟩

/-- 12 R253: the values a constant-space load of n bytes may return: what memory holds, and what it has held since the launch started. -/
def constValues (s : State) (lid pa n : Nat) : List (Nat × Bool) :=
  let cut (p : Past) : Nat × Bool := (p.word.toNat / 2 ^ (8 * (pa % 8)) % 2 ^ (8 * n), (decide (pa % 8 < 4) && p.marks.1) || (decide (4 < pa % 8 + n) && p.marks.2))
  (readMem s pa n, markedMem s pa n) :: match (sget lid s.launches).bind (·.before) with
  | none => []
  | some b => (s.past.filter fun p => p.pa == pa / 8 * 8 && decide (b < p.upTo)).map cut
/-- A unit of a constant-space load takes one of those values, by a free choice. -/
def constUnit (e : Env) (pick pa n : Nat) (st : BitVec 4) (s : State) : List RegCell :=
  let vs := constValues s e.g0.lid pa n
  let v := (vs[s.pick pick vs.length]?).getD (0, false)
  halfCells n v.1 v.2 st

/-- The register cells that the half at word `k` of a lane's load fills; an s destination takes the leader's (08 R155). -/
def unitKeys (o : Opd) (lead L k n : Nat) : List Nat := if o.isS && L != lead then [] else (List.range (if n = 8 then 2 else 1)).filterMap fun j => opdKey? o L (k + j)

/-- What a lane loads, half by half: from the scratchpad, from local memory, from the constant space, or from a remote response. `lead` is the lane whose value an s destination takes; a `dead` lane has a poisoned address, and what it reads goes nowhere. -/
def loadLane (e : Env) (w : WM) (spad dead : Bool) (lead L at_ : Nat) (x : Option Where) (resp : RemoteResp) (acc : State × Group) : List RegCell × State × Group :=
  let size := 2 ^ w.size.toNat
  let st := match x with | some y => atStamp y.attr | none => 0
  let unit (r : List RegCell × State × Group) (h : Nat × Nat) : List RegCell × State × Group :=
    let pick := 87000 + 2 * L + h.1 / 8
    let u := if w.space == 2#2 then (constUnit e pick (at_ + h.1) h.2 st r.2.1, r.2.1, r.2.2)
      else accessUnit e pick ⟨e.side, 0, spad, at_ + h.1, h.2, 0, 0, false, 0, false, e.s.nextId, if dead then [] else unitKeys w.data lead L (h.1 / 4) h.2, st, if w.order == 2#2 then e.side else 0⟩ r.2
    (r.1 ++ u.1, u.2)
  match x with
  | some y => if y.node == 0 then (halves size).foldl unit ([], acc) else (respCells size (atStamp y.attr) resp, acc)
  | none => if spad then (halves size).foldl unit ([], acc) else ([], acc)

/-- LD, LDS, LDU: read in every lane that accesses, the result pending on the counter. A poisoned offset poisons what it selects (08 R157). -/
def loadAct (e : Env) (w : WM) (spad one : Bool) : Act :=
  let size := 2 ^ w.size.toNat
  let ls := if one then e.lanes.take 1 else e.lanes
  let addr (L : Nat) := memAddr e w.base w.off w.imm size L
  let ctr := w.ctr.toNat
  if e.full ctr then .stall e.s0
  else
    match memChecks e ls [(w.base, 2), (w.off, 1)] spad size addr .read false with
    | .inl a => a
    | .inr ws =>
      match remoteAll e addr ws (fun _ x id => ⟨id, e.part, x.node - 1, (x.pas.headD 0), 0, size, 0, [], []⟩) with
      | .inl a => a
      | .inr rs =>
        let src (L : Nat) : Bool := (e.rN w.base 2 L).poison || (e.r32 w.off L).poison
        let lane (acc : List LaneRes × State × Group) (L : Nat) : List LaneRes × State × Group :=
          let x := (ws.find? (·.1 == L)).map (·.2)
          let at_ := match x with | some y => y.pas.headD 0 | none => (addr L).toNat
          let r := loadLane e w spad (src L) (ls.headD 0) L at_ x (((rs.find? (·.1 == L)).map (·.2)).getD .discarded) acc.2
          (acc.1 ++ [⟨L, if src L then r.1.map fun c => ⟨0, true, c.stamp⟩ else r.1⟩], r.2)
        let (got, s, g) := ls.foldl lane ([], e.s, e.g)
        let g := if ws.any (·.2.node != 0) then { g with far := e.s.nextId :: g.far.filter fun i => g.out.any (·.id == i) } else g
        let s := ws.foldl (fun s p => if p.2.node == 0 then cacheTouch e.part (atCache p.2.attr) (p.2.pas.headD 0) false s else s) s
        pendResult e ctr (dstWrites w.data got) (e.lanes.map fun L => (L, if src L then poisonFlag else 0)) g s (!g.late.any (·.vp == e.s.nextId))

/-- What a load reads and writes. -/
def usesLoad (w : WM) : Uses := ⟨[(w.base, 2, false), (w.off, 1, w.lo)], [], [(w.data, szWords w.size)], [], false⟩

/-- LD. -/
def execLd (w : WM) (s : State) : Answer := runInstr (.ld w) w.g (usesLoad w) (fun e => loadAct e w false false) s
/-- LDS. -/
def execLds (w : WM) (s : State) : Answer := runInstr (.lds w) w.g (usesLoad w) (fun e => loadAct e w true false) s
/-- LDU: one access for the whole gang (12 R252). -/
def execLdu (w : WM) (s : State) : Answer := runInstr (.ldu w) w.g (usesLoad w) (fun e => loadAct e w false true) s

/-! ## Stores (12 R254, R255) -/

/-- The value of a half of a store's data: the low bytes of a register, or a pair (06 R129). -/
def storeHalf (e : Env) (o : Opd) (size off L : Nat) : PVal :=
  if size ≤ 4 then e.r32 o L
  else
    let c := e.rc o L (off / 4); let d := e.rc o L (off / 4 + 1)
    if c.poison || d.poison then ⟨poisonPair, true⟩ else ⟨d.val ++ c.val, false⟩

/-- A lane's store of a half to one copy: in memory at a physical address, or in the scratchpad at an offset. -/
def storeUnit (e : Env) (o : Opd) (spad : Bool) (size L copy at_ : Nat) (h : Nat × Nat) (acc : State × Group) : State × Group :=
  let v := storeHalf e o size h.1 L
  (accessUnit e (88000 + 16 * L + 2 * copy + h.1 / 8) ⟨e.side, 1, spad, at_ + h.1, h.2, 0, v.val, v.poison, 0, false, 0, [], 0, 0⟩ acc).2

/-- The words a remote store carries. -/
def storeWords (e : Env) (o : Opd) (size L : Nat) : List PWord :=
  (halves size).flatMap fun (f, n) =>
    let v := storeHalf e o size f L
    if n = 8 then [⟨v.val.setWidth 32, v.poison⟩, ⟨v.val.extractLsb' 32 32, v.poison⟩] else [⟨BitVec.ofNat 32 (v.val.toNat % 2 ^ (8 * n)), v.poison⟩]

/-- ST, STS, STMC: nothing is stored in any lane until every check has passed in every lane. The lanes store in a free order (03 R52), of its own for each half (R51) and each copy (R74). -/
def storeAct (e : Env) (w : WM) (spad all : Bool) : Act :=
  let size := 2 ^ w.size.toNat
  let addr (L : Nat) := memAddr e w.base w.off w.imm size L
  let os := [(w.base, 2), (w.off, 1), (w.data, szWords w.size)]
  match memChecks e e.lanes os spad size addr .write all with
  | .inl a => a
  | .inr ws =>
    match remoteLeave e addr size [] [] ws with
    | some a => a
    | none =>
      let put (h : Nat × Nat) (j : Nat) (acc : State × Group) (L : Nat) : State × Group :=
        if spad then storeUnit e w.data true size L j (addr L).toNat h acc
        else match ws.find? (·.1 == L) with
          | some (_, x) => (match x.pas[j]? with | some pa => if x.node == 0 then storeUnit e w.data false size L j pa h acc else acc | none => acc)
          | none => acc
      let copy (h : Nat × Nat) (acc : State × Group) (j : Nat) : State × Group := (shuffle e.s0 (80000 + 40 * h.1 + 1000 * j) e.lanes).foldl (put h j) acc
      let (s, g) := (halves size).foldl (fun acc h => (List.range (if all then 4 else 1)).foldl (copy h) acc) (e.s, e.g.notePoison e.s 2 (poisonLanes e os))
      let touch (s : State) (p : Nat × Where) : State := if p.2.node == 0 then p.2.pas.foldl (fun s pa => cacheTouch e.part (atCache p.2.attr) pa true s) s else s
      let (s, g) := remoteMake e ws (fun L x id => ⟨id, e.part, x.node - 1, x.pas.headD 0, 1, size, 0, storeWords e w.data size L, []⟩) 0 (fun _ => []) (ws.foldl touch s, g)
      .done g s

/-- What a store reads. -/
def usesStore (w : WM) : Uses := ⟨[(w.data, szWords w.size, w.ld), (w.base, 2, false), (w.off, 1, w.lo)], [], [], [], true⟩

/-- ST. -/
def execSt (w : WM) (s : State) : Answer := runInstr (.st w) w.g (usesStore w) (fun e => storeAct e w false false) s
/-- STS. -/
def execSts (w : WM) (s : State) : Answer := runInstr (.sts w) w.g (usesStore w) (fun e => storeAct e w true false) s
/-- STMC: all four copies of a replica page. -/
def execStmc (w : WM) (s : State) : Answer := runInstr (.stmc w) w.g (usesStore w) (fun e => storeAct e w false true) s

/-! ## Atomics (12 R256 to R260) -/

/-- Words of a value for the fabric. -/
def pvWords (n : Nat) (v : PVal) : List PWord := if n = 2 then [⟨v.val.setWidth 32, v.poison⟩, ⟨v.val.extractLsb' 32 32, v.poison⟩] else [⟨v.val.setWidth 32, v.poison⟩]

/-- ATOM, ATOMS, RED: `dst` none where no value is returned, `acq` where the order is an acquire: what the group accesses later comes after it. -/
def atomAct (e : Env) (spad acq : Bool) (op : Nat) (base off : Opd) (b c : Nat → PVal) (pois : List (Opd × Nat)) (dst : Option (Opd × Nat)) : Act :=
  let n := if op ≥ 0xC then 2 else 1
  let size := 4 * n
  let addr (L : Nat) := memAddr e base off 0 size L
  if (match dst with | some (_, ctr) => e.full ctr | none => false) then .stall e.s0
  else
    match memChecks e e.lanes pois spad size addr .update false with
    | .inl a => a
    | .inr ws =>
      match remoteLeave e addr size [] [] ws with
      | some a => a
      | none =>
        let vp := if dst.isSome then e.s.nextId else 0
        let keys (L : Nat) : List Nat := match dst with | some (d, _) => unitKeys d (e.lanes.headD 0) L 0 size | none => []
        let upd (L at_ : Nat) (acc : State × Group) : List RegCell × State × Group :=
          let late : Late := ⟨e.side, 2, spad, at_, size, op, (b L).val, (b L).poison, (c L).val, (c L).poison, vp, keys L, 0, if acq then e.side else 0⟩
          accessUnit e (89000 + L) late acc
        let lane (acc : List (Nat × List RegCell) × State × Group) (L : Nat) : List (Nat × List RegCell) × State × Group :=
          if spad then let r := upd L (addr L).toNat acc.2; (acc.1 ++ [(L, r.1)], r.2)
          else match ws.find? (·.1 == L) with
            | some (_, x) =>
              if x.node == 0 then
                let r := upd L (x.pas.headD 0) acc.2
                (acc.1 ++ [(L, r.1)], cacheTouch e.part (atCache x.attr) (x.pas.headD 0) true r.2.1, r.2.2)
              else (acc.1 ++ [(L, halfCells size 0 false 0)], acc.2)
            | none => acc
        let (olds, s, g1) := (shuffle e.s0 81000 e.lanes).foldl lane (([] : List (Nat × List RegCell)), e.s, e.g)
        let bad := poisonLanes e pois
        let go (r : Act) : Act := match r with
          | .done g s =>
            let (s, g) := remoteMake e ws (fun L x id => ⟨id, e.part, x.node - 1, x.pas.headD 0, 2, size, op, pvWords n (b L), pvWords n (c L)⟩) vp keys (s, g)
            .done g s
          | a => a
        match dst with
        | none => go (.done (g1.notePoison e.s 2 bad) s)
        | some (d, ctr) =>
          let old (L : Nat) : List RegCell := ((olds.find? (·.1 == L)).map (·.2)).getD []
          go (pendResult e ctr (dstWrites d (e.lanes.map fun L => ⟨L, old L⟩)) (bad.map fun L => (L, poisonFlag)) g1 s (!(g1.late.any (·.vp == vp) || ws.any (·.2.node != 0))))

/-- 12 R256: the operand and the compare value of an atomic. -/
def atomOps (e : Env) (op : BitVec 4) (b : Opd) : (Nat → PVal) × (Nat → PVal) :=
  let n := if aop64 op then 2 else 1
  let pr (L k : Nat) : PVal :=
    let c := e.rc b L k
    if n = 1 then pval c.get c.poison
    else let d := e.rc b L (k + 1); if c.poison || d.poison then ⟨poisonPair, true⟩ else ⟨d.val ++ c.val, false⟩
  (fun L => pr L 0, fun L => if aopCas op then pr L n else ⟨0, false⟩)

/-- ATOM and ATOMS. -/
def atomInstr (i : Instr) (spad : Bool) (w : WT) (s : State) : Answer :=
  let n := if aop64 w.op then 2 else 1
  let nb := if aopCas w.op then 2 * n else n
  runInstr i w.g ⟨[(w.b, nb, w.lb), (w.base, 2, false), (w.off, 1, w.lo)], [], [(w.data, n)], [], false⟩
    (fun e =>
      let (b, c) := atomOps e w.op w.b
      atomAct e spad (w.order == 0#2 || w.order == 2#2) w.op.toNat w.base w.off b c [(w.base, 2), (w.off, 1), (w.b, nb)] (if w.data == .z then none else some (w.data, w.ctr.toNat))) s

/-- ATOM. -/
def execAtom (w : WT) (s : State) : Answer := atomInstr (.atom w) false w s
/-- ATOMS. -/
def execAtoms (w : WT) (s : State) : Answer := atomInstr (.atoms w) true w s
/-- RED (12 R259): an atomic that returns nothing. -/
def execRed (w : WM) (s : State) : Answer :=
  let op : BitVec 4 := w.imm.extractLsb' 4 4; let n := if aop64 op then 2 else 1
  runInstr (.red w) w.g ⟨[(w.data, n, w.ld), (w.base, 2, false), (w.off, 1, w.lo)], [], [], [], true⟩
    (fun e =>
      let (b, c) := atomOps e op w.data
      atomAct e (w.space == 1#2) false op.toNat w.base w.off b c [(w.base, 2), (w.off, 1), (w.data, n)] none) s

/-! ## FENCE and CCTL (12 R261, R262) -/

/-- FENCE: it orders; in one interleaving of whole accesses there is nothing left to order (log entry 4). -/
def execFence (w : WM) (s : State) : Answer := runInstr (.fence w) w.g .none (fun e => .done e.g e.s) s

/-- 12 R262: make a line the first victim of its set. -/
def cacheFirst (pa : Nat) (s : State) : State :=
  match s.cache.find? fun c => c.die == homeDie pa && c.line == pa / 64 with
  | some c => { s with cache := s.cache.erase c ++ [c] }
  | none => s

/-- What one lane's cache operation does: 0 prefetch, 1 first victim, 2 evict, with the bytes that the write-back of a dirty line moves (27 R439). A line that may be read is permitted (DESIGN CHOICE, log 27: 02 R30 lists no cache control). A line of another device's memory has its home die there, and none here. -/
def cctlLane (e : Env) (op : Nat) (addr : DWord) (s : State) : State :=
  match lookVa e.s0 e.g0.core e.g0.ctx addr .read e.sys false with
  | .at_ w =>
    if w.node != 0 || atCache w.attr == 2 then s
    else
      let pa := w.pas.headD 0
      match op with
      | 0 =>
        let s := countBytes e.part pa s
        (match regionOf pa with
        | .host => if s.coin (36000 + pa) then cacheAlloc (e.s0.part e.part).dcways pa false false s else s
        | _ => cacheAlloc (e.s0.part e.part).dcways pa false false s)
      | 1 => cacheFirst pa s
      | _ => cacheDrop pa (if s.cache.any fun l => l.die == homeDie pa && l.line == pa / 64 && l.dirty then countBytes e.part pa s else s)
  | _ => s

/-- Cache operations of the acting lanes; an address that has no lookaside entry waits for its walk, and a walk that failed is forgotten (02 R35). -/
def cctlAct (e : Env) (op : Nat) (addr : Nat → DWord) : Act :=
  let missed := e.lanes.filter fun L => match lookVa e.s0 e.g0.core e.g0.ctx (addr L) .read e.sys false with | .miss => true | _ => false
  if !missed.isEmpty then .stall (missed.foldl (fun s L => askWalk e.g0.core e.g0.ctx (addr L).toNat s) e.s0)
  else .done e.g (e.lanes.foldl (fun s L => forgetWalk e.g0.core e.g0.ctx (addr L).toNat (cctlLane e op (addr L) s)) e.s)

/-- CCTL. -/
def execCctl (w : WM) (s : State) : Answer :=
  runInstr (.cctl w) w.g ⟨[(w.base, 2, false), (w.off, 1, w.lo)], [], [], [], true⟩
    (fun e =>
      let bad := poisonLanes e [(w.base, 2), (w.off, 1)]
      if !bad.isEmpty && e.sr.trapPoison then .trap cPOISON (lanesMask bad) 0
      else match cctlAct e (w.imm.extractLsb' 0 2).toNat fun L => memAddr e w.base w.off 0 1 L with
        | .done g s => .done (g.notePoison e.s 2 bad) s
        | a => a) s

end Sys2Proof.Machine
end

