-- ==== Sys2Proof/Machine/Sched.lean ====
section
/-! DEFINITION. The group scheduler: readiness, ranking, the start of a clause, the issue of one instruction, and a turn of the agenda (21 R374; 23 R408, R409; 08 R163 to R170). -/

namespace Sys2Proof.Machine

/-- A group may issue: its context runs, or it has been told to halt and the line has not reached the group yet; a group that has raised the line itself has stopped (25 R418, R419, R433). -/
def mayIssue (s : State) (gid : Nat) (g : Group) : Bool :=
  let x := s.ctx g.ctx
  x.st == .running || (x.st == .halting && !x.recs.any fun r => r.kind == 1 && r.unit == gid)

/-- The groups resident in a quadrant that may issue. -/
def quadGroups (s : State) (q : Nat) : List (Nat × Group) :=
  s.groups.filter fun p => p.2.quad == q && p.2.resident && mayIssue s p.1 p.2

/-- The queue of a quadrant: operations done and waiting for their turn on wm have left it. -/
def State.queue (s : State) (q : Nat) : List SeqOp := sgetD [] q s.seqs
/-- A queue has room for one more operation. -/
def queueFree (c : Nat) (l : List SeqOp) : Bool := decide ((l.filter fun o => o.phase != 3 && o.ctx == c).length < 8)
/-- Copies in flight on a core. DESIGN CHOICE (log 58): an operation takes one of the 64 entries of 05 R91 while its context is RUNNING or stopping. -/
def coreCopies (s : State) (core : Nat) : Nat := (s.copies.filter fun p => p.2.core == core && (s.ctx p.2.ctx).st.stopsOrRuns).length
/-- The credit lines of a core. -/
def State.lines (s : State) (part core : Nat) : List Credit := sgetD [] (part * 64 + core) s.credits
/-- The line for a target. -/
def lineOf (core q : Nat) (l : List Credit) : Option Credit := l.find? fun c => c.core == core && c.q == q

/-- 22 R382, 21 R374: the gang's hold has ended, and what it has stored behind a node index is answered. -/
def holdOver (s : State) (g : Group) (a : Gang) : Bool :=
  !g.awaits a && match a.hold with
  | .free => true
  | .seqFull => queueFree g.ctx (s.queue g.quad)
  | .copyFull => decide (coreCopies s g.core < 64)
  | .credit core q => match lineOf core q (s.lines g.part g.core) with | some c => c.count != 0 | none => true
  | .wait m n => g.waitDone m n
  | .barGather h i => g.gangs.all fun b => b.hold == .barGather h i
  | .regang h i => g.gangs.all fun b => b.hold == .regang h i
  | _ => false

/-- The header a gang would start from: its open clause's, or the word at its pc; `none` when it cannot be told yet. -/
def headerSeen (s : State) (gid : Nat) (g : Group) (a : Gang) : Option (Option Header) :=
  match a.hdr with
  | some h => some (some h)
  | none =>
    match fetchWord { s with cur := some ⟨gid, a.slices.headD 0⟩ } gid g a.pc with
    | .ok w => some (decHeader w)
    | .fault _ _ => some none
    | .wait _ => none

/-- 18 R314: while a factorisation of a group runs, no gang of the group issues. -/
def Group.heldByFactor (g : Group) : Bool := g.gangs.any (·.hold == .factor)

/-- 21 R374: a gang is ready. One whose header faults is ready to raise the fault. -/
def gangReady (s : State) (gid : Nat) (g : Group) (a : Gang) : Bool :=
  holdOver s g a && !g.heldByHandler a && !g.heldByFactor &&
  (match headerSeen s gid g a with
   | some (some h) => g.waitsMet h
   | some none => true
   | none => false)

/-- 08 R188: the priority level as a decision sees it. -/
def Group.prioNow (g : Group) (s : State) : Nat :=
  if s.clk ≥ g.prioAt + 2 then g.prio.toNat else if s.clk ≥ g.prioMidAt + 2 then g.prioMid.toNat else g.prioOld.toNat
/-- 08 R188: a new level. At most one PRIO of a group issues in a clk, so that two at most are younger than 2 clk. -/
def Group.setPrio (clk : Nat) (n : BitVec 2) (g : Group) : Group :=
  { g with prioOld := if clk ≥ g.prioMidAt + 2 then g.prioMid else g.prioOld, prioMid := g.prio, prioMidAt := g.prioAt, prio := n, prioAt := clk }

/-- 23 R408: the rank of a ready gang, smaller first. -/
def rank (s : State) (g : Group) (a : Gang) : List Nat :=
  let age := (s.part g.part).ageNow s
  (if 2 * (s.clk - a.since) ≥ age then [0, a.since] else [1, 0]) ++ [(g.effSr s).role.toNat % 4, 3 - g.prioNow s, a.since, g.grp, a.slices.headD 0]

/-- Lexicographic order of ranks. -/
def rankLt : List Nat → List Nat → Bool
  | [], [] => false
  | [], _ => true
  | _, [] => false
  | a :: as, b :: bs => if a < b then true else if b < a then false else rankLt as bs

/-- The gangs of a quadrant. -/
def quadGangs (s : State) (q : Nat) : List (Nat × Group × Gang) :=
  (quadGroups s q).flatMap fun p => p.2.gangs.map fun a => (p.1, p.2, a)

/-- 23 R408: the stream a gang may start its clause on: the one it kept, unless a ready gang without a stream outranks it; else, for the highest-ranked ready gang without a stream, a free stream, or one kept between clauses by a gang that is not ready or that it outranks. -/
def streamFor (s : State) (gid : Nat) (g : Group) (a : Gang) : Option Nat :=
  let all := quadGangs s g.quad
  let others := all.filter fun x => !(x.1 == gid && x.2.2.slices == a.slices)
  let mine := rank s g a
  let beaten := others.any fun x => x.2.2.stream.isNone && gangReady s x.1 x.2.1 x.2.2 && rankLt (rank s x.2.1 x.2.2) mine
  if beaten then none
  else
    match a.stream with
    | some k => some k
    | none =>
      (List.range 4).find? fun k =>
        match others.find? (fun x => x.2.2.stream == some k) with
        | none => true
        | some x => x.2.2.hdr.isNone && (!gangReady s x.1 x.2.1 x.2.2 || rankLt mine (rank s x.2.1 x.2.2))

/-- Take a stream from whatever gang of the quadrant kept it. -/
def freeStream (q k : Nat) (s : State) : State :=
  { s with groups := s.groups.map fun p =>
      if p.2.quad == q then (p.1, { p.2 with gangs := p.2.gangs.map fun a => if a.stream == some k && a.hdr.isNone then { a with stream := none } else a }) else p }

/-- 08 R163, R166, R167: what a clause's header raises. `fresh` groups of tasks and continuations raise ILLEGAL_TARGET (22 R391, R395). -/
def headerCause (fresh priv : Bool) (w : DWord) : Option Nat :=
  match decHeader w with
  | none => some (if fresh then cTARGET else cHEADER)
  | some h => if !h.ok then some cHEADER else if h.cls == 4#3 && !priv then some cPRIVILEGE else none

/-- CLAUSE_START (08 R168): a ready gang begins, or goes on with, its clause on a stream; its first instruction issues no earlier than the next clk (23 R408). -/
def execClauseStart (gid slice : Nat) (s : State) : Answer :=
  match s.group? gid with
  | none => .next s
  | some g =>
    match g.gang? slice with
    | none => .next s
    | some a =>
      if !g.resident || !mayIssue s gid g || (a.hdr.isSome && a.stream.isSome) || !holdOver s g a || g.heldByHandler a || g.heldByFactor then .next s
      else
        match fetchWord s gid g a.pc with
        | .wait s' => .next s'
        | .fault c d => .next (haltAt gid slice c d a.pc (g.activeMask a.slices) (forgetWalk g.core g.ctx a.pc.toNat s))
        | .ok w =>
          match headerCause g.fresh (privileged s g) w with
          | some c => .next (haltAt gid slice c 0 0 0 (fetchPass s g a.pc)).bump
          | none =>
            let h := (decHeader w).getD default
            if !g.waitsMet h then .next s
            else
              match streamFor s gid g a with
              | none => .next s
              | some k =>
                let s1 := freeStream g.quad k (fetchPass s g a.pc)
                let waited (c : Nat) : Bool := [h.w0, h.w1, h.wm].zipIdx.any (fun (t, k) => k == c && t != 15#4) || (match a.hold with | .wait m _ => m.getLsbD c | _ => false)
                .next ((s1.updGroup gid fun g => { ((g.covered waited).updGang slice fun a => { a with hdr := some h, stream := some k, hold := .free, yld := false, due := max a.due (s.clk + 1) }) with
                    fresh := false, remote := restRemote [] g.remote }).bump)

/-- SLEEP_EXPIRY (22 R385): the sleep time of a gang ends, in $tsc where a migration has carried it (23 R411), and it becomes ready. -/
def execSleepExpiry (gid slice : Nat) (s : State) : Answer :=
  .next (s.updGroup gid fun g => g.updGang slice fun a =>
    match a.hold with
    | .sleep n => if n ≤ s.clk then { a with hold := .free, since := s.clk } else a
    | .sleepTsc n => if n ≤ s.tsc.toNat then { a with hold := .free, since := s.clk } else a
    | _ => a)

/-- 23 R409: the gang that issues next in a quadrant: among the streams whose next instruction is due, the one that follows the last issuing stream; a stream whose instruction could not issue is passed over. None in a clk in which the quadrant has issued. -/
def issuer (s : State) (q : Nat) : Option (Nat × Nat × Nat) :=
  let last := (sget q s.rr).getD 3; let tried := sgetD 0 q s.tried
  let due := (quadGangs s q).filter fun x => x.2.2.hdr.isSome && x.2.2.hold == .free && !x.2.1.heldByHandler x.2.2 && !x.2.1.heldByFactor && !x.2.1.awaits x.2.2 && decide (x.2.2.due ≤ s.clk)
  let order := [(last + 1) % 4, (last + 2) % 4, (last + 3) % 4, last % 4]
  let at_ (k : Nat) : Option (Nat × Nat × Nat) := (due.find? fun x => x.2.2.stream == some k).map fun x => (k, x.1, x.2.2.slices.headD 0)
  if sgetD 0 q s.issuedAt == s.clk + 1 then none
  else match (order.filter fun k => !tried.testBit k).findSome? at_ with
    | some x => some x
    | none => order.findSome? at_

/-- 27 R439: an instruction of a partition has issued. -/
def hasIssued (part : Nat) (s t : State) : Bool := (t.part part).issue != (s.part part).issue

/-- 23 R409: a quadrant's turn is over: the stream has issued in this clk, or it is passed over until another has been tried. -/
def noteTurn (q k part : Nat) (s t : State) : State :=
  if hasIssued part s t then { t with rr := sput 3 q k t.rr, issuedAt := sput 0 q (s.clk + 1) t.issuedAt, tried := serase q t.tried }
  else
    let old := sgetD 0 q t.tried
    { t with tried := sput 0 q (if old.testBit k then 2 ^ k else old ||| 2 ^ k) t.tried }

/-- The gang of a quadrant's turn fetches its word; what the word decodes to runs by `ex` (08 R186: an undefined word is ILLEGAL_OPCODE). -/
def issueTurn (ex : Instr → State → Answer) (q : Nat) (s : State) : Answer :=
  match issuer s q with
  | none => .next s
  | some (k, gid, slice) =>
    let s := { s with cur := some ⟨gid, slice⟩ }
    match curGang s with
    | none => .next s
    | some (_, _, g, a, h) =>
      let va := wordAddr a.pc a.idx
      match fetchInstr s gid g h va with
      | .wait s' => .next (noteTurn q k g.part s s')
      | .fault c d => .next (noteTurn q k g.part s (haltAt gid slice c d va (g.activeMask a.slices) (forgetWalk g.core g.ctx va.toNat s)).bump)
      | .ok w =>
        match decode w with
        | none => .next (noteTurn q k g.part s (countIssue gid slice s (haltAt gid slice cILLOPCODE 0 0 0 (fetchPass s g va))).bump)
        | some i =>
          match ex i (readyLate (lateRule i) (decGuard w) gid slice (fetchPass s g va)) with
          | .next t => .next (noteTurn q k g.part s t)
          | x => x

/-- 29 R458: what comes about in a part that stays in the ROM: a reset, and accesses of its registers and of memory. -/
def romTakes : Instr → Bool
  | .resetPart _ | .registerWrite .. | .hostMemRead .. | .hostMemWrite .. | .hostFence _ | .hostCoherentAgentAccess .. => true
  | _ => false

/-- Who makes the accesses of an event: the gang that begins a clause, or an engine, the distributor or the host's ADOPT, by the number of its operation, quadrant or context and a number for its kind. -/
def actorOf : Instr → Option Cur
  | .clauseStart gid slice => some ⟨gid, slice⟩
  | .copyEngineRow op => some ⟨op, 64⟩
  | .sequencerOpStart q | .kStep q | .drainRow q | .factorColumn q | .factorGrowth q => some ⟨q, 65⟩
  | .chunkReceive c ch => some ⟨64 * c + ch.h, 66⟩
  | .instanceComplete c h _ => some ⟨64 * c + h, 66⟩
  | .launchRecordAccept c src => some ⟨8 * c + src, 67⟩
  | .adoptCarry c => some ⟨c, 68⟩
  | _ => none

/-- Time passes: n ns with the slew of $tsc, c clk; events that wait are written once $tsc has moved on (27 R445). -/
def timeTurn (c n : Nat) (s : State) : State :=
  let t := (s.slewed n).pass c n
  t.flushEvents (if t.tsc == s.tsc then 0 else 1)

/-- One turn: a quadrant issues, an event comes about, or time passes. An instruction word is no event. -/
def runTurn (ex : Instr → State → Answer) (t : Turn) (s : State) : Answer :=
  match t with
  | .issue q => issueTurn ex q s
  | .event i => if i.opcode == 256 && (s.dev.bootState != 3 || romTakes i) then ex i { s with cur := actorOf i } else .next s
  | .time c n => .next (timeTurn c n s)
  | .softError site n => .next (softError site n s)

/-- What the host does to the part; it needs no clock of the part (log entry 66). -/
def byHost : Instr → Bool
  | .resetPart _ | .registerWrite .. | .hostMemRead .. | .hostMemWrite .. | .hostFence _ | .hostCoherentAgentAccess .. | .grantWrite .. | .sharesWrite .. | .plimitWrite _ | .eqheadWrite ..
  | .lqtailWrite .. | .lqbaseWrite .. | .sliceatWrite .. | .haltCtxCmd _ | .resumeCtx _ | .switchOut _ | .switchIn _ | .killCtx _ | .quiesceCtx _ | .createCtx _ | .ctxcmdReserved ..
  | .invalidateContext .. | .invalidatePages .. | .invalidateRanges .. | .invalidateNodes .. | .invalidateReserved .. | .holdCtx .. | .adoptCarry _ => true
  | _ => false
/-- A turn of the host. -/
def hostTurn : Turn → Bool
  | .event i => byHost i
  | _ => false

/-! ## A machine about to issue one word -/

/-- The class of a clause that may hold an opcode (08 R185). -/
def classFor (op : Nat) : Nat :=
  if 0xA0 ≤ op && op ≤ 0xAE then 2 else if 0xB0 ≤ op && op ≤ 0xBC then 3 else if 0xD0 ≤ op && op ≤ 0xD3 then 4 else 0

/-- Special registers at a group's start (08 R159). -/
def SRegs.start (role ctr : Word) : SRegs := ⟨0, 1, 0, 0, role, ctr, 0, 0, 0, 0, 0, 0, false⟩

/-- A fresh slice: all four lanes active (21 R359). -/
def Slice.start : Slice := ⟨15, 15, [], [], 0⟩

/-- A fresh gang of n slices at an address. -/
def Gang.start (n : Nat) (pc : DWord) (clk : Nat) : Gang := ⟨List.range n, pc, 0, none, none, clk, clk, .free, false, none, 0⟩

/-- A fresh group (21 R359): everything at its start value. -/
def Group.start (ctx lid wk quad grp ngrp nsl regs tiles : Nat) (entry : DWord) (role ctr : Word) (clk : Nat) : Group where
  ctx := ctx
  lid := lid
  wk := wk
  quad := quad
  resident := true
  grp := grp
  ngrp := ngrp
  wgx := 0
  wgy := 0
  wgz := 0
  cx := 0
  cy := 0
  wIndex := 0
  nsl := nsl
  regs := regs
  tiles := tiles
  slices := List.replicate nsl Slice.start
  gangs := [Gang.start nsl entry clk]
  partings := []
  rf := []
  tile := []
  pv := []
  sr := SRegs.start role ctr
  trap := none
  prio := 1
  prioOld := 1
  prioAt := 0
  prioMid := 1
  prioMidAt := 0
  resume := none
  hz := []
  srhz := []
  vp := []
  out := []
  remote := []
  trapAt := 0
  fresh := false
  far := []
  late := []
  due := []

/-- Where the word of `placeWord` lies: the header at this address, the word after it. -/
def wordPlace : Nat := 0x10000

/-- The state with one instruction word ready to issue next: a running context of partition 0 with a window and a lookaside entry over the code page, one group in quadrant 0 inside a clause of a class that may hold the word, and the quadrant's turn next (log entry 9). -/
def placeWord (w : DWord) (s : State) : State :=
  let cls := classFor (fld w 51 8).toNat
  let h : Header := ⟨BitVec.ofNat 3 cls, 0, 15, 15, 15, 15, 15, 15, false, 0⟩
  let g := Group.start 0 0 0 0 0 1 1 256 8 (BitVec.ofNat 64 wordPlace) 1 5 0
  let g := { g with gangs := [{ Gang.start 1 (BitVec.ofNat 64 wordPlace) 0 with hdr := some h, stream := some 0 }] }
  let s := writeMem wordPlace 8 (encHeader h).toNat false s
  let s := writeMem (wordPlace + 8) 8 w.toNat false s
  let s := s.setPart 0 { Part.reset with quads := 1, spsets := 1, slotn := 256, taskn := 1024, pwinl := [0xFFFFFFFF001, 0, 0, 0] }
  let s := s.setCtx 0 { Ctx.reset with st := .running, sup := cls == 4 }
  let s := { s with looks := [⟨0, 0, wordPlace, wordPlace + 0xFFF, wordPlace, 0x1D, 0, true, false, 4096⟩], clk := s.clk, past := [], rr := [], issuedAt := [], tried := [], dev := { s.dev with stopped := false, clockOff := false } }
  { (s.setGroup 1 g) with agenda := [.issue 0], nextId := max s.nextId 2 }

end Sys2Proof.Machine
end

