-- ==== Sys2Proof/Machine/Work.lean ====
section
/-! DEFINITION. What the units outside the lanes share: block reads, completions, residency and the start of groups, task signals, barriers and continuations, launch records (21 R355 to R373; 22 R393 to R397; 23 R401 to R407). -/

namespace Sys2Proof.Machine

/-! ## Reads of blocks of words -/

/-- The outcome of reading a block of 32-bit words. -/
inductive Block where
  | ok (ws : List PWord)
  | wait (s : State)
  | fault (cause detail : Nat) (addr : DWord)
deriving Repr

/-- How the reader of a block makes its k-th remote access. -/
abbrev Rem := Nat → (Nat → FabReq) → State → Option RemoteResp × State

/-- A remote access that an engine or the distributor makes for context c: sent once, then waited for. -/
def remoteEng (dist : Bool) (c op : Nat) : Rem := fun k mk s =>
  match s.waits.find? fun w => w.dist == dist && w.op == op && w.k == k with
  | some w => (w.resp, s)
  | none =>
    let id := s.nextId
    (none, (countFab (mk id).part { s with waits := ⟨id, c, dist, op, k, none⟩ :: s.waits, out := { s.out with fab := s.out.fab ++ [mk id] } }).takeId)

/-- An access number that no reader of a block uses. -/
def noAccess : Nat := 2 ^ 62
/-- An engine or the distributor asks for none of its remote accesses any more: those answered are forgotten; one still out is awaited, by 02 R42 and R45, though its answer is for nobody. -/
def dropWaits (dist : Bool) (op : Nat) (s : State) : State :=
  { s with waits := s.waits.filterMap fun w => if w.dist == dist && w.op == op then (if w.resp.isSome then none else some { w with k := noAccess }) else some w }

/-- Read n aligned 32-bit words from a virtual address as weak loads; a walk or a remote access may have to be waited for. -/
def readBlock (rem : Rem) (core c : Nat) (sys : Bool) (va : DWord) (n : Nat) (s : State) : Block :=
  let ad (k : Nat) : DWord := va + BitVec.ofNat 64 (4 * k)
  let looks := (List.range n).map fun k => (k, lookVa s core c (ad k) .read sys false)
  let missed := looks.filter fun p => p.2 == .miss
  if !missed.isEmpty then .wait (missed.foldl (fun s p => askWalk core c (ad p.1).toNat s) s)
  else
    match looks.findSome? (fun p => match p.2 with | .trans d => some (p.1, cTRANS, d) | .perm => some (p.1, cPERM, 0) | _ => none) with
    | some (k, cause, d) => .fault cause d (ad k)
    | none =>
      let (s1, rs) := looks.foldl (fun (s, rs) p =>
        match p.2 with
        | .at_ w =>
          if w.node == 0 then (s, rs ++ [(p.1, some (RemoteResp.done [readPWord s (w.pas.headD 0)]))])
          else let (r, s) := rem p.1 (fun id => ⟨id, partOf c, w.node - 1, w.pas.headD 0, 0, 4, 0, [], []⟩) s; (s, rs ++ [(p.1, r)])
        | _ => (s, rs)) (s, ([] : List (Nat × Option RemoteResp)))
      if rs.any (·.2.isNone) then .wait s1
      else
        match rs.find? (fun p => p.2 == some .undeliverable), rs.find? (fun p => p.2 == some .refused) with
        | some p, _ => .fault cTRANS 0 (ad p.1)
        | none, some p => .fault cPERM 0 (ad p.1)
        | none, none => .ok (rs.map fun p => match p.2 with | some (.done (x :: _)) => x | _ => ⟨0, true⟩)

/-- A block that has been read: each word passed through its die cache, and the bytes are counted (04 R77; 27 R439). -/
def passBlock (core c : Nat) (sys : Bool) (va : DWord) (n : Nat) (s : State) : State :=
  (List.range n).foldl (fun s k => match lookVa s core c (va + BitVec.ofNat 64 (4 * k)) .read sys false with
    | .at_ w => if w.node == 0 then cacheTouch (partOf c) (atCache w.attr) (w.pas.headD 0) false s else s
    | _ => s) s

/-- The registers of an operand block that exist: none past v255 or s127. DESIGN CHOICE (log 58): a v register past the group's allocation reads as poisoned, so that with POISON traps on such a block is POISON_USE, and with them off ILLEGAL_OPERAND; R97 names no check for it. -/
def blockLeft (o : Opd) (n : Nat) : Nat :=
  match o with
  | .v k => min n (256 - k.toNat)
  | .s k => min n (128 - k.toNat)
  | _ => n

/-- The registers of a record that exist. -/
def recLeft (o : Opd) : Nat :=
  match o with
  | .s _ => blockLeft o 16
  | _ => 0

/-- Failed walks of a core and context are forgotten once the unit that needed them has taken its fault (02 R35). -/
def forgetAll (core c : Nat) (s : State) : State := dropFailed (fun l => l.core == core && l.ctx == c) s

/-- The first poisoned word of a block. -/
def firstPoison (ws : List PWord) : Option Nat := ws.findIdx? (·.poison)
/-- The bytes of a block of words. -/
def pwBytes (ws : List PWord) : List Byte := ws.flatMap fun w => leBytes 4 w.val.toNat
/-- Word k of a list of words. -/
def wordAt (ws : List Word) (k : Nat) : Word := (ws[k]?).getD 0
/-- Words k and k + 1 as one value, little-endian. -/
def pairAt (ws : List Word) (k : Nat) : DWord := wordAt ws (k + 1) ++ wordAt ws k

/-! ## Stores of the sequencer, the drain unit and the Meridian sequencer (15 R308; 14 R282; 19 R350) -/

/-- A store is performed. -/
def SeqStore.perform (part core : Nat) (s : State) (x : SeqStore) : State :=
  if x.spad then writeSpad part core x.at_ x.n x.val x.poison 0 s else cacheTouch part x.code x.at_ true (writeMem x.at_ x.n x.val x.poison s)
/-- The free choices of an operation's stores, those of row i. -/
def storeKey (id i : Nat) : Nat := 2 ^ 77 + (id * 64 + i) * 2 ^ 16
/-- Two stores of a place. -/
def SeqStore.meets (x y : SeqStore) : Bool := x.spad == y.spad && decide (x.at_ < y.at_ + y.n) && decide (y.at_ < x.at_ + x.n)
/-- Of stores in their order, those that `due` names are performed, each after the earlier ones that it meets; the others wait on. -/
def SeqStore.settle (part core : Nat) (due : SeqStore × Nat → Bool) (l : List SeqStore) (s : State) : List SeqStore × State :=
  let r := l.zipIdx.foldr (fun x (r : List SeqStore × List SeqStore) => if due x || r.2.any x.1.meets then (r.1, x.1 :: r.2) else (x.1 :: r.1, r.2)) ([], [])
  (r.1, r.2.foldl (SeqStore.perform part core) s)
/-- New stores of an operation: each is performed now or later, by a free choice. -/
def SeqStore.make (part core key : Nat) (new : List SeqStore) (acc : List SeqStore × State) : List SeqStore × State :=
  let n := acc.1.length
  SeqStore.settle part core (fun x => decide (n ≤ x.2) && !acc.2.coin (key + (x.2 - n))) (acc.1 ++ new) acc.2

/-! ## Completion (03 R70; 21 R374) -/

/-- Gangs that a change of their group makes ready have been ready from now on. -/
def markReady (gid : Nat) (g g' : Group) (s : State) : Group :=
  { g' with gangs := g'.gangs.map fun a => if !gangReady s gid g a && gangReady s gid g' a then { a with since := s.clk } else a }

/-- An operation of a group completes on its counter. -/
def completeTok (gid ctr id : Nat) (s : State) : State :=
  match s.group? gid with
  | none => s
  | some g => s.setGroup gid (markReady gid g (g.endTok ctr id) s)

/-! ## Residency (01 R13; 14 R279; 21 R359, R360) -/

/-- The groups resident in a quadrant. -/
def resident (s : State) (q : Nat) : List Group := (s.groups.map (·.2)).filter fun g => g.quad == q && g.resident
/-- A group of a shape fits a quadrant that the partition holds on a core that is not fenced (25 R429). -/
def quadFits (s : State) (part q regs tiles : Nat) : Bool :=
  let gs := resident s q
  (s.part part).hasQuad q && !s.dev.fenced.contains (coreOf q) && decide (gs.length < 32) &&
  decide (gs.foldl (fun n g => n + g.regs) 0 + regs ≤ 4096) && decide (gs.foldl (fun n g => n + g.tiles) 0 + tiles ≤ 8)
/-- The quadrants of a core that can take a group of a shape. -/
def fitting (s : State) (part core regs tiles : Nat) : List Nat := ((List.range 4).map (4 * core + ·)).filter fun q => quadFits s part q regs tiles
/-- One of them. -/
def pickQuad (s : State) (part core regs tiles : Nat) : Option Nat := let l := fitting s part core regs tiles; l[s.pick (82000 + core) l.length]?

/-- The groups of a shape that an empty quadrant takes. -/
def quadCap (regs tiles : Nat) : Nat := min (min 32 (4096 / max 1 regs)) (if tiles = 0 then 32 else 8 / tiles)
/-- The groups of a shape that a core takes with nothing else on it. -/
def coreCap (s : State) (part core regs tiles : Nat) : Nat :=
  (((List.range 4).filter fun k => (s.part part).hasQuad (4 * core + k)).length) * quadCap regs tiles
/-- The cores on which a partition holds a quadrant, fenced ones left out. -/
def partCores (s : State) (part : Nat) : List Nat :=
  (List.range 64).filter fun c => !s.dev.fenced.contains c && (List.range 4).any fun k => (s.part part).hasQuad (4 * c + k)

/-- 21 R360: another workgroup of a launch may become resident on a core. -/
def spadFits (s : State) (part core lid b : Nat) : Bool :=
  b == 0 ||
  (let lids := ((s.groups.map (·.2)).filter fun g => g.core == core && g.resident && g.part == part).map (·.lid)
   let bytes (l : Nat) : Nat := match sget l s.launches with | some x => x.rec_.spad | none => 0
   !lids.contains lid && decide ((lids.eraseDups.foldl (fun n l => n + bytes l) 0) + b ≤ (s.part part).spadSize core))

/-- A new group takes its number and its place. -/
def addGroup (g : Group) (s : State) : State := ({ s with groups := sset s.nextId g s.groups }).takeId

/-- 21 R359: s registers at a group's start. -/
def withS (cells : List (Nat × RegCell)) (g : Group) : Group := cells.foldl (fun g c => g.putCell (keyS c.1) c.2) g

/-- 23 R406: the workgroups a launch places on virtual core c. -/
def LRec.share (r : LRec) (c : Nat) : Nat := let n := r.w * r.h; let tot := r.gx * r.gy * r.gz; tot / n + (if c < tot % n then 1 else 0)
/-- The role of group g (23 R403). -/
def LRec.role (r : LRec) (g : Nat) : Word := BitVec.ofNat 32 (r.rolemap.toNat / 4 ^ g % 4)

/-- 21 R359, 23 R406: the next workgroup of a launch starts on virtual core vc; `none` when it does not fit. -/
def startWorkgroup (lid vc : Nat) (s : State) : Option State :=
  match sget lid s.launches with
  | none => none
  | some l =>
    let r := l.rec_; let core := (l.map[vc]?).getD 0; let part := partOf l.ctx
    let k := (l.started[vc]?).getD 0; let w := vc + k * (r.w * r.h)
    if !spadFits s part core lid r.spad then none
    else
      let wk := s.nextId
      let s1 := { s with wgs := sset wk ⟨lid, core, r.groups, s.tsc.toNat⟩ s.wgs, launches := sset lid { l with started := l.started.set vc (k + 1), before := l.before <|> some s.turn } s.launches }
      (List.range r.groups).foldl (fun (o : Option State) grp => o.bind fun s => (pickQuad s part core r.regs r.tiles).map fun q =>
        let g := Group.start l.ctx lid wk q grp r.groups r.slices r.regs r.tiles r.entry (r.role grp) (BitVec.ofNat 32 r.contract) s.clk
        addGroup (withS (l.consts.map fun c => (c.1, ⟨c.2, false, 0⟩))
          { g with wgx := w % r.gx, wgy := w / r.gx % r.gy, wgz := w / (r.gx * r.gy), cx := vc % r.w, cy := vc / r.w, wIndex := w }) s)
        (some s1.takeId)

/-! ## Tasks (21 R367, R368) -/

/-- The key of a task-table entry. -/
def taskKey (core n : Nat) : Nat := core * 1024 + n
/-- 15 R389, 21 R367: a task number the partition owns. -/
def Part.hasTask (p : Part) (n : Nat) : Bool := decide (n < 1024) && decide (p.tasklo ≤ n) && decide (n < p.tasklo + p.taskn)

/-- 21 R367: one signal to a task. -/
def signalTask (core n : Nat) (s : State) : State :=
  match sget (taskKey core n) s.tasks with
  | some t => if t.st == .waiting then
      { s with tasks := sset (taskKey core n) (if t.count ≤ 1 then { t with count := 0, st := .spawning } else { t with count := t.count - 1 }) s.tasks } else s
  | none => s

/-! ## Barriers and continuations (22 R393 to R396; 21 R369) -/

/-- The key of a barrier of a workgroup. -/
def barKey (wk id : Nat) : Nat := wk * 8 + id
/-- A barrier with no arrival. -/
def Barrier.reset : Barrier := ⟨0, none, 0⟩
/-- A barrier. -/
def State.bar (s : State) (wk id : Nat) : Barrier := sgetD Barrier.reset (barKey wk id) s.bars
/-- Members of a workgroup that have not ended. -/
def State.members (s : State) (wk : Nat) : Nat := match sget wk s.wgs with | some w => w.members | none => 0

/-- Held gangs of a group are released. -/
def releaseHold (clk : Nat) (p : Gang → Bool) (g : Group) : Group :=
  { g with gangs := g.gangs.map fun a => if p a then { a with hold := .free, since := clk } else a }

/-- Gangs that an engine queue or a want of credit has kept back may try again. -/
def wakeHeld (who : Group → Bool) (h : Hold → Bool) (s : State) : State :=
  { s with groups := s.groups.map fun p => if who p.2 then (p.1, releaseHold s.clk (fun a => h a.hold) p.2) else p }

/-- 22 R393: a barrier completes when its arrivals reach E: held groups go on, registered continuations may start. -/
def checkBarrier (wk id : Nat) (s : State) : State :=
  let b := s.bar wk id
  if b.arrived == 0 || decide (b.arrived < b.named.getD (s.members wk)) then s
  else
    { s with
      bars := sput Barrier.reset (barKey wk id) ⟨0, none, b.phase + 1⟩ s.bars
      groups := s.groups.map fun p => if p.2.wk == wk then (p.1, releaseHold s.clk (fun a => a.hold == .bar id) p.2) else p
      conts := s.conts.map fun p => if p.2.wk == wk && p.2.bar == id then (p.1, { p.2 with ready := true }) else p }

/-- 21 R369: a ready continuation starts as a fresh group, in its old quadrant if that has room. -/
def startCont (key : Nat) (c : Cont) (s : State) : State :=
  match sget c.lid s.launches with
  | none => s
  | some l =>
    let r := l.rec_; let part := partOf c.ctx
    match (if quadFits s part c.quad r.regs r.tiles then some c.quad else pickQuad s part (coreOf c.quad) r.regs r.tiles) with
    | none => s
    | some q =>
      let g := Group.start c.ctx c.lid c.wk q c.grp c.ngrp c.nsl r.regs r.tiles c.entry c.role c.ctr s.clk
      addGroup (withS c.sregs { g with wgx := c.wgx, wgy := c.wgy, wgz := c.wgz, cx := c.cx, cy := c.cy, wIndex := c.wIndex, fresh := true })
        { s with conts := serase key s.conts }
/-- Every ready continuation that fits starts. -/
def startConts (s : State) : State := s.conts.foldl (fun s p => if p.2.ready && (s.ctx p.2.ctx).st == .running then startCont p.1 p.2 s else s) s

/-- 22 R380, R393: a group ends, its late accesses performed; `cont` when a continuation keeps its membership. A remote access of it that is still out is awaited. -/
def endGroup (gid : Nat) (cont : Bool) (s : State) : State :=
  match s.group? gid with
  | none => s
  | some g =>
    let s0 := settleGroup (fun _ => true) gid s
    let left := g.remote.filterMap fun r => if r.resp.isNone then some (⟨r.id, g.ctx, false, 0, noAccess, none⟩ : EngWait) else none
    let s1 := { s0 with waits := left ++ s0.waits }.dropGroup gid
    if cont then startConts s1
    else
      match sget g.wk s1.wgs with
      | none => startConts s1
      | some w =>
        if w.members ≤ 1 then
          startConts { s1 with wgs := serase g.wk s1.wgs, bars := s1.bars.filter fun b => b.1 / 8 != g.wk }
        else
          startConts ((List.range 8).foldl (fun s id => checkBarrier g.wk id s) { s1 with wgs := sset g.wk { w with members := w.members - 1 } s1.wgs })

/-- 03 R73: what EXIT and BARC wait for. -/
def Group.drained (g : Group) : Bool := [0, 1, 2, 4].all fun c => g.count c == 0

/-! ## Launch records (23 R403 to R405; 21 R358, R371) -/

/-- A little-endian field of a record. -/
def leAt (bs : List Byte) (o n : Nat) : Nat := bytesWord ((bs.drop o).take n)
/-- Some byte of a range is not zero. -/
def anyByte (bs : List Byte) (o n : Nat) : Bool := ((bs.drop o).take n).any (· != 0)

/-- 23 R403, R404: the fields of a launch record. -/
def parseRec (raw : List Byte) : LRec :=
  let old := leAt raw 29 1 == 1 || leAt raw 29 1 == 2
  let bs := if old then raw.zipIdx.map fun (b, k) => if k == 9 || (56 ≤ k && k ≤ 71) then 0 else b else raw
  let n := leAt bs 30 1
  { entry := BitVec.ofNat 64 (leAt bs 0 8), w := leAt bs 8 1 % 16, h := leAt bs 8 1 / 16, lcw := leAt bs 9 1 % 8, lch := leAt bs 9 1 / 8 % 8
    groups := leAt bs 10 1, slices := leAt bs 11 1, gx := leAt bs 12 4, gy := leAt bs 16 4, gz := leAt bs 20 4
    regs := (leAt bs 24 2 + 31) / 32 * 32, tiles := leAt bs 26 1, contract := leAt bs 27 1
    pers := leAt bs 28 1 / 2 % 2 == 1, cor := leAt bs 28 1 % 2 == 1, rev := leAt bs 29 1, nsched := n
    spad := leAt bs 32 4, nconst := leAt bs 36 4, constptr := BitVec.ofNat 64 (leAt bs 40 8), rolemap := BitVec.ofNat 64 (leAt bs 48 8)
    npre := leAt bs 56 4, preptr := BitVec.ofNat 64 (leAt bs 64 8)
    sched := (List.range (min n 8)).map fun e => (BitVec.ofNat 64 (leAt bs (128 + 16 * e) 8), leAt bs (136 + 16 * e) 4)
    reserved := leAt bs 9 1 / 64 != 0 || leAt bs 28 1 / 4 != 0 || anyByte bs 31 1 || anyByte bs 60 4 || anyByte bs 72 56 ||
      (List.range 8).any fun e => anyByte bs (140 + 16 * e) 4
    raw := raw }

/-- Strictly ascending. -/
def ascending : List Nat → Bool
  | a :: b :: t => decide (a < b) && ascending (b :: t)
  | _ => true

/-- 07 R136: a contract a launch may name. -/
def contractOk (n : Nat) : Bool := 1 ≤ n && n ≤ 15 && (ctrCap n).extractLsb' 30 2 != 3

/-- 23 R405, 21 R358: the record is valid in itself. -/
def LRec.fieldsOk (r : LRec) : Bool :=
  1 ≤ r.rev && r.rev ≤ 3 && !r.reserved && r.entry.toNat % 8 == 0 && r.constptr.toNat % 8 == 0 && r.preptr.toNat % 16 == 0 &&
  decide (r.nconst ≤ 128) && decide (r.nsched ≤ 8) && decide (r.npre ≤ 256) && ((List.range 32).all fun g => r.role g != 3) &&
  contractOk r.contract && 1 ≤ r.w && r.w ≤ 8 && 1 ≤ r.h && r.h ≤ 8 && r.w % 2 ^ r.lcw == 0 && r.h % 2 ^ r.lch == 0 &&
  ([r.gx, r.gy, r.gz].all fun x => 1 ≤ x && x ≤ 2 ^ 21) && 1 ≤ r.groups && r.groups ≤ 32 && 1 ≤ r.slices && r.slices ≤ 8 &&
  1 ≤ r.regs && leAt r.raw 24 2 ≤ 256 && decide (r.tiles ≤ 8) && (r.sched.all fun e => e.1.toNat % 8 == 0) && ascending (r.sched.map (·.2)) && !(r.pers && !r.cor)

/-- The record as LAUNCH reads its tables, before any status is known (22 R397): at most as many entries as R403 allows, at addresses aligned as R403 asks (log 33). -/
def LRec.capped (r : LRec) : LRec := { r with nconst := min r.nconst 128, npre := min r.npre 256, constptr := r.constptr >>> 3 <<< 3, preptr := r.preptr >>> 4 <<< 4 }

/-- 23 R407, 21 R358, R373: a core map for a record on its partition, chosen among the cores that hold what falls to them first: 0 and the map, 1 invalid, 2 LAUNCH_NOFIT. -/
def mapLaunch (s : State) (part : Nat) (r : LRec) : Nat × List Nat :=
  let cores := partCores s part; let n := r.w * r.h
  let fits (k c : Nat) : Bool := decide (k * r.groups ≤ coreCap s part c r.regs r.tiles) && decide (r.spad ≤ (s.part part).spadSize c)
  let hi := if r.cor then r.share 0 else 1; let lo := if r.cor then r.share (n - 1) else 1
  let as_ := cores.filter (fits hi); let bs := cores.filter fun c => !fits hi c && fits lo c; let cs := cores.filter fun c => !fits lo c
  let map := (shuffle s 83000 as_ ++ shuffle s 83100 bs ++ shuffle s 83200 cs).take n
  if !r.fieldsOk || map.length < n || !cores.any (fits 1) || map.any (fun c => decide (r.spad > (s.part part).spadSize c)) then (1, [])
  else if r.cor && ((map.zipIdx).any (fun (c, i) => !fits (r.share i) c) || (r.spad != 0 && decide (hi > 1))) then (2, [])
  else (0, map)

/-- What the tables of a record hold: constants, preload slots with their images. -/
structure Tables where
  consts : List (Nat × DWord)
  pre : List (DWord × Nat × List PWord × Bool)
deriving Repr

/-- The outcome of reading a record's tables. -/
inductive TabRead where
  | ok (t : Tables)
  | wait (s : State)
  | fault (cause detail : Nat) (addr : DWord)
deriving Repr

/-- 23 R401, R403; 22 R397; 15 R292: read the constant table, the preload list and the slot images; the images are read only where every preload entry is valid (log 33). A poisoned word ends the read with POISON_USE. -/
def readTables (rem : Rem) (core c : Nat) (r : LRec) (s : State) : TabRead :=
  let blk (base : Nat) (va : DWord) (n : Nat) (s : State) : Block :=
    match readBlock (fun k => rem (base + k)) core c false va n s with
    | .ok ws => (match firstPoison ws with | some k => .fault cPOISON 0 (va + BitVec.ofNat 64 (4 * k)) | none => .ok ws)
    | b => b
  match blk 1000 r.constptr (2 * r.nconst) s with
  | .wait s => .wait s
  | .fault a b d => .fault a b d
  | .ok cw =>
    match blk 2000 r.preptr (4 * r.npre) s with
    | .wait s => .wait s
    | .fault a b d => .fault a b d
    | .ok pw =>
      let cws := cw.map (·.val); let pws := pw.map (·.val)
      let ents := (List.range r.npre).map fun e => (pairAt pws (4 * e), (wordAt pws (4 * e + 2)).toNat % 256, wordAt pws (4 * e + 2) >>> 8 != 0 || wordAt pws (4 * e + 3) != 0)
      let bad := ents.any fun e => e.1.toNat % 64 != 0 || e.2.2 || !(s.part (partOf c)).hasSlot e.2.1
      let cs := (List.range r.nconst).map fun e => ((pairAt cws (2 * e)).toNat / 2 ^ 32 % 128, pairAt cws (2 * e))
      if bad then .ok ⟨cs, ents.map fun e => (e.1, e.2.1, [], e.2.2)⟩
      else
        let imgs := ents.zipIdx.foldl (fun (acc : TabRead) (e, k) => match acc with
          | .ok t =>
            (match blk (3000 + 16 * k) e.1 16 s with
             | .ok ws => .ok { t with pre := t.pre ++ [(e.1, e.2.1, ws, e.2.2)] }
             | .wait s => .wait s
             | .fault a b d => .fault a b d)
          | x => x) (.ok ⟨cs, []⟩)
        imgs

/-- A record's tables that have been read. -/
def passTables (core c : Nat) (r : LRec) (t : Tables) (s : State) : State :=
  t.pre.foldl (fun s e => passBlock core c false e.1 e.2.2.1.length s) (passBlock core c false r.preptr (4 * r.npre) (passBlock core c false r.constptr (2 * r.nconst) s))

/-- The tables of a record that cannot be read whole: of its two lists the words that translate have been read (log 27). -/
def passLists (core c : Nat) (r : LRec) (s : State) : State := passTables core c r ⟨[], []⟩ s

/-- 23 R405: the tables are valid. -/
def Tables.valid (t : Tables) (p : Part) : Bool :=
  t.consts.all (fun c => c.2.toNat / 2 ^ 39 == 0) && t.pre.all fun e => e.1.toNat % 64 == 0 && !e.2.2.2 && p.hasSlot e.2.1

/-- 15 R292: the preload slots are written on every core of the partition, before any workgroup starts. -/
def writePreload (part : Nat) (t : Tables) (s : State) : State :=
  { s with slots := (partCores s part).foldl (fun m core => t.pre.foldl (fun m e => (e.2.2.1.zipIdx).foldl (fun m (w, k) => sput 0 (core * 4096 + e.2.1 * 16 + k) w.val m) m) m) s.slots }

/-- 21 R371: the entry selected for an extent. -/
def LRec.select (r : LRec) (x : Nat) : Option DWord := (r.sched.find? fun e => decide (x ≤ e.2)).map (·.1)

end Sys2Proof.Machine
end

