-- ==== Sys2Proof/Machine/Collective.lean ====
section
/-! DEFINITION. Communicators, layouts, the exchanges and the Meridian sequencer: CINIT, CSTART, CQUERY, CFREE and the events of a collective (19 R330 to R353; 07 R149, R150). -/

namespace Sys2Proof.Machine

/-! ## Communicators (19 R331 to R334) -/

/-- A communicator of a context. -/
def Ctx.comm? (x : Ctx) (h : Nat) : Option Comm := sget h x.comms
/-- Write a communicator back. -/
def setComm (c h : Nat) (m : Comm) (s : State) : State := s.updCtx c fun x => { x with comms := sset h m x.comms }

/-- 19 R332: the fields of a communicator record. -/
def commA (f : List Word) (k : Nat) : Nat := match k with | 0 => (wordAt f 2).toNat % 65536 | 1 => (wordAt f 2).toNat / 65536 | _ => (wordAt f 3).toNat % 65536
def commNax (f : List Word) : Nat := (wordAt f 3).toNat / 2 ^ 16 % 4
def commSlot (f : List Word) : Bool := (wordAt f 3).getLsbD 18
def commPersist (f : List Word) : Bool := (wordAt f 3).getLsbD 19
def commKey (f : List Word) : DWord := pairAt f 4
def commTag (f : List Word) : Word := wordAt f 6
def commTmo (f : List Word) : Nat := (wordAt f 7).toNat % 65536
def commSize (f : List Word) : Nat := commA f 0 * commA f 1 * commA f 2

/-- 19 R332: the record is legal. -/
def commOk (f : List Word) : Bool :=
  (wordAt f 3).toNat / 2 ^ 20 == 0 && commNax f != 0 && ([0, 1, 2].all fun k => commA f k != 0 && (decide (k < commNax f) || commA f k == 1)) &&
  decide (commSize f ≤ 2097152) && (wordAt f 7).toNat / 65536 == 0 && ((List.range 8).all fun k => wordAt f (8 + k) == 0)

/-- 07 R149: the contracts of this part. -/
def myCaps : List Nat := (List.range 16).filter fun n => (ctrCap n).extractLsb' 30 2 != 3
/-- 19 R328: the trained ports by which a node is reached: those whose partner it is, or else the one on the way to it. -/
def portsTo (s : State) (n : Nat) : List (Port × Nat) :=
  let up := s.dev.ports.zipIdx.filter (·.1.up)
  let d := up.filter (·.1.node == n)
  if d.isEmpty then (up[Config.route n % up.length]?).toList else d
/-- 19 R331: the coordinates of a member. -/
def coords (f : List Word) (m : Nat) : List Nat := [m % commA f 0, m / commA f 0 % commA f 1, m / (commA f 0 * commA f 1)]
/-- The nodes that exchanges of member m reach: the members on one axis with it. -/
def commPeers (f : List Word) (nodes : List Nat) (m : Nat) : List Nat :=
  (nodes.zipIdx.filter fun p => (((coords f m).zip (coords f p.2)).filter fun c => c.1 != c.2).length == 1).map (·.1)
/-- 19 R328: the lowest link version among the ports by which some nodes are reached. -/
def myLver (s : State) (nodes : List Nat) : Nat := ((nodes.flatMap (portsTo s)).map (·.1.version)).foldl min 3
/-- 19 R328: what this member says of the link version. -/
def Comm.lverHere (m : Comm) (s : State) : Nat := myLver s (commPeers m.fields m.members m.me)
/-- Who holds a reduction slot: the communicator of a context under a tag (log 10). -/
def slotOwner (c : Nat) (tag : Word) : Nat := c * 2 ^ 32 + tag.toNat

/-- 03 R70: an operation's work is done; it completes once every older one of its counter has. -/
def Group.finTok (ctr id : Nat) (g : Group) : Group :=
  { g with out := dropVoid ctr (g.out.map fun t => if t.ctr == ctr && t.id == id then { t with fin := true } else t) }
/-- The same for a group of the state. -/
def finishTok (gid ctr id : Nat) (s : State) : State :=
  match s.group? gid with
  | none => s
  | some g => s.setGroup gid (markReady gid g (g.finTok ctr id) s)

/-- 19 R348: what the CFREEs of an entry do once its status allows. -/
def runFrees (c h : Nat) (s : State) : State :=
  match (s.ctx c).comm? h with
  | none => s
  | some m =>
    if m.cfree.isEmpty || m.st == .pending || (m.st == .ready && !m.insts.isEmpty) then s
    else
      let s1 := if m.st == .ready && m.slot == 1 then { s with switches := s.switches.map fun p => (p.1, { p.2 with granted := p.2.granted.erase (slotOwner c (commTag m.fields)) }) } else s
      let s2 := s1.updCtx c fun x => { x with comms := serase h x.comms }
      m.cfree.foldl (fun s p => finishTok p.1 5 p.2 s) s2

/-- The tag of an entry that ended at TIMEOUT or MISMATCH is remembered for members that arrive later (19 R333). -/
def noteEnded (c : Nat) (m : Comm) (s : State) : State :=
  if m.st == .timeout || m.st == .mismatch then
    s.updCtx c fun x => { x with ended := (commTag m.fields, m.st == .mismatch) :: x.ended.filter fun e => e.1 != commTag m.fields }
  else s

/-- 19 R333, R345: an entry leaves PENDING: its CINIT completes, a CFREE goes on. -/
def endPending (c h : Nat) (m : Comm) (s : State) : State :=
  let s1 := setComm c h { m with cinit := none, deadline := none } (noteEnded c m s)
  runFrees c h (match m.cinit with | some (g, t) => finishTok g 5 t s1 | none => s1)

/-- 19 R333: TIMEOUT or MISMATCH: the member tells every member it has reached. -/
def abandon (c h : Nat) (m : Comm) (mismatch : Bool) (tell : List Nat) (s : State) : State :=
  endPending c h { m with st := if mismatch then .mismatch else .timeout }
    (countFab (partOf c) { s with out := { s.out with aborts := s.out.aborts ++ tell.map fun n => (n, commTag m.fields, mismatch) } })

/-- The members that have arrived, with this one, are all. -/
def commFull (m : Comm) : Bool := decide (m.arrived.length + 1 ≥ m.members.length)
/-- Every member has told that every member has arrived with it. -/
def commTold (m : Comm) : Bool := decide (m.told.length + 1 ≥ m.members.length)

/-- A member's message to every other (19 R333). -/
def commTell (c : Nat) (m : Comm) (all : Bool) (s : State) : State :=
  let me := Config.nodeId.toNat
  countFab (partOf c) { s with out := { s.out with comms := s.out.comms ++ (m.members.filter (· != me)).map fun n => (n, ⟨commTag m.fields, me, m.fields, m.members, myCaps, m.lverHere s, all⟩) } }

/-- A slot request of member 0, through one of its trained ports (19 R334). -/
def sendSlotReq (c owner : Nat) (ts : DWord) (s : State) : State :=
  let up := (List.range s.dev.ports.length).filter fun p => match s.dev.ports[p]? with | some x => x.up | none => false
  let p := (up[s.pick 87000 up.length]?).getD 0
  countFab (partOf c) { s with out := { s.out with slotreqs := s.out.slotreqs ++ [⟨ts, portSrc p, owner, 0⟩] } }

/-- 19 R333, R334: READY at this member, as at every other, once the slot's outcome is known where one is requested. -/
def commReady (c h : Nat) (m : Comm) (s : State) : State :=
  if commSlot m.fields && decide (2 ≤ m.lver) then
    match m.decided with
    | some ok => endPending c h { m with st := .ready, slot := if ok then 1 else 2 } s
    | none => setComm c h { m with slot := 3 } s
  else endPending c h { m with st := .ready, slot := 0 } s

/-- 19 R328, R333, R334: every member has arrived: the contract and LVER are known, the slot is requested, the others are told. -/
def commAllHere (c h : Nat) (m : Comm) (s : State) : State :=
  let caps := m.arrived.map (·.caps); let ctr := (myCaps.filter fun n => caps.all fun l => l.contains n).foldl max 0
  let lver := (m.arrived.map (·.lver)).foldl min (m.lverHere s)
  let m1 := { m with contract := ctr, lver := lver, deadline := none }
  let s1 := commTell c m1 true (setComm c h m1 s)
  let s2 := if commSlot m.fields && m.me == 0 && decide (2 ≤ lver) then sendSlotReq c (slotOwner c (commTag m.fields)) m.issued s1 else s1
  if commTold m1 then commReady c h m1 s2 else s2

/-- Two members' descriptions agree in every field but MEMBERS. -/
def commSame (m : Comm) (x : CommMsg) : Bool := x.fields.drop 2 == m.fields.drop 2 && x.members == m.members

/-! ## Layouts (19 R336 to R338) -/

/-- A sharding layout record. An axis of 3 is none. -/
structure Shard where
  base : DWord
  dim : List Nat
  ax : List Nat
  psum : Nat
  fmt : Nat
  wire : Nat
  rank : Nat
  bad : Bool
deriving Repr

/-- 19 R336, R337: dimensions at or above RANK count as extent 1 with no axis. -/
def shardOf (ws : List Word) : Shard :=
  let b (k o n : Nat) : Nat := (wordAt ws k).toNat / 2 ^ o % 2 ^ n
  let rank := b 6 24 4
  let axRaw := (List.range 4).map fun d => b 6 (4 * d) 4
  { base := pairAt ws 0
    dim := (List.range 4).map fun d => if d < rank then b (2 + d) 0 32 else 1
    ax := (List.range 4).map fun d => if d < rank && (axRaw[d]?).getD 15 < 3 then (axRaw[d]?).getD 3 else 3
    psum := b 6 20 3, fmt := b 6 16 4, wire := b 6 28 4, rank := rank
    bad := b 6 23 1 != 0 || ((List.range 9).any fun k => wordAt ws (7 + k) != 0) || (List.range 4).any fun d => decide (d < rank) && (let a := (axRaw[d]?).getD 0; decide (3 ≤ a) && a != 15) }

/-- 19 R336, R337: the record is legal in itself. -/
def Shard.ok (r : Shard) : Bool :=
  !r.bad && 1 ≤ r.rank && decide (r.rank ≤ 4) && decide (r.fmt ≤ 3) && decide (r.wire ≤ 3) &&
  ([0, 1, 2].all fun a => let n := (r.ax.filter (· == a)).length; decide (n ≤ 1) && !(n != 0 && r.psum.testBit a))

/-- The element size. -/
def Shard.es (r : Shard) : Nat := match r.fmt with | 0 => 8 | 1 => 4 | _ => 2
/-- Its number format. -/
def Shard.f (r : Shard) : Fmt := match r.fmt with | 0 => f64 | 1 => f32 | 2 => f16 | _ => bf16

/-- The state of a record on an axis. -/
inductive AxSt where
  | shard (d : Nat) | psum | repl
deriving DecidableEq, Repr

/-- 19 R338. -/
def Shard.state (r : Shard) (a : Nat) : AxSt := if r.psum.testBit a then .psum else match r.ax.findIdx? (· == a) with | some d => .shard d | none => .repl

/-- 19 R338, R339: what an exchange is; `part` the dimension its parts lie in. -/
inductive Exch where
  | local_ | gather | allToAll | reduceScatter | allReduce
deriving DecidableEq, Repr

/-- 19 R338, R341: the exchange of two records and its axis; `none` when they may not be paired. -/
def exchange (a b : Shard) : Option (Exch × Nat) :=
  if a.fmt != b.fmt || a.rank != b.rank || a.dim != b.dim || a.wire != b.wire || (a.wire != 0 && a.fmt != 1) then none
  else
    match [0, 1, 2].filter fun x => a.state x != b.state x with
    | [] => some (.local_, 0)
    | [x] =>
      (match a.state x, b.state x with
       | _, .psum => none
       | .shard _, .repl => some (.gather, x)
       | .shard _, .shard _ => some (.allToAll, x)
       | .psum, .shard _ => some (.reduceScatter, x)
       | .psum, .repl => some (.allReduce, x)
       | .repl, _ => some (.local_, x))
    | _ => none

/-- The member at coordinates. -/
def memberAt (f : List Word) (cs : List Nat) : Nat := (cs[0]?).getD 0 + commA f 0 * ((cs[1]?).getD 0 + commA f 1 * (cs[2]?).getD 0)

/-- 19 R337: a local extent. -/
def Shard.len (r : Shard) (f : List Word) (d : Nat) : Nat := let n := (r.dim[d]?).getD 1; let a := (r.ax[d]?).getD 3; if a < 3 then n / commA f a else n
/-- 19 R337: every sharded dimension divides by its axis. -/
def Shard.divides (r : Shard) (f : List Word) : Bool := (List.range 4).all fun d => let a := (r.ax[d]?).getD 3; decide (3 ≤ a) || (r.dim[d]?).getD 1 % commA f a == 0
/-- 19 R344: the axes a record names are the communicator's. -/
def Shard.axesIn (r : Shard) (f : List Word) : Bool := (r.ax.all fun a => decide (3 ≤ a) || decide (a < commNax f)) && [0, 1, 2].all fun a => !r.psum.testBit a || decide (a < commNax f)

/-- Global coordinates of a flattened index. -/
def unflat (dim : List Nat) (i : Nat) : List Nat :=
  let d (k : Nat) : Nat := (dim[k]?).getD 1
  [i % d 0, i / d 0 % d 1, i / (d 0 * d 1) % d 2, i / (d 0 * d 1 * d 2)]

/-- 19 R337: the address of a global element in a member's shard. -/
def Shard.addr (r : Shard) (f : List Word) (cs gc : List Nat) : DWord :=
  let at_ (d : Nat) : Nat := (gc[d]?).getD 0 - (let a := (r.ax[d]?).getD 3; if a < 3 then (cs[a]?).getD 0 * r.len f d else 0)
  r.base + BitVec.ofNat 64 ((at_ 0 + r.len f 0 * (at_ 1 + r.len f 1 * (at_ 2 + r.len f 2 * at_ 3))) * r.es)

/-! ## Chunks (19 R339, R341) -/

/-- A chunk of an instance: its number, its elements, the coordinate that holds its source, the coordinate of the part it belongs to. -/
structure CChunk where
  num : Nat
  elems : List (List Nat)
  src : Nat
  dst : Nat
deriving Repr

/-- Cut a run of elements at every change of key and after 1,024. -/
def cutRuns : List (Nat × List Nat × Nat × Nat) → List (List (Nat × List Nat × Nat × Nat))
  | [] => []
  | x :: t =>
    match cutRuns t with
    | [] => [[x]]
    | r :: rest => match r with
      | y :: _ => if x.2.2 == y.2.2 then (x :: r) :: rest else [x] :: r :: rest
      | [] => [x] :: rest

/-- Cut a list into pieces of at most n. -/
def pieces {α : Type} (n : Nat) (l : List α) : List (List α) := (List.range ((l.length + n - 1) / max 1 n)).map fun k => (l.drop (k * n)).take n

/-- 19 R337, R339, R341: the chunks of one exchange group: the group is named by its coordinates on the other axes that shard the destination. -/
def groupChunks (a b : Shard) (f : List Word) (x : Exch) (axis : Nat) (gk : List Nat) : List (Nat × List (List Nat) × Nat × Nat) :=
  let s := if x == .local_ then 1 else commA f axis
  let dimOf (r : Shard) : Option Nat := match r.state axis with | .shard d => some d | _ => none
  let part (r : Shard) (gc : List Nat) : Nat := match dimOf r with | some d => if x == .local_ then 0 else (gc[d]?).getD 0 / max 1 (r.len f d) | none => 0
  let inGroup (gc : List Nat) : Bool := (List.range 4).all fun d =>
    let ax := (b.ax[d]?).getD 3
    decide (3 ≤ ax) || (x != .local_ && ax == axis) || (gc[d]?).getD 0 / max 1 (b.len f d) == (gk[ax]?).getD 0
  let els := ((List.range (b.dim.foldl (· * ·) 1)).map fun i => (i, unflat b.dim i)).filter fun p => inGroup p.2
  let per := (els.length + s - 1) / s
  let keyed := els.zipIdx.map fun (p, i) => (p.1, p.2, (if x == .gather || x == .allToAll then part a p.2 else 0), if x == .allReduce then i / max 1 per else part b p.2)
  ((cutRuns keyed).flatMap (pieces 1024)).filterMap fun l => match l with
    | e :: _ => some (e.1, l.map (·.2.1), e.2.2.1, e.2.2.2)
    | [] => none

/-- Every combination of coordinates. -/
def allCoords (f : List Word) : List (List Nat) := (List.range (commSize f)).map (coords f)

/-- 19 R341: the chunks of an instance that concern a member, numbered over the whole destination tensor. -/
def chunksOf (a b : Shard) (f : List Word) (x : Exch) (axis : Nat) (me : Nat) : List CChunk :=
  let norm (c : List Nat) : List Nat := c.zipIdx.map fun (v, k) => if (b.ax.contains k) && !(x != .local_ && k == axis) then v else 0
  let firsts := (((allCoords f).map norm).eraseDups.flatMap fun gk => groupChunks a b f x axis gk).map (·.1)
  (groupChunks a b f x axis (norm (coords f me))).map fun (i, es, s, d) => ⟨(firsts.filter (· < i)).length, es, s, d⟩

/-! ## Values on the wire (19 R340, R341, R349; 07 R150) -/

/-- The CRC-32C step of one bit, reflected. -/
def crcBit (c : BitVec 32) : BitVec 32 := if c.getLsbD 0 then (c >>> 1) ^^^ 0x82F63B78#32 else c >>> 1
/-- 19 R349: CRC-32C (Castagnoli). -/
def crc32c (bs : List Byte) : BitVec 32 :=
  ~~~(bs.foldl (fun c b => (List.range 8).foldl (fun c _ => crcBit c) (c ^^^ b.setWidth 32)) 0xFFFFFFFF#32)
/-- The CRC of a chunk: its header and its payload. -/
def chunkCrc (inst num hop : Nat) (payload : List PByte) : BitVec 32 := crc32c (Config.chunkHeader inst num hop ++ payload.map (·.val))

/-- A value as n bytes of a payload. -/
def wireBytes (n : Nat) (v : PVal) : List PByte := (leBytes n v.val.toNat).map fun b => ⟨b, v.poison⟩
/-- A value from n bytes of a payload. -/
def unwire (n at_ : Nat) (ws : List PByte) : PVal :=
  let l := (ws.drop at_).take n
  ⟨(l.zipIdx).foldl (fun v (b, k) => v ||| (b.val.setWidth 64 <<< (8 * k))) 0, l.any (·.poison)⟩

/-- 19 R341: the element format of a WIRE code. -/
def wireFmt (wire : Nat) : Fmt := if wire == 1 then e4m3 else e3m2

/-- 19 R341, 06 R125: the element bytes of MX blocks: one byte an element for E4M3; for E3M2 two blocks of 24 bytes and 16 bytes of zeros a line, the last line whole. A short block that follows a full one
stands behind it on the line, at element positions 32 on: DEDUCED (log 71). -/
def mxBytes (wire : Nat) (blocks : List (List Nat × Bool)) : List PByte :=
  if wire == 1 then blocks.flatMap fun b => b.1.map fun c => ⟨BitVec.ofNat 8 c, b.2⟩
  else (pieces 2 blocks).flatMap fun l => (List.range 2).flatMap (fun j => match l[j]? with
    | some b => (leBytes 24 (b.1.zipIdx.foldl (fun n (c, k) => n + c % 64 * 2 ^ (6 * k)) 0)).map fun x => (⟨x, b.2⟩ : PByte)
    | none => List.replicate 24 ⟨0, false⟩) ++ List.replicate 16 ⟨0, false⟩

/-- 06 R115: the counter of a stochastic narrowing of a collective. -/
def narrowCtr (chunk hop k : Nat) : DWord := (BitVec.ofNat 64 chunk <<< 40) ||| (BitVec.ofNat 64 hop <<< 32) ||| BitVec.ofNat 64 k

/-- 19 R341: a chunk's values as its payload: of the tensor's own width (f64, or f32 of 16- and 32-bit tensors; log entry 10), the scale bytes and then the elements of MX, or bfloat16 for WIRE 3. -/
def narrow (wire : Nat) (wide : Bool) (key : DWord) (chunk hop : Nat) (vs : List PVal) : List PByte :=
  match wire with
  | 0 => vs.flatMap (wireBytes (if wide then 8 else 4))
  | 3 => vs.zipIdx.flatMap fun (v, k) => wireBytes 2 ⟨(convTo bf16 (srDraw key (narrowCtr chunk hop k)) false false (f32.dec v.val)).bits, v.poison⟩
  | _ =>
    let blocks := (pieces 32 vs).map fun b => (mxQuantise (wireFmt wire) .rn false (b.map fun v => f32.dec v.val), b.any (·.poison))
    (blocks.map fun b => (⟨BitVec.ofNat 8 b.1.1, b.2⟩ : PByte)) ++ mxBytes wire (blocks.map fun b => (b.1.2.map (·.bits.toNat), b.2))

/-- 19 R341; 06 R121, R128: expand a payload of n values. -/
def widen (wire : Nat) (wide : Bool) (n : Nat) (ws : List PByte) : List PVal :=
  (List.range n).map fun k => match wire with
    | 0 => if wide then unwire 8 (8 * k) ws else unwire 4 (4 * k) ws
    | 3 => let v := unwire 2 (2 * k) ws; ⟨(convTo f32 .rn false false (bf16.dec v.val)).bits, v.poison⟩
    | _ =>
      let sc := unwire 1 (k / 32) ws; let first := (n + 31) / 32
      let v := if wire == 1 then unwire 1 (first + k) ws else
        let bit := 6 * (k % 32); let w := unwire (if bit % 8 ≤ 2 then 1 else 2) (first + 64 * (k / 64) + 24 * (k / 32 % 2) + bit / 8) ws; ⟨(w.val >>> (bit % 8)) &&& 63, w.poison⟩
      ⟨(mxExpand f32 (wireFmt wire) sc.val.toNat v.val).bits, sc.poison || v.poison⟩

/-- 19 R340, 07 R150: one addition of a reduction. -/
def collAdd (ctr : Nat) (wide : Bool) (x y : PVal) : PVal :=
  let e := eph ctr
  if x.poison || y.poison then ⟨if wide then poisonPair else poisonWord.setWidth 64, true⟩
  else if wide then ⟨(opAdd64 x.val y.val).bits, false⟩
  else let r := (addF32 x.val y.val e.rz).bits; ⟨if e.fo then f32.flush r else r, false⟩
where
  /-- round_fmt(x + y, f64, rn, 0). -/
  opAdd64 (a b : DWord) : FRes := chain64 a b 0x3FF0000000000000

/-- A value read from a tensor as it enters a sum: f16 and bf16 are summed in f32. -/
def sumIn (r : Shard) (v : PVal) : PVal := if r.fmt ≤ 1 then v else ⟨(convTo f32 .rn false false (r.f.dec v.val)).bits, v.poison⟩
/-- A finished sum as it is written: f16 and bf16 are rounded once (19 R340). -/
def sumOut (r : Shard) (ctr : Nat) (v : PVal) : PVal := if r.fmt ≤ 1 then v else ⟨(convTo r.f (if (eph ctr).rz then .rz else .rn) false false (f32.dec v.val)).bits, v.poison⟩

/-! ## Reads and writes of the Meridian sequencer (19 R350; 02 R43) -/

/-- What a read or a write of elements comes to. -/
inductive CollAcc where
  | vals (vs : List PVal) (s : State)
  | stores (l : List SeqStore) (s : State)   -- of a write: what it stores here
  | wait (s : State)
  | fault (cause detail : Nat) (addr : DWord)
deriving Repr

/-- The places of addresses, or why not. -/
def collPlaces (core c : Nat) (k : Acc) (as_ : List DWord) (s : State) : CollAcc ⊕ List Where :=
  let looks := as_.map fun a => (a, lookVa s core c a k false false)
  let missed := looks.filter fun p => p.2 == .miss
  if !missed.isEmpty then .inl (.wait (missed.foldl (fun s p => askWalk core c p.1.toNat s) s))
  else
    match looks.findSome? (fun p => match p.2 with | .trans d => some (cTRANS, d, p.1) | .perm => some (cPERM, 0, p.1) | _ => none) with
    | some (x, d, a) => .inl (.fault x d a)
    | none => .inr (looks.filterMap fun p => match p.2 with | .at_ w => some w | _ => none)

/-- The responses of the remote places among some. -/
def collRemote (c op base : Nat) (ws : List Where) (mk : Nat → Where → Nat → FabReq) (s : State) : List (Option RemoteResp) × State :=
  ws.zipIdx.foldl (fun (rs, s) (w, k) => if w.node == 0 then (rs ++ [some (RemoteResp.done [])], s) else let (r, s) := remoteEng false c op (base + k) (mk k w) s; (rs ++ [r], s)) ([], s)

/-- 19 R350: an element of the source as it stands, or as it has stood since the instance was issued, by a free choice: a write after issue races with its read, element by element. -/
def sourceVal (s : State) (since key pa es : Nat) : PVal :=
  let cut (p : Past) : PVal := ⟨BitVec.ofNat 64 (p.word.toNat / 2 ^ (8 * (pa % 8)) % 2 ^ (8 * es)), (decide (pa % 8 < 4) && p.marks.1) || (decide (4 < pa % 8 + es) && p.marks.2)⟩
  let now : PVal := ⟨BitVec.ofNat 64 (readMem s pa es), markedMem s pa es⟩
  match s.past.filter fun p => p.pa == pa / 8 * 8 && decide (since < p.upTo) with
  | [] => now
  | old => ((now :: old.map cut)[s.pick (2 ^ 82 + key) (old.length + 1)]?).getD now

/-- Read elements of es bytes for an instance issued in the turn `since`. -/
def collRead (since op base core c es : Nat) (as_ : List DWord) (s : State) : CollAcc :=
  match collPlaces core c .read as_ s with
  | .inl r => r
  | .inr ws =>
    let (rs, s1) := collRemote c op base ws (fun _ w id => ⟨id, partOf c, w.node - 1, w.pas.headD 0, 0, es, 0, [], []⟩) s
    if rs.any (·.isNone) then .wait s1
    else
      match (as_.zip rs).find? fun p => p.2 == some .undeliverable || p.2 == some .refused with
      | some (a, r) => .fault (if r == some .undeliverable then cTRANS else cPERM) 0 a
      | none =>
        .vals ((ws.zip rs).zipIdx.map fun ((w, r), k) =>
          if w.node == 0 then sourceVal s since (op * 2 ^ 32 + base + k) (w.pas.headD 0) es
          else match r with
            | some (.done [x]) => ⟨(pwGet x).setWidth 64, x.poison⟩
            | some (.done [x, y]) => ⟨pwGet y ++ pwGet x, x.poison || y.poison⟩
            | _ => ⟨0, true⟩) (ws.foldl (fun s w => if w.node == 0 then cacheTouch (partOf c) (atCache w.attr) (w.pas.headD 0) false s else s) s1)

/-- Write elements of es bytes; a word put together from several is marked when one of them was (12 R250). -/
def collWrite (op base core c es : Nat) (as_ : List DWord) (vs : List PVal) (s : State) : CollAcc :=
  match collPlaces core c .write as_ s with
  | .inl r => r
  | .inr ws =>
    let words (v : PVal) : List PWord := if es = 8 then [⟨v.val.setWidth 32, v.poison⟩, ⟨v.val.extractLsb' 32 32, v.poison⟩] else [⟨v.val.setWidth 32, v.poison⟩]
    let (rs, s1) := collRemote c op base ws (fun k w id => ⟨id, partOf c, w.node - 1, w.pas.headD 0, 1, es, 0, words ((vs[k]?).getD ⟨0, false⟩), []⟩) s
    if rs.any (·.isNone) then .wait s1
    else
      match (as_.zip rs).find? fun p => p.2 == some .undeliverable || p.2 == some .refused with
      | some (a, r) => .fault (if r == some .undeliverable then cTRANS else cPERM) 0 a
      | none =>
        let all := ws.zip vs
        let mark (pa : Nat) : Bool := all.any fun p => p.1.node == 0 && p.1.pas.headD 0 / 4 == pa / 4 && p.2.poison
        .stores (all.filterMap fun p => let pa := p.1.pas.headD 0; if p.1.node != 0 then none else some ⟨false, pa, es, p.2.val.toNat, mark pa, atCache p.1.attr⟩) s1

/-! ## An instance at a member -/

/-- What the Meridian sequencer works with: the instance, its communicator and its place. -/
structure Mer where
  c : Nat
  h : Nat
  m : Comm
  i : CInst
  a : Shard
  b : Shard
  x : Exch
  axis : Nat
  s : Nat
  r : Nat
  chunks : List CChunk
deriving Repr

/-- The instance a communicator works on (19 R342): its oldest. -/
def merOf (s : State) (c h : Nat) : Option Mer :=
  match (s.ctx c).comm? h with
  | none => none
  | some m =>
    match m.insts with
    | [] => none
    | i :: _ =>
      let a := shardOf i.src; let b := shardOf i.dst
      match exchange a b with
      | none => none
      | some (x, axis) => some ⟨c, h, m, i, a, b, x, axis, if x == .local_ then 1 else commA m.fields axis, if x == .local_ then 0 else ((coords m.fields m.me)[axis]?).getD 0, chunksOf a b m.fields x axis m.me⟩

/-- The node of the member of the exchange group at a coordinate. -/
def Mer.node (k : Mer) (r : Nat) : Nat :=
  let c := (coords k.m.fields k.m.me).set k.axis (r % k.s)
  (k.m.members[memberAt k.m.fields c]?).getD 0
/-- The key of a stochastic narrowing (19 R341). -/
def Mer.key (k : Mer) : DWord := commKey k.m.fields ^^^ BitVec.ofNat 64 k.i.num
/-- An f64 tensor. -/
def Mer.wide (k : Mer) : Bool := k.a.fmt == 0
/-- Where a chunk comes from in the source shard. -/
def Mer.srcAddr (k : Mer) (ch : CChunk) : List DWord := ch.elems.map fun gc => k.a.addr k.m.fields (coords k.m.fields k.m.me) gc
/-- Where a chunk lands in the destination shard. -/
def Mer.dstAddr (k : Mer) (ch : CChunk) : List DWord := ch.elems.map fun gc => k.b.addr k.m.fields (coords k.m.fields k.m.me) gc

/-- 19 R339: the chunks whose first step is this member's. -/
def Mer.duties (k : Mer) : List CChunk :=
  k.chunks.filter fun ch => match k.x with
    | .local_ => true
    | .gather => ch.src == k.r
    | .allToAll => ch.src == k.r
    | .reduceScatter | .allReduce => (ch.dst + 1) % k.s == k.r

/-- The keys of what this member has to receive: twice the chunk number, plus 1 for finished data. -/
def Mer.expected (k : Mer) : List Nat :=
  k.chunks.flatMap fun ch => match k.x with
    | .local_ => []
    | .gather => if ch.src == k.r then [] else [2 * ch.num + 1]
    | .allToAll => if ch.dst == k.r && ch.src != k.r then [2 * ch.num + 1] else []
    | .reduceScatter => if (ch.dst + 1) % k.s == k.r then [] else [2 * ch.num]
    | .allReduce => (if (ch.dst + 1) % k.s == k.r then [] else [2 * ch.num]) ++ (if ch.dst == k.r then [] else [2 * ch.num + 1])

/-- Write the instance back. -/
def Mer.put (k : Mer) (i : CInst) (s : State) : State :=
  s.updCtx k.c fun x => match x.comm? k.h with
    | some m => { x with comms := sset k.h { m with insts := i :: m.insts.drop 1, lastAlg := if m.insts.length ≤ 1 then i.alg else m.lastAlg } x.comms }
    | none => x

/-- The number of the chunk that this member's Meridian sequencer takes next (25 R422). -/
def Mer.nextChunk (k : Mer) : Nat := ((k.duties[k.i.next]?).map (·.num)).getD k.chunks.length
/-- The port a communicator's Meridian sequencer works at: that of the way to the next member (log 10). -/
def Mer.src (k : Mer) (s : State) : Nat := let n := k.node (k.r + 1); portSrc (((portsTo s n).map (·.2)).headD (Config.route n % Config.ports))

/-- The algorithm an instance takes (19 R335, R347). -/
def algOf (x : Exch) (slot : Nat) : Nat := match x with | .local_ => 3 | .allToAll => 2 | .gather => 0 | _ => if slot == 1 then 1 else 0
/-- 19 R335: the algorithm is fixed as the first chunk is sent. -/
def Mer.fix (k : Mer) (i : CInst) : CInst := if i.fixed then i else { i with alg := algOf k.x k.m.slot, fixed := true }
/-- 19 R347: the algorithm of the last instance started: as fixed, or as it would be fixed now. -/
def Comm.alg (m : Comm) : Nat :=
  match m.insts.getLast? with
  | some i => if i.fixed then i.alg else (match exchange (shardOf i.src) (shardOf i.dst) with | some (x, _) => algOf x m.slot | none => i.alg)
  | none => m.lastAlg

/-- A chunk goes out: kept until it is acknowledged; the name on the wire is the communicator's TAG (log entry 10). -/
def Mer.send (k : Mer) (peer num hop : Nat) (fin : Bool) (payload : List PByte) (i : CInst) (s : State) : CInst × State :=
  let ch : Chunk := ⟨(commTag k.m.fields).toNat, k.i.num, num, hop, fin, false, payload, chunkCrc k.i.num num hop payload, true⟩
  ({ k.fix i with sent := i.sent ++ [(peer, ch)], unacked := i.unacked ++ [num] }, countFab (partOf k.c) { s with out := { s.out with chunks := s.out.chunks ++ [(peer, ch)] } })

/-- The stores of a chunk: each is performed now or later, by a free choice (19 R350). -/
def Mer.make (k : Mer) (l : List SeqStore) (i : CInst) (s : State) : CInst × State :=
  let r := SeqStore.make (partOf k.c) k.i.core (storeKey k.i.tok 0) l (i.pend, s)
  ({ i with pend := r.1 }, r.2)

/-- The stop record of the Meridian sequencer (25 R422). -/
def merHalt (k : Mer) (cause detail : Nat) (addr : DWord) (s : State) : State :=
  let (dev, lref) := launchRef s k.i.lid
  let r := { StopRec.blank s.tsc with src := k.src s, unit := k.h, kind := 5, cause := cause, detail := detail, first := true, addr := addr, crow := k.nextChunk, dev := dev, lref := lref }
  let r := match s.group? k.i.gid with | some g => { r with grp := g.grp, quad := g.quad % 4, wg := g.wIndex } | none => r
  dropWaits false k.i.tok (forgetAll k.i.core k.c (raiseHalt k.c r s))

/-- A value is final at its owner: written as the record gives, and under an all-reduce sent on as a finished part (19 R339, R341). -/
def Mer.final (k : Mer) (ch : CChunk) (vs : List PVal) (i : CInst) (s : State) : State ⊕ (CInst × State) :=
  let out := vs.map (sumOut k.b k.m.contract)
  let payload := narrow k.b.wire k.wide k.key ch.num k.s out
  let wr := if k.x == .allReduce && k.b.wire != 0 then widen k.b.wire k.wide vs.length payload else out
  match collWrite k.i.tok (4096 * ch.num + 2048) k.i.core k.c k.b.es (k.dstAddr ch) wr s with
  | .wait s => .inl s
  | .fault a d x => .inl (merHalt k a d x s)
  | .vals _ s => .inl s
  | .stores l s =>
    let (i, s) := k.make l i s
    if k.x == .allReduce && k.s > 1 then .inr (k.send (k.node (k.r + 1)) ch.num k.s true payload i s) else .inr (i, s)

/-- One duty of this member: the first step of a chunk (19 R339, R352). -/
def Mer.duty (k : Mer) (ch : CChunk) (s : State) : State :=
  match collRead k.i.since k.i.tok (4096 * ch.num) k.i.core k.c k.a.es (k.srcAddr ch) s with
  | .wait s | .stores _ s => s
  | .fault a d x => merHalt k a d x s
  | .vals vs s =>
    let i := { k.i with next := k.i.next + 1 }
    let fin (p : CInst × State) : State := k.put p.1 (dropWaits false k.i.tok p.2)
    let write (ws : List PVal) (go : CInst → State → CInst × State) : State :=
      match collWrite k.i.tok (4096 * ch.num + 2048) k.i.core k.c k.b.es (k.dstAddr ch) ws s with
      | .wait s | .vals _ s => s
      | .fault a d x => merHalt k a d x s
      | .stores l s => let r := k.make l i s; fin (go r.1 r.2)
    match k.x with
    | .local_ => write vs fun i s => (i, s)
    | .gather =>
      let payload := narrow k.a.wire k.wide k.key ch.num 0 vs
      write (if k.a.wire == 0 then vs else widen k.a.wire k.wide vs.length payload) fun i s => if k.s > 1 then k.send (k.node (k.r + 1)) ch.num 0 true payload i s else (i, s)
    | .allToAll => if ch.dst == k.r then write vs fun i s => (i, s) else fin (k.send (k.node ch.dst) ch.num 0 true (narrow k.a.wire k.wide k.key ch.num 0 vs) i s)
    | .reduceScatter | .allReduce =>
      let xs := vs.map (sumIn k.a)
      if k.s == 1 then (match k.final ch xs i s with | .inl s => s | .inr p => fin p)
      else fin (k.send (k.node (k.r + 1)) ch.num 0 false (narrow k.a.wire k.wide k.key ch.num 0 xs) i s)

/-- 19 R328, R349: the links to a node have gone down: what was in flight on them is lost. -/
def linkLost (s : State) (n : Nat) : Bool := (s.dev.ports.any fun p => p.node == n && !p.up && p.version != 0) && s.dev.ports.all fun p => !(p.up && p.node == n)

/-- What a port does with a chunk of the current instance: `none` when it was not one it waits for. A chunk that may not be used yet is kept. `down`: the nodes whose links were lost when the chunk arrived. -/
def Mer.receive (k : Mer) (down : List Nat) (c : Chunk) (s : State) : State × Bool :=
  let key := 2 * c.num + (if c.fin then 1 else 0)
  match k.chunks.find? fun ch => ch.num == c.num with
  | none => (s, true)
  | some ch =>
    let n := ch.elems.length
    let last := c.fin && k.x != .allToAll && (k.r + 1) % k.s == (if k.x == .gather then ch.src else ch.dst)
    let toAck := last || !c.fin || k.x == .allToAll
    let ack (s : State) : State := if toAck then countFab (partOf k.c) { s with out := { s.out with acks := s.out.acks ++ [(k.h, k.i.num, c.num)] } } else s
    let sends := c.fin && k.x != .allToAll && !last
    let pass (x : Chunk) (s : State) : State := if sends then countFab (partOf k.c) { s with out := { s.out with chunks := s.out.chunks ++ [(k.node (k.r + 1), { x with h := (commTag k.m.fields).toNat })] } } else s
    let up := c.linkUp && !down.contains (if k.x == .allToAll then k.node ch.src else k.node (k.r + k.s - 1))
    if !k.expected.contains key then (s, true)
    else if k.i.got.contains key then ((if c.resent then pass c s else s), true)
    else
      let bad := c.crc != chunkCrc c.inst c.num c.hop c.payload
      if up && bad && !c.resent then
        -- asked for once more; what follows it on the ring has been cut through
        (k.put { (if sends then k.fix k.i else k.i) with failed := c.num :: k.i.failed } (pass c (countFab (partOf k.c) { s with out := { s.out with resend := s.out.resend ++ [(k.h, k.i.num, c.num)] } })), true)
      else
        let lost := !up || bad
        let got := if lost then c.payload.map fun w => { w with poison := true } else c.payload
        let vs0 := widen k.a.wire (k.wide) n got
        let vs := if lost then vs0.map fun v => { v with poison := true } else vs0
        let fwd (s : State) : State := if c.resent then s else
          pass (if lost then { c with linkUp := true, payload := got, crc := chunkCrc c.inst c.num c.hop got } else c) s
        let i := { (if sends && !c.resent then k.fix k.i else k.i) with got := key :: k.i.got }
        if c.fin then
          match collWrite k.i.tok (4096 * ch.num + 2048) k.i.core k.c k.b.es (k.dstAddr ch) vs s with
          | .wait s | .vals _ s => (s, false)
          | .fault a d x => (merHalt k a d x s, false)
          | .stores l s => let r := k.make l i (ack (fwd s)); (k.put r.1 (dropWaits false k.i.tok r.2), true)
        else
          match collRead k.i.since k.i.tok (4096 * ch.num) k.i.core k.c k.a.es (k.srcAddr ch) s with
          | .wait s | .stores _ s => (s, false)
          | .fault a d x => (merHalt k a d x s, false)
          | .vals own s =>
            let sum := (vs.zip (own.map (sumIn k.a))).map fun (v, o) => collAdd k.m.contract k.wide v o
            if ch.dst == k.r then
              match k.final ch sum i s with
              | .inl s => (s, false)
              | .inr (i, s) => (k.put i (dropWaits false k.i.tok (ack s)), true)
            else
              let (i, s) := k.send (k.node (k.r + 1)) ch.num (c.hop + 1) false (narrow k.a.wire k.wide k.key ch.num (c.hop + 1) sum) i s
              (k.put i (dropWaits false k.i.tok (ack s)), true)

/-- 25 R419, 19 R351: a chunk of the instance has begun: some remote access of it is out or answered. -/
def merBegun (s : State) (i : CInst) : Bool := s.waits.any fun w => !w.dist && w.op == i.tok && w.k != noAccess
/-- The Meridian sequencer works while the context runs; as it stops at a chunk boundary, a chunk that has begun is finished. -/
def mayChunk (s : State) (c h : Nat) : Bool :=
  (s.ctx c).st == .running || ((s.ctx c).st.stopsOrRuns && match merOf s c h with | some k => merBegun s k.i | none => false)
/-- Every store of an instance is performed. -/
def settleInst (c h : Nat) (i : CInst) (s : State) : State :=
  if i.pend.isEmpty then s
  else
    let s1 := i.pend.foldl (SeqStore.perform (partOf c) i.core) s
    s1.updCtx c fun x => match x.comm? h with | some m => { x with comms := sset h { m with insts := m.insts.map fun y => if y.tok == i.tok then { y with pend := [] } else y } x.comms } | none => x

/-- The Meridian sequencer of a communicator moves: a chunk held in the shadow buffer, or this member's next duty. -/
def meridian (c h : Nat) (s : State) : State :=
  if !mayChunk s c h then s
  else
    match merOf s c h with
    | none => s
    | some k =>
      match k.m.shadow.find? fun x => x.1.inst == k.i.num with
      | some x =>
        let (s1, used) := k.receive x.2 x.1 s
        if used then s1.updCtx c fun y => match y.comm? h with | some m => { y with comms := sset h { m with shadow := m.shadow.erase x } y.comms } | none => y else s1
      | none =>
        match k.duties[k.i.next]? with
        | none => s
        | some ch => k.duty ch s

/-! ## CINIT (19 R344, R345, R353) -/

/-- An s register written with the integer latency, outside the last-result file. -/
def putS (e : Env) (o : Opd) (v : Word) (g : Group) : Group := match opdKey? o 0 0 with | some key => g.writeFixed e.s 2 key ⟨v, false, 0⟩ | none => g

/-- 19 R344: a register field breaks R343, and no poisoned register comes first. -/
def Env.badComm (e : Env) (i : Instr) (poison : Bool) : Bool := !ownComm i && !(poison && e.sr.trapPoison && !e.lanes.isEmpty)

/-- CINIT. -/
def execCinit (w : WA) (s : State) : Answer :=
  runInstr (.cinit w) w.g ⟨[(w.base, recLeft w.base, false)], [], [(w.task, 1)], [], true⟩ (fun e =>
    let (f, bad) := e.sregs w.base (recLeft w.base)
    let e := e.led bad
    if e.badComm (.cinit w) bad then .halt cOPERAND 0 0 0
    else if e.lanes.isEmpty then (if e.full 5 then .stall e.s0 else .done (e.g.addTok 5 e.s.nextId true) e.s.takeId)
    else if bad && e.sr.trapPoison then .trap cPOISON (match e.leader with | some l => 2 ^ l | none => 0) 0
    else if !commOk f then .halt cOPERAND 0 0 0
    else if (pairAt f 0).toNat % 4 != 0 then .halt cALIGN 0 (pairAt f 0) 0
    else if e.full 5 then .stall e.s0
    else
      match readBlock (fun k => remote e.gid e.a.pc e.a.idx (1000 + k) (e.lead / 4)) e.g0.core e.g0.ctx false (pairAt f 0) (commSize f) e.s0 with
      | .wait s => .stall s
      | .fault c d a => .halt c d a 0
      | .ok ws =>
        match firstPoison ws with
        | some k => .haltIn (passBlock e.g0.core e.g0.ctx false (pairAt f 0) (commSize f) e.s0) cPOISON 0 (pairAt f 0 + BitVec.ofNat 64 (4 * k)) 0
        | none =>
          let e := { e with s := passBlock e.g0.core e.g0.ctx false (pairAt f 0) (commSize f) e.s }
          let x := e.s0.ctx e.g0.ctx; let id := e.s.nextId
          match (List.range 64).find? fun h => (x.comm? h).isNone with
          | none => .done ((putS e w.task 0xFFFFFFFF e.g).addTok 5 id true) e.s.takeId
          | some h =>
            let nodes := ws.map fun v => v.val.toNat % 2 ^ 21; let tag := commTag f; let me := Config.nodeId.toNat
            let live := x.comms.any fun p => commTag p.2.fields == tag && (p.2.st == .pending || p.2.st == .ready)
            let others := nodes.filter (· != me)
            let m : Comm := ⟨.pending, f, nodes, [], if commTmo f == 0 then none else some (e.s.tsc + BitVec.ofNat 64 (1000 * commTmo f)), 0, 0, 0, 0, 0, [], [], some (e.gid, id), [], (nodes.findIdx? (· == me)).getD 0, e.s.tsc, none, []⟩
            let g := (putS e w.task (BitVec.ofNat 32 h) e.g).addTok 5 id false
            let s1 := (e.s.setGroup e.gid g).takeId
            let s2 := if live || nodes.count me != 1 || nodes.eraseDups.length != nodes.length then abandon e.g0.ctx h m true others (setComm e.g0.ctx h m s1)
              else
                let s2 := commTell e.g0.ctx m false ((setComm e.g0.ctx h m s1).updCtx e.g0.ctx fun x => { x with ended := x.ended.filter fun y => y.1 != tag })
                if commFull m then commAllHere e.g0.ctx h m s2 else s2
            .done ((s2.group? e.gid).getD g) s2) s

/-! ## CSTART, CQUERY, CFREE (19 R344, R346 to R348) -/

/-- What an instruction of a handle reads first: poison (check 1), then the handle. -/
def handleOf (e : Env) (o : Opd) : Nat := (e.r32 o e.lead).w.toNat

/-- CSTART. -/
def execCstart (w : WA) (s : State) : Answer :=
  let next16 : Opd := match w.base with | .s n => .s (n + 16) | o => o
  let toTask := w.target == 1#3
  runInstr (.cstart w) w.g ⟨[(w.base, if recLeft w.base == 0 then 0 else blockLeft w.base 32, false), (w.task, 1, false)] ++ (if toTask then [(w.opnd, 1, false)] else []), [], [], [], true⟩ (fun e =>
    let (f1, b1) := e.sregs w.base (recLeft w.base); let (f2, b2) := e.sregs next16 (match w.base with | .s n => if n.toNat ≤ 96 then recLeft next16 else 0 | _ => 0)
    let L := e.lead; let c := e.g0.ctx
    let bad := b1 || b2 || (e.r32 w.task L).poison || (toTask && (e.r32 w.opnd L).poison)
    let h := handleOf e w.task; let task := (e.r32 w.opnd L).w.toNat
    let e := e.led bad
    let a := shardOf f1; let b := shardOf f2
    if e.badComm (.cstart w) bad then .halt cOPERAND 0 0 0
    else if e.lanes.isEmpty then (if e.full 5 then .stall e.s0 else .done (e.g.addTok 5 e.s.nextId true) e.s.takeId)
    else if bad && e.sr.trapPoison then .trap cPOISON (2 ^ L) 0
    else if h ≥ 64 || !a.ok || !b.ok || (toTask && !(e.s0.part e.part).hasTask task) then .halt cOPERAND 0 0 0
    else
      match exchange a b with
      | none => .halt cOPERAND 0 0 0
      | some (x, _) =>
        let m? : Option Comm := (e.s0.ctx c).comm? h
        if (match m? with | some (m : Comm) => !(a.divides m.fields && b.divides m.fields) | none => false) then .halt cOPERAND 0 0 0
        else if a.base.toNat % a.es != 0 then .halt cALIGN 0 a.base 0
        else if b.base.toNat % b.es != 0 then .halt cALIGN 0 b.base 0
        else
          match m? with
          | none => .halt 0x38 0 0 0
          | some m =>
            if m.st == CommSt.pending then .stall e.s0
            else if m.st != CommSt.ready || !m.cfree.isEmpty || ((a.wire == 1 || a.wire == 3) && decide (m.lver < 2)) || (a.wire == 2 && decide (m.lver < 3)) ||
              (commSlot m.fields && decide (m.lver < 2)) || !a.axesIn m.fields || !b.axesIn m.fields then .halt 0x38 0 0 0
            else if !toTask && e.full 5 then .stall e.s0
            else
              let id := e.s.nextId; let alg := algOf x m.slot
              let i : CInst := ⟨m.nextInst, f1, f2, e.gid, e.g0.lid, id, if toTask then some task else none, e.g0.core, alg, 0, [], [], [], [], false, e.s.turn, []⟩
              let g := if toTask then e.g else e.g.addTok 5 id false
              let s1 := (setComm c h { m with nextInst := (m.nextInst + 1) % 65536, lastAlg := alg, insts := m.insts ++ [i] } e.s).takeId
              .done g (if commPersist m.fields && m.slot == 2 && m.me == 0 then sendSlotReq c (slotOwner c (commTag m.fields)) s1.tsc s1 else s1)) s

/-- 19 R347: what CQUERY answers. -/
def queryItem (m : Comm) (item : Nat) : Word :=
  let st : Nat := match m.st with | .pending => 0 | .ready => 1 | .timeout => 2 | .mismatch => 3 | .free => 4
  BitVec.ofNat 32 (match item with
    | 0 => st | 1 => m.contract | 2 => if m.st == .ready then m.slot else 0 | 3 => m.lver | 4 => m.me | 5 => m.members.length | 6 => m.nextInst | _ => m.alg)

/-- CQUERY. -/
def execCquery (w : WA) (s : State) : Answer :=
  let item := w.imm.toNat
  runInstr (.cquery w) w.g ⟨[(w.task, 1, false)], [], [(w.opnd, 1)], [], true⟩ (fun e =>
    let h := handleOf e w.task
    let e := e.led (e.r32 w.task e.lead).poison
    if e.badComm (.cquery w) (e.r32 w.task e.lead).poison then .halt cOPERAND 0 0 0
    else if e.lanes.isEmpty then .done e.g e.s
    else if (e.r32 w.task e.lead).poison && e.sr.trapPoison then .trap cPOISON (2 ^ e.lead) 0
    else if h ≥ 64 || !(Instr.cquery w).ownOk then .halt cOPERAND 0 0 0
    else
      let v := match (e.s0.ctx e.g0.ctx).comm? h with | some m => queryItem m item | none => if item == 0 then 4 else 0
      .done (e.g.writeAll e.s 2 (dstWrites w.opnd (e.lanes.map fun L => ⟨L, [⟨v, false, 0⟩]⟩))) e.s) s

/-- CFREE. -/
def execCfree (w : WA) (s : State) : Answer :=
  runInstr (.cfree w) w.g ⟨[(w.task, 1, false)], [], [], [], true⟩ (fun e =>
    let h := handleOf e w.task; let id := e.s.nextId; let c := e.g0.ctx
    let e := e.led (e.r32 w.task e.lead).poison
    if e.badComm (.cfree w) (e.r32 w.task e.lead).poison then .halt cOPERAND 0 0 0
    else if e.lanes.isEmpty then (if e.full 5 then .stall e.s0 else .done (e.g.addTok 5 id true) e.s.takeId)
    else if (e.r32 w.task e.lead).poison && e.sr.trapPoison then .trap cPOISON (2 ^ e.lead) 0
    else if h ≥ 64 then .halt cOPERAND 0 0 0
    else if e.full 5 then .stall e.s0
    else
      match (e.s0.ctx c).comm? h with
      | none => .done (e.g.addTok 5 id true) e.s.takeId
      | some m =>
        let g := e.g.addTok 5 id false
        let s1 := runFrees c h ((setComm c h { m with cfree := m.cfree ++ [(e.gid, id)] } e.s).setGroup e.gid g).takeId
        .done ((s1.group? e.gid).getD g) s1) s

/-! ## Negotiation (19 R333) -/

/-- The entry of a context that negotiates under a tag. -/
def pendingOn (x : Ctx) (tag : Word) : Option (Nat × Comm) := x.comms.find? fun p => p.2.st == .pending && commTag p.2.fields == tag

/-- COMM_NEGOTIATE: a member's message arrives. With no entry of the tag here it waits: it does not arrive yet; where the negotiation under the tag has ended, its sender is told. -/
def execCommNegotiate (ctx : Nat) (m : CommMsg) (s : State) : Answer :=
  let x := s.ctx ctx
  let tell (mismatch : Bool) : State := (countFab (partOf ctx) { s with out := { s.out with aborts := s.out.aborts ++ [(m.node, m.tag, mismatch)] } }).bump
  match pendingOn x m.tag with
  | some (h, k) =>
    if !commSame k m || !k.members.contains m.node then .next (if commFull k then tell true else abandon ctx h k true (m.node :: k.arrived.map (·.node)) s)
    else if m.node == Config.nodeId.toNat then .next s
    else
      let k1 := if k.arrived.any (·.node == m.node) then k else { k with arrived := k.arrived ++ [m] }
      let k2 := if m.all && !k.told.contains m.node then { k1 with told := k.told ++ [m.node] } else k1
      let s1 := setComm ctx h k2 s
      .next (if !commFull k2 then s1 else if !commFull k then commAllHere ctx h k2 s1 else if commTold k2 && !commTold k then commReady ctx h k2 s1 else s1)
  | none =>
    match x.ended.find? fun e => e.1 == m.tag with
    | some (_, mm) => .next (tell mm)
    | none => .next s

/-- COMM_ABORT_NOTICE: the pending member ends with that status. -/
def execCommAbortNotice (ctx : Nat) (tag : BitVec 32) (mismatch : Bool) (s : State) : Answer :=
  match pendingOn (s.ctx ctx) tag with
  | some (h, k) => .next (endPending ctx h { k with st := if mismatch then .mismatch else .timeout } s)
  | none => .next s

/-- COMM_TIMEOUT: TMO µs have passed and not every member has arrived. -/
def execCommTimeout (ctx h : Nat) (s : State) : Answer :=
  match (s.ctx ctx).comm? h with
  | some k =>
    (match k.deadline with
     | some t => if k.st == .pending && t.ule s.tsc && !commFull k then .next (abandon ctx h k false (k.arrived.map (·.node)) s) else .next s
     | none => .next s)
  | none => .next s

/-! ## Switch reduction slots (19 R334, R335) -/

/-- A switch. -/
def State.switch (s : State) (n : Nat) : Switch := sgetD ⟨[], [], []⟩ n s.switches
/-- Write a switch back. -/
def State.setSwitch (n : Nat) (x : Switch) (s : State) : State := { s with switches := sput ⟨[], [], []⟩ n x s.switches }

/-- SLOT_REQUEST: a request arrives and is held. -/
def execSlotRequest (sw : Nat) (r : SlotReq) (s : State) : Answer :=
  let x := s.switch sw
  .next (s.setSwitch sw { x with reqs := x.reqs ++ [{ r with arrived := s.tsc }] })

/-- 19 R334: a communicator of this device learns the outcome of its request; before READY it is kept. -/
def slotOutcome (owner : Nat) (granted : Bool) (s : State) : State :=
  s.ctxs.foldl (fun s p => p.2.comms.foldl (fun s q =>
    if slotOwner p.1 (commTag q.2.fields) != owner then s
    else if q.2.st == .pending then (if q.2.slot == 3 then endPending p.1 q.1 { q.2 with st := .ready, slot := if granted then 1 else 2 } s else setComm p.1 q.1 { q.2 with decided := some granted } s)
    else if q.2.st == .ready && q.2.slot == 2 && granted then setComm p.1 q.1 { q.2 with slot := 1 } s
    else s) s) s

/-- When a request is decided: 10 µs of the switch's $tsc after its timestamp, or on arrival when that has passed (19 R334). -/
def slotDue (r : SlotReq) : Nat := max (r.ts.toNat + 10000) r.arrived.toNat

/-- SLOT_DECISION: the request whose hold ends first is decided. -/
def execSlotDecision (sw : Nat) (s : State) : Answer :=
  let x := s.switch sw
  let due := x.reqs.filter fun r => decide (slotDue r ≤ s.tsc.toNat)
  match due.foldl (fun (b : Option SlotReq) r => match b with
      | none => some r
      | some q => if rankLt [slotDue r, r.ts.toNat, r.src] [slotDue q, q.ts.toNat, q.src] then some r else some q) none with
  | none => .next s
  | some r =>
    let ok := decide (x.granted.length < Config.switchSlots sw)
    let x1 := { x with reqs := x.reqs.erase r, granted := if ok then r.owner :: x.granted else x.granted, refused := if ok then x.refused else r.owner :: x.refused }
    .next (slotOutcome r.owner ok (s.setSwitch sw x1))

/-- SLOT_RECLAIM: the host takes a granted slot back while no instance runs on it; the next instance uses the ring (R335). -/
def execSlotReclaim (sw owner : Nat) (s : State) : Answer :=
  let x := s.switch sw
  let busy := s.ctxs.any fun p => p.2.comms.any fun q => slotOwner p.1 (commTag q.2.fields) == owner && q.2.insts.any fun i => i.fixed && i.alg == 1
  if busy || !x.granted.contains owner then .next s
  else
    let s1 := s.setSwitch sw { x with granted := x.granted.erase owner }
    .next (s1.ctxs.foldl (fun s p => p.2.comms.foldl (fun s q => if slotOwner p.1 (commTag q.2.fields) == owner && q.2.slot == 1 then setComm p.1 q.1 { q.2 with slot := 2 } s else s) s) s1)

/-! ## Chunks (19 R342, R346, R349) -/

/-- CHUNK_RECEIVE: a port accepts chunks of its current instance, and of the next one into its shadow buffer; others are held back at the sender. A killed context's are discarded (02 R46). -/
def execChunkReceive (ctx : Nat) (c : Chunk) (s : State) : Answer :=
  let x := s.ctx ctx
  if !mayChunk s ctx c.h then .next s
  else
    match x.comm? c.h with
    | none => .next s
    | some m =>
      match merOf s ctx c.h with
      | none => .next s
      | some k =>
        if c.inst == k.i.num then .next (k.receive (m.members.filter (linkLost s)) c s).1.bump
        else if x.st == .running && commPersist m.fields && m.lver == 3 && c.inst == (k.i.num + 1) % 65536 then .next (setComm ctx c.h { m with shadow := m.shadow ++ [(c, m.members.filter (linkLost s))] } s)
        else .next s

/-- CHUNK_RESEND_REQUEST: the source sends a chunk once more, while its collectives run (19 R351). -/
def execChunkResendRequest (ctx h inst chunk : Nat) (s : State) : Answer :=
  match (s.ctx ctx).comm? h with
  | none => .next s
  | some m =>
    if (s.ctx ctx).st != .running then .next s else
    match (m.insts.find? (·.num == inst)).bind fun i => i.sent.find? fun p => p.2.num == chunk with
    | none => .next s
    | some (peer, c) => .next (countFab (partOf ctx) { s with out := { s.out with chunks := s.out.chunks ++ [(peer, { c with resent := true })] } }).bump

/-- CHUNK_ACK: the final receiver's acknowledgement reaches the sender. -/
def execChunkAck (ctx h inst chunk : Nat) (s : State) : Answer :=
  match (s.ctx ctx).comm? h with
  | none => .next s
  | some m => .next (setComm ctx h { m with insts := m.insts.map fun i => if i.num == inst then { i with unacked := i.unacked.filter (· != chunk) } else i } s)

/-- INSTANCE_COMPLETE (19 R346): the current instance ends once its duties are done, its chunks received and its own acknowledged; until then the Meridian sequencer goes on with it. -/
def execInstanceComplete (ctx h inst : Nat) (s : State) : Answer :=
  match merOf s ctx h with
  | none => .next s
  | some k =>
    if k.i.num != inst then .next s
    else if decide (k.i.next < k.duties.length) || !(k.expected.all k.i.got.contains) || !k.i.unacked.isEmpty then .next (meridian ctx h s).bump
    else if (s.ctx ctx).st != .running then .next s
    else
      let s1 := setComm ctx h { k.m with insts := k.m.insts.drop 1 } (settleInst ctx h k.i s)
      let s2 := match k.i.task with
        | some n => signalTask k.i.core n s1
        | none => finishTok k.i.gid 5 k.i.tok s1
      .next (meridian ctx h (runFrees ctx h s2)).bump

end Sys2Proof.Machine
end

