-- ==== Sys2Proof/Machine/Copy.lean ====
section
/-! DEFINITION. The copy engine: layout records, CPY, GATHER, SCATTER, one row of a box, completion (05 R91 to R107). -/

namespace Sys2Proof.Machine

/-! ## The tensor layout record (05 R93 to R96) -/

/-- A layout record. Lists hold one entry for each dimension from 0; the stride of dimension 0 is not used. -/
structure Layout where
  base : DWord
  dim : List Nat
  stride : List Nat
  box : List Nat
  fmt : Nat
  rank : Nat
  pitch : Nat
  swz : Nat
  nofill : Bool
  rsv : Bool
  fill : Nat
deriving Repr

/-- Entry d of a list of numbers. -/
def nth (l : List Nat) (d : Nat) : Nat := (l[d]?).getD 0

/-- 05 R93. -/
def layoutOf (ws : List Word) : Layout :=
  let b (k o n : Nat) : Nat := (wordAt ws k).toNat / 2 ^ o % 2 ^ n
  { base := pairAt ws 0, dim := (List.range 5).map fun d => b (2 + d) 0 32, stride := 0 :: (List.range 4).map (fun d => b (7 + d) 0 32),
    box := [b 11 0 8, b 11 8 8, b 11 16 8, b 11 24 8, b 12 0 8], fmt := b 12 12 4, rank := b 12 8 3, pitch := b 12 16 16 * 16, swz := b 13 0 4,
    nofill := b 13 8 1 == 1, rsv := b 12 11 1 != 0 || b 13 4 4 != 0 || b 13 9 7 != 0 || b 13 16 16 != 0, fill := b 14 0 32 + 2 ^ 32 * b 15 0 32 }

/-- 05 R94: the size of an element. -/
def Layout.es (r : Layout) : Nat := match r.fmt with | 0 => 1 | 1 => 2 | 2 => 4 | 3 => 8 | _ => 64
/-- 05 R95: B_d. -/
def Layout.b (r : Layout) (d : Nat) : Nat := nth r.box d + 1
/-- The rows of a box. -/
def Layout.rows (r : Layout) : Nat := r.b 1 * r.b 2 * r.b 3 * r.b 4

/-- 05 R96. -/
def swzOf (swz b r : Nat) : Nat :=
  if swz = 0 then b
  else
    let s := 2 ^ swz; let c := b / 16
    (c / s * s + (c ^^^ r) % s) * 16 + b % 16

/-- The record as a whole is legal (05 R97): rank, extents, boxes, codes, reserved bits. -/
def Layout.fieldsOk (r : Layout) (gs : Bool) : Bool :=
  1 ≤ r.rank && r.rank ≤ 5 && ((List.range r.rank).all fun d => nth r.dim d != 0) && ((List.range 5).all fun d => decide (d < r.rank) || nth r.box d == 0) &&
  decide (r.fmt ≤ 4) && decide (r.swz ≤ 3) && !r.rsv && (!gs || decide (2 ≤ r.rank))
/-- The sizes of the box are legal (05 R97). -/
def Layout.sizesOk (r : Layout) : Bool :=
  decide (r.b 0 * r.es ≤ 4096) && decide (r.b 0 * r.es ≤ r.pitch) && (r.swz == 0 || (r.es != 64 && r.pitch % (16 * 2 ^ r.swz) == 0))

/-- The words of the operand block (05 R100). DESIGN CHOICE (log 58): of a record whose RANK is 0, 6 or 7 the block read at issue is the one of rank 0. -/
def Layout.blockLen (r : Layout) (gs : Bool) : Nat := (if 1 ≤ r.rank && r.rank ≤ 5 then r.rank else 0) + 1 + (if gs then 1 else 0)

/-- An operand block stays in its file (05 R97). DESIGN CHOICE (log 58): a block of v registers must lie in the group's allocation too, as 08 R152 asks of a register that a field names. -/
def blockFits (o : Opd) (n regs : Nat) : Bool :=
  match o with
  | .v k => decide (k.toNat + n ≤ min 256 regs)
  | .s k => decide (k.toNat + n ≤ 128)
  | _ => false

/-- The operand is an s register. -/
def opdIsS : Opd → Bool
  | .s _ => true
  | _ => false

/-! ## Issue (05 R97 to R101) -/

/-- CPY, GATHER and SCATTER: the checks of R97 in their order, then the operation. DESIGN CHOICE (log 58): the record of a failed check has LANES 0, and ADDR is BASE, or SPOFF for SCRATCH_BOUNDS; an instruction with no acting lane takes no entry and does not wait for one. -/
def copyAct (e : Env) (gs : Bool) (kind : Nat) (w : WA) : Act :=
  let ctr := if gs then 4 else 3
  let (ws, pr) := e.sregs w.base (recLeft w.base)
  let r := layoutOf ws; let n := r.blockLen gs; let part := e.s0.part e.part
  let lead := e.leader; let L := e.lead
  let readsBlk := lead.isSome || opdIsS w.opnd
  let readsTask := w.target == 1#3 && (lead.isSome || opdIsS w.task)
  let blk := (List.range n).map fun k => (e.rc w.opnd L k).get
  let spoff := (wordAt blk 0).toNat; let ix := (wordAt blk (r.rank + 1)).toNat
  let task := (e.r32 w.task L).w.toNat
  let poison := pr || (readsBlk && (List.range (blockLeft w.opnd n)).any fun k => (e.rc w.opnd L k).poison) || (readsTask && (e.r32 w.task L).poison)
  if poison && e.sr.trapPoison then .trap cPOISON (match lead with | some l => 2 ^ l | none => 0) 0
  else if !ownCopy w || !blockFits w.opnd n e.g0.regs || !r.fieldsOk gs || !r.sizesOk || (readsBlk && (spoff % 16 != 0 || (gs && ix % 4 != 0))) || (readsTask && !part.hasTask task) || (gs && w.mod.getLsbD 0) then .halt cOPERAND 0 0 0
  else if r.base.toNat % r.es != 0 then .halt cALIGN 0 r.base 0
  else if r.base.toNat / 2 ^ 57 != 0 then .halt cTRANS 0 r.base 0
  else if readsBlk && (decide (spoff + r.rows * r.pitch > part.spadSize e.g0.core) || (gs && decide (ix + 4 * r.b 1 > part.spadSize e.g0.core))) then .halt cSPAD 0 (BitVec.ofNat 64 spoff) 0
  else if e.lanes.isEmpty then (if e.full ctr then .stall e.s0 else .done (e.g.addTok ctr e.s.nextId true) e.s.takeId)
  else
    let toTask := w.target == 1#3
    if !toTask && e.full ctr then .stall e.s0
    else if decide (64 ≤ coreCopies e.s0 e.g0.core) then e.keepBack .copyFull e.s0
    else
      let id := e.s.nextId
      let op : CopyOp := ⟨e.gid, e.g0.lid, e.g0.ctx, e.g0.core, kind, ws, blk, (w.mod.extractLsb' 1 2).toNat, if toTask then some task else none, ctr, 0, [], [], [], []⟩
      let e := e.led poison
      .done (if toTask then e.g else e.g.addTok ctr id false) ({ e.s with copies := sset id op e.s.copies }).takeId

/-- What CPY, GATHER and SCATTER read: the record, the block as the record's rank gives it, the task. -/
def usesCopy (gs : Bool) (w : WA) (s : State) : Uses :=
  let n := match curGang s, opdKey? w.base 0 0 with
    | some (_, _, g, _, _), some k => (layoutOf ((List.range (recLeft w.base)).map fun j => (g.cellAt (k + j)).get)).blockLen gs
    | _, _ => 1
  ⟨[(w.base, recLeft w.base, false), (w.opnd, blockLeft w.opnd n, false)] ++ (if w.target == 1#3 then [(w.task, 1, false)] else []), [], [], [], true⟩

/-- CPY. -/
def execCpy (w : WA) (s : State) : Answer := runInstr (.cpy w) w.g (usesCopy false w s) (fun e => copyAct e false (if w.mod.getLsbD 0 then 1 else 0) w) s
/-- GATHER. -/
def execGather (w : WA) (s : State) : Answer := runInstr (.gather w) w.g (usesCopy true w s) (fun e => copyAct e true 2 w) s
/-- SCATTER. -/
def execScatter (w : WA) (s : State) : Answer := runInstr (.scatter w) w.g (usesCopy true w s) (fun e => copyAct e true 3 w) s

/-! ## One row (05 R95, R96, R102, R104 to R107) -/

/-- The bytes of a piece. -/
def pieceLen (es : Nat) : Nat := min es 4

/-- A memory address as computed exactly (05 R95), in the 64 bits an access carries. One of 2^64 or more has a nonzero bit above bit 56, so it raises TRANSLATION (02 R18); its record's ADDR shows bits [63:57] set (log 58). -/
def exactVa (x : Int) : DWord := if x < 2 ^ 64 then BitVec.ofInt 64 x else BitVec.ofInt 64 x ||| 0xFE00000000000000#64

/-- An entry of the index list of GATHER and SCATTER, as it stands or as it has stood since the operation issued, by a free choice (05 R102, R104: its reads are unordered). -/
def indexOf (s : State) (op : CopyOp) (at_ : Nat) : PWord :=
  let now := spadPWord s (partOf op.ctx) op.core at_
  match op.old with
  | [] => now
  | vs => ((now :: vs.map fun v => spadPWord { s with spad := v.bytes, spadPoison := v.marks } (partOf op.ctx) op.core at_)[s.pick (2 ^ 78 + at_) (vs.length + 1)]?).getD now

/-- 05 R95, R96, R102: the pieces of row r. A poisoned or outside index puts the row out of bounds. -/
def rowPieces (s : State) (op : CopyOp) (r : Layout) (row : Nat) : List Piece :=
  let es := r.es; let u := pieceLen es; let gs := decide (op.kind ≥ 2)
  let i1 := row % r.b 1; let i2 := row / r.b 1 % r.b 2; let i3 := row / (r.b 1 * r.b 2) % r.b 3; let i4 := row / (r.b 1 * r.b 2 * r.b 3)
  let o (d : Nat) : Int := if d < r.rank then (wordAt op.blk (d + 1)).toInt else 0
  let idx := indexOf s op ((wordAt op.blk (r.rank + 1)).toNat + 4 * i1)
  let cs : List Int := [0, if gs then idx.val.toInt else o 1 + i1, o 2 + i2, o 3 + i3, o 4 + i4]
  let ci (d : Nat) : Int := (cs[d]?).getD 0
  let inn (d : Nat) (x : Int) : Bool := decide (0 ≤ x) && decide (x < nth r.dim d)
  let ok := !(gs && idx.poison) && (List.range r.rank).all fun d => d == 0 || inn d (ci d)
  let rowVa : Int := r.base.toNat + (List.range r.rank).foldl (fun (a : Int) d => if d = 0 then a else a + ci d * nth r.stride d * 16) 0
  (List.range (r.b 0)).flatMap fun (i0 : Nat) =>
    let c0 : Int := o 0 + (i0 : Nat); let sp := (wordAt op.blk 0).toNat + row * r.pitch + swzOf r.swz (i0 * es) row
    (List.range (es / u)).map fun (k : Nat) => ⟨i0 * (es / u) + k, sp + k * u, if ok && inn 0 c0 then some (exactVa (rowVa + c0 * (es : Nat) + ((k * u : Nat) : Int))) else none⟩

/-- 05 R94: the fill of a piece. -/
def fillOf (r : Layout) (k : Nat) : Nat :=
  let u := pieceLen r.es
  if r.es = 64 then (r.fill % 256) * 0x01010101 else r.fill / 2 ^ (8 * u * (k % (r.es / u))) % 2 ^ (8 * u)

/-- A place by node and address: the node index lies above every physical address. -/
def Where.place (w : Where) : Nat := w.node * 2 ^ 60 + w.pas.headD 0

/-- Write one inbound piece: the stamp of a line is the largest of its data sources in this operation (07 R147); a word put together from several pieces of a row is marked when one of them was (05 R107; 12 R250). -/
def putIn (row u : Nat) (acc : CopyOp × State) (v : PieceVal) : CopyOp × State :=
  let op := acc.1; let line := v.p.sp / 64; let word := (row, v.p.sp / 4)
  let st := max (((op.seen.filter (· / 16 == line)).map (· % 16)).foldl max 0) ((v.stamp).getD 0).toNat
  ({ op with seen := (16 * line + st) :: op.seen.filter (· / 16 != line), marked := if v.poison then word :: op.marked else op.marked },
   writeSpad (partOf op.ctx) op.core v.p.sp u v.val (v.poison || op.marked.contains word) (BitVec.ofNat 4 st) acc.2)

/-- Write one outbound piece to local memory, or note the remote place that its request has written. -/
def putOut (row u : Nat) (acc : CopyOp × State) (v : PieceVal) : CopyOp × State :=
  let op := acc.1
  match v.w with
  | none => acc
  | some w =>
    let pa := w.pas.headD 0; let word := (row, pa / 4)
    if w.node != 0 then ({ op with seen := if op.seen.contains w.place then op.seen else w.place :: op.seen }, acc.2)
    else ({ op with marked := if v.poison then word :: op.marked else op.marked },
          cacheTouch (partOf op.ctx) (max op.hint (atCache w.attr)) pa true (writeMem pa u v.val (v.poison || op.marked.contains word) acc.2))

/-- The source of a piece as it stands: of an inbound piece out of bounds its fill (05 R94). -/
def PieceVal.source (s : State) (op : CopyOp) (u : Nat) (v : PieceVal) : PieceVal :=
  if op.kind % 2 == 0 then
    match v.w with
    | some w => if w.node == 0 then { v with val := readMem s (w.pas.headD 0) u, poison := markedMem s (w.pas.headD 0) u } else v
    | none => { v with val := fillOf (layoutOf op.rec_) v.p.k, poison := false }
  else { v with val := readSpad s (partOf op.ctx) op.core v.p.sp u, poison := markedSpad s (partOf op.ctx) op.core v.p.sp u }
/-- An inbound piece's read passes its die cache. -/
def PieceVal.touch (op : CopyOp) (s : State) (v : PieceVal) : State :=
  match v.w with
  | some w => if op.kind % 2 == 0 && w.node == 0 then cacheTouch (partOf op.ctx) (max op.hint (atCache w.attr)) (w.pas.headD 0) false s else s
  | none => s

/-- An element is copied: its source is read, if it has not been read, and its pieces are written. -/
def CopyLate.perform (acc : CopyOp × State) (x : CopyLate) : CopyOp × State :=
  let u := pieceLen (layoutOf acc.1.rec_).es
  let ps := if x.unread then x.ps.map (PieceVal.source acc.2 acc.1 u) else x.ps
  let s := if x.unread then x.ps.foldl (PieceVal.touch acc.1) acc.2 else acc.2
  ps.foldl (if acc.1.kind % 2 == 0 then putIn x.row u else putOut x.row u) (acc.1, s)
/-- Those of an operation's elements that `due` names are copied; the others wait on. -/
def CopyOp.settle (due : CopyLate × Nat → Bool) (op : CopyOp) (s : State) : CopyOp × State :=
  let l := op.pend.zipIdx
  ((l.filter due).map (·.1)).foldl CopyLate.perform ({ op with pend := (l.filter fun x => !due x).map (·.1) }, s)

/-- The record of the copy engine at a fault (25 R422). -/
def copyRec (s : State) (op : CopyOp) (cause detail : Nat) (addr : DWord) : StopRec :=
  let (dev, lref) := launchRef s op.lid
  let r := { StopRec.blank s.tsc with src := srcNum op.core 0xC, kind := 4, cause := cause, detail := detail, first := true, addr := addr, crow := op.row, dev := dev, lref := lref }
  match s.group? op.gid with
  | some g => { r with grp := g.grp, quad := g.quad % 4, wg := g.wIndex }
  | none => r

/-- What one row comes to. -/
inductive CopyRes where
  | done (op : CopyOp) (s : State)
  | wait (s : State)
  | fault (cause detail : Nat) (addr : DWord) (op : CopyOp) (s : State)
deriving Repr

/-- The remote request of a piece: of an 8-byte element one request serves both pieces (03 R51), of any other the piece's own. `pair` holds the words of the element from its first piece on. -/
def pieceReq (part u es : Nat) (inb : Bool) (v : PieceVal) (w : Where) (pair : List PieceVal) (id : Nat) : FabReq :=
  let wide := es == 8; let pa := w.pas.headD 0
  ⟨id, part, w.node - 1, if wide then pa / 8 * 8 else pa, if inb then 0 else 1, if wide then 8 else u, 0,
    if inb then [] else if wide then pair.map fun x => ⟨BitVec.ofNat 32 x.val, x.poison⟩ else [⟨BitVec.ofNat 32 v.val, v.poison⟩], []⟩

/-- Some remote access of a copy's row is out: the row has begun and is finished, as the engine stops at a row boundary (05 R105). -/
def copyBegun (s : State) (id : Nat) : Bool := s.waits.any fun w => !w.dist && w.op == id && w.k != noAccess

/-- An element of a row, copied now, read now and written later, or copied later, by a free choice (05 R102, R104); what another device has answered is read, and written there. -/
def CopyLate.begin (key : Nat) (acc : CopyOp × State) (x : CopyLate) : CopyOp × State :=
  let far := x.ps.any fun v => match v.w with | some w => w.node != 0 | none => false
  let k := acc.2.pick key 3
  if k == 0 || (far && acc.1.kind % 2 == 1) then x.perform acc
  else if k == 1 || far then
    let u := pieceLen (layoutOf acc.1.rec_).es
    ({ acc.1 with pend := acc.1.pend ++ [if far then { x with unread := false } else { x with ps := x.ps.map (PieceVal.source acc.2 acc.1 u), unread := false }] },
     if far then acc.2 else x.ps.foldl (PieceVal.touch acc.1) acc.2)
  else ({ acc.1 with pend := acc.1.pend ++ [x] }, acc.2)

/-- One row of an operation: translated again at every access (02 R43); its elements are copied in any order, now or while later rows are. At a fault every row before it is whole, and a free part of its own elements is written (05 R105).
DESIGN CHOICE (log 67): of several faulting positions of a row the first in element order gives CAUSE and ADDR, failed lookups ahead of refused and undeliverable remote accesses. -/
def copyRow (id : Nat) (op : CopyOp) (s : State) : CopyRes :=
  let r := layoutOf op.rec_; let part := partOf op.ctx; let u := pieceLen r.es; let inb := op.kind % 2 == 0
  let ps := rowPieces s op r op.row
  let looks := ps.filterMap fun p => p.va.map fun va => (p, va, lookVa s op.core op.ctx va (if inb then .read else .write) false false)
  let missed := looks.filter fun x => x.2.2 == .miss
  if !missed.isEmpty then .wait (missed.foldl (fun s x => askWalk op.core op.ctx x.2.1.toNat s) s)
  else
    let placeOf (p : Piece) : Option Where := looks.findSome? fun x => if x.1.k == p.k then (match x.2.2 with | .at_ w => some w | _ => none) else none
    let vals := ps.filterMap fun p =>
      let w := placeOf p
      if p.va.isNone && (!inb || r.nofill) then none else some (PieceVal.source s op u ⟨p, w, 0, false, if inb then w.map fun w => atStamp w.attr else none⟩)
    -- remote accesses
    let (s1, rs) := vals.foldl (fun (s, rs) v =>
      match v.w with
      | some w =>
        if w.node == 0 then (s, rs ++ [some (RemoteResp.done [])]) else
        let k := if r.es = 8 then v.p.k / 2 * 2 else v.p.k
        let sent := s.waits.any fun x => !x.dist && x.op == id && x.k == k
        -- a place written before in this operation keeps the value of either position (05 R104)
        if !inb && !sent && op.seen.contains w.place && s.coin (85000 + k) then (s, rs ++ [some (RemoteResp.done [])]) else
        let (x, s) := remoteEng false op.ctx id k (pieceReq part u r.es inb v w (vals.filter fun x => x.p.k / 2 == v.p.k / 2)) s
        (s, rs ++ [x])
      | none => (s, rs ++ [some (RemoteResp.done [])])) (s, ([] : List (Option RemoteResp)))
    let badLook (x : Piece × DWord × Look) : Option (Nat × Nat) := match x.2.2 with | .trans d => some (cTRANS, d) | .perm => some (cPERM, 0) | _ => none
    if rs.any (·.isNone) && (looks.all fun x => (badLook x).isNone) then .wait s1
    else
      let got := (vals.zip rs).map fun (v, x) =>
        match x with
        | some (.done (d :: t)) => let d := if r.es = 8 && v.p.k % 2 == 1 then t.headD d else d; if inb then { v with val := d.val.toNat % 2 ^ (8 * u), poison := d.poison } else v
        | some .discarded => if inb then { v with val := poisonWord.toNat % 2 ^ (8 * u), poison := true } else v
        | _ => v
      let bad : Option (Nat × Nat × DWord) :=
        match looks.findSome? (fun x => (badLook x).map fun c => (c.1, c.2, x.2.1)) with
        | some b => some b
        | none => (vals.zip rs).findSome? fun (v, x) => match x with
          | some .undeliverable => some (cTRANS, 0, v.p.va.getD 0)
          | some .refused => some (cPERM, 0, v.p.va.getD 0)
          | _ => none
      let el := if r.es = 8 then 2 else 1
      let elem (j : Nat) : CopyLate := ⟨op.row, (List.range el).filterMap fun x => got[el * j + x]?, true⟩
      let elems := List.range (got.length / el)
      match bad with
      | some (c, d, a) =>
        let n := s.pick 85900 (got.length / el + 1)
        -- an inbound piece whose value has not come back is not written
        let here (k : Nat) (v : PieceVal) : Bool := (v.w.isSome || v.p.va.isNone) && (!inb || match rs[k]? with | some (some (.done _)) | some (some .discarded) => true | _ => false)
        let mine := ((shuffle s1 86000 elems).take n).map fun j => { elem j with ps := (List.range el).filterMap fun x => (got[el * j + x]?).bind fun v => if here (el * j + x) v then some v else none, unread := false }
        let whole := op.settle (fun _ => true) s1
        .fault c d a whole.1 (mine.foldl CopyLate.perform whole).2
      | none => let (op1, s2) := elems.foldl (fun acc j => (elem j).begin (86500 + j) acc) (op, s1); .done op1 (dropWaits false id s2)

/-- COPY_ENGINE_ROW (05 R102, R105, R106): one row; a row that has begun is finished while its context stops. -/
def execCopyEngineRow (op : Nat) (s : State) : Answer :=
  match sget op s.copies with
  | none => .next s
  | some c =>
    if !((s.ctx c.ctx).st == .running || ((s.ctx c.ctx).st.stopsOrRuns && copyBegun s op)) || decide ((layoutOf c.rec_).rows ≤ c.row) then .next s
    else
      match copyRow op c s with
      | .wait s => .next s
      | .fault cause d a c1 s1 =>
        let s2 := { s1 with copies := sset op c1 s1.copies }
        .next (dropWaits false op (forgetAll c.core c.ctx (raiseHalt c.ctx (copyRec s c cause d a) s2))).bump
      | .done c1 s1 => .next ({ s1 with copies := sset op { c1 with row := c.row + 1 } s1.copies }).bump

/-- Every element of an operation is copied. -/
def settleCopy (op : Nat) (s : State) : State :=
  match sget op s.copies with
  | none => s
  | some c => if c.pend.isEmpty then s else let r := c.settle (fun _ => true) s; { r.2 with copies := sset op r.1 r.2.copies }

/-- COPY_ENGINE_COMPLETE (05 R103; 03 R70, R72): an operation with no row left completes, its accesses performed, on its counter, wc in issue order, or signals its task. -/
def execCopyEngineComplete (op : Nat) (s : State) : Answer :=
  match sget op s.copies with
  | none => .next s
  | some c =>
    if decide (c.row < (layoutOf c.rec_).rows) || (s.ctx c.ctx).st != .running then .next s
    else
      let s := settleCopy op s
      let s1 := wakeHeld (fun g => g.core == c.core) (· == .copyFull) { s with copies := serase op s.copies }
      match c.task with
      | some n => .next (signalTask c.core n s1)
      | none =>
        let turn := match s.group? c.gid with | some g => c.tok == 4 || (match g.oldest c.tok with | some t => t.id == op | none => true) | none => true
        if turn then .next (completeTok c.gid c.tok op s1) else .next s

end Sys2Proof.Machine
end

