-- ==== Sys2Proof/Machine/Matrix.lean ====
section
/-! DEFINITION. The matrix unit: tiles, operand rows, the checks and the issue of MLOOP, MCONV and the tile instructions (14 R267 to R285). -/

namespace Sys2Proof.Machine

/-! ## Formats, tiles and pv registers (14 R267, R268, R279; 08 R156) -/

/-- 08 R181, 01 R12: element width and k-step depth of a format code. -/
def matWidth (c : Nat) : Nat := match c with | 0 => 64 | 1 => 32 | 2 => 16 | 3 => 16 | 6 => 6 | 7 => 6 | 8 => 4 | 0xA => 4 | 0xC => 4 | _ => 8
def matK (c : Nat) : Nat := match c with | 0 => 1 | 1 => 4 | 2 => 16 | 3 => 16 | 8 => 64 | 0xA => 64 | 0xC => 64 | _ => 32
/-- The floating-point format of a code; dequantised codes are f32. -/
def matFmt (c : Nat) : Fmt := match c with | 0 => f64 | 1 => f32 | 2 => f16 | 3 => bf16 | 4 => e4m3 | 5 => e5m2 | 6 => e2m3 | 7 => e3m2 | 8 => e2m1 | _ => f32
/-- The asymmetric formats. -/
def matAsym (c : Nat) : Bool := c == 0xB || c == 0xC
/-- The integer formats. -/
def matInt (c : Nat) : Bool := c == 9 || c == 0xA
/-- 14 R268: the row alignment. -/
def rowAlign (c : Nat) : Nat := match c with | 0 => 8 | 1 => 16 | _ => 32
/-- Kind of a tile by the A format: 0 f32, 1 INT32, 2 f64 pair (14 R267; 15 R305). -/
def tileKind (fa : Nat) : Nat := if fa == 0 then 2 else if matInt fa then 1 else 0

/-- The key of element (i, j) of a tile. -/
def keyT (t i j : Nat) : Nat := t * 4096 + i * 64 + j
/-- Element (i, j) of a tile (14 R279: +0 with a clear tag at start). -/
def Group.tileAt (g : Group) (t i j : Nat) : RegCell := sgetD ⟨0, false, 0⟩ (keyT t i j) g.tile
/-- Write an element. -/
def Group.putTile (t i j : Nat) (c : RegCell) (g : Group) : Group := { g with tile := sput ⟨0, false, 0⟩ (keyT t i j) ⟨c.val, c.poison, 0⟩ g.tile }
/-- Element (i, j) of a tile or, `wide`, of a pair. -/
def Group.elemAt (g : Group) (wide : Bool) (t i j : Nat) : PVal :=
  let c := g.tileAt t i j
  if wide then
    let d := g.tileAt (t + 1) i j
    if c.poison || d.poison then ⟨poisonPair, true⟩ else ⟨d.val ++ c.val, false⟩
  else ⟨c.get.setWidth 64, c.poison⟩
/-- The element a poisoned result leaves: the value it reads as (06 R129), which MSTA stores (14 R284). -/
def tileCell (v : Word) (p : Bool) : RegCell := ⟨if p then poisonWord else v, p, 0⟩
/-- Write an element of a tile or a pair. -/
def Group.putElem (wide : Bool) (t i j : Nat) (v : PVal) (g : Group) : Group :=
  if wide then
    let x : DWord := if v.poison then poisonPair else v.val
    (g.putTile t i j ⟨x.setWidth 32, v.poison, 0⟩).putTile (t + 1) i j ⟨x.extractLsb' 32 32, v.poison, 0⟩
  else g.putTile t i j (tileCell (v.val.setWidth 32) v.poison)
/-- Entry i of a pv register (14 R279: the identity at start). -/
def Group.pvAt (g : Group) (m i : Nat) : RegCell := (sget (m * 64 + i) g.pv).getD ⟨BitVec.ofNat 32 i, false, 0⟩
/-- Write an entry. -/
def Group.putPv (m i : Nat) (c : RegCell) (g : Group) : Group :=
  { g with pv := if c == ⟨BitVec.ofNat 32 i, false, 0⟩ then serase (m * 64 + i) g.pv else sset (m * 64 + i) c g.pv }
/-- The row an entry reads as: 26 when poisoned (14 R284; 06 R129). -/
def pvRow (c : RegCell) : Nat := c.get.toNat % 64

/-- 14 R279: a tile, or with `wide` a pair, is the group's. -/
def Group.ownsTile (g : Group) (wide : Bool) (t : Nat) : Bool := if wide then t % 2 == 0 && decide (t + 1 < g.tiles) else decide (t < g.tiles)
/-- 14 R279: a pv register is the group's. -/
def Group.ownsPv (g : Group) (m : Nat) : Bool := decide (m < (g.tiles + 1) / 2)

/-! ## The sequencer queue (14 R280) -/

/-- Write it back. -/
def State.setQueue (q : Nat) (l : List SeqOp) (s : State) : State := { s with seqs := sput [] q l s.seqs }
/-- 14 R282, R284: the operations whose scratchpad accesses race with writes made after their issue. -/
def SeqKind.races : SeqKind → Bool
  | .loop .. | .mlda .. | .msta .. => true
  | _ => false

/-- An operation joins its quadrant's queue and, with a counter, is counted (14 R280, R287). With no acting lane it counts and completes with no access. Stalls while the queue or the counter is full. -/
def pushSeq (e : Env) (ctr : Option Nat) (kind : SeqKind) (occ st : Nat) : Act :=
  let q := e.g0.quad; let l := e.s0.queue q
  if match ctr with | some c => e.full c | none => false then .stall e.s0
  else if !e.lanes.isEmpty && !queueFree e.g0.ctx l then e.keepBack .seqFull e.s0
  else
    let id := e.s.nextId
    let g := match ctr with | some c => e.g.addTok c id e.lanes.isEmpty | none => e.g
    if e.lanes.isEmpty then .done g e.s.takeId
    else
      let op : SeqOp := ⟨id, e.gid, e.g0.ctx, kind, id, 0, 0, [], none, 0, e.sr.rngkey ^^^ groupId e.g0, 0, false, e.a.pc, e.a.idx, [], []⟩
      .moved (stepOn e.s.clk (max st occ) (e.a.slices.headD 0) g) (e.s.setQueue q (l ++ [op])).takeId

/-! ## Operand rows (14 R268, R270, R275 to R277) -/

/-- Where a loop reads its operands: descriptor fields (14 R271, R272). -/
structure LoopDesc where
  abase : Nat
  ainc : Int
  bbase : Nat
  binc : Int
  ksteps : Nat
  apitch : Nat
  bpitch : Nat
  dpb : DWord
  aside : Nat
  asinc : Int
  bside : Nat
  bsinc : Int
  gs : Nat
deriving Repr

/-- 14 R271, R272. -/
def loopDesc (d : List Word) : LoopDesc :=
  let w := wordAt d; let lo (x : Word) := x.toNat % 2 ^ 23
  ⟨lo (w 0), (w 1).toInt, lo (w 2), (w 3).toInt, (w 4).toNat, (w 5).toNat % 65536 * 16, (w 5).toNat / 65536 * 16, pairAt d 6,
   lo (w 8), (w 9).toInt, lo (w 10), (w 11).toInt, 32 * 2 ^ ((w 12).toNat % 4)⟩

/-- The shape record of MCONV (14 R276). -/
structure Shape where
  c : Nat
  nb : Nat
  w : Nat
  h : Nat
  dw : Nat
  dh : Nat
  sw : Nat
  sh : Nat
  kw : Nat
  kh : Nat
  pr : Nat
  pb : Nat
  pl : Nat
  pt : Nat
  pad : Nat
  pitch : Nat
  first : Nat
deriving Repr

/-- 14 R276. -/
def shapeOf (d : List Word) : Shape :=
  let f (k lo n : Nat) : Nat := (wordAt d k).toNat / 2 ^ lo % 2 ^ n
  ⟨f 8 16 16, f 8 0 16, f 9 16 16, f 9 0 16, f 10 28 4, f 10 24 4, f 10 20 4, f 10 16 4, f 10 8 8, f 10 0 8, f 11 24 8, f 11 16 8, f 11 8 8, f 11 0 8,
   f 12 0 32, f 13 0 16 * 16, f 4 0 32⟩

/-- 14 R276: one output extent; 0 or less when there is none. -/
def outSize (x p0 p1 d k s : Nat) : Int := if s = 0 then 0 else ((x : Int) + p0 + p1 - d * ((k : Int) - 1) - 1) / s + 1
/-- OH and OW. -/
def Shape.oh (h : Shape) : Int := outSize h.h h.pt h.pb h.dh h.kh h.sh
def Shape.ow (h : Shape) : Int := outSize h.w h.pl h.pr h.dw h.kw h.sw
/-- The k-steps of MCONV. -/
def Shape.steps (h : Shape) (ks : Nat) : Nat := h.kh * h.kw * h.c / ks

/-- Where one operand row comes from. -/
inductive RowSrc where
  | zero | pad | at_ (a : Int)
deriving DecidableEq, Repr

/-- 14 R277: the A row of MCONV. -/
def convRow (h : Shape) (abase ks width t i : Nat) : RowSrc :=
  let oh := h.oh.toNat; let ow := h.ow.toNat; let p := h.first + i; let q := h.c / ks
  if p ≥ h.nb * oh * ow then .zero
  else
    let nb := p / (oh * ow); let y := p / ow % oh; let x := p % ow
    let kh := t / (h.kw * q); let kw := t / q % h.kw; let c0 := t % q * ks
    let ih : Int := (y * h.sh : Int) - h.pt + kh * h.dh; let iw : Int := (x * h.sw : Int) - h.pl + kw * h.dw
    if ih < 0 || ih ≥ h.h || iw < 0 || iw ≥ h.w then .pad
    else .at_ (abase + ((nb * h.h + ih) * h.w + iw) * h.pitch + c0 * width / 8)

/-- 14 R268: the scratchpad bytes a row at an address takes. -/
def rowSpan (fc : Nat) (a : Int) : Int × Nat := if matWidth fc < 8 then (a / 64 * 64, 64) else (a, matK fc * matWidth fc / 8)

/-- 14 R268: the codes of a row, each with its poison. -/
def rowCodes (s : State) (part core fc a : Nat) : List PVal :=
  let wd := matWidth fc; let line := a / 64 * 64; let h := a / 32 % 2
  (List.range (matK fc)).map fun u =>
    if wd = 4 then
      let n := nibbleOf (64 * h + u)
      ⟨BitVec.ofNat 64 ((spadByte s part core (line + n / 2)).toNat / (if n % 2 = 0 then 1 else 16) % 16), markedSpad s part core (line + n / 2) 1⟩
    else if wd = 6 then
      let b := 6 * (32 * h + u)
      ⟨BitVec.ofNat 64 (readSpad s part core (line + b / 8) 2 / 2 ^ (b % 8) % 64), markedSpad s part core (line + b / 8) ((b + 5) / 8 - b / 8 + 1)⟩
    else ⟨BitVec.ofNat 64 (readSpad s part core (a + u * wd / 8) (wd / 8)), markedSpad s part core (a + u * wd / 8) (wd / 8)⟩

/-- 14 R275: the down-converter into an A format. -/
def downConv (fc : Nat) (w : Word) : FRes :=
  match fc with
  | 1 => ⟨w.setWidth 64, 0⟩
  | 2 => convTo f16 .rn false false (f32.dec (w.setWidth 64))
  | 3 => convTo bf16 .rn false false (f32.dec (w.setWidth 64))
  | 4 => convTo e4m3 .rn true false (f32.dec (w.setWidth 64))
  | _ => convTo e5m2 .rn true false (f32.dec (w.setWidth 64))

/-- 14 R270: the value of an element: a code of a format with its scale byte or group record. -/
def elemValue (e : Eph) (fc : Nat) (code : DWord) (scale : Option Nat) (rec_ : Word) : FVal :=
  if matAsym fc then
    let zp := rec_.toNat / 65536 % (if fc == 0xC then 16 else 256)
    narrowTerm e f32 (dequant code.toNat zp rec_).bits 0
  else
    match scale with
    | some 0xFF => .nan false
    | some b => narrowTerm e (matFmt fc) code ((b : Int) - 127)
    | none => narrowTerm e (matFmt fc) code 0

/-- The side data of a row: scale bytes by block, or the group record; each with its poison (14 R270). -/
def sideOf (s : State) (part core fc : Nat) (base : Nat) (inc : Int) (gs t i : Nat) : List PVal :=
  let ks := matK fc
  if matAsym fc then
    let a := ((base : Int) + (t * ks / gs : Nat) * inc + 4 * i).toNat
    [⟨BitVec.ofNat 64 (readSpad s part core a 4), markedSpad s part core a 4⟩]
  else
    let a := ((base : Int) + t * inc + i * (ks / 32)).toNat
    (List.range (ks / 32)).map fun b => ⟨(spadByte s part core (a + b)).setWidth 64, markedSpad s part core (a + b) 1⟩

/-- An operand row: raw codes, exact values, and whether each element is poisoned; and the flags of the down-converter (14 R275). -/
structure Row where
  codes : List PVal
  vals : List (FVal × Bool)
  flags : FpFlags
deriving Repr

/-- Put a row together from its codes and side data. -/
def mkRow (e : Eph) (fc : Nat) (codes side : List PVal) (fl : FpFlags) : Row :=
  let sideAt (u : Nat) : Option PVal := if matAsym fc then side.head? else side[u / 32]?
  { codes := codes
    vals := codes.zipIdx.map fun (c, u) =>
      let d := sideAt u
      (elemValue e fc c.val (if matAsym fc then none else d.map (·.val.toNat)) (match d with | some x => x.val.setWidth 32 | none => 0), c.poison || (match d with | some x => x.poison | none => false))
    flags := fl }

/-- 14 R282: values that an operation reads from the scratchpad: each as it stands now, or, where writes have been made since the operation issued, as it stood before one of them, by a free choice. -/
def raced (s : State) (old : List SpadView) (key : Nat) (f : State → List PVal) : List PVal :=
  match old with
  | [] => f s
  | _ =>
    let vs := old.map fun v => f { s with spad := v.bytes, spadPoison := v.marks }
    (f s).zipIdx.map fun (c, u) => ((c :: vs.map fun l => (l[u]?).getD c)[s.pick (key + u) (vs.length + 1)]?).getD c

/-- The free choices of an operation's reads: of row i of k-step t, for A (`part` 0), B (1) and their side data (2, 3). -/
def raceKey (id part t i : Nat) : Nat := 2 ^ 40 + (((id * 2 ^ 21 + t) * 4 + part) * 64 + i) * 64

/-- A row of A for k-step t (14 R268, R275, R277). DESIGN CHOICE (log 75): under an f64 A format PAD, which has 32 bits, is extended with zeros; the padding carries no poison where POISON traps are off and the PAD register is poisoned. -/
def rowA (s : State) (old : List SpadView) (id : Nat) (g : Group) (e : Eph) (conv : Bool) (fa : Nat) (ta : Option Nat) (sa : Bool) (d : List Word) (t i : Nat) : Row :=
  let l := loopDesc d; let ks := matK fa; let part := g.part; let core := g.core
  match ta with
  | some a =>
    let cs := (List.range ks).map fun u => let c := g.tileAt a i (t * ks + u); let r := downConv fa c.get; ((⟨r.bits, c.poison⟩ : PVal), if c.poison then (0 : FpFlags) else r.flags)
    mkRow e fa (cs.map (·.1)) [] (cs.foldl (fun f c => f ||| c.2) 0)
  | none =>
    let src := if conv then convRow (shapeOf d) l.abase ks (matWidth fa) t i else .at_ ((l.abase : Int) + t * l.ainc + i * l.apitch)
    let codes := match src with
      | .zero => List.replicate ks ⟨0, false⟩
      | .pad => List.replicate ks ⟨BitVec.ofNat 64 ((shapeOf d).pad % 2 ^ matWidth fa), false⟩
      | .at_ a => raced s old (raceKey id 0 t i) fun s => rowCodes s part core fa a.toNat
    mkRow e fa codes (if sa then raced s old (raceKey id 2 t i) fun s => sideOf s part core fa l.aside l.asinc l.gs t i else []) 0

/-- A row of B for k-step t. -/
def rowB (s : State) (old : List SpadView) (id : Nat) (g : Group) (e : Eph) (fb : Nat) (sb : Bool) (d : List Word) (t j : Nat) : Row :=
  let l := loopDesc d
  mkRow e fb (raced s old (raceKey id 1 t j) fun s => rowCodes s g.part g.core fb ((l.bbase : Int) + t * l.binc + j * l.bpitch).toNat)
    (if sb then raced s old (raceKey id 3 t j) fun s => sideOf s g.part g.core fb l.bside l.bsinc l.gs t j else []) 0

/-- 14 R267, R269, R274: one k-step of one output element: the ks products in ascending k. -/
def elemStep (e : Eph) (fa p t : Nat) (a b : Row) (x : ElemAcc) : ElemAcc :=
  let ks := matK fa
  let pois := (a.vals.any (·.2)) || b.vals.any (·.2)
  if fa == 0 then
    let va := (a.codes.headD ⟨0, false⟩).val; let vb := (b.codes.headD ⟨0, false⟩).val
    let r := chain64 x.acc0 va vb; let ps := x.poison || pois
    { x with acc0 := r.bits, poison := ps, flags := if ps then x.flags else x.flags ||| r.flags }
  else if matInt fa then
    let sx (v : DWord) : Int := (BitVec.ofNat (matWidth fa) v.toNat).toInt
    let v := (a.codes.zip b.codes).foldl (fun acc (u, w) => satS32 (acc + sx u.val * sx w.val)) (x.acc0.setWidth 32 : Word).toInt
    { x with acc0 := (BitVec.ofInt 32 v).setWidth 64, poison := x.poison || pois }
  else
    (a.vals.zip b.vals).zipIdx.foldl (fun x (pr, u) => x.term e (e.group (p * ks)) (t * ks + u) (termMul pr.1.1 pr.2.1) (pr.1.2 || pr.2.2)) x

/-- The value an element takes when the loop ends, and the flags it sets: none of a chain that is finished at once when it is poisoned (06 R129); an FP64 chain keeps those of the steps made before its poison came (log 63). -/
def elemEnd (e : Eph) (fa : Nat) (x : ElemAcc) : PVal × FpFlags :=
  if fa == 0 then (⟨if x.poison then poisonPair else x.acc0, x.poison⟩, x.flags)
  else if matInt fa then (⟨x.acc0, x.poison⟩, 0)
  else if x.poison then (⟨poisonWord.setWidth 64, true⟩, 0)
  else let r := x.finish e; (⟨r.bits, false⟩, r.flags)

/-! ## Issue of a loop (14 R274, R278) -/

/-- 14 R276: the shape record is legal. -/
def Shape.ok (h : Shape) (d : List Word) (ks : Nat) : Bool :=
  h.c % ks == 0 && ([h.dw, h.dh, h.sw, h.sh, h.kw, h.kh].all (· ≥ 1)) && decide (1 ≤ h.oh) && decide (1 ≤ h.ow) &&
  decide (h.steps ks ≤ 1048576) && wordAt d 1 == 0 && (wordAt d 5).toNat % 65536 == 0 &&
  (wordAt d 13).toNat / 65536 == 0 && wordAt d 14 == 0 && wordAt d 15 == 0

/-- 14 R278 check 2, the part that reads descriptor registers. -/
def loopFields (conv : Bool) (w : WX) (d : List Word) : Bool :=
  let fa := w.fa.toNat; let fb := w.fb.toNat; let ks := matK fa; let ext := w.mod.getLsbD 0 || w.mod.getLsbD 1
  (wordAt d 0).toNat / 2 ^ 23 == 0 && (wordAt d 2).toNat / 2 ^ 23 == 0 &&
  (if conv then (shapeOf d).ok d ks
   else
    let t := (wordAt d 4).toNat
    1 ≤ t && decide (t ≤ 1048576) &&
    (!ext || ((wordAt d 8).toNat / 2 ^ 23 == 0 && (wordAt d 10).toNat / 2 ^ 23 == 0 && (wordAt d 12).toNat < 3 && wordAt d 13 == 0 && wordAt d 14 == 0 && wordAt d 15 == 0 &&
      (!(matAsym fa || matAsym fb) || decide ((loopDesc d).gs ≥ ks)))) &&
    (!w.fromAcc || (decide (t * ks ≤ 64) && wordAt d 0 == 0 && wordAt d 1 == 0 && (wordAt d 5).toNat % 65536 == 0)))

/-- The k-steps of a loop. -/
def loopSteps (conv : Bool) (fa : Nat) (d : List Word) : Nat := if conv then (shapeOf d).steps (matK fa) else (wordAt d 4).toNat

/-- 14 R278 check 4: the byte ranges a loop reads for row i of k-step t. -/
def loopSpans (conv : Bool) (fa fb : Nat) (ta : Option Nat) (sa sb : Bool) (d : List Word) (t i : Nat) : List (Int × Nat) :=
  let l := loopDesc d
  let side (fc base : Nat) (inc : Int) : Int × Nat :=
    if matAsym fc then ((base : Int) + (t * matK fc / l.gs : Nat) * inc + 4 * i, 4) else ((base : Int) + t * inc + i * (matK fc / 32), matK fc / 32)
  (if ta.isSome then [] else if conv then (match convRow (shapeOf d) l.abase (matK fa) (matWidth fa) t i with | .at_ a => [rowSpan fa a] | _ => [])
   else [rowSpan fa ((l.abase : Int) + t * l.ainc + i * l.apitch)]) ++
  [rowSpan fb ((l.bbase : Int) + t * l.binc + i * l.bpitch)] ++
  (if sa then [side fa l.aside l.asinc] else []) ++ (if sb then [side fb l.bside l.bsinc] else [])

/-- The k-steps and rows whose bytes decide check 4: the extreme ones, and for the A rows of MCONV every one; none of a loop with no k-step. -/
def loopExtremes (conv : Bool) (fa fb : Nat) (ta : Option Nat) (sa sb : Bool) (d : List Word) : List (Int × Nat) :=
  let n := loopSteps conv fa d
  let sp (t i : Nat) := loopSpans conv fa fb ta sa sb d t i
  if n = 0 then [] else sp 0 0 ++ sp 0 63 ++ sp (n - 1) 0 ++ sp (n - 1) 63 ++ (if conv then (List.range n).flatMap fun t => (List.range 64).flatMap fun i => (sp t i).take 1 else [])

/-- 07 R148: the lowest scratchpad line with a mismatched stamp among those a loop reads, and how many lines it reads. -/
def loopStamps (e : Env) (conv : Bool) (fa fb : Nat) (ta : Option Nat) (sa sb : Bool) (d : List Word) : Option Nat × Nat :=
  let lines := ((List.range (loopSteps conv fa d)).flatMap fun t => (List.range 64).flatMap fun i =>
    (loopSpans conv fa fb ta sa sb d t i).flatMap fun x => linesOf x.1.toNat x.2).eraseDups
  let bad := lines.filter fun l => stampBad e.sr.ctr (stampSpad e.s0 e.part e.g0.core (64 * l))
  (bad.foldl (fun m l => match m with | none => some (64 * l) | some x => some (min x (64 * l))) none, lines.length)

/-- 15 R304: the kind of drain a tile kind gives. -/
def drainKind (k : Nat) : UKind := match k with | 2 => .f64 | 1 => .s32 | _ => .f32

/-- MLOOP and MCONV. -/
def loopInstr (i : Instr) (conv : Bool) (w : WX) (s : State) : Answer :=
  let fa := w.fa.toNat; let fb := w.fb.toNat; let sa := w.mod.getLsbD 0; let sb := w.mod.getLsbD 1; let nodrain := w.mod.getLsbD 2
  let n := if conv || sa || sb then 16 else 8
  let ta := if w.fromAcc then some w.ta.toNat else none
  runInstr i w.g ⟨[(w.base, n, false)], [], [], [], true⟩
    (fun e =>
      let (d, bad) := e.sregs w.base n
      let e := e.readAll bad
      let wide := fa == 0; let l := loopDesc d; let slot := w.slot.toNat
      let prog := if nodrain then [] else slotWords e.s0 e.g0.core slot
      let us := uopsOf 16 prog
      let badUop := if nodrain || e.lanes.isEmpty then none else firstBadUop (drainKind (tileKind fa)) (e.g0.ownsTile wide w.x.toNat) us
      let ra := rowAlign fa; let rb := rowAlign fb
      let mis (x : Int) (r : Nat) : Bool := x % r != 0
      let misal := mis l.bbase rb || mis l.binc rb || mis l.bpitch rb || (!nodrain && l.dpb.toNat % 64 != 0) ||
        (!w.fromAcc && (mis l.abase ra || mis (if conv then (shapeOf d).pitch else l.apitch) ra || mis l.ainc ra)) ||
        (sa && matAsym fa && (mis l.aside 4 || mis l.asinc 4)) || (sb && matAsym fb && (mis l.bside 4 || mis l.bsinc 4))
      if bad && e.sr.trapPoison then .trap cPOISON e.mask 0
      else if !i.ownOk || !loopFields conv w d || !e.g0.ownsTile wide w.t.toNat || (w.fromAcc && !e.g0.ownsTile false w.ta.toNat) || (!nodrain && !(e.s0.part e.part).hasSlot slot) then .halt cOPERAND 0 0 0
      else match badUop with
      | some k => .halt cOPERAND 0 (BitVec.ofNat 64 k) 0
      | none =>
        if !nodrain && !e.g0.ownsTile false w.x.toNat then .halt cOPERAND 0 0 0
        else if misal then .halt cALIGN 0 0 0
        else
          match (loopExtremes conv fa fb ta sa sb d).find? fun x => x.1 < 0 || x.1 + x.2 > ((e.s0.part e.part).spadSize e.g0.core : Int) with
          | some x => .halt cSPAD 0 (BitVec.ofInt 64 x.1) 0
          | none =>
            let (low, cnt) := if e.lanes.isEmpty then (none, 0) else loopStamps e conv fa fb ta sa sb d
            match low, e.sr.trapCmix with
            | some a, true => .trap cCMIX e.mask (BitVec.ofNat 64 a)
            | _, _ => pushSeq e (some 2) (.loop conv w.t.toNat w.x.toNat slot (w.p.toNat + 1) fa fb ta sa sb nodrain d prog) ((cnt + 63) / 64) w.g.stall.toNat) s

/-- MLOOP. -/
def execMloop (w : WX) (s : State) : Answer := loopInstr (.mloop w) false w s
/-- MCONV. -/
def execMconv (w : WX) (s : State) : Answer := loopInstr (.mconv w) true w s

/-! ## Tile instructions (14 R283, R284) -/

/-- 14 R283: the row a selector names: a number, or an s register; `none` with a poisoned register that traps, or a value of 64 or more. -/
def rowSel (e : Env) (slot : BitVec 8) : Act ⊕ Nat :=
  if slot.getLsbD 7 then
    let c := e.rc (.s (slot.extractLsb' 0 7)) 0 0
    if c.poison && e.sr.trapPoison then .inl (.trap cPOISON e.mask 0)
    else if c.get.toNat ≥ 64 then .inl (.halt cOPERAND 0 0 0) else .inr c.get.toNat
  else .inr (slot.extractLsb' 0 6).toNat
/-- The environment once a row selector has been read. -/
def Env.sel (e : Env) (slot : BitVec 8) : Env := e.readAll (slot.getLsbD 7 && (e.rc (.s (slot.extractLsb' 0 7)) 0 0).poison)
/-- The register a row selector reads. -/
def selUses (slot : BitVec 8) : List (Opd × Nat × Bool) := if slot.getLsbD 7 then [(.s (slot.extractLsb' 0 7), 1, false)] else []

/-- An instruction that acts once: nothing with no acting lane, else one operation of no counter. -/
def onceSeq (e : Env) (kind : SeqKind) (st : Nat) : Act := if e.lanes.isEmpty then .done e.g e.s else pushSeq e none kind 0 st

/-- MZERO. -/
def execMzero (w : WX) (s : State) : Answer :=
  let wide := w.mod.getLsbD 0
  runInstr (.mzero w) w.g Uses.none (fun e =>
    if !(Instr.mzero w).ownOk || !e.g0.ownsTile wide w.t.toNat then .halt cOPERAND 0 0 0 else onceSeq e (.mzero w.t.toNat wide) w.g.stall.toNat) s

/-- MLDA and MSTA: the checks and the operation. -/
def tileMem (i : Instr) (mk : Nat → Nat → SeqKind) (w : WX) (s : State) : Answer :=
  runInstr i w.g ⟨[(w.base, 2, false)], [], [], [], true⟩ (fun e =>
    let (d, bad) := e.sregs w.base 2
    let e := e.readAll bad
    let off := (wordAt d 0).toNat; let p := (wordAt d 1).toNat
    if bad && e.sr.trapPoison then .trap cPOISON e.mask 0
    else if !e.g0.ownsTile false w.t.toNat || off ≥ 2 ^ 23 || p ≥ 65536 || p < 16 || p % 4 != 0 then .halt cOPERAND 0 0 0
    else if off % 64 != 0 then .halt cALIGN 0 (BitVec.ofNat 64 off) 0
    else if off + 63 * p * 16 + 256 > (e.s0.part e.part).spadSize e.g0.core then .halt cSPAD 0 (BitVec.ofNat 64 off) 0
    else pushSeq e (some 2) (mk off (p * 16)) 0 w.g.stall.toNat) s
/-- MLDA. -/
def execMlda (w : WX) (s : State) : Answer := tileMem (.mlda w) (fun off p => .mlda w.t.toNat off p) w s
/-- MSTA. -/
def execMsta (w : WX) (s : State) : Answer := tileMem (.msta w) (fun off p => .msta w.t.toNat off p) w s

/-- ACCRD: a variable-latency producer performed in the sequencer's order; its value is known once it has been performed. -/
def execAccrd (w : WX) (s : State) : Answer :=
  let wide := w.mod.getLsbD 0; let h := if w.mod.getLsbD 1 then 1 else 0; let ctr := if w.mod.getLsbD 8 then 1 else 0
  runInstr (.accrd w) w.g ⟨selUses w.slot, [], [(w.base, 2)], [], false⟩ (fun e =>
    match rowSel e w.slot with
    | .inl a => a
    | .inr row =>
      if !(Instr.accrd w).ownOk || !e.g0.ownsTile wide w.t.toNat then .halt cOPERAND 0 0 0
      else
        let e := e.sel w.slot
        let keys := e.lanes.flatMap fun L => opdKeys w.base 2 L
        let e1 := { e with g := if e.lanes.isEmpty then e.g else { e.g with vp := e.g.vp ++ [⟨e.s.nextId, false, [], keys, overlaps e e.g keys⟩] } }
        pushSeq e1 (some ctr) (.accrd w.t.toNat row wide h (e.lanes.map fun L => (L, (opdKey? w.base L 0).getD 0, (opdKey? w.base L 1).getD 0)) e.s.nextId) 0 w.g.stall.toNat) s

/-- The registers of a lane that ACCWR writes; under .64 they are one operand, poisoned whole when either register is (06 R129). -/
def accCells (e : Env) (wide : Bool) (o : Opd) (L : Nat) : Nat × RegCell × RegCell :=
  let c := e.rc o L 0; let d := e.rc o L 1
  if wide && (c.poison || d.poison) then (L, poisoned, poisoned) else (L, c, d)

/-- ACCWR: its registers are read at issue. -/
def execAccwr (w : WX) (s : State) : Answer :=
  let wide := w.mod.getLsbD 0; let h := if w.mod.getLsbD 1 then 1 else 0
  runInstr (.accwr w) w.g ⟨selUses w.slot ++ [(w.base, 2, false)], [], [], [], true⟩ (fun e =>
    match rowSel e w.slot with
    | .inl a => a
    | .inr row =>
      if !(Instr.accwr w).ownOk || !e.g0.ownsTile wide w.t.toNat then .halt cOPERAND 0 0 0
      else
        let e := e.sel w.slot
        let g := e.g.notePoison e.s 2 (poisonLanes e [(w.base, 2)])
        onceSeq { e with g := g } (.accwr w.t.toNat row wide h (e.lanes.map (accCells e wide w.base))) w.g.stall.toNat) s

/-- PVAPPLY. -/
def execPvapply (w : WX) (s : State) : Answer :=
  let wide := w.mod.getLsbD 0; let m := w.p.toNat % 4
  runInstr (.pvapply w) w.g Uses.none (fun e =>
    if !(Instr.pvapply w).ownOk || !e.g0.ownsTile wide w.t.toNat || !e.g0.ownsPv m then .halt cOPERAND 0 0 0 else onceSeq e (.pvapply w.t.toNat m wide (w.mod.getLsbD 1)) w.g.stall.toNat) s

/-- PVMOV. -/
def execPvmov (w : WX) (s : State) : Answer :=
  let form := (w.mod.extractLsb' 1 2).toNat; let d := w.p.toNat / 4; let src := w.p.toNat % 4
  runInstr (.pvmov w) w.g ⟨if form ≥ 2 then selUses w.slot else [], [], [], [], true⟩ (fun e =>
    match (if form ≥ 2 then rowSel e w.slot else .inr 0) with
    | .inl a => a
    | .inr row =>
      if (form != 2 && !e.g0.ownsPv d) || ((form == 0 || form == 2) && !e.g0.ownsPv src) || (form ≥ 2 && !e.g0.ownsTile false w.t.toNat) then .halt cOPERAND 0 0 0
      else onceSeq (if form ≥ 2 then e.sel w.slot else e) (.pvmov form w.t.toNat row d src) w.g.stall.toNat) s

end Sys2Proof.Machine
end

