-- ==== Sys2Proof/Machine/Drain.lean ====
section
/-! DEFINITION. Drains: DRAIN, EPLOAD, the parameter block, one row with its stores, and the faults of an engine (15 R289 to R310; 25 R422). -/

namespace Sys2Proof.Machine

/-! ## Faults of an engine (25 R418, R422) -/

/-- The record of an engine that holds an operation of a group: `kind` 2 sequencer, 3 drain unit. -/
def engineRec (s : State) (op : SeqOp) (kind engine cause detail : Nat) (addr : DWord) : StopRec :=
  let r := StopRec.blank s.tsc
  match s.group? op.gid with
  | none => { r with kind := kind, cause := cause }
  | some g =>
    let (dev, lref) := launchRef s g.lid
    { r with src := srcNum g.core (engine + g.quad % 4), kind := kind, cause := cause, detail := detail, first := true, grp := g.grp, quad := g.quad % 4,
             wg := g.wIndex, addr := addr, dev := dev, lref := lref }

/-- An engine raises the halt line. -/
def engineHalt (op : SeqOp) (f : StopRec → StopRec) (kind engine cause detail : Nat) (addr : DWord) (s : State) : State :=
  let core := match s.group? op.gid with | some g => g.core | none => 0
  dropWaits false op.id (forgetAll core op.ctx (raiseHalt op.ctx (f (engineRec s op kind engine cause detail addr)) s))

/-! ## The parameter block (15 R293, R294; 14 R285) -/

/-- What reading a block comes to. -/
inductive DpbRead where
  | ok (d : DrainData) (s : State)
  | wait (s : State)
  | fault (cause detail : Nat) (addr : DWord) (s : State)
deriving Repr

/-- 15 R294: a vector of 64 entries of one or two words. -/
def readVec (rem : Rem) (part core c : Nat) (spad wide : Bool) (va : DWord) (s : State) : Block :=
  let n := if wide then 128 else 64; let size := if wide then 8 else 4
  if va.toNat % size != 0 then .fault cALIGN 0 va
  else if spad then
    if va.toNat + 4 * n > (s.part part).spadSize core then .fault cSPAD 0 va
    else .ok ((List.range n).map fun k => spadPWord s part core (va.toNat + 4 * k))
  else readBlock rem core c false va n s

/-- The entries of a vector. -/
def vecPairs (wide : Bool) (ws : List PWord) : List (PWord × PWord) :=
  (List.range 64).map fun j => if wide then ((ws[2 * j]?).getD ⟨0, false⟩, (ws[2 * j + 1]?).getD ⟨0, false⟩) else ((ws[j]?).getD ⟨0, false⟩, ⟨0, false⟩)

/-- 15 R293, R294, 14 R285: the block and its enabled vectors, read once. -/
def readDpb (op : SeqOp) (g : Group) (wide : Bool) (dpb : DWord) (s : State) : DpbRead :=
  let rem (base : Nat) : Rem := fun k => remoteEng false op.ctx op.id (base + k)
  let passed := passBlock g.core g.ctx false dpb 16 s
  match readBlock (rem 0) g.core g.ctx false dpb 16 s with
  | .wait s => .wait s
  | .fault a b d => .fault a b d passed
  | .ok ws =>
    match firstPoison (ws.drop 4) with
    | some k => .fault cPOISON 0 (dpb + BitVec.ofNat 64 (16 + 4 * k)) passed
    | none =>
      let v := ws.map (·.val); let fl := (wordAt v 15).extractLsb' 24 8
      let vec (en : Bool) (base k : Nat) : Block := if en then readVec (rem base) g.part g.core g.ctx (fl.getLsbD 3) wide (pairAt v k) s else .ok []
      let passed := [(4, fl.getLsbD 4), (6, fl.getLsbD 5)].foldl (fun s p => if p.2 && !fl.getLsbD 3 then passBlock g.core g.ctx false (pairAt v p.1) (if wide then 128 else 64) s else s) passed
      match vec (fl.getLsbD 4) 100 4, vec (fl.getLsbD 5) 300 6 with
      | .wait s, _ => .wait s
      | .fault a b d, _ => .fault a b d passed
      | .ok _, .wait s => .wait s
      | .ok _, .fault a b d => .fault a b d passed
      | .ok cv, .ok rv =>
        .ok ⟨ws.take 4, vecPairs wide cv, vecPairs wide rv, pairAt v 8, pairAt v 10, pairAt v 12, (wordAt v 14).toNat % 65536, (wordAt v 14).toNat / 65536,
          (wordAt v 15).toNat % 65536, (wordAt v 15).toNat / 65536 % 256, fl⟩ passed

/-! ## One row (15 R289, R302, R303, R308) -/

/-- One store a row makes: the micro-op, its place among the row's stores (100 for each micro-op before it, and its column, or 64 on for a store that packs several), whether its address is misaligned, where it goes. -/
structure DStore where
  uop : Nat
  k : Nat
  mis : Bool
  spad : Bool
  addr : DWord
  size : Nat
  val : Nat
  poison : Bool
deriving DecidableEq, Repr

/-- A vector entry as a value. -/
def vecVal (wide : Bool) (p : PWord × PWord) : PVal :=
  if wide then (if p.1.poison || p.2.poison then ⟨poisonPair, true⟩ else ⟨p.2.val ++ p.1.val, false⟩) else ⟨(pwGet p.1).setWidth 64, p.1.poison⟩

/-- 15 R302: the width R must be a multiple of. -/
def stAlign (kind : Nat) : Nat := match kind with | 0 => 4 | 1 => 8 | 2 => 2 | 3 => 1 | 4 => 32 | 5 => 64 | _ => 1

/-- 15 R302: the stores of one ST of a row: its values by column. -/
def stStores (idx sub : Nat) (base : DWord) (pitch : Nat) (spad : Bool) (i k0 : Nat) (vs : List PVal) : List DStore :=
  let kind := sub % 8; let r : DWord := base + BitVec.ofNat 64 (i * pitch * 16)
  let mk (k : Nat) (a : DWord) (n v : Nat) (p : Bool) : DStore := ⟨idx, k0 + k, false, spad, a, n, v % 2 ^ (8 * n), p⟩
  let pack (k : Nat) : Nat := 64 + k
  let at_ (j : Nat) : PVal := (vs[j]?).getD pv0
  if r.toNat % stAlign kind != 0 then [⟨idx, k0, true, spad, r, 1, 0, false⟩]
  else if kind == 4 then
    let line : DWord := r &&& ~~~(63#64); let h := r.toNat / 32 % 2
    (List.range 32).map fun b =>
      -- byte b of the half: the elements whose nibbles lie there
      let byte := 8 * (b / 4 * 2 + h) / 2 + b % 4
      let e0 := (List.range 64).find? fun j => nibbleOf (64 * h + j) == 2 * byte; let e1 := (List.range 64).find? fun j => nibbleOf (64 * h + j) == 2 * byte + 1
      let v0 := at_ (e0.getD 64); let v1 := at_ (e1.getD 64)
      mk (pack b) (line + BitVec.ofNat 64 byte) 1 (v0.val.toNat % 16 + 16 * (v1.val.toNat % 16)) (v0.poison || v1.poison)
  else if kind == 5 then
    let n := (vs.zipIdx).foldl (fun n (v, j) => n + v.val.toNat % 64 * 2 ^ (6 * j)) 0
    (List.range 16).map fun k => mk (pack k) (r + BitVec.ofNat 64 (4 * k)) 4 (n / 2 ^ (32 * k)) ((vs.zipIdx).any fun (v, j) => v.poison && (6 * j / 32 == k || (6 * j + 5) / 32 == k))
  else if kind == 6 then [0, 1].map fun b => mk (pack b) (r + BitVec.ofNat 64 b) 1 ((at_ (32 * b)).val.toNat / 256) (at_ (32 * b)).poison
  else (vs.zipIdx).map fun (v, j) => mk j (r + BitVec.ofNat 64 (stAlign kind * j)) (stAlign kind) v.val.toNat v.poison

/-- 15 R303: the store of an STM of a row. -/
def stmStore (idx : Nat) (base : DWord) (pitch : Nat) (spad : Bool) (i k0 : Nat) (vs : List PVal) : DStore :=
  let a : DWord := base + BitVec.ofNat 64 (i * pitch * 16)
  ⟨idx, k0, a.toNat % 8 != 0, spad, a, 8, (vs.zipIdx).foldl (fun n (v, j) => n + (if v.val != 0 then 2 ^ j else 0)) 0, vs.any (·.poison)⟩

/-- The program of a drain on row i: the elements after it. -/
def drainElems (op : SeqOp) (g : Group) (kind : UKind) (t : Nat) (prog : List Word) (d : DrainData) (i : Nat) : List UEl :=
  let wide := kind == .f64
  let row := (List.range 64).map fun j =>
    ((⟨i, j, pv0, if d.flags.getLsbD 4 then vecVal wide ((d.cv[j]?).getD default) else pv0, if d.flags.getLsbD 5 then vecVal wide ((d.rv[i]?).getD default) else pv0,
       d.k.map fun k => ⟨(pwGet k).setWidth 64, k.poison⟩⟩ : UIn), UEl.start (g.elemAt wide t i j))
  (runUops kind (eph (g.sr.ctr.toNat % 256)) op.key d.tid (Config.freeNat op.id (90000 + i)) (uopsOf 16 prog) row).map (·.2)

/-- 15 R308: the stores of a row as they reach memory: in a free order of the columns, with those of one column in micro-op order. -/
def weave {α : Type} (col : α → Nat) : List α → List α → List α
  | [], _ => []
  | x :: t, rest =>
    match rest.find? fun y => col y == col x with
    | some y => y :: weave col t (rest.eraseP fun z => col z == col x)
    | none => weave col t rest

/-- The stores of a row in micro-op order; within one ST the columns in a free order. -/
def drainStores (op : SeqOp) (d : DrainData) (i : Nat) (els : List UEl) (s : State) : List DStore :=
  let first := match els with | x :: _ => x.outs | [] => []
  (first.zipIdx).flatMap fun (o, n) =>
    let vs := els.map fun x => ((x.outs[n]?).getD ⟨0, 0, 0, pv0⟩).val
    if o.op == 0x15 then
      let l := stStores o.idx o.sub (if o.sub < 8 then d.s0 else d.s1) (if o.sub < 8 then d.s0p else d.s1p) (d.flags.getLsbD (if o.sub < 8 then 0 else 1)) i (100 * n) vs
      (shuffle s (84000 + op.id % 100 * 64 + n) (List.range l.length)).filterMap fun k => l[k]?
    else if o.op == 0x16 then [stmStore o.idx d.mb d.mp (d.flags.getLsbD 2) i (100 * n + 64) vs]
    else []

/-- 15 R303: the STACC writes of a row, with the flags of the down-converter. -/
def drainAcc (wide : Bool) (x i : Nat) (els : List UEl) (g : Group) : Group × FpFlags :=
  (els.zipIdx).foldl (fun (g, fl) (el, j) => el.outs.foldl (fun (g, fl) o =>
    if o.op != 0x17 then (g, fl)
    else if wide then (g.putElem true x i j o.val, fl)
    else if o.sub == 0 then (g.putElem false x i j ⟨o.val.val, o.val.poison⟩, fl)
    else
      let f := match o.sub with | 3 => f16 | 4 => bf16 | 5 => e4m3 | _ => e5m2
      let r := downConv (o.sub - 1) (o.val.val.setWidth 32)
      (g.putElem false x i j ⟨(convTo f32 .rn false false (f.dec r.bits)).bits, o.val.poison⟩, if o.val.poison then fl else fl ||| r.flags)) (g, fl)) (g, 0)

/-- Where a store goes: its place, a fault of it, or a walk it needs. -/
inductive DPlace where
  | spad | mem (w : Where) | fault (cause : Nat) | miss
deriving DecidableEq, Repr

/-- The place of a store (15 R302, R309). -/
def dPlace (s : State) (g : Group) (x : DStore) : DPlace :=
  if x.mis then .fault cALIGN
  else if x.spad then (if x.addr.toNat + x.size > (s.part g.part).spadSize g.core then .fault cSPAD else .spad)
  else match lookVa s g.core g.ctx x.addr .write false false with
    | .at_ w => .mem w
    | .trans _ => .fault cTRANS
    | .perm => .fault cPERM
    | .miss => .miss

/-- The local store that a place asks for. -/
def DStore.local (x : DStore) (p : DPlace) : Option SeqStore :=
  match p with
  | .spad => some ⟨true, x.addr.toNat, x.size, x.val, x.poison, 0⟩
  | .mem w => if w.node == 0 then some ⟨false, w.pas.headD 0, x.size, x.val, x.poison, atCache w.attr⟩ else none
  | _ => none

/-- What a row comes to. -/
inductive RowRes where
  | done (g : Group) (pend : List SeqStore) (s : State)
  | wait (s : State)
  | fault (uop cause : Nat) (addr : DWord) (s : State)
deriving Repr

/-- 15 R289, R308, R309: one row: its program, its stores, and only then its STACC. Its stores are performed now or later, by a free choice; where one faults, every store before it is performed. -/
def drainRow (op : SeqOp) (g : Group) (kind : UKind) (t x : Nat) (prog : List Word) (d : DrainData) (s : State) : RowRes :=
  let i := op.row; let els := drainElems op g kind t prog d i; let stores := (drainStores op d i els s).map fun x => (x, dPlace s g x)
  let missed := stores.filter fun p => p.2 == .miss
  if !missed.isEmpty then .wait (missed.foldl (fun s p => askWalk g.core g.ctx p.1.addr.toNat s) s)
  else
    let (s1, rs) := stores.foldl (fun (s, rs) p =>
      match p.2 with
      | .mem w => if w.node == 0 then (s, rs ++ [some (RemoteResp.done [])]) else
          let (r, s) := remoteEng false op.ctx op.id (10000 + p.1.k) (fun id => ⟨id, g.part, w.node - 1, w.pas.headD 0, 1, p.1.size, 0,
            (List.range ((p.1.size + 3) / 4)).map fun k => ⟨BitVec.ofNat 32 (p.1.val / 2 ^ (32 * k)), p.1.poison⟩, []⟩) s
          (s, rs ++ [r])
      | _ => (s, rs ++ [some (RemoteResp.done [])])) (s, ([] : List (Option RemoteResp)))
    if rs.any (·.isNone) then .wait s1
    else
      let bad (p : (DStore × DPlace) × Option RemoteResp) : Option Nat :=
        match p.1.2, p.2 with
        | .fault c, _ => some c
        | _, some .undeliverable => some cTRANS
        | _, some .refused => some cPERM
        | _, _ => none
      let all := stores.zip rs
      let good := all.takeWhile fun p => (bad p).isNone
      let key := 85000 + op.id % 100 * 64
      let made := if good.length == all.length then
          weave (fun p => p.1.1.k % 100) ((shuffle s key (List.range good.length)).filterMap fun k => good[k]?) good
        else good
      let stores := made.filterMap fun p => p.1.1.local p.1.2
      match all[good.length]? with
      | some p => .fault p.1.1.uop ((bad p).getD 0) p.1.1.addr ((op.pend ++ stores).foldl (SeqStore.perform g.part g.core) s)
      | none =>
        let (g1, fl) := drainAcc (kind == .f64) x i els g
        let (pend, s2) := SeqStore.make g.part g.core (storeKey op.id i) stores (op.pend, s)
        .done (g1.owe op.tok (els.foldl (fun f e => f ||| e.flags) fl)) pend (dropWaits false op.id s2)

/-! ## DRAIN and EPLOAD (15 R305 to R307) -/

/-- DRAIN. -/
def execDrain (w : WX) (s : State) : Answer :=
  let k := (w.mod.extractLsb' 0 2).toNat; let wide := k == 2; let slot := w.slot.toNat
  runInstr (.drain w) w.g ⟨[(w.base.plus 6, 2, false)], [], [], [], true⟩
    (fun e =>
      let (d, bad) := e.sregs (w.base.plus 6) 2
      let e := e.readAll bad
      let dpb := pairAt d 0
      let prog := slotWords e.s0 e.g0.core slot
      if bad && e.sr.trapPoison then .trap cPOISON e.mask 0
      else if !(Instr.drain w).ownOk || !e.g0.ownsTile wide w.t.toNat || !(e.s0.part e.part).hasSlot slot then .halt cOPERAND 0 0 0
      else match (if e.lanes.isEmpty then none else firstBadUop (drainKind k) (e.g0.ownsTile wide w.x.toNat) (uopsOf 16 prog)) with
        | some n => .halt cOPERAND 0 (BitVec.ofNat 64 n) 0
        | none =>
          if !e.g0.ownsTile false w.x.toNat then .halt cOPERAND 0 0 0
          else if dpb.toNat % 64 != 0 then .halt cALIGN 0 dpb 0
          else pushSeq e (some 2) (.drain w.t.toNat w.x.toNat k slot dpb prog) 0 w.g.stall.toNat) s

/-- EPLOAD. -/
def execEpload (w : WA) (s : State) : Answer :=
  let slot := w.imm.toNat; let n := (w.mod.extractLsb' 0 4).toNat + 1
  runInstr (.epload w) w.g ⟨[(w.opnd, 1, false)], [], [], [], true⟩
    (fun e =>
      let c := e.rc w.opnd 0 0; let off := c.get.toNat; let p := e.s0.part e.part
      let e := e.readAll c.poison
      if c.poison && e.sr.trapPoison then .trap cPOISON e.mask 0
      else if off ≥ 2 ^ 23 || slot + n > 256 || !p.hasSlot slot || !p.hasSlot (slot + n - 1) then .halt cOPERAND 0 0 0
      else if off % 64 != 0 then .halt cALIGN 0 (BitVec.ofNat 64 off) 0
      else if off + 64 * n > p.spadSize e.g0.core then .halt cSPAD 0 (BitVec.ofNat 64 off) 0
      else pushSeq e (some 2) (.epload slot n off) 0 w.g.stall.toNat) s

end Sys2Proof.Machine
end

