-- ==== Sys2Proof/Machine/Factor.lean ====
section
/-! DEFINITION. Tile factorisations: FACLU, FACCH, FACQR, TRSM, their columns, their traps and their growth estimates (18 R314 to R327). -/

namespace Sys2Proof.Machine

/-! ## The arithmetic of a column (18 R316) -/

/-- A group under a factorisation and the flags raised so far. -/
structure Fac where
  g : Group
  fl : FpFlags
deriving Repr

/-- The format of a tile. -/
def facFmt (wide : Bool) : Fmt := if wide then f64 else f32

/-- The result of one operation: with a poisoned operand it is poisoned and raises nothing (18 R316; 06 R129). -/
def facOp (wide : Bool) (ps : List PVal) (r : FRes) : PVal × FpFlags :=
  if ps.any (·.poison) then (⟨if wide then poisonPair else poisonWord.setWidth 64, true⟩, 0) else (⟨r.bits, false⟩, r.flags)
/-- a / b. -/
def facDiv (w : Bool) (a b : PVal) : PVal × FpFlags := facOp w [a, b] (opDiv (facFmt w) .rn false false a.val b.val)
/-- a × b + c. -/
def facFma (w : Bool) (a b c : PVal) : PVal × FpFlags := facOp w [a, b, c] (opFma (facFmt w) .rn false false a.val b.val c.val)
/-- a × b. -/
def facMul (w : Bool) (a b : PVal) : PVal × FpFlags := facOp w [a, b] (opMul (facFmt w) .rn false false a.val b.val)
/-- a − b. -/
def facSub (w : Bool) (a b : PVal) : PVal × FpFlags := facOp w [a, b] (opAdd (facFmt w) .rn false false a.val ((facFmt w).neg b.val))
/-- √a. -/
def facSqrt (w : Bool) (a : PVal) : PVal × FpFlags := facOp w [a] (opSqrt (facFmt w) .rn false false a.val)
/-- −a. -/
def facNeg (w : Bool) (a : PVal) : PVal := ⟨(facFmt w).neg a.val, a.poison⟩

/-- Write an element with the flags of the operation that gave it. -/
def Fac.put (w : Bool) (t i j : Nat) (r : PVal × FpFlags) (x : Fac) : Fac := ⟨x.g.putElem w t i j r.1, x.fl ||| r.2⟩

/-- 18 R318: x ranks above y. -/
def ranksAbove (f : Fmt) (x y : DWord) : Bool :=
  match f.dec x, f.dec y with
  | .nan _, .nan _ => false
  | .nan _, _ => true
  | _, .nan _ => false
  | .inf _, .inf _ => false
  | .inf _, .fin _ => true
  | .fin _, .inf _ => false
  | .fin a, .fin b => exCmp { b with neg := false } { a with neg := false } == -1
/-- A NaN. -/
def isNan (f : Fmt) (x : DWord) : Bool := match f.dec x with | .nan _ => true | _ => false
/-- +0 or −0. -/
def isZero (f : Fmt) (x : DWord) : Bool := match f.dec x with | .fin a => a.m == 0 | _ => false

/-- The largest magnitude of a list by `ranksAbove`, and whether one is poisoned. -/
def maxMag (f : Fmt) (vs : List PVal) : PVal :=
  vs.foldl (fun m v => ⟨if ranksAbove f v.val m.val then v.val &&& ~~~BitVec.ofNat 64 (2 ^ (f.width - 1)) else m.val, m.poison || v.poison⟩) ⟨0, false⟩

/-- Rows i of the tile with j in a range, as values. -/
def tileVals (g : Group) (w : Bool) (t : Nat) (keep : Nat → Nat → Bool) : List PVal :=
  (List.range 64).flatMap fun i => (List.range 64).filterMap fun j => if keep i j then some (g.elemAt w t i j) else none

/-- The rows or columns after k. -/
def after (k : Nat) : List Nat := (List.range (63 - k)).map (· + k + 1)

/-- 18 R318, R322: x / y rounded to f32, both magnitudes. -/
def growthOf (x y : FVal) : Word :=
  let nan : Word := 0x7FC00000; let inf : Word := 0x7F800000
  match x, y with
  | .nan _, _ => nan
  | _, .nan _ => nan
  | .inf _, .inf _ => nan
  | .inf _, .fin _ => inf
  | .fin _, .inf _ => 0
  | .fin a, .fin b =>
    if b.m == 0 then (if a.m == 0 then nan else inf)
    else
      let k := bitLen b.m + 70
      (roundTo f32 .rn false false ⟨false, a.m * 2 ^ k / b.m, a.e - b.e - k⟩ (a.m * 2 ^ k % b.m != 0)).bits.setWidth 32

/-- A square, exact. -/
def sqVal : FVal → FVal
  | .fin a => .fin (exMul a a)
  | .inf _ => .inf false
  | v => v

/-! ## One column or step -/

/-- What a column comes to. -/
inductive ColRes where
  | done (x : Fac) (tau : Option PVal) (zp : Bool)
  | trap (cause : Nat)
deriving Repr

/-- Swap two rows of a tile with their tags. -/
def swapRows (w : Bool) (t p k : Nat) (g : Group) : Group :=
  (List.range 64).foldl (fun g j =>
    let one (t : Nat) (g : Group) : Group := let a := g.tileAt t p j; let b := g.tileAt t k j; (g.putTile t p j b).putTile t k j a
    let g := one t g
    if w then one (t + 1) g else g) g

/-- 18 R318: column k of FACLU. -/
def luColumn (w : Bool) (t pv : Nat) (go : Bool) (k : Nat) (g : Group) : ColRes :=
  let f := facFmt w
  let p := (after k).foldl (fun p i => if ranksAbove f (g.elemAt w t i k).val (g.elemAt w t p k).val then i else p) k
  let piv := g.elemAt w t p k
  let fl : FpFlags := if isNan f piv.val && !piv.poison then fInvalid else 0
  if isZero f piv.val then
    if !go then .trap 0x30
    else .done ((after k).foldl (fun x i => x.put w t i k (pv0, 0)) ⟨g.setZp, fl⟩) none true
  else
    let g := if p == k then g else
      let g := swapRows w t p k g
      let a := g.pvAt pv p; let b := g.pvAt pv k
      (g.putPv pv p b).putPv pv k a
    let x := (after k).foldl (fun (x : Fac) i => x.put w t i k (facDiv w (x.g.elemAt w t i k) (x.g.elemAt w t k k))) ⟨g, fl⟩
    .done ((after k).foldl (fun x i => (after k).foldl (fun (x : Fac) j =>
      x.put w t i j (facFma w (facNeg w (x.g.elemAt w t i k)) (x.g.elemAt w t k j) (x.g.elemAt w t i j))) x) x) none false

/-- 18 R319: column k of FACCH. -/
def chColumn (w : Bool) (t k : Nat) (g : Group) : ColRes :=
  let f := facFmt w; let d := g.elemAt w t k k
  let pos := match f.dec d.val with | .fin a => a.m != 0 && !a.neg | .inf n => !n | .nan _ => false
  if !pos then .trap 0x31
  else
    let x := (Fac.mk g 0).put w t k k (facSqrt w d)
    let x := (after k).foldl (fun (x : Fac) i => x.put w t i k (facDiv w (x.g.elemAt w t i k) (x.g.elemAt w t k k))) x
    .done ((after k).foldl (fun x j => ((List.range (64 - j)).map (· + j)).foldl (fun (x : Fac) i =>
      x.put w t i j (facFma w (facNeg w (x.g.elemAt w t i k)) (x.g.elemAt w t j k) (x.g.elemAt w t i j))) x) x) none false

/-- 18 R320: column k of FACQR. -/
def qrColumn (w : Bool) (t k : Nat) (g : Group) : ColRes :=
  let f := facFmt w
  if (after k).all fun i => isZero f (g.elemAt w t i k).val then .done ⟨g, 0⟩ (some pv0) false
  else
    let (s, fl) := (k :: after k).foldl (fun (s, fl) i => let e := g.elemAt w t i k; let r := facFma w e e s; (r.1, fl ||| r.2)) (pv0, (0 : FpFlags))
    let d := g.elemAt w t k k
    let (q, fq) := facSqrt w s
    let neg := match f.dec d.val with | .fin a => a.m != 0 && a.neg | .inf n => n | .nan _ => true
    let alpha := if isNan f s.val || neg then q else facNeg w q
    let (v0, fv) := facSub w d alpha
    let x := (after k).foldl (fun (x : Fac) i => x.put w t i k (facDiv w (x.g.elemAt w t i k) v0)) ⟨g, fl ||| fq ||| fv⟩
    let (tau, ft) := facDiv w (facNeg w v0) alpha
    let x := { x with fl := x.fl ||| ft }.put w t k k (alpha, 0)
    let x := (after k).foldl (fun (x : Fac) j =>
      let (wv, fw) := (after k).foldl (fun (acc : PVal × FpFlags) i => let r := facFma w (x.g.elemAt w t i k) (x.g.elemAt w t i j) acc.1; (r.1, acc.2 ||| r.2)) (x.g.elemAt w t k j, (0 : FpFlags))
      let (u, fu) := facMul w tau wv
      let x := { x with fl := x.fl ||| fw ||| fu }.put w t k j (facSub w (x.g.elemAt w t k j) u)
      (after k).foldl (fun (x : Fac) i => x.put w t i j (facFma w (facNeg w u) (x.g.elemAt w t i k) (x.g.elemAt w t i j))) x) x
    .done x (some tau) false

/-- 18 R321: step n of TRSM. -/
def trsmStep (w : Bool) (t b : Nat) (up tr unit : Bool) (n : Nat) (g : Group) : ColRes :=
  let lower := !up != tr
  let i := if lower then n else 63 - n
  let op (i k : Nat) : PVal := if tr then g.elemAt w t k i else g.elemAt w t i k
  let ks := if lower then List.range i else after i
  .done ((List.range 64).foldl (fun (x : Fac) c =>
    let r := ks.foldl (fun (acc : PVal × FpFlags) k => let r := facFma w (facNeg w (op i k)) (g.elemAt w b k c) acc.1; (r.1, acc.2 ||| r.2)) (g.elemAt w b i c, (0 : FpFlags))
    let r := if unit then r else (let q := facDiv w r.1 (op i i); (q.1, r.2 ||| q.2))
    x.put w b i c r) ⟨g, 0⟩) none false

/-- 18 R318, R320: what growth compares with: the largest magnitude of the tile before column 0. -/
def amaxScan (w : Bool) (t : Nat) (g : Group) : PVal := maxMag (facFmt w) (tileVals g w t fun _ _ => true)

/-- 18 R318 to R320, R322: the growth estimate of a finished factorisation. -/
def growth (which : Nat) (w : Bool) (t : Nat) (amax : PVal) (g : Group) : RegCell :=
  let f := facFmt w
  if which == 1 then
    let ds := (List.range 64).map fun k => g.elemAt w t k k
    let mx := maxMag f ds
    let mn := ds.foldl (fun (m : PVal) v => if ranksAbove f m.val v.val then v else m) (ds.headD pv0)
    cell (growthOf (sqVal (f.dec mx.val)) (sqVal (f.dec mn.val))) mx.poison
  else
    let mx := maxMag f (tileVals g w t fun i j => decide (i ≤ j))
    cell (growthOf (f.dec mx.val) (f.dec amax.val)) (mx.poison || amax.poison)

/-! ## The events of a factorisation -/

/-- 14 R280: where the queue has room, the gangs that stalled for it may try again. -/
def wakeSeq (q : Nat) (s : State) : State := wakeHeld (fun g => g.quad == q && queueFree g.ctx (s.queue q)) (· == .seqFull) s
/-- Write an operation of a queue back. -/
def putOp (q : Nat) (op : SeqOp) (s : State) : State := wakeSeq q (s.setQueue q ((s.queue q).map fun o => if o.id == op.id then op else o))
/-- An operation leaves its queue. -/
def dropOp (q id : Nat) (s : State) : State := wakeSeq q (s.setQueue q ((s.queue q).filter fun o => o.id != id))

/-- 26 R435: a factorisation whose columns are done and whose growth estimate is being formed: it completes even while its context stops. -/
def facGrowing (s : State) (q : Nat) : Option SeqOp :=
  (s.queue q).find? fun o => o.phase == 1 && decide (64 ≤ o.kdone) && (s.ctx o.ctx).st.stopsOrRuns && (match o.kind with | .fac which .. => which != 3 | _ => false)

/-- The running factorisation of a quadrant whose context runs. -/
def facRunning (s : State) (q : Nat) : Option SeqOp :=
  (s.queue q).find? fun o => o.phase == 1 && (s.ctx o.ctx).st == .running && (match o.kind with | .fac .. => true | _ => false)

/-- The first slice of the gang that a factorisation holds. -/
def facSlice (g : Group) (lanes : Nat) : Nat :=
  let i := (maskLanes lanes).headD 0 / 4
  ((g.gangs.find? fun a => a.slices.contains i).map fun a => a.slices.headD 0).getD 0

/-- The group goes on: its hold ends and its gang takes the next word (18 R314), which its stall count may hold still (08 R170). -/
def facRelease (s : State) (lanes : Nat) (g : Group) : Group :=
  let sl := facSlice g lanes
  let due := match g.gang? sl with | some a => a.due | none => 0
  stepOn s.clk (due - s.clk - 1) sl { g with gangs := g.gangs.map fun a => { a with hold := if a.slices.head? == some sl then .free else a.hold, since := s.clk } }

/-- A halt's record of a factorisation carries its column (25 R422). -/
def markCol (c k : Nat) (s : State) : State :=
  s.updCtx c fun x => { x with recs := match x.recs.reverse with | r :: t => (({ r with col := k } : StopRec) :: t).reverse | [] => [] }

/-- 18 R325: a factorisation trap at column k: the handler is entered and a resume point kept, or the context halts with the operation where it stands. -/
def facTrap (q : Nat) (op : SeqOp) (lanes cause : Nat) (s : State) : State :=
  match s.group? op.gid with
  | none => s
  | some g =>
    let sl := facSlice g lanes
    let s1 := takeTrap op.gid sl cause lanes (BitVec.ofNat 64 op.kdone) s
    match s1.group? op.gid with
    | none => s1
    | some g1 =>
      if g1.sr.handler && !g.sr.handler then
        dropOp q op.id (s1.setGroup op.gid { g1 with resume := some ⟨op.hdr, op.idx, op.kdone, op.amax, op.amaxPoison, false⟩ })
      else if (s1.ctx op.ctx).st == (s.ctx op.ctx).st then s1
      else markCol op.ctx op.kdone s1

/-- FACTOR_COLUMN (18 R318 to R321, R324 to R327): one column or step of the running factorisation, whole. -/
def execFactorColumn (quad : Nat) (s : State) : Answer :=
  match facRunning s quad with
  | none => .next s
  | some op =>
    match op.kind, s.group? op.gid with
    | .fac which w t b pv _ go up tr unit tau lanes, some g =>
      if op.kdone ≥ 64 then .next s
      else
        let r := match which with
          | 0 => luColumn w t pv go op.kdone g
          | 1 => chColumn w t op.kdone g
          | 2 => qrColumn w t op.kdone g
          | _ => trsmStep w t b up tr unit op.kdone g
        match r with
        | .trap c => .next (facTrap quad op lanes c s).bump
        | .done x tv _ =>
          let g1 := x.g.orDrain x.fl
          let s1 := match tv with
            | none => s
            | some v => if w then writeSpad g.part g.core (tau + 8 * op.kdone) 8 v.val.toNat v.poison 0 s else writeSpad g.part g.core (tau + 4 * op.kdone) 4 v.val.toNat v.poison 0 s
          if which == 3 && op.kdone == 63 then .next (dropOp quad op.id (s1.setGroup op.gid (facRelease s lanes g1)))
          else .next (putOp quad { op with kdone := op.kdone + 1 } (s1.setGroup op.gid g1))
    | _, _ => .next s

/-- FACTOR_GROWTH (18 R322): the estimate is written, the operation leaves the queue and its group goes on. -/
def execFactorGrowth (quad : Nat) (s : State) : Answer :=
  match facGrowing s quad with
  | none => .next s
  | some op =>
    match op.kind, s.group? op.gid with
    | .fac which w t _ _ sg _ _ _ _ _ lanes, some g =>
      let c := growth which w t ⟨op.amax, op.amaxPoison⟩ g
      let g1 := match sg with | .s n => g.putCell (keyS n.toNat) c | _ => g
      .next (dropOp quad op.id (s.setGroup op.gid (facRelease s lanes g1)))
    | _, _ => .next s

/-! ## Issue (18 R314, R315, R317, R325) -/

/-- A factorisation joins the queue and holds its gang, and with it every gang of the group (18 R314); at its resume point after an ERET it continues from there. -/
def issueFac (e : Env) (st : Nat) (which : Nat) (w : Bool) (t b pv : Nat) (sg : Opd) (go up tr unit : Bool) (tau : Nat) : Act :=
  let q := e.g0.quad; let l := e.s0.queue q
  if !queueFree e.g0.ctx l then e.keepBack .seqFull e.s0
  else
      let r := match e.g0.resume with
        | some r => if r.armed && r.hdr == e.a.pc && r.idx == e.a.idx then some r else none
        | none => none
      let kd := match r with | some r => r.k | none => 0
      let am := match r with | some r => (⟨r.amax, r.amaxPoison⟩ : PVal) | none => pv0
      let op : SeqOp := ⟨e.s.nextId, e.gid, e.g0.ctx, .fac which w t b pv sg go up tr unit tau e.mask, e.s.nextId, 0, kd, [], none, if r.isSome then 1 else 0, 0,
        am.val, am.poison, e.a.pc, e.a.idx, [], []⟩
      let g := e.g.noStreams
      .moved (g.updGang (e.a.slices.headD 0) fun a => { a with hold := .factor, due := e.s.clk + st + 1 }) (e.s.setQueue q (l ++ [op])).takeId

/-- The tile format field names f64. -/
def facWide (w : WX) : Bool := w.fa == 0#4

/-- FACLU. -/
def execFaclu (w : WX) (s : State) : Answer :=
  runInstr (.faclu w) w.g Uses.none (fun e =>
    if e.lanes.isEmpty then .done e.g e.s
    else if !(Instr.faclu w).ownOk || !e.g0.ownsTile (facWide w) w.t.toNat || !e.g0.ownsPv (w.p.toNat % 4) then .halt cOPERAND 0 0 0
    else issueFac e w.g.stall.toNat 0 (facWide w) w.t.toNat 0 (w.p.toNat % 4) w.base (w.mod.getLsbD 0) false false false 0) s
/-- FACCH. -/
def execFacch (w : WX) (s : State) : Answer :=
  runInstr (.facch w) w.g Uses.none (fun e =>
    if e.lanes.isEmpty then .done e.g e.s
    else if !(Instr.facch w).ownOk || !e.g0.ownsTile (facWide w) w.t.toNat then .halt cOPERAND 0 0 0
    else issueFac e w.g.stall.toNat 1 (facWide w) w.t.toNat 0 0 w.base false false false false 0) s
/-- FACQR. -/
def execFacqr (w : WX) (s : State) : Answer :=
  let n := w.slot.extractLsb' 0 7; let wide := facWide w; let size := if wide then 8 else 4
  runInstr (.facqr w) w.g ⟨[(.s n, 1, false)], [], [], [], true⟩ (fun e =>
    let c := e.rc (.s n) 0 0; let off := c.get.toNat
    let e := e.readAll c.poison
    if e.lanes.isEmpty then .done e.g e.s
    else if c.poison && e.sr.trapPoison then .trap cPOISON e.mask 0
    else if !(Instr.facqr w).ownOk || !e.g0.ownsTile wide w.t.toNat || off ≥ 2 ^ 23 then .halt cOPERAND 0 0 0
    else if off % size != 0 then .halt cALIGN 0 (BitVec.ofNat 64 off) 0
    else if off + 64 * size > (e.s0.part e.part).spadSize e.g0.core then .halt cSPAD 0 (BitVec.ofNat 64 off) 0
    else issueFac e w.g.stall.toNat 2 wide w.t.toNat 0 0 w.base false false false false off) s
/-- TRSM. -/
def execTrsm (w : WX) (s : State) : Answer :=
  let wide := facWide w
  runInstr (.trsm w) w.g Uses.none (fun e =>
    if e.lanes.isEmpty then .done e.g e.s
    else if !(Instr.trsm w).ownOk || !e.g0.ownsTile wide w.t.toNat || !e.g0.ownsTile wide w.x.toNat then .halt cOPERAND 0 0 0
    else issueFac e w.g.stall.toNat 3 wide w.t.toNat w.x.toNat 0 w.base false (w.mod.getLsbD 0) (w.mod.getLsbD 1) (w.mod.getLsbD 2) 0) s

end Sys2Proof.Machine
end

