-- ==== Sys2Proof/Machine/Control.lean ====
section
/-! DEFINITION. Control: branches, calls, returns, exits, REGANG, waits, traps, XLATE, IFENCE (22 R376 to R388; 21 R362 to R365). -/

namespace Sys2Proof.Machine

/-! ## Targets (22 R376) -/

/-- An offset in words from the open clause's header (08 R183). -/
def targetOf (pc : DWord) (off : Int) : DWord := pc + BitVec.ofInt 64 (8 * off)

/-- The word at a target is a header: nothing, or what the instruction comes to. A target whose bits [63:57] are not zero fails as a fetch before its alignment is looked at. -/
def checkTarget (e : Env) (va : DWord) : Option Act :=
  if va.extractLsb' 57 7 != 0 then some (.halt cTRANS 0 va 0)
  else if va.toNat % 8 != 0 then some (.halt cTARGET 0 0 0)
  else
    match fetchWord e.s0 e.gid e.g0 va with
    | .wait s => some (.stall s)
    | .fault c d => some (.halt c d va 0)
    | .ok w => if (decHeader w).isSome then none else some (.halt cTARGET 0 0 0)

/-- The word at a reconvergence offset is a header. -/
def checkHeader (e : Env) (va : DWord) : Option Act :=
  if va.extractLsb' 57 7 != 0 || va.toNat % 8 != 0 then some (.halt cTARGET 0 0 0)
  else
    match fetchWord e.s0 e.gid e.g0 va with
    | .wait s => some (.stall s)
    | .fault _ _ => some (.halt cTARGET 0 0 0)
    | .ok w => if (decHeader w).isSome then none else some (.halt cTARGET 0 0 0)

/-- The operand of a register target (08 R183). -/
def tgtOpd (w : WB) : Opd := decOpd (w.tgt.extractLsb' 23 9)

/-- The first slice of the issuing gang. -/
def Env.slice (e : Env) : Nat := e.a.slices.headD 0
/-- The header after the open clause. -/
def Env.after (e : Env) : DWord := nextHeader e.a.pc e.hdr

/-- A branch to a checked target: parting by R362, or ILLEGAL_TARGET. -/
def branchAct (e : Env) (st : Nat) (tgt : DWord) (r : Option DWord) (g : Group) : Act :=
  match branch e.s.clk st e.slice tgt e.after r e.mask g with
  | some g => .moved g e.s
  | none => .halt cTARGET 0 0 0

/-- The words that the checks of a branch have fetched pass through the die cache like any fetch. -/
def Env.fetched (e : Env) (vas : List DWord) : Env := { e with s := vas.foldl (fun s va => fetchPass s e.g0 va) e.s }

/-- A branch whose target is at an address, with its checks (22 R376, R377). -/
def braAct (e : Env) (w : WB) (tgt : DWord) : Act :=
  let r := if w.rcv == 0 then none else some (targetOf e.a.pc w.rcv.toInt)
  if e.lanes.isEmpty then branchAct e w.g.stall.toNat tgt r e.g
  else
    match checkTarget e tgt with
    | some a => a
    | none =>
      match r.bind (checkHeader e) with
      | some a => a
      | none => branchAct (e.fetched (tgt :: r.toList)) w.g.stall.toNat tgt r e.g

/-- The value of a register target in the leader; a poisoned pair that traps. -/
def regTarget (e : Env) (w : WB) (go : Env → DWord → Act) : Act :=
  match e.leader with
  | none => go e 0
  | some L =>
    let v := e.rN (tgtOpd w) 2 L
    if v.poison && e.sr.trapPoison then .trap cPOISON (2 ^ L) 0 else go (e.led v.poison) v.val

/-- BRA. -/
def execBra (w : WB) (s : State) : Answer := runInstr (.bra w) w.g .none (fun e => braAct e w (targetOf e.a.pc w.tgt.toInt)) s
/-- BRX. -/
def execBrx (w : WB) (s : State) : Answer := runInstr (.brx w) w.g ⟨[(tgtOpd w, 2, false)], [], [], [], true⟩ (fun e => regTarget e w fun e va => braAct e w va) s

/-! ## Calls and returns (22 R378, R379) -/

/-- A call: in each slice where a lane takes, an entry on its return stack; then a branch that reconverges at the header after the clause. -/
def callAct (e : Env) (st : Nat) (tgt : DWord) : Act :=
  if e.lanes.isEmpty then branchAct e st tgt (some e.after) e.g
  else
    match checkTarget e tgt with
    | some a => a
    | none =>
      let takes (i : Nat) : BitVec 4 := sliceBits e.mask i &&& (e.g.slice i).active
      let calls := e.a.slices.filter fun i => takes i != 0
      if calls.any fun i => decide (16 ≤ (e.g.slice i).rets.length) then .halt cTARGET 0 0 0
      else
        let g := calls.foldl (fun g i => g.updSlice i fun x =>
          let part := takes i != x.active
          { x with rets := ⟨e.after, e.a.pc, e.a.idx, part, x.recs.length + (if part then 1 else 0)⟩ :: x.rets }) e.g
        branchAct (e.fetched [tgt]) st tgt (some e.after) g

/-- CALL. -/
def execCall (w : WB) (s : State) : Answer := runInstr (.call w) w.g .none (fun e => callAct e w.g.stall.toNat (targetOf e.a.pc w.tgt.toInt)) s
/-- CALLX. -/
def execCallx (w : WB) (s : State) : Answer :=
  runInstr (.callx w) w.g ⟨[(tgtOpd w, 2, false)], [], [], [], true⟩ (fun e => regTarget e w fun e va => callAct e w.g.stall.toNat va) s

/-- Slices of the gang go to headers of their own: the gang parts where these differ, with a parting of the header given, and each new gang arrives. -/
def scatterGang (e : Env) (st : Nat) (hdr : Option DWord) (pcs : List (Nat × DWord)) (g : Group) : Group :=
  let gs := byPc pcs
  let g1 := if gs.length > 1 then { g with partings := ⟨hdr, e.a.slices, match hdr with | some r => laneBits (fun i => (e.g.slice i).scope r) e.a.slices | none => 0⟩ :: g.partings } else g
  branch.arriveEach e.s.clk { e.a with due := e.s.clk + st + 1, yld := e.a.yld || e.hdr.yld } gs g1

/-- RET. -/
def execRet (w : WB) (s : State) : Answer :=
  runInstr (.ret w) w.g .none (fun e =>
    let plan := e.a.slices.map fun i =>
      let x := e.g.slice i; let t := sliceBits e.mask i &&& x.active
      if t == 0 then some (i, x, e.after)
      else match x.rets with
        | r :: rest => if t == x.active && r.depth == x.recs.length then some (i, { x with rets := rest }, r.ret) else none
        | [] => none
    if plan.any (·.isNone) then .halt cTARGET 0 0 0
    else
      let ps := plan.filterMap id
      let g := ps.foldl (fun g (i, x, _) => g.updSlice i fun _ => x) e.g
      .moved (scatterGang e w.g.stall.toNat none (ps.map fun (i, _, p) => (i, p)) g) e.s) s

/-! ## EXIT and REGANG (22 R380, R381) -/

/-- A slice whose active mask is empty goes on as though at the header of its top entry: where it continues, and the header it has just popped at. -/
def emptied : Nat → Slice → Slice × Option DWord × Option DWord
  | 0, x => (x, none, none)
  | n + 1, x =>
    if x.live == 0 then (x, none, none)
    else match x.recs with
      | [] => (x, none, none)
      | r :: _ =>
        let (y, p) := resolveAt r.hdr 9 x
        if y.active == 0 then emptied n y else (y, some p, if p == r.hdr then some r.hdr else none)

/-- EXIT. -/
def execExitLanes (w : WB) (s : State) : Answer :=
  runInstr (.exitLanes w) w.g .none (fun e =>
    if e.lanes.isEmpty then .done e.g e.s
    else
      let plan := e.a.slices.map fun i =>
        let x := e.g.slice i; let t := sliceBits e.mask i &&& x.active
        let y := { x with active := x.active &&& ~~~t, live := x.live &&& ~~~t }
        if y.active != 0 then (i, y, some e.after, none) else (i, emptied 9 y)
      let g1 := plan.foldl (fun g (i, x, _) => g.updSlice i fun _ => x) e.g
      let stay := plan.filterMap fun (i, x, p, pop) => p.map fun p => (i, x, p, pop)
      let g1 := (byPc (stay.map fun (i, _, p, _) => (i, p))).foldl (fun h p => e.g.rejoin p.2 h) g1
      let heads (x : Slice) (pop : Option DWord) : List DWord := pop.toList ++ (x.recs.head?.map (·.hdr)).toList
      let hdr := match stay with
        | (_, x, _, pop) :: _ => (heads x pop).find? fun r => stay.all fun (_, y, _, q) => (heads y q).contains r
        | [] => none
      let g2 := match stay with
        | [] =>
          let rest := g1.gangs.filter fun b => b.slices != e.a.slices
          if rest.isEmpty then { g1 with gangs := [{ e.a with hold := .exiting, stream := none, hdr := none }] } else fuse e.s.clk 9 { g1 with gangs := rest }
        | _ => scatterGang e w.g.stall.toNat hdr (stay.map fun (i, _, p, _) => (i, p)) g1
      .moved (markReady e.gid e.g0 g2 e.s) e.s) s

/-- A gang that has to wait until every slice of its group stands at its word: held, with nothing committed. -/
def gatherHold (e : Env) (h : Hold) : Act :=
  .stall (e.s0.updGroup e.gid fun g => markReady e.gid g (g.updGang e.slice fun a => { a with hold := h, stream := none }) e.s0)
/-- Every other gang of the group stands at this word. -/
def othersAt (e : Env) (h : Hold) : Bool := e.g0.gangs.all fun b => b.slices == e.a.slices || b.hold == h
/-- Nothing to gather: no open parting and one gang. -/
def Env.alone (e : Env) : Bool := e.g0.partings.isEmpty && e.g0.gangs.length == 1
/-- The group as one gang at this word. -/
def gatherAll (e : Env) (g : Group) : Group := if e.alone then g else fuseAll e.a g
/-- The first slice of the gathered gang. -/
def gatherSlice (e : Env) : Nat := if e.alone then e.slice else (((List.range e.g0.nsl).filter fun i => !(e.g0.slice i).gone).headD 0)

/-- REGANG. -/
def execRegang (w : WB) (s : State) : Answer :=
  runInstr (.regang w) w.g .none (fun e =>
    if !e.alone && !othersAt e (.regang e.a.pc e.a.idx) then gatherHold e (.regang e.a.pc e.a.idx)
    else .moved (stepOn e.s.clk w.g.stall.toNat (gatherSlice e) (gatherAll e e.g)) e.s) s

/-! ## Waits (22 R382 to R385) -/

/-- WAIT. As the last word of its clause it is issued again once its counters are down; elsewhere the gang is held at the next word. -/
def execWaitCtr (w : WI) (s : State) : Answer :=
  let n := w.imm.toNat; let mask := w.mod.setWidth 6
  runInstr (.waitCtr w) w.g .none (fun e =>
    let hold : Hold := .wait mask n
    if e.lanes.isEmpty then .done e.g e.s
    else if e.g0.waitDone mask n then .done (e.g.covered mask.getLsbD) e.s
    else if e.a.idx == e.hdr.count.toNat then gatherHold e hold
    else .moved ((stepOn e.s.clk w.g.stall.toNat e.slice e.g).updGang e.slice fun a => { a with hold := hold, stream := none }) e.s) s

/-- YIELD. -/
def execYield (w : WI) (s : State) : Answer :=
  runInstr (.yield w) w.g .none (fun e => if e.lanes.isEmpty then .done e.g e.s else .done (e.g.updGang e.slice fun a => { a with yld := true }) e.s) s

/-- SLEEP. -/
def execSleep (w : WI) (s : State) : Answer :=
  runInstr (.sleep w) w.g ⟨[(w.a, 1, false)], [], [], [], true⟩ (fun e =>
    match e.leader with
    | none => .done e.g e.s
    | some L =>
      let v := e.r32 w.a L
      let n := if w.mod.getLsbD 9 then w.imm.toNat else if v.poison then 0 else v.w.toNat
      let g := if !w.mod.getLsbD 9 && v.poison then e.g.notePoison e.s 2 [L] else e.g
      .done (g.updGang e.slice fun a => { a with sleepN := some n }) e.s) s

/-! ## Traps and stubs (22 R386, R387) -/

/-- TRAP. -/
def execTrapCode (w : WI) (s : State) : Answer :=
  runInstr (.trapCode w) w.g .none (fun e => if e.lanes.isEmpty then .done e.g e.s else .selfTrap 0x41 e.mask (w.imm.setWidth 64)) s
/-- BKPT. -/
def execBkpt (w : WI) (s : State) : Answer :=
  runInstr (.bkpt w) w.g .none (fun e => if e.lanes.isEmpty then .done e.g e.s else .selfTrap 0x42 e.mask (w.imm.setWidth 64)) s

/-- 22 R382: the FID of XLATE, bits [29:13]. -/
def fidOf (w : WI) : Nat := (encI 0xCA w).toNat / 2 ^ 13 % 2 ^ 17

/-- XLATE: the call that reached it is undone in every slice, and the context halts at the call. -/
def execXlate (w : WI) (s : State) : Answer :=
  runInstr (.xlate w) w.g .none (fun e =>
    match e.leader with
    | none => .done e.g e.s
    | some L =>
      let plan := e.a.slices.map fun i =>
        let x := e.g.slice i
        match x.rets with
        | [] => none
        | r :: rest =>
          if r.depth != x.recs.length then none
          else
            match r.pushed, x.recs with
            | true, c :: t => some (i, { x with rets := rest, recs := t, active := c.saved &&& x.live }, r.siteHdr, r.siteIdx)
            | true, [] => none
            | false, _ => some (i, { x with rets := rest }, r.siteHdr, r.siteIdx)
      if plan.any (·.isNone) then .halt cTARGET 0 0 0
      else
        let ps := plan.filterMap id
        let g := ps.foldl (fun g (i, x, _) => g.updSlice i fun _ => x) e.g
        let sites := (ps.map fun (_, _, h, k) => (h, k)).eraseDups
        let gangs := sites.map fun (h, k) => { e.a with slices := (ps.filter fun (_, _, h', k') => h' == h && k' == k).map (·.1), pc := h, idx := k, hdr := none, stream := none, since := e.s.clk }
        let g := g.putGangs e.slice gangs
        let g := if sites.length > 1 then { g with partings := ⟨none, e.a.slices, 0⟩ :: g.partings } else g
        let (h, k) := ((ps.find? fun p => p.1 == L / 4).map fun (_, _, h, k) => (h, k)).getD (0, 0)
        let r := { groupRec e.s0 e.gid e.slice 0x40 0 (BitVec.ofNat 64 (fidOf w)) e.mask true with pc := h, idx := k }
        .moved g (raiseHalt e.g0.ctx r e.s)) s

/-- 03 R57: a core is within a scope of the group that issues. -/
def inScope (e : Env) (scope core : Nat) : Bool :=
  match scope with
  | 0 | 1 => core == e.g0.core
  | 2 => core == e.g0.core ||
    (match sget e.g0.lid e.s0.launches with
     | some l =>
       let cl (x y : Nat) : Nat × Nat := (x / 2 ^ l.rec_.lcw, y / 2 ^ l.rec_.lch)
       l.map.zipIdx.any fun (k, vc) => k == core && cl (vc % l.rec_.w) (vc / l.rec_.w) == cl e.g0.cx e.g0.cy
     | none => false)
  | 3 => dieOf core == dieOf e.g0.core
  | _ => true
/-- IFENCE: the cores within its scope drop the instruction words they hold. The stores before it are visible already: the stores of the model have one order (log entry 4). -/
def execIfence (w : WM) (s : State) : Answer :=
  runInstr (.ifence w) w.g .none (fun e =>
    .done e.g (if e.lanes.isEmpty then e.s else { e.s with dropped := ((List.range 64).filter (inScope e w.scope.toNat)).foldl (fun m k => sset k e.s.turn m) e.s.dropped })) s

end Sys2Proof.Machine
end

