-- ==== Sys2Proof/Machine/Task.lean ====
section
/-! DEFINITION. Tasks, barriers, device launches and schedules: the six A-format instructions of 22 R389 to R398, and what ends or spawns a group (21 R367 to R371). -/

namespace Sys2Proof.Machine

/-! ## TDEF and TSIG (22 R390 to R392) -/

/-- The task number a register holds, if the partition owns it. -/
def taskOf (e : Env) (o : Opd) : Option Nat := let n := (e.r32 o e.lead).w.toNat; if (e.s0.part e.part).hasTask n then some n else none

/-- TDEF. -/
def execTdef (w : WA) (s : State) : Answer :=
  runInstr (.tdef w) w.g ⟨[(w.base, 4, false), (w.task, 1, false)], [], [], [], true⟩ (fun e =>
    if e.lanes.isEmpty then .done e.g e.s
    else
      let (ws, pr) := e.sregs w.base 4
      let bad := pr || (e.r32 w.task e.lead).poison
      let entry := pairAt ws 0; let c := wordAt ws 2; let d := wordAt ws 3
      let argN := (c.extractLsb' 23 8).toNat; let argOff := (c.extractLsb' 0 23).toNat
      let count := (d.extractLsb' 16 16).toNat; let role := (d.extractLsb' 4 2).toNat; let slices := (d.extractLsb' 0 4).toNat
      let core := e.g0.core
      if bad && e.sr.trapPoison then .trap cPOISON (2 ^ e.lead) 0
      else
        match taskOf e w.task with
        | none => .halt cOPERAND 0 0 0
        | some n =>
          let busy := match sget (taskKey core n) e.s0.tasks with | some t => t.st != .free | none => false
          if busy || c.getLsbD 31 || d.extractLsb' 6 10 != 0 || decide (128 < argN) || role == 3 || slices == 0 || decide (8 < slices) then .halt cOPERAND 0 0 0
          else if entry.toNat % 8 != 0 then .halt cALIGN 0 entry 0
          else if argOff % 4 != 0 then .halt cALIGN 0 (BitVec.ofNat 64 argOff) 0
          else if entry.extractLsb' 57 7 != 0 then .halt cTRANS 0 entry 0
          else if decide ((e.s0.part e.part).spadSize core < argOff + 4 * argN) then .halt cSPAD 0 (BitVec.ofNat 64 argOff) 0
          else
            let g := e.g0
            let t : TaskEntry := ⟨if count == 0 then .spawning else .waiting, entry, slices, role, argOff, argN, count, g.lid, g.ctx, g.wgx, g.wgy, g.wgz, g.cx, g.cy⟩
            .done (e.noteLead bad e.g) { e.s with tasks := sset (taskKey core n) t e.s.tasks }) s

/-- TSIG. -/
def execTsig (w : WA) (s : State) : Answer :=
  runInstr (.tsig w) w.g ⟨[(w.task, 1, false)], [], [], [], true⟩ (fun e =>
    if e.lanes.isEmpty then .done e.g e.s
    else
      let bad := (e.r32 w.task e.lead).poison
      if bad && e.sr.trapPoison then .trap cPOISON (2 ^ e.lead) 0
      else
        match taskOf e w.task with
        | none => .halt cOPERAND 0 0 0
        | some n => .done (e.noteLead bad e.g) (signalTask e.g0.core n e.s)) s

/-- 21 R368: the s registers of a task: its argument block, read as loads of the new group; no LD, LDU or LDS writes them, so their tags are 0 (07 R147). -/
def taskArgs (s : State) (part core : Nat) (t : TaskEntry) : List (Nat × RegCell) :=
  (List.range t.argN).map fun k => let o := t.argOff + 4 * k; let w := spadPWord s part core o; (k, cell w.val w.poison 0)

/-- TASK_SPAWN (21 R367, R368): the group of a spawning task starts in a quadrant that can take it. -/
def execTaskSpawn (core entry quad : Nat) (s : State) : Answer :=
  match sget (taskKey core entry) s.tasks with
  | none => .next s
  | some t =>
    match sget t.lid s.launches with
    | none => .next s
    | some l =>
      let r := l.rec_; let part := partOf t.ctx
      if t.st != .spawning || (s.ctx t.ctx).st != .running || coreOf quad != core || !quadFits s part quad r.regs r.tiles then .next s
      else
        let wk := s.nextId
        let g := Group.start t.ctx t.lid wk quad 0 1 t.slices r.regs r.tiles t.entry (BitVec.ofNat 32 t.role) (BitVec.ofNat 32 r.contract) s.clk
        let g := { g with wgx := t.wgx, wgy := t.wgy, wgz := t.wgz, cx := t.cx, cy := t.cy, wIndex := t.wgx + r.gx * (t.wgy + r.gy * t.wgz), fresh := true }
        let s1 := { s with wgs := sset wk ⟨t.lid, core, 1, s.tsc.toNat⟩ s.wgs, tasks := serase (taskKey core entry) s.tasks }
        .next (addGroup (withS (taskArgs s part core t) g) s1.takeId)

/-! ## Barriers (22 R393 to R396) -/

/-- The expected count an arrival names. -/
def barCount (e : Env) (w : WA) : Option Nat := if w.base == .z then none else some (e.r32 w.base e.lead).w.toNat

/-- The checks of BAR and BARC at issue, the wait until the group stands whole at the word, and the kind of E (22 R389, R393, R394). `cont` for BARC. -/
def atBarrier (e : Env) (w : WA) (cont : Bool) (arrive : Option Nat → Act) : Act :=
  let n := barCount e w
  let bad := (n.isSome && (e.r32 w.base e.lead).poison) || (cont && (e.rN w.opnd 2 e.lead).poison)
  let hold : Hold := .barGather e.a.pc e.a.idx
  let b := e.s0.bar e.g0.wk (w.imm.extractLsb' 0 3).toNat
  if bad && e.sr.trapPoison then .trap cPOISON (2 ^ e.lead) 0
  else if !(if cont then Instr.barc w else Instr.bar w).ownOk || (match n with | some k => k == 0 || decide (32 < k) | none => false) then .halt cOPERAND 0 0 0
  else if cont && (e.rN w.opnd 2 e.lead).val.toNat % 8 != 0 then .halt cALIGN 0 (e.rN w.opnd 2 e.lead).val 0
  else if !e.alone && !othersAt e hold then gatherHold e hold
  else if cont && !e.g0.drained then .stall e.s0
  else if b.arrived != 0 && b.named != n then .halt cOPERAND 0 0 0
  else arrive n

/-- One arrival at a barrier. -/
def arriveBar (wk id : Nat) (n : Option Nat) (s : State) : State :=
  let b := s.bar wk id
  checkBarrier wk id { s with bars := sput Barrier.reset (barKey wk id) ⟨b.arrived + 1, n, b.phase⟩ s.bars }

/-- The gangs of a group that has arrived are held; a SLEEP of the same clause goes on meanwhile. -/
def holdBar (id : Nat) (g : Group) : Group :=
  { g with gangs := g.gangs.map fun a => match a.hold with
      | .atHeader _ => a
      | .sleep n => { a with hold := .bar id, stream := none, due := max a.due n }
      | _ => { a with hold := .bar id, stream := none } }

/-- BAR. -/
def execBar (w : WA) (s : State) : Answer :=
  let id := (w.imm.extractLsb' 0 3).toNat
  runInstr (.bar w) w.g ⟨if w.base == .z then [] else [(w.base, 1, false)], [], [], [], true⟩ (fun e =>
    if e.lanes.isEmpty then .done e.g e.s
    else atBarrier e w false fun n =>
      let bad := n.isSome && (e.r32 w.base e.lead).poison
      let g := holdBar id (stepOn e.s.clk w.g.stall.toNat (gatherSlice e) (gatherAll e (e.noteLead bad e.g)))
      let s1 := startConts (arriveBar e.g0.wk id n (e.s.setGroup e.gid g))
      .moved ((s1.group? e.gid).getD g) s1) s

/-- 21 R369: what a continuation keeps of its group. -/
def contOf (g : Group) (entry : DWord) (id : Nat) : Cont where
  entry := entry
  nsl := g.nsl
  grp := g.grp
  ngrp := g.ngrp
  wgx := g.wgx
  wgy := g.wgy
  wgz := g.wgz
  cx := g.cx
  cy := g.cy
  wIndex := g.wIndex
  quad := g.quad
  role := g.sr.role
  ctr := g.sr.ctr
  sregs := (List.range 128).filterMap fun n => let c := g.cellAt (keyS n); if c == rfStart (keyS n) then none else some (n, c)
  lid := g.lid
  wk := g.wk
  ctx := g.ctx
  bar := id
  ready := false

/-- BARC. -/
def execBarc (w : WA) (s : State) : Answer :=
  let id := (w.imm.extractLsb' 0 3).toNat
  runInstr (.barc w) w.g ⟨(if w.base == .z then [] else [(w.base, 1, false)]) ++ [(w.opnd, 2, false)], [], [], [], true⟩ (fun e =>
    if e.lanes.isEmpty then .done e.g e.s
    else atBarrier e w true fun n =>
      let s1 := ({ e.s with conts := sset e.s.nextId (contOf e.g (e.rN w.opnd 2 e.lead).val id) e.s.conts }).takeId
      .gone (endGroup e.gid true (arriveBar e.g0.wk id n s1))) s

/-- GROUP_END (22 R380): a group whose last lane has exited ends once its counters wm, wg, w0 and w1 are zero. -/
def execGroupEnd (gid : Nat) (s : State) : Answer :=
  match s.group? gid with
  | none => .next s
  | some g =>
    if !g.gangs.isEmpty && g.gangs.all (fun a => a.hold == .exiting) && g.drained && (s.ctx g.ctx).st == .running then .next (endGroup gid false s) else .next s

/-! ## LAUNCH and SELSCHED (22 R397, R398) -/

/-- LAUNCH: reads the record and its tables, then waits for the distributor. -/
def execLaunch (w : WA) (s : State) : Answer :=
  let withTask := w.target == 1#3
  runInstr (.launch w) w.g ⟨[(w.base, 2, false)] ++ (if withTask then [(w.task, 1, false)] else []), [], [(w.opnd, 1)], [], true⟩ (fun e =>
    if e.lanes.isEmpty then .done e.g e.s
    else
      let va := (e.rN w.base 2 e.lead).val
      let bad := (e.rN w.base 2 e.lead).poison || (withTask && (e.r32 w.task e.lead).poison)
      let rem : Rem := fun k => remote e.gid e.a.pc e.a.idx (1000 + k) (e.lead / 4)
      if bad && e.sr.trapPoison then .trap cPOISON (2 ^ e.lead) 0
      else if withTask && (taskOf e w.task).isNone then .halt cOPERAND 0 0 0
      else if va.toNat % 64 != 0 then .halt cALIGN 0 va (2 ^ e.lead)
      else
        match readBlock rem e.g0.core e.g0.ctx e.sys va 64 e.s0 with
        | .wait s => .stall s
        | .fault c d a => .halt c d a (2 ^ e.lead)
        | .ok ws =>
          let read := passBlock e.g0.core e.g0.ctx e.sys va 64 e.s0
          match firstPoison ws with
          | some k => .haltIn read cPOISON 0 (va + BitVec.ofNat 64 (4 * k)) (2 ^ e.lead)
          | none =>
            let r := parseRec (pwBytes ws)
            match readTables rem e.g0.core e.g0.ctx r.capped e.s0 with
            | .wait s => .stall s
            | .fault c d a => .haltIn (passLists e.g0.core e.g0.ctx r.capped read) c d a (2 ^ e.lead)
            | .ok t =>
              let q : DevReq := ⟨e.g0.ctx, e.gid, e.a.slices, w.opnd, e.mask, if withTask then (taskOf e w.task).map fun n => (e.g0.core, n) else none, r, t.consts, t.pre⟩
              let g := (e.noteLead bad e.g).updGang e.slice fun a => { a with hold := .launch, stream := none, due := e.s.clk + w.g.stall.toNat + 1 }
              .moved g ((passTables e.g0.core e.g0.ctx r.capped t (passBlock e.g0.core e.g0.ctx e.sys va 64 e.s)).updCtx e.g0.ctx fun x => { x with devq := x.devq ++ [q] })) s

/-- SELSCHED. -/
def execSelsched (w : WA) (s : State) : Answer :=
  let n := (w.imm.extractLsb' 0 4).toNat
  runInstr (.selsched w) w.g ⟨[(w.task, 1, false)], [], [(w.opnd, 2)], [n], true⟩ (fun e =>
    if e.lanes.isEmpty then .done e.g e.s
    else
      let x := e.r32 w.task e.lead
      if x.poison && e.sr.trapPoison then .trap cPOISON (2 ^ e.lead) 0
      else if !(Instr.selsched w).ownOk then .halt cOPERAND 0 0 0
      else
        let sel := match sget e.g0.lid e.s0.launches with | some l => l.rec_.select x.w.toNat | none => none
        let g := (e.noteLead x.poison e.g).writeAll e.s 2 (dstWrites w.opnd (e.lanes.map fun L => ⟨L, resWords 2 (sel.getD 0) x.poison⟩))
        .done (e.lanes.foldl (fun g L => g.writePred e.s 2 n L sel.isSome x.poison) g) e.s) s

end Sys2Proof.Machine
end

