-- ==== Sys2Proof/Machine/Launch.lean ====
section
/-! DEFINITION. The distributor: accepting records, starting workgroups, completing launches (23 R400 to R407; 21 R357, R370 to R373). -/

namespace Sys2Proof.Machine

/-- A launch queue of a context. -/
def Ctx.queue (x : Ctx) (q : Nat) : LQueue := (x.lq[q]?).getD LQueue.reset
/-- Change a launch queue. -/
def Ctx.updQueue (q : Nat) (f : LQueue → LQueue) (x : Ctx) : Ctx := { x with lq := (x.lq.zipIdx).map fun (l, k) => if k == q then f l else l }

/-- 23 R400: a queue is served. -/
def LQueue.en (q : LQueue) : Bool := q.base.getLsbD 4
/-- 23 R401: the address of record i. -/
def LQueue.slot (q : LQueue) (i : Nat) : DWord := BitVec.ofNat 64 ((q.base.extractLsb' 8 49).toNat * 256 + 256 * (i % 2 ^ (q.base.extractLsb' 0 4).toNat))

/-- 23 R401: CPL counts in acceptance order. -/
def advanceCpl : Nat → LQueue → LQueue
  | 0, q => q
  | n + 1, q => if q.done.contains q.cpl.toNat then advanceCpl n { q with done := q.done.erase q.cpl.toNat, cpl := q.cpl + 1 } else q
/-- Record i of a queue is complete or refused. -/
def LQueue.finish (i : Nat) (q : LQueue) : LQueue := advanceCpl (q.done.length + 1) { q with done := q.done ++ [i] }

/-- No workgroup of a launch has started. -/
def Launch.unstarted (l : Launch) : Bool := l.started.all (· == 0)

/-- 23 R401: a queue, or the device-side launches (source 4), has something the distributor may take now. -/
def mayServe (s : State) (c src : Nat) : Bool :=
  let x := s.ctx c
  if src == 4 then !x.devq.isEmpty
  else
    let q := x.queue src
    !x.quiesce && !x.hold && q.en && q.acc != q.tail && !s.launches.any fun p => p.2.ctx == c && p.2.dev.isNone && p.2.queue == src && p.2.rec_.cor && p.2.unstarted

/-- The source in turn: the first after the last one served. -/
def inTurn (s : State) (c : Nat) : Option Nat := ((List.range 5).map fun k => ((s.ctx c).rot + 1 + k) % 5).find? (mayServe s c)

/-- 23 R405: a record is refused. -/
def refuse (c q code : Nat) (s : State) : State :=
  let i := ((s.ctx c).queue q).acc
  let s1 := s.updCtx c fun x => { x.updQueue q (fun l => LQueue.finish i.toNat { l with acc := l.acc + 1, err := true, code := BitVec.ofNat 8 code, idx := i }) with rot := q }
  pushEvent (partOf c) (srcNum 0 0xF) 0 4 0 c (q * 65536 + i.toNat) s1

/-- 21 R355, 23 R406: a launch is accepted, with its preload slots written. -/
def admitRec (c q i : Nat) (dev : Option Nat) (task : Option (Nat × Nat)) (r : LRec) (t : Tables) (map : List Nat) (s : State) : State :=
  let l : Launch := ⟨c, q, i, dev, r, t.consts.map fun k => (k.1, k.2.setWidth 32), map, List.replicate (r.w * r.h) 0, task, false, none⟩
  (writePreload (partOf c) t { s with launches := sset s.nextId l s.launches }).takeId

/-- The next record of a queue: read, checked, accepted or refused. -/
def acceptQueue (c q : Nat) (s : State) : State :=
  let l := (s.ctx c).queue q; let i := l.acc.toNat; let rem := remoteEng true c (c * 8 + q)
  let stop (code : Nat) (s : State) : State := refuse c q code (forgetAll 0 c (dropWaits true (c * 8 + q) s))
  match readBlock rem 0 c false (l.slot i) 64 s with
  | .wait s => s
  | .fault _ _ _ => stop 3 (passBlock 0 c false (l.slot i) 64 s)
  | .ok ws =>
    let s := passBlock 0 c false (l.slot i) 64 s
    if (firstPoison ws).isSome then stop 3 s
    else
      let r := parseRec (pwBytes ws)
      if !r.fieldsOk then stop 1 s
      else
        match readTables rem 0 c r s with
        | .wait s => s
        | .fault _ _ _ => stop 3 (passLists 0 c r s)
        | .ok t =>
          let s := passTables 0 c r t s
          let (code, map) := mapLaunch s (partOf c) r
          if !t.valid (s.part (partOf c)) then stop 1 s
          else if code != 0 then stop code s
          else admitRec c q i none none r t map ((dropWaits true (c * 8 + q) s).updCtx c fun x => { x.updQueue q (fun l => { l with acc := l.acc + 1 }) with rot := q })

/-- 21 R372: the status of a device launch: 0 QUEUED with its core map, 1 QUOTA, 2 LAUNCH_NOFIT, 3 INVALID. -/
def devStatus (s : State) (q : DevReq) : Nat × List Nat :=
  let p := s.part (partOf q.ctx)
  let (code, map) := mapLaunch s (partOf q.ctx) q.rec_
  let queued := (s.launches.filter fun l => l.2.dev.isSome && partOf l.2.ctx == partOf q.ctx && l.2.unstarted).length
  if code == 1 || !Tables.valid ⟨q.consts, q.pre⟩ p then (3, [])
  else if code != 0 then (2, [])
  else if p.lquota ≤ queued then (1, [])
  else (0, map)

/-- A handle no child of the context holds (22 R397). -/
def newHandle (s : State) (c : Nat) : Nat :=
  let used := s.launches.filterMap fun l => if l.2.ctx == c then l.2.dev else none
  ((List.range (used.length + 1)).map fun k => ((s.ctx c).handles + k) % 65535).find? (fun h => !used.contains h) |>.getD 0

/-- 22 R397: the hold of a LAUNCH ends: d is written and its gangs go on. -/
def launchDone (q : DevReq) (v : Word) (s : State) : State :=
  s.updGroup q.gid fun g =>
    let g1 := g.writeAll s 2 (dstWrites q.dst ((maskLanes q.lanes).map fun L => ⟨L, [⟨v, false, 0⟩]⟩))
    let held := g1.gangs.filter fun a => a.hold == .launch && a.slices.any q.slices.contains
    held.foldl (fun g a => stepOn s.clk (a.due - s.clk - 1) (a.slices.headD 0) (g.updGang (a.slices.headD 0) fun b => { b with hold := .free, since := s.clk })) g1

/-- The next device-side launch. -/
def acceptDev (c : Nat) (s : State) : State :=
  match (s.ctx c).devq with
  | [] => s
  | q :: rest =>
    let (st, map) := devStatus s q; let h := newHandle s c
    let s1 := s.updCtx c fun x => { x with devq := rest, rot := 4, handles := if st == 0 then (h + 1) % 65535 else x.handles }
    let s2 := if st == 0 then admitRec c 0 0 (some h) q.task q.rec_ ⟨q.consts, q.pre⟩ map s1 else s1
    launchDone q (BitVec.ofNat 32 (st + 65536 * (if st == 0 then h else 0xFFFF))) s2

/-- LAUNCH_RECORD_ACCEPT (23 R401, R405; 21 R372): the distributor takes the next record of the source in turn. -/
def execLaunchRecordAccept (ctx src : Nat) (s : State) : Answer :=
  if (s.ctx ctx).st != .running || inTurn s ctx != some src then .next s
  else if src == 4 then .next (acceptDev ctx s).bump
  else .next (acceptQueue ctx src s).bump

/-- Every workgroup of a launch, at once. -/
def startAll (lid : Nat) (l : Launch) (s : State) : Option State :=
  (List.range (l.rec_.w * l.rec_.h)).foldl (fun o vc => (List.range (l.rec_.share vc)).foldl (fun o _ => o.bind (startWorkgroup lid vc)) o) (some s)

/-- WORKGROUP_START (21 R357, R359, R373): the next workgroup of a virtual core, or the whole of a co-resident launch. -/
def execWorkgroupStart (lid vcore : Nat) (s : State) : Answer :=
  match sget lid s.launches with
  | none => .next s
  | some l =>
    let x := s.ctx l.ctx
    if x.st != .running || (x.hold && l.dev.isNone) || !decide (vcore < l.rec_.w * l.rec_.h) || !decide ((l.started[vcore]?).getD 0 < l.rec_.share vcore) then .next s
    else .next (((if l.rec_.cor then startAll lid l s else startWorkgroup lid vcore s).getD s).bump)

/-- 21 R370: a launch is complete. -/
def launchOver (s : State) (lid : Nat) (l : Launch) : Bool :=
  ((l.started.zipIdx).all fun (n, c) => n == l.rec_.share c) && s.groups.all (fun p => p.2.lid != lid) && s.conts.all (fun p => p.2.lid != lid) &&
  s.copies.all (fun p => p.2.lid != lid) && (s.ctx l.ctx).comms.all (fun p => p.2.insts.all fun i => i.lid != lid) &&
  s.tasks.all fun p => p.2.lid != lid || p.2.st == .free

/-- LAUNCH_COMPLETE (21 R370; 23 R401): counted in its queue, or signalling its task. -/
def execLaunchComplete (lid : Nat) (s : State) : Answer :=
  match sget lid s.launches with
  | none => .next s
  | some l =>
    if (s.ctx l.ctx).st != .running || !launchOver s lid l then .next s
    else
      let s1 := { s with launches := serase lid s.launches }
      match l.dev with
      | none => .next (s1.updCtx l.ctx fun x => x.updQueue l.queue (LQueue.finish l.index))
      | some _ => .next (match l.task with | some (core, n) => signalTask core n s1 | none => s1)

end Sys2Proof.Machine
end

