-- ==== Sys2Proof/Machine/Message.lean ====
section
/-! DEFINITION. Messages between cores: MSGPUT, MSGTAKE, credits and the arrival of appends (04 R84 to R90; 12 R264 to R266). -/

namespace Sys2Proof.Machine

/-! ## Credits (04 R87, R88) -/

/-- Write them back. -/
def State.setLines (part core : Nat) (l : List Credit) (s : State) : State := { s with credits := sput [] (part * 64 + core) l s.credits }
/-- Change the line for a target. -/
def mapLine (core q : Nat) (f : Credit → Credit) (l : List Credit) : List Credit := l.map fun c => if c.core == core && c.q == q then f c else c

/-- 04 R87 step 4: unreserved entries go to the held requests, oldest first, each at most 4. -/
def serveHeld (part core q : Nat) (s : State) : State :=
  (s.mq part core q).held.foldl (fun s src =>
    let m := s.mq part core q; let n := min 4 m.unreserved
    if m.en && n != 0 then sendMsg (.grant part src core q n false) (s.setMq part core q { m with reserved := m.reserved + n, held := m.held.drop 1 }) else s) s

/-- Gangs of a core that wait for a credit of a queue may try again. -/
def wakeCredit (part src core q : Nat) (s : State) : State := wakeHeld (fun g => g.part == part && g.core == src) (· == .credit core q) s

/-- 04 R87 step 3: a core asks for credits: through its line, or a new one; a line beyond the sixteenth waits for CREDIT_RETURN first. -/
def askCredit (part src core q : Nat) (s : State) : State :=
  let ls := s.lines part src
  match lineOf core q ls with
  | some c =>
    if c.asked || decide (16 ≤ (ls.findIdx fun c => c.core == core && c.q == q)) then s
    else sendMsg (.request part src core q) (s.setLines part src (mapLine core q (fun c => { c with asked := true }) ls))
  | none =>
    let s1 := s.setLines part src (ls ++ [⟨core, q, 0, false, decide (ls.length < 16), s.clk⟩])
    if ls.length < 16 then sendMsg (.request part src core q) s1 else s1

/-- CREDIT_REQUEST (04 R87 step 3, R88). -/
def execCreditRequest (msg : Nat) (s : State) : Answer :=
  match sget msg s.msgs with
  | some (.request part src core q) =>
    let s1 := { s with msgs := serase msg s.msgs }
    let m := s1.mq part core q
    if !m.en then .next (sendMsg (.grant part src core q 4 true) s1)
    else if m.held.contains src then .next s1
    else .next (serveHeld part core q (s1.setMq part core q { m with held := m.held ++ [src] }))
  | _ => .next s

/-- 04 R87 steps 4, 5: credits that go back to their target: void ones reserved nothing. -/
def giveBack (part core q n : Nat) (void : Bool) (s : State) : State :=
  if void then s else let m := s.mq part core q; serveHeld part core q (s.setMq part core q { m with reserved := m.reserved - n })

/-- CREDIT_GRANT (04 R87 step 3, R88): the credits enter the line that asked; where it has been given up since, they go back. -/
def execCreditGrant (msg : Nat) (s : State) : Answer :=
  match sget msg s.msgs with
  | some (.grant part src core q n v) =>
    let s1 := { s with msgs := serase msg s.msgs }
    let ls := s1.lines part src
    if ((lineOf core q (ls.take 16)).map (·.asked)).getD false then
      .next (wakeCredit part src core q (s1.setLines part src (mapLine core q (fun c => { c with count := c.count + n, void := v, asked := false }) ls)))
    else .next (giveBack part core q n v s1)
  | _ => .next s

/-- 04 R87 step 5: the least recently used of a core's sixteen lines. DESIGN CHOICE (log 59): a line is used when it is made and at each send; a failed MSGPUT.try and a grant are no use of it. -/
def oldestLine (ls : List Credit) : Option Credit :=
  (ls.take 16).foldl (fun (b : Option Credit) c => match b with | none => some c | some d => if c.used < d.used then some c else some d) none

/-- CREDIT_RETURN (04 R87 step 5): a core that needs a seventeenth line gives back the unused count of its least recently used one, and the line that waited sends its request. -/
def execCreditReturn (part core : Nat) (s : State) : Answer :=
  let ls := s.lines part core
  if ls.length ≤ 16 then .next s
  else
    match oldestLine ls with
    | none => .next s
    | some c =>
      let rest := ls.filter fun d => !(d.core == c.core && d.q == c.q)
      let s2 := wakeCredit part core c.core c.q ((giveBack part c.core c.q c.count c.void s).setLines part core rest)
      .next (match rest[15]? with | some n => askCredit part core n.core n.q s2 | none => s2)

/-! ## Appends (04 R85, R86, R88 to R90; 02 R46) -/

/-- A context of a partition is being killed (02 R46). -/
def partKilling (s : State) (part : Nat) : Bool := (List.range 16).any fun k => (s.ctx (part * 16 + k)).st == .killing

/-- MSGPUT_APPEND: written at TAIL, dropped, or discarded; one group's appends to one queue keep their order (R89). DESIGN CHOICE (log 59): SIG signals the task that TASK names on the queue's core when it lies in the partition's range, and none outside it (27 R447).
DESIGN CHOICE (log 68): ordinary credits that are out when the queue is disabled stay valid across a new LG or a new pointer. -/
def execMsgputAppend (msg : Nat) (s : State) : Answer :=
  match sget msg s.msgs with
  | some (.append part gid core q v data) =>
    if s.msgs.any (fun p => decide (p.1 < msg) && (match p.2 with | .append pt g c k _ _ => pt == part && g == gid && c == core && k == q | _ => false)) then .next s
    else
      let s1 := { s with msgs := serase msg s.msgs }
      let m := s1.mq part core q
      let m := if v then m else { m with reserved := m.reserved - 1 }
      if partKilling s part then .next (serveHeld part core q (s1.setMq part core q m))
      else if !m.en || v then .next (s1.setMq part core q m.drop)
      else
        let at_ := m.place m.tail.toNat
        let s2 := (data.zipIdx).foldl (fun s (w, k) => writeSpad part core (at_ + 4 * k) 4 w.val.toNat w.poison 0 s) s1
        let s3 := s2.setMq part core q { m with ptr := (m.tail + 1) ++ m.head }
        .next (if m.sig && (s.part part).hasTask m.task then signalTask core m.task s3 else s3)
  | _ => .next s

/-! ## MSGPUT and MSGTAKE -/

/-- The core of a virtual core of the group's launch. -/
def coreAt (s : State) (g : Group) (x y : Nat) : Option Nat :=
  match sget g.lid s.launches with
  | some l => if x < l.rec_.w && y < l.rec_.h then l.map[x + y * l.rec_.w]? else none
  | none => none

/-- A predicate in every acting lane, latency 2 clk. -/
def predAll (e : Env) (p : Nat) (v : Bool) (g : Group) : Group := e.lanes.foldl (fun g L => g.writePred e.s 2 p L v false) g

/-- MSGPUT. -/
def execMsgput (w : WA) (s : State) : Answer :=
  let try_ := w.mod.getLsbD 0; let n := (w.imm.extractLsb' 0 4).toNat
  runInstr (.msgput w) w.g ⟨[(w.opnd, 1, false), (w.base, 16, false)], [], [], if try_ then [n] else [], true⟩
    (fun e =>
      match e.leader with
      | none => if !(Instr.msgput w).ownOk then .halt cOPERAND 0 0 0 else .done e.g e.s
      | some L =>
        let bad := poisonLanes e [(w.opnd, 1), (w.base, 16)]
        let t := (e.r32 w.opnd L).w
        let q := (t.extractLsb' 0 2).toNat
        if !bad.isEmpty && e.sr.trapPoison then .trap cPOISON (lanesMask bad) 0
        else if !(Instr.msgput w).ownOk || t.extractLsb' 18 14 != 0 then .halt cOPERAND 0 0 0
        else
          match coreAt e.s0 e.g0 (t.extractLsb' 2 8).toNat (t.extractLsb' 10 8).toNat with
          | none => .halt cOPERAND 0 0 0
          | some core =>
            let ls := e.s0.lines e.part e.g0.core
            let g := e.g.notePoison e.s 2 bad
            match lineOf core q ls with
            | some c =>
              if c.count == 0 then missing e try_ n core q g
              else
                let s1 := e.s.setLines e.part e.g0.core (mapLine core q (fun c => { c with count := c.count - 1, used := e.s.clk }) ls)
                let data := (List.range 16).map fun k => let x := e.rc w.base L k; (⟨x.get, x.poison⟩ : PWord)
                .done (if try_ then predAll e n true g else g) (sendMsg (.append e.part e.gid core q c.void data) s1)
            | none => missing e try_ n core q g) s
where
  /-- No credit: a request goes out; MSGPUT.try fails at once, MSGPUT stalls (04 R88). -/
  missing (e : Env) (try_ : Bool) (n core q : Nat) (g : Group) : Act :=
    let s := askCredit e.part e.g0.core core q
    if try_ then .done (predAll e n false g) (s e.s) else e.keepBack (.credit core q) (s e.s0)

/-- MSGTAKE. -/
def execMsgtake (w : WA) (s : State) : Answer :=
  let q := (w.imm.extractLsb' 0 2).toNat; let n := (w.imm.extractLsb' 2 4).toNat
  let ctr := if w.mod.getLsbD 8 then 1 else 0
  runInstr (.msgtake w) w.g ⟨[], [], [(w.opnd, 16)], [n], false⟩
    (fun e =>
      let core := e.g0.core; let m := e.mqSeen q
      let preds (v : Bool) : List (Nat × RegCell) := if n = 15 then [] else e.lanes.map fun L => (keyP L n, cell (if v then 1 else 0) false)
      if e.full ctr then .stall e.s0
      else if e.lanes.isEmpty || !m.en || m.entries == 0 then pendResult e ctr (preds false) [] e.g e.s
      else
        let at_ := m.place m.head.toNat
        let ws := (List.range 16).map fun k => let p := spadPWord e.s0 e.part core (at_ + 4 * k); cell p.val p.poison
        let s1 := serveHeld e.part core q (e.s.setMq e.part core q { e.s0.mq e.part core q with ptr := m.tail ++ (m.head + 1) })
        pendResult e ctr (dstWrites w.opnd (e.lanes.map fun L => ⟨L, ws⟩) ++ preds true) [] e.g s1) s

end Sys2Proof.Machine
end

