-- ==== Sys2Proof/Machine/Sequencer.lean ====
section
/-! DEFINITION. The matrix sequencer and the drain unit as they move: the start of an operation, a k-step, a drain row, a completion (14 R280 to R288; 15 R289, R306 to R310). -/

namespace Sys2Proof.Machine

/-- The tiles an operation names. -/
def SeqKind.tiles : SeqKind → List Nat
  | .loop _ t x _ _ _ _ ta _ _ nodrain _ _ => [t, t + 1] ++ (if nodrain then [] else [x, x + 1]) ++ ta.toList
  | .drain t x _ _ _ _ => [t, t + 1, x, x + 1]
  | .mzero t _ => [t, t + 1]
  | .mlda t _ _ | .msta t _ _ => [t]
  | .accrd t _ _ _ _ _ | .accwr t _ _ _ _ => [t, t + 1]
  | .pvapply t _ _ _ => [t, t + 1]
  | .pvmov _ t _ _ _ => [t]
  | .epload _ _ _ => []
  | .fac _ _ t b _ _ _ _ _ _ _ _ => [t, t + 1, b, b + 1]

/-- Operations that are performed whole once they are at the head. -/
def SeqKind.short : SeqKind → Bool
  | .loop .. | .drain .. | .fac .. => false
  | _ => true

/-- The operation a quadrant's sequencer may begin: the first queued one, when none runs and no drain still works on its tiles (14 R280, R281). While a context stops, the short ones at the head are still performed, and with them an ACCRD that waits behind nothing else (25 R419). -/
def seqReady (s : State) (q : Nat) : Option SeqOp :=
  let l := (s.queue q).filter fun o => (s.ctx o.ctx).st.stopsOrRuns
  if l.any (·.phase == 1) then none
  else
    match l.find? (·.phase == 0) with
    | none => none
    | some op =>
      if (s.ctx op.ctx).st != .running && !op.kind.short then none
      else if l.any (fun o => o.phase == 2 && o.gid == op.gid && o.kind.tiles.any op.kind.tiles.contains) then none else some op

/-- The initial accumulator of every output element (14 R267; 07 R139). -/
def startElems (g : Group) (wide : Bool) (t : Nat) : List ElemAcc :=
  (List.range 64).flatMap fun i => (List.range 64).map fun j => let v := g.elemAt wide t i j; ElemAcc.start v.val v.poison

/-- The flat list of places of a tile. -/
def tilePlaces : List (Nat × Nat) := (List.range 64).flatMap fun i => (List.range 64).map fun j => (i, j)

/-- 14 R284: MLDA. -/
def loadTile (s : State) (old : List SpadView) (id t off pitch : Nat) (g : Group) : Group :=
  (List.range 64).foldl (fun g i =>
    let row := raced s old (raceKey id 0 0 i) fun s => (List.range 64).map fun j => let w := spadPWord s g.part g.core (off + i * pitch + 4 * j); ⟨w.val.setWidth 64, w.poison⟩
    row.zipIdx.foldl (fun g (v, j) => g.putTile t i j ⟨v.val.setWidth 32, v.poison, 0⟩) g) g
/-- 14 R282, R284: the stores of MSTA, but for a word that has been written since the operation issued and may keep that later value. -/
def tileStores (s : State) (g : Group) (old : List SpadView) (id t off pitch : Nat) : List SeqStore :=
  let later (o : Nat) : Bool := old.any fun v => spadPWord s g.part g.core o != spadPWord { s with spad := v.bytes, spadPoison := v.marks } g.part g.core o
  tilePlaces.filterMap fun (i, j) =>
    let c := g.tileAt t i j; let o := off + i * pitch + 4 * j
    if later o && s.coin (raceKey id 1 0 i + j) then none else some ⟨true, o, 4, c.val.toNat, c.poison, 0⟩

/-- 14 R284: the tile column of lane L and half k of ACCRD and ACCWR. -/
def accCol (wide : Bool) (h t L k : Nat) : Nat × Nat := if wide then (t + k, 32 * h + L) else (t, 2 * L + k)

/-- 14 R284: PVAPPLY on one tile. -/
def applyPv (t m : Nat) (inv : Bool) (g : Group) : Group :=
  (List.range 64).foldl (fun h i =>
    let e := g.pvAt m i; let r := pvRow e
    (List.range 64).foldl (fun h j =>
      let c := g.tileAt t (if inv then i else r) j
      h.putTile t (if inv then r else i) j ⟨c.val, c.poison || e.poison, 0⟩) h) g

/-- 14 R284: PVMOV. -/
def movPv (form t row d src : Nat) (g : Group) : Group :=
  (List.range 64).foldl (fun h i =>
    match form with
    | 0 => h.putPv d i (g.pvAt src i)
    | 1 => h.putPv d i ⟨BitVec.ofNat 32 i, false, 0⟩
    | 2 => h.putTile t row i (let c := g.pvAt src i; tileCell c.val c.poison)
    | _ => h.putPv d i (let c := g.tileAt t row i; cell (BitVec.ofNat 32 (c.val.toNat % 64)) c.poison)) g

/-- 15 R306, R307: the slots EPLOAD writes; until it completes a word may still be read as it was before. -/
def loadSlots (s : State) (id part core slot n off : Nat) : State :=
  (List.range (16 * n)).foldl (fun s k =>
    let key := core * 4096 + slot * 16 + k; let w := spadPWord s part core (off + 4 * k)
    { s with slots := sput 0 key (if w.poison then 0 else w.val) s.slots
             slotOld := sset key ((id, sgetD 0 key s.slots) :: sgetD [] key s.slotOld) s.slotOld }) s
/-- An EPLOAD has completed: what the words were before it is gone. -/
def forgetSlots (id : Nat) (s : State) : State :=
  { s with slotOld := (s.slotOld.map fun p => (p.1, p.2.filter fun x => x.1 != id)).filter fun p => !p.2.isEmpty }

/-- SEQUENCER_OP_START (14 R280, R284 to R286; 15 R293, R306; 18 R327): the next operation begins; the short ones are performed whole. -/
def execSequencerOpStart (quad : Nat) (s : State) : Answer :=
  match seqReady s quad with
  | none => .next s
  | some op =>
    match s.group? op.gid with
    | none => .next (dropOp quad op.id s)
    | some g =>
      let quick (g' : Group) (s' : State) : Answer := .next (dropOp quad op.id (s'.setGroup op.gid g'))
      let counted (g' : Group) (s' : State) : Answer := .next (putOp quad { op with phase := 3 } (s'.setGroup op.gid g'))
      match op.kind with
      | .loop conv t _ _ _ fa _ _ _ _ nodrain d _ =>
        let wide := fa == 0
        let begin_ (dp : Option DrainData) (s : State) : Answer := .next (putOp quad { op with phase := 1, elems := startElems g wide t, dpb := dp } s)
        if nodrain then begin_ none s
        else
          match readDpb op g wide (loopDesc d).dpb s with
          | .wait s => .next s
          | .fault c dt a s => .next (engineHalt op (fun r => { r with kleft := loopSteps conv fa d }) 2 4 c dt a s).bump
          | .ok x s => begin_ (some x) (dropWaits false op.id s)
      | .drain _ _ k _ dpb _ =>
        (match readDpb op g (k == 2) dpb s with
         | .wait s => .next s
         | .fault c dt a s => .next (engineHalt op (fun r => r) 2 4 c dt a s).bump
         | .ok x s => .next (putOp quad { op with phase := 2, dpb := some x } (dropWaits false op.id s)))
      | .mzero t wide => quick (tilePlaces.foldl (fun g (i, j) => g.putElem wide t i j pv0) g) s
      | .mlda t off pitch => counted (loadTile s op.old op.id t off pitch g) s
      | .msta t off pitch =>
        let r := SeqStore.make g.part g.core (storeKey op.id 0) (tileStores s g op.old op.id t off pitch) ([], s)
        .next (putOp quad { op with phase := 3, pend := r.1 } r.2)
      | .accrd t row wide h lanes vp =>
        let ws := lanes.flatMap fun (L, k0, k1) => [(k0, accCol wide h t L 0), (k1, accCol wide h t L 1)].map fun (key, tc) => (key, let c := g.tileAt tc.1 row tc.2; cell c.val c.poison)
        quick { g with vp := g.vp.map fun v => if v.id == vp then { v with known := true, writes := ws } else v } s
      | .accwr t row wide h cells =>
        quick (cells.foldl (fun g (L, c0, c1) =>
          let a := accCol wide h t L 0; let b := accCol wide h t L 1
          (g.putTile a.1 row a.2 (tileCell c0.val c0.poison)).putTile b.1 row b.2 (tileCell c1.val c1.poison)) g) s
      | .pvapply t m wide inv => let g1 := applyPv t m inv g; quick (if wide then applyPv (t + 1) m inv g1 else g1) s
      | .pvmov form t row d src => quick (movPv form t row d src g) s
      | .epload slot n off => counted g (loadSlots s op.id g.part g.core slot n off)
      | .fac which wide t _ pv _ _ _ _ _ _ _ =>
        if op.row == 1 then .next (putOp quad { op with phase := 1 } s)
        else
          let am := if which == 0 || which == 2 then amaxScan wide t g else pv0
          let g1 := if which == 0 then (List.range 64).foldl (fun g i => g.putPv pv i ⟨BitVec.ofNat 32 i, false, 0⟩) g else g
          .next (putOp quad { op with phase := 1, amax := am.val, amaxPoison := am.poison } (s.setGroup op.gid g1))

/-- K_STEP (14 R267 to R277, R288): one k-step of the running loop, whole; after the last the elements enter the tile, and of a loop with none (an MCONV over no channel) they enter it as they started. -/
def execKStep (quad : Nat) (s : State) : Answer :=
  match (s.queue quad).find? fun o => o.phase == 1 && (s.ctx o.ctx).st == .running with
  | none => .next s
  | some op =>
    match op.kind, s.group? op.gid with
    | .loop conv t _ _ p fa fb ta sa sb nodrain d _, some g =>
      let e := eph (g.sr.ctr.toNat % 256); let n := loopSteps conv fa d; let k := op.kdone
      let as_ := (List.range 64).map fun i => rowA s op.old op.id g e conv fa ta sa d k i
      let bs := (List.range 64).map fun j => rowB s op.old op.id g e fb sb d k j
      let els := if n == 0 then op.elems else ((as_.flatMap fun a => bs.map fun b => (a, b)).zip op.elems).map fun ((a, b), x) => elemStep e fa p k a b x
      let g1 := if n == 0 then g else g.owe op.tok (as_.foldl (fun f a => f ||| a.flags) 0)
      if k + 1 < n then .next (putOp quad { op with kdone := k + 1, elems := els } (s.setGroup op.gid g1))
      else
        let wide := fa == 0
        let g2 := (tilePlaces.zip els).foldl (fun (g : Group) ((i, j), x) => let r := elemEnd e fa x; (g.putElem wide t i j r.1).owe op.tok r.2) g1
        .next (putOp quad { op with kdone := n, elems := [], phase := if nodrain then 3 else 2 } (s.setGroup op.gid g2))
    | _, _ => .next s

/-- 15 R310: a row whose stores are on their way is finished even while its context stops. -/
def rowBegun (s : State) (op : SeqOp) : Bool := op.phase == 2 && s.waits.any fun w => !w.dist && w.op == op.id && w.k != noAccess

/-- DRAIN_ROW (15 R289, R309, R310): one row of the drain under way. -/
def execDrainRow (quad : Nat) (s : State) : Answer :=
  match (s.queue quad).find? fun o => o.phase == 2 && ((s.ctx o.ctx).st == .running || ((s.ctx o.ctx).st.stopsOrRuns && rowBegun s o)) with
  | none => .next s
  | some op =>
    match s.group? op.gid, op.dpb with
    | some g, some d =>
      let run (kind : UKind) (t x slot : Nat) (prog : List Word) : Answer :=
        match drainRow op g kind t x prog d s with
        | .wait s => .next s
        | .fault u c a s1 => .next (engineHalt op (fun r => { r with row := op.row, slot := slot, uop := u, tile := t }) 3 8 0x32 c a (putOp quad { op with pend := [] } s1)).bump
        | .done g1 pend s1 => .next (putOp quad { op with row := op.row + 1, phase := if op.row == 63 then 3 else 2, pend := pend } (s1.setGroup op.gid g1)).bump
      match op.kind with
      | .loop _ t x slot _ fa _ _ _ _ _ _ prog => run (drainKind (tileKind fa)) t x slot prog
      | .drain t x k slot _ prog => run (drainKind k) t x slot prog
      | _ => .next s
    | _, _ => .next s

/-- MATRIX_OP_COMPLETE (14 R287; 03 R70): the oldest operation of a group on wm completes, once its work is done and its stores are performed. -/
def execMatrixOpComplete (gid : Nat) (s : State) : Answer :=
  match s.group? gid with
  | none => .next s
  | some g =>
    match g.oldest 2 with
    | none => .next s
    | some t =>
      match (s.queue g.quad).find? fun o => o.tok == t.id && o.gid == gid && o.phase == 3 with
      | none => .next s
      | some op =>
        let s1 := forgetSlots op.id (op.pend.foldl (SeqStore.perform g.part g.core) s)
        .next (completeTok gid 2 t.id (dropOp g.quad op.id s1))

end Sys2Proof.Machine
end

