-- ==== Sys2Proof/Machine/Context.lean ====
section
/-! DEFINITION. Contexts: halt, resume, save, restore, kill, the commands of the host and the events that carry them out (25 R418 to R429; 27 R442; 02 R44 to R46). -/

namespace Sys2Proof.Machine

/-! ## The units that hold work of a context -/

/-- The groups of a context. -/
def ctxGroups (s : State) (c : Nat) : List (Nat × Group) := s.groups.filter fun p => p.2.ctx == c
/-- The sequencer operations of a context, each with its quadrant. -/
def ctxOps (s : State) (c : Nat) : List (Nat × SeqOp) := s.seqs.flatMap fun p => (p.2.filter fun o => o.ctx == c).map fun o => (p.1, o)
/-- The copies of a context. -/
def ctxCopies (s : State) (c : Nat) : List (Nat × CopyOp) := s.copies.filter fun p => p.2.ctx == c
/-- The partition of a message. -/
def Msg.part : Msg → Nat
  | .append p _ _ _ _ _ => p
  | .request p _ _ _ => p
  | .grant p _ _ _ _ _ => p
/-- Every remote access of a context has been answered (02 R45). -/
def answered (s : State) (c : Nat) : Bool := (ctxGroups s c).all (fun p => p.2.remote.all (·.resp.isSome)) && s.waits.all fun w => w.resp.isSome || w.ctx != c
/-- 25 R419, R420: every producer has written its result and every write issued has been performed; the sequencer has come to an operation that stops without completing, behind which an ACCRD may wait; a copy's row (05 R105), a drain row (15 R310) and a chunk (19 R351) that have begun and a growth estimate (26 R435) are finished, and what a group has stored behind a node index is answered. -/
def quiet (s : State) (c : Nat) : Bool :=
  (ctxGroups s c).all (fun p => p.2.vp.all (fun v => !v.known) && p.2.late.all fun x => x.vp == 0) && answered s c && s.msgs.all (fun p => p.2.part != partOf c) &&
  ((ctxCopies s c).all fun p => !copyBegun s p.1) && ((s.ctx c).comms.all fun p => p.2.insts.all fun i => !merBegun s i) && (ctxOps s c).all fun p => !rowBegun s p.2 && (facGrowing s p.1).isNone && (seqReady s p.1).isNone

/-- A gang stops: it gives up its stream, and a SLEEP ends (22 R385). -/
def stopGang (clk : Nat) (a : Gang) : Gang := { a with stream := none, since := clk, wakeAt := 0, hold := match a.hold with | .sleep _ | .sleepTsc _ => .free | h => h }
/-- Every store of a sequencer operation is performed. -/
def settleOp (q : Nat) (op : SeqOp) (s : State) : State :=
  if op.pend.isEmpty then s else putOp q { op with pend := [] } (op.pend.foldl (SeqStore.perform (partOf op.ctx) (coreOf q)) s)
/-- The late accesses of a context's groups, and what its engines have begun and not performed, are performed. -/
def settleCtx (c : Nat) (s : State) : State :=
  let s1 := (ctxGroups s c).foldl (fun s p => settleGroup (fun _ => true) p.1 s) s
  let s2 := (ctxCopies s1 c).foldl (fun s p => settleCopy p.1 s) s1
  let s3 := (ctxOps s2 c).foldl (fun s p => settleOp p.1 p.2 s) s2
  (s3.ctx c).comms.foldl (fun s p => p.2.insts.foldl (fun s i => settleInst c p.1 i s) s) s3
/-- The groups of a context stop at their instruction boundaries, with every access that has issued performed (03 R59; 25 R419). -/
def stopGroups (c : Nat) (s0 : State) : State :=
  let s := settleCtx c s0
  { s with groups := s.groups.map fun p => if p.2.ctx == c then (p.1, { p.2 with gangs := p.2.gangs.map (stopGang s.clk) }) else p }

/-! ## Stop records (25 R422, R423) -/

/-- The progress that a sequencer operation records: k-steps left for the matrix sequencer, row, slot and tile for the drain unit, column or step for a factorisation (25 R419); other fields stay zero (R422). -/
def seqProgress (op : SeqOp) (r : StopRec) : StopRec :=
  match op.kind with
  | .loop conv t _ slot _ fa _ _ _ _ _ d _ => if op.phase == 2 then { r with row := op.row, tile := t, slot := slot } else { r with kleft := loopSteps conv fa d - op.kdone }
  | .drain t _ _ slot _ _ => if op.phase == 2 then { r with row := op.row, tile := t, slot := slot } else r
  | .fac which _ _ _ _ _ _ up tr .. => { r with col := if which == 3 && up != tr then 63 - op.kdone else op.kdone }
  | _ => r

/-- The records of the units that raised nothing. A unit stopped by another's cause carries none (22 R386's runtime reads cause 0x40 as its own call). DESIGN CHOICE (log 67): of several
copies on a core the one copy-engine record shows the lowest-numbered operation's row. -/
def haltRecs (s : State) (c : Nat) : List StopRec :=
  let x := s.ctx c; let cause := if x.redist then 0x50 else 0; let detail := if x.redist then 0 else x.haltBy
  let have_ (kind : Nat) (r : StopRec) : Bool := x.recs.any fun y => y.kind == kind && (kind == 5 || y.src == r.src) && y.unit == r.unit
  let gs := (ctxGroups s c).map fun p => groupRec s p.1 (((p.2.gangs.headD default).slices).headD 0) cause detail 0 0 false
  let quads := (ctxOps s c).map (·.1) |>.eraseDups
  let eng (kind engine : Nat) (want : SeqOp → Bool) : List StopRec := quads.filterMap fun q =>
    (((ctxOps s c).filter fun p => p.1 == q && want p.2).head?).map fun p => seqProgress p.2 { engineRec s p.2 kind engine cause detail 0 with first := false }
  let cores := (ctxCopies s c).map (·.2.core) |>.eraseDups
  let cps := cores.filterMap fun k => ((ctxCopies s c).find? fun p => p.2.core == k).map fun p =>
    let lr := launchRef s p.2.lid
    let g := (s.group? p.2.gid)
    { StopRec.blank s.tsc with src := srcNum k 0xC, kind := 4, cause := cause, detail := detail, crow := p.2.row, dev := lr.1, lref := lr.2, grp := (g.map (·.grp)).getD 0, quad := (g.map fun g => g.quad % 4).getD 0, wg := (g.map (·.wIndex)).getD 0 }
  let mer := (s.ctx c).comms.filterMap fun p => (merOf s c p.1).map fun k =>
    let lr := launchRef s k.i.lid
    let g := (s.group? k.i.gid)
    { StopRec.blank s.tsc with src := k.src s, kind := 5, cause := cause, detail := detail, crow := k.nextChunk, dev := lr.1, lref := lr.2, grp := (g.map (·.grp)).getD 0, quad := (g.map fun g => g.quad % 4).getD 0, wg := (g.map (·.wIndex)).getD 0, unit := p.1 }
  (gs.filter fun r => !have_ 1 r) ++ ((eng 2 4 fun o => o.phase ≤ 1).filter fun r => !have_ 2 r) ++ ((eng 3 8 fun o => o.phase == 2).filter fun r => !have_ 3 r) ++
    (cps.filter fun r => !have_ 4 r) ++ (mer.filter fun r => !have_ 5 r)

/-- What a halt's records come to: the state, the cause and the SEQ of the FIRST record. -/
structure Halted where
  s : State
  cause : Nat
  seq : Nat
  src : Nat
deriving Repr

/-- 25 R423: the records of a halt take their SEQ in ascending TS and are written. -/
def writeHalt (c : Nat) (s : State) : Halted :=
  let x := s.ctx c
  let all := (x.recs ++ haltRecs s c).foldl (fun l r => recInsert r l) []
  let s1 := all.foldl (fun s r => writeRec c r s) s
  match (all.zipIdx).find? fun p => p.1.first with
  | some (r, k) => ⟨s1, r.cause, (x.stopseq + BitVec.ofNat 32 k).toNat, r.src⟩
  | none => ⟨s1, if x.redist then 0x50 else 0, if all.isEmpty then 0 else x.stopseq.toNat, srcNum 0 0xF⟩

/-! ## What a switch-out saves and a switch-in restores (25 R426) -/

/-- The cores on which a partition holds a quadrant. -/
def grantCores (p : Part) : List Nat := (List.range 64).filter fun c => (List.range 4).any fun k => p.hasQuad (4 * c + k)
/-- The address of a context's save area (25 R424). -/
def saveArea (x : Ctx) : Nat := (x.savebase.extractLsb' 12 40).toNat * 4096
/-- 25 R426: the bytes of the save area, whose format is not given. -/
def writeSave (c : Nat) (s : State) : State :=
  let at_ := saveArea (s.ctx c); let n := 4096 * (s.part (partOf c)).savePages.toNat
  (writeByteList at_ ((List.range n).map (Config.saveByte s.free)) (agentPass (partOf c) at_ n true s)).updCtx c fun x => { x with image := some (s.free, n) }
/-- The partition holds the bank set of a scratchpad byte, of a mark (4 bytes) or of a stamp (64 bytes). -/
def Part.ownsSpad (p : Part) (unit key : Nat) : Bool := let a := key * unit; p.spsets.getLsbD (a / 0x800000 * 8 + a % 0x800000 / 0x100000)
/-- The partition holds an element-program slot (04 R291). -/
def Part.ownsSlot (p : Part) (key : Nat) : Bool := decide (p.slotlo ≤ key % 4096 / 16) && decide (key % 4096 / 16 < p.slotlo + p.slotn)

/-- The entries of one core, with keys counted from its base. -/
def coreCut {α : Type} (own : Nat → Bool) (span core : Nat) (m : Sparse α) : Sparse α := (m.filter fun p => p.1 / span == core && own p.1).map fun p => (p.1 % span, p.2)
/-- Replace the entries a partition owns on its cores by those saved. -/
def corePut {α : Type} (own : Nat → Bool) (span : Nat) (cores : List Nat) (parts : List (Nat × Sparse α)) (m : Sparse α) : Sparse α :=
  parts.foldl (fun m q => q.2.foldl (fun m e => sset (q.1 * span + e.1) e.2 m) m) (m.filter fun p => !(cores.contains (p.1 / span) && own p.1))

/-- Everything on the partition's cores that belongs to its context. -/
def saveOut (s : State) (part : Nat) : List SavedCore :=
  let p := s.part part
  (grantCores p).map fun k => ⟨k, coreCut (p.ownsSpad 1) 0x800000 k s.spad, coreCut (p.ownsSpad 4) 0x200000 k s.spadPoison, coreCut (p.ownsSpad 64) 0x20000 k s.spadStamp,
    coreCut p.ownsSlot 4096 k s.slots, coreCut (fun n => p.hasTask (n % 1024)) 1024 k s.tasks, (List.range 4).map fun q => (q, s.mq part k q), s.lines part k⟩

/-- The partition's cores as saved; what is not saved is at its reset value (log entry 11). -/
def swapIn (part : Nat) (saved : List SavedCore) (s : State) : State :=
  let p := s.part part; let cores := grantCores p
  let s1 : State := { s with
    spad := corePut (p.ownsSpad 1) 0x800000 cores (saved.map fun k => (k.core, k.spad)) s.spad
    spadPoison := corePut (p.ownsSpad 4) 0x200000 cores (saved.map fun k => (k.core, k.spadPoison)) s.spadPoison
    spadStamp := corePut (p.ownsSpad 64) 0x20000 cores (saved.map fun k => (k.core, k.spadStamp)) s.spadStamp
    slots := corePut p.ownsSlot 4096 cores (saved.map fun k => (k.core, k.slots)) s.slots
    slotOld := s.slotOld.filter fun e => !(cores.contains (e.1 / 4096) && p.ownsSlot e.1)
    tasks := corePut (fun n => p.hasTask (n % 1024)) 1024 cores (saved.map fun k => (k.core, k.tasks)) s.tasks
    mqs := s.mqs.filter fun e => e.1 / 256 != part
    credits := s.credits.filter fun e => e.1 / 64 != part }
  saved.foldl (fun s k => (k.mqs.foldl (fun s m => s.setMq part k.core m.1 m.2) s).setLines part k.core k.credits) s1

/-! ## The core map (23 R407, R410, R411; 25 R429) -/

/-- The partition holds the same grants on two cores. -/
def sameGrants (p : Part) (a b : Nat) : Bool := ((List.range 4).all fun k => p.hasQuad (4 * a + k) == p.hasQuad (4 * b + k)) && p.sets a == p.sets b
/-- The cores on which a context has a virtual core. -/
def mappedCores (s : State) (c : Nat) : List Nat := ((s.launches.filter fun l => l.2.ctx == c).flatMap (·.2.map)).eraseDups
/-- The cores a virtual core on `a` may move to. -/
def spareCores (s : State) (c a : Nat) : List Nat := (partCores s (partOf c)).filter fun b => b != a && sameGrants (s.part (partOf c)) a b && !(mappedCores s c).contains b

/-- An operation whose earlier views of the scratchpad are gone (log 62). -/
def SeqOp.settled (o : SeqOp) : SeqOp := { o with old := [] }

/-- Everything of a context on one core moves to another: groups, scratchpad, queues, credit lines, task and slot ranges, barriers' groups, engine operations. What stood on the target, where the context has no virtual core, is no part of it. -/
def moveCore (c a b : Nat) (s : State) : State :=
  let part := partOf c
  let mv (k : Nat) : Nat := if k == a then b else k
  let lids := (s.launches.filter fun l => l.2.ctx == c).map (·.1)
  let live := (s.ctx c).live
  let s := settleCtx c s
  let s0 := if live then s.updCtx c fun x => { x with saved := saveOut s part } else s
  let s1 : State := { s0 with
    groups := s0.groups.map fun p => if p.2.ctx == c && p.2.core == a then (p.1, { p.2 with quad := 4 * b + p.2.quad % 4 }) else p
    conts := s0.conts.map fun p => if p.2.ctx == c && coreOf p.2.quad == a then (p.1, { p.2 with quad := 4 * b + p.2.quad % 4 }) else p
    wgs := s0.wgs.map fun p => if lids.contains p.2.lid then (p.1, { p.2 with core := mv p.2.core, placedAt := if p.2.core == a then s.tsc.toNat else p.2.placedAt }) else p
    launches := s0.launches.map fun p => if p.2.ctx == c then (p.1, { p.2 with map := p.2.map.map mv, task := p.2.task.map fun t => (mv t.1, t.2) }) else p
    copies := s0.copies.map fun p => if p.2.ctx == c then (p.1, { p.2 with core := mv p.2.core, old := if p.2.core == a then [] else p.2.old }) else p
    msgs := if live then s0.msgs.map fun p => (p.1, match p.2 with
      | .append pt g k q v d => if pt == part then .append pt g (mv k) q v d else p.2
      | .request pt sr k q => if pt == part then .request pt (mv sr) (mv k) q else p.2
      | .grant pt sr k q n v => if pt == part then .grant pt (mv sr) (mv k) q n v else p.2) else s0.msgs }
  let s2 := (List.range 4).foldl (fun s k =>
    let l := s.queue (4 * a + k); let mine := l.filter fun o => o.ctx == c
    if mine.isEmpty then s else (s.setQueue (4 * b + k) (s.queue (4 * b + k) ++ mine.map SeqOp.settled)).setQueue (4 * a + k) (l.filter fun o => o.ctx != c)) s1
  let s3 := s2.updCtx c fun x => { x with
    devq := x.devq.map fun q => { q with task := q.task.map fun t => (mv t.1, t.2) }
    comms := x.comms.map fun p => (p.1, { p.2 with insts := p.2.insts.map fun i => { i with core := mv i.core } })
    saved := (x.saved.filter fun k => k.core != b).map fun k => { k with core := mv k.core, credits := (k.credits.filter fun d => d.core != b).map fun d => { d with core := mv d.core }, mqs := k.mqs.map fun m => (m.1, { m.2 with held := m.2.held.map mv }) } }
  if live then (swapIn part (s3.ctx c).saved s3).updCtx c fun x => { x with saved := [] } else s3

/-- 25 R429: every virtual core on a fenced core moves; `none` when one has nowhere to go. -/
def remap (c : Nat) (s : State) : Option State :=
  ((mappedCores s c).filter s.dev.fenced.contains).foldl (fun o a => o.bind fun s =>
    let l := spareCores s c a
    (l[s.pick (84000 + a) l.length]?).map fun b => moveCore c a b s) (some s)

/-! ## Running and leaving (25 R425; 27 R442) -/

/-- A context takes its partition. -/
def CtxSt.occupies : CtxSt → Bool
  | .running | .halting | .halted | .saving | .killing => true
  | _ => false
/-- 27 R442: some context of a partition is in one of those states. -/
def occupied (s : State) (part : Nat) : Bool := (List.range 16).any fun k => (s.ctx (part * 16 + k)).st.occupies

/-- A remote access that a group still has when it goes on: of one that writes the answer stays, for it has been made; a refusal, a word read and a word fetched are asked for anew (25 R421; 28 R452). -/
def RemoteWait.anew (r : RemoteWait) : Option RemoteWait :=
  match r.resp with
  | none => if r.slice == 64 then some { r with slice := 65 } else some r
  | some (.done _) => if r.slice == 64 || r.req.op == 0 then none else some r
  | some _ => none
/-- A group that goes on: what it has written is readable (08 R169), and an instruction that an engine queue or a want of credit kept back tries again. -/
def resumeGroup (clk : Nat) (g : Group) : Group :=
  let g1 := g.settled
  releaseHold clk (fun a => match a.hold with | .seqFull | .copyFull | .credit _ _ => true | _ => false) { g1 with remote := g1.remote.filterMap RemoteWait.anew }

/-- A context that runs again: its groups go on, its ready continuations start, an engine that goes on makes its remote accesses anew (05 R106), every core drops the instruction words that it holds for the context (28 R452), and what failed is walked again (02 R35). -/
def goRunning (c : Nat) (s : State) : State :=
  let s1 : State := { s with
    waits := s.waits.filter fun w => !(w.resp.isSome && w.ctx == c)
    dropped := sset (64 + c) s.turn s.dropped
    lookups := s.lookups.filter fun p => !(p.2.ctx == c && p.2.err != 0)
    groups := s.groups.map fun p => if p.2.ctx == c then (p.1, resumeGroup s.clk p.2) else p }
  startConts (s1.updCtx c fun x => { x with st := .running, runSince := s.tsc })

/-- 25 R421, R429: RESUME of a HALTED context, remapped where its map names a fenced core. -/
def resumeNow (c : Nat) (s : State) : State :=
  match remap c s with
  | some s1 => goRunning c s1
  | none => ctxRec c 0x50 1 false s

/-- 23 R402: what the window latched is acted on. -/
def LQueue.unlatch (q : LQueue) : LQueue := { q with base := q.latBase.getD q.base, tail := q.latTail.getD q.tail, latBase := none, latTail := none }

/-- 25 R428: a gang-scheduled start that came late. -/
def noteLate (c : Nat) (s : State) : State :=
  let x := s.ctx c
  match x.lateFrom with
  | none => s
  | some t =>
    let s1 := s.updCtx c fun x => { x with lateFrom := none }
    if s.tsc ≤ t then s1
    else pushEvent (partOf c) (srcNum 0 0xF) x.stopseq.toNat 7 0 c 0 (ctxRec c 0 0 true (s1.updCtx c fun x => { x with latens := x.latens + (s.tsc - t) }))

/-- 25 R425: KILLING: the halt line; pending records, saves and switch-ins are given up, walks end (02 R45). `by_` 1 the host, 2 HALTCTX, 3 unreadable state. -/
def killNow (c by_ : Nat) (s : State) : State :=
  let s1 := (stopGroups c s).updCtx c fun x => { x with st := .killing, recs := [], wantSave := false, haltpend := false, redist := false, haltBy := by_, devq := [], lateFrom := none, lq := x.lq.map LQueue.unlatch }
  let s2 := s1.updPart (partOf c) fun p => { p with heldIn := p.heldIn.filter fun h => h.1 != c }
  { s2 with lookups := s2.lookups.filter fun p => p.2.ctx != c }

/-- 25 R426: the save area, read at switch-in, holds the image that the switch-out wrote, nothing of it marked. -/
def imageIntact (c : Nat) (s : State) : Bool :=
  match (s.ctx c).image with
  | none => true
  | some (k, n) => let at_ := saveArea (s.ctx c); !markedMem s at_ n && readByteList s at_ n == (List.range n).map (Config.saveByte k)

/-- 25 R426: a SAVED context is restored; it runs, or is HALTED when HALTPEND says so or no core can take its work. DESIGN CHOICE (log 6): with the save area altered or marked the state is unreadable, and the context is killed as R429 has it. -/
def switchInNow (c : Nat) (sw : State) : State :=
  let s := match (sw.ctx c).image with | some (_, n) => agentPass (partOf c) (saveArea (sw.ctx c)) n false sw | none => sw
  if !imageIntact c s then killNow c 3 s
  else
  let (s0, stuck) := match remap c s with | some s1 => (s1, false) | none => (s, true)
  let x := s0.ctx c; let part := partOf c
  let s1 := readDescriptor c (writePreload part ⟨[], x.carryPre⟩ (swapIn part x.saved s0))
  let lids := (s1.launches.filter fun l => l.2.ctx == c).map (·.1)
  let s2 : State := { s1 with
    groups := s1.groups.map fun p => if p.2.ctx == c then (p.1, { p.2 with resident := true, gangs := p.2.gangs.map fun a => { a with since := s.clk } }) else p
    wgs := s1.wgs.map fun p => if lids.contains p.2.lid then (p.1, { p.2 with placedAt := s.tsc.toNat }) else p }
  let s3 := s2.updCtx c fun x => { x with st := .halted, haltpend := false, saved := [], image := none, live := true, carryPre := [], lq := x.lq.map LQueue.unlatch }
  let s4 := noteLate c s3
  if stuck then ctxRec c 0x50 1 false s4 else if x.haltpend then s4 else goRunning c s4

/-- 27 R442: held switch-ins act in arrival order once the partition is free. -/
def actHeld (part : Nat) : Nat → State → State
  | 0, s => s
  | n + 1, s =>
    match (s.part part).heldIn with
    | [] => s
    | (c, _) :: r =>
      if occupied s part then s
      else
        let s1 := s.updPart part fun p => { p with heldIn := r }
        actHeld part n (if (s1.ctx c).st == .saved then switchInNow c s1 else s1)

/-- 27 R442: a switch-in is asked for: at once, or held. `timed` when SLICEAT asks. -/
def requestIn (c : Nat) (timed : Bool) (s : State) : State :=
  let part := partOf c
  if (s.ctx c).st == .saved && !occupied s part then switchInNow c s
  else
    let s1 := if (s.part part).heldIn.any (·.1 == c) then s else s.updPart part fun p => { p with heldIn := p.heldIn ++ [(c, timed)] }
    if timed then s1.updCtx c fun x => { x with lateFrom := some x.sliceat } else s1

/-- 25 R425: a command the state does not take. -/
def badCmd (c : Nat) (s : State) : State := s.updCtx c fun x => { x with badcmd := true }

/-- A running context is switched out. -/
def startSave (c : Nat) (s : State) : State := (stopGroups c s).updCtx c fun x => { x with st := .saving }

/-- 02 R44 to R47: nothing of a killed context is left; CTXEND says so, a record of kind 0x06 with cause NONE and an event tell of it, and switch-ins that were held act. Where unreadable state is the reason, the record of R429 (0x50, DETAIL 0x02) stands before it. -/
def killedNow (ctx : Nat) (s : State) : State :=
  let x := s.ctx ctx; let part := partOf ctx
  let lids := (s.launches.filter fun l => l.2.ctx == ctx).map (·.1)
  let wks := (s.wgs.filter fun w => lids.contains w.2.lid).map (·.1)
  let s1 : State := { s with
    groups := s.groups.filter fun p => p.2.ctx != ctx
    launches := s.launches.filter fun p => p.2.ctx != ctx
    conts := s.conts.filter fun p => p.2.ctx != ctx
    wgs := s.wgs.filter fun p => !wks.contains p.1
    bars := s.bars.filter fun p => !wks.contains (p.1 / 8)
    copies := s.copies.filter fun p => p.2.ctx != ctx
    waits := s.waits.filter fun w => w.ctx != ctx
    seqs := (s.seqs.map fun p => (p.1, p.2.filter fun o => o.ctx != ctx)).filter fun p => !p.2.isEmpty
    msgs := if x.live then s.msgs.filter fun p => p.2.part != part else s.msgs }
  let s2 := if x.live then swapIn part [] s1 else s1
  let s2 := if x.haltBy == 3 then ctxRec ctx 0x50 2 false s2 else s2
  let seq := (s2.ctx ctx).stopseq.toNat
  let s3 := ctxRec ctx 0 0 false s2
  let s4 := s3.updCtx ctx fun y => { y with st := .killed, killed := true, kts := s.tsc &&& 0x7FFFFFFFFFFFFFFF#64, comms := [], ended := [], saved := [], image := none, live := false, haltBy := 0, recs := [], rotate := false, carryPre := [] }
  actHeld part 17 (pushEvent part (srcNum 0 0xF) seq 3 0 ctx 0 s4)

/-! ## The commands, from the host or from HALTCTX (25 R424, R425, R432) -/

/-- HALT. -/
def haltCmd (c by_ : Nat) (s : State) : State :=
  match (s.ctx c).st with
  | .running => s.updCtx c fun x => { x with st := .halting, haltBy := by_ }
  | .saving => s.updCtx c fun x => { x with haltpend := true, haltBy := by_ }
  | _ => badCmd c s
/-- KILL. A SAVED context has nothing in flight; where another context of the partition occupies it, KILLING lasts no step, for no other context runs beside it (02 R46; 27 R442). -/
def killCmd (c by_ : Nat) (s : State) : State :=
  match (s.ctx c).st with
  | .idle | .killing | .killed => badCmd c s
  | .saved => if occupied s (partOf c) then killedNow c (killNow c by_ s) else killNow c by_ s
  | _ => killNow c by_ s
/-- QUIESCE. -/
def quiesceCmd (c : Nat) (s : State) : State := if (s.ctx c).st == .running then s.updCtx c fun x => { x with quiesce := true } else badCmd c s

/-- HALT, CTXCMD 0x1. -/
def execHaltCtxCmd (ctx : Nat) (s : State) : Answer := .next (haltCmd ctx 1 s)
/-- KILL, CTXCMD 0x5. -/
def execKillCtx (ctx : Nat) (s : State) : Answer := .next (killCmd ctx 1 s)
/-- QUIESCE, CTXCMD 0x6 (25 R427). -/
def execQuiesceCtx (ctx : Nat) (s : State) : Answer := .next (quiesceCmd ctx s)
/-- RESUME, CTXCMD 0x2. -/
def execResumeCtx (ctx : Nat) (s : State) : Answer := .next (if (s.ctx ctx).st == .halted then (resumeNow ctx s).bump else badCmd ctx s)
/-- SWITCHOUT, CTXCMD 0x3. -/
def execSwitchOut (ctx : Nat) (s : State) : Answer :=
  match (s.ctx ctx).st with
  | .running => .next (startSave ctx s)
  | .halted => .next (s.updCtx ctx fun x => { x with st := .saving, haltpend := true })
  | .halting => .next (s.updCtx ctx fun x => { x with wantSave := true })
  | _ => .next (badCmd ctx s)
/-- SWITCHIN, CTXCMD 0x4. -/
def execSwitchIn (ctx : Nat) (s : State) : Answer := .next (if (s.ctx ctx).st == .saved then (requestIn ctx false s).bump else badCmd ctx s)

/-- CREATE, CTXCMD 0x7: an empty saved state; not before the time base allows it (19 R329). What the host has written into the register block stays. -/
def execCreateCtx (ctx : Nat) (s : State) : Answer :=
  let x := s.ctx ctx
  if !(x.st == .idle || x.st == .killed) || !s.dev.mayCreate then .next (badCmd ctx s)
  else
    let y := { Ctx.reset with
      st := .saved, cause := x.cause, badcmd := x.badcmd, stopbase := x.stopbase, savebase := x.savebase, sliceat := x.sliceat, sliceend := x.sliceend, atDone := x.atDone,
      endDone := x.endDone, latens := x.latens, invaddr := x.invaddr, badkind := x.badkind, invdone := x.invdone, invs := x.invs, hold := x.hold, done := x.done,
      badcarry := x.badcarry, carrybase := x.carrybase, sup := (s.part (partOf ctx)).sup.getLsbD (ctx % 16),
      lq := x.lq.map fun q => { LQueue.reset with base := q.base, tail := q.tail, err := q.err, code := q.code, idx := q.idx } }
    .next { s.setCtx ctx y with looks := s.looks.filter fun e => e.ctx != ctx }
/-- A reserved command (25 R424). -/
def execCtxcmdReserved (ctx : Nat) (_cmd : BitVec 4) (s : State) : Answer := .next (badCmd ctx s)

/-! ## What carries them out -/

/-- A gang of the context has entered its handler in this clk (25 R415): the halt line cannot have reached it by now, or the trap would have committed nothing (R416). -/
def justTrapped (s : State) (c : Nat) : Bool := (ctxGroups s c).any fun p => p.2.trapAt == s.clk + 1

/-- CONTEXT_HALTED (25 R420, R423): every unit has stopped; the records are written, then the state changes, then the host is told. A context to be redistributed is saved, where a core can take its work (R429). -/
def execContextHalted (ctx : Nat) (s : State) : Answer :=
  let x := s.ctx ctx
  if x.st != .halting || !quiet s ctx || justTrapped s ctx then .next s
  else
    let h := writeHalt ctx (stopGroups ctx s)
    let s1 := h.s.updCtx ctx fun y => { y with st := .halted, cause := h.cause, recs := [], haltBy := 0, redist := x.redist && !x.wantSave, wantSave := false }
    let s2 := pushEvent (partOf ctx) h.src h.seq 1 h.cause ctx 0 s1
    if x.wantSave then .next (s2.updCtx ctx fun y => { y with st := .saving, haltpend := true }).bump
    else if x.redist then
      if (remap ctx s2).isSome then .next (s2.updCtx ctx fun y => { y with st := .saving }).bump
      else .next (ctxRec ctx 0x50 1 false (s2.updCtx ctx fun y => { y with redist := false })).bump
    else .next s2.bump

/-- 27 R442: the context that a rotation brings in: the next SAVED one with neither SLICEAT nor SLICEEND set. -/
def nextSaved (s : State) (c : Nat) : Option Nat :=
  ((List.range 16).map fun k => partOf c * 16 + (c % 16 + 1 + k) % 16).find? fun d => let x := s.ctx d; x.st == .saved && x.sliceat == 0 && x.sliceend == 0

/-- SAVE_COMPLETE (25 R425, R426): the save area is written and the partition is free: switch-ins that are held act, or a rotation's. A context that is redistributed switches in without the host, on its new cores (R429), after the switch-ins that were held before it. -/
def execSaveComplete (ctx : Nat) (s : State) : Answer :=
  let x := s.ctx ctx; let part := partOf ctx
  if x.st != .saving || !quiet s ctx then .next s
  else
    let s0 := (stopGroups ctx s).updCtx ctx fun y => { y with redist := false }
    let s1 := if x.recs.isEmpty && x.haltBy == 0 then s0
      else let h := writeHalt ctx s0; h.s.updCtx ctx fun y => { y with cause := h.cause, recs := [], haltBy := 0 }
    let s2 := s1.updCtx ctx fun y => { y with saved := saveOut s1 part, live := false, rotate := false }
    let s3 : State := { s2 with groups := s2.groups.map (fun p => if p.2.ctx == ctx then (p.1, { p.2 with resident := false }) else p), lookups := s2.lookups.filter (fun p => p.2.ctx != ctx), seqs := s2.seqs.map (fun q => (q.1, q.2.map fun o => if o.ctx == ctx then o.settled else o)), copies := s2.copies.map fun p => if p.2.ctx == ctx then (p.1, { p.2 with old := [] }) else p }
    let seq := (s3.ctx ctx).stopseq.toNat
    let s4 := (ctxRec ctx 0x60 0 false (writeSave ctx s3)).updCtx ctx fun y => { y with st := .saved }
    let s5 := pushEvent part (srcNum 0 0xF) seq 2 0x60 ctx 0 s4
    let s6 := actHeld part 17 (if x.redist then (if (remap ctx s5).isSome then ctxRec ctx 0x50 0 false s5 else s5).updPart part fun p => { p with heldIn := if p.heldIn.any (·.1 == ctx) then p.heldIn else p.heldIn ++ [(ctx, false)] } else s5)
    .next (if x.rotate && !occupied s6 part then (match nextSaved s6 ctx with | some d => requestIn d false s6 | none => s6) else s6).bump

/-- CONTEXT_KILLED (25 R425; 02 R44, R45): every write has been performed or is discarded; nothing of the context is left. -/
def execContextKilled (ctx : Nat) (s : State) : Answer :=
  if (s.ctx ctx).st != .killing || !answered s ctx then .next s
  else .next (killedNow ctx s).bump

/-! ## Gang-scheduled slices and rotation (25 R428; 27 R442) -/

/-- SLICEAT_REACHED. -/
def execSliceatReached (ctx : Nat) (s : State) : Answer :=
  let x := s.ctx ctx
  if x.sliceat == 0 || x.atDone || s.tsc < x.sliceat then .next s
  else
    let s1 := s.updCtx ctx fun y => { y with atDone := true }
    .next (if x.st == .saved || x.st == .saving then (requestIn ctx true s1).bump else s1)
/-- SLICEEND_REACHED. -/
def execSliceendReached (ctx : Nat) (s : State) : Answer :=
  let x := s.ctx ctx
  if x.sliceend == 0 || x.endDone || s.tsc < x.sliceend then .next s
  else
    let s1 := s.updCtx ctx fun y => { y with endDone := true }
    .next (if x.st == .running then startSave ctx s1 else s1)
/-- A write of SLICEAT: a value at or below $tsc switches in at once and counts no delay. -/
def execSliceatWrite (ctx : Nat) (v : BitVec 64) (s : State) : Answer :=
  let now := v != 0 && v ≤ s.tsc
  let s1 := s.updCtx ctx fun y => { y with sliceat := v, atDone := now }
  .next (if now && ((s.ctx ctx).st == .saved || (s.ctx ctx).st == .saving) then (requestIn ctx false s1).bump else s1)
/-- TSLICE_EXPIRY: a context that has run for TSLICE µs is switched out, and the next one in. -/
def execTsliceExpiry (part : Nat) (s : State) : Answer :=
  let p := s.part part
  if p.tslice == 0 then .next s
  else
    match ((List.range 16).map fun k => part * 16 + k).find? fun c => let x := s.ctx c; x.st == .running && decide (p.tslice * 1000 ≤ (s.tsc - x.runSince).toNat) with
    | none => .next s
    | some c => .next ((startSave c s).updCtx c fun x => { x with rotate := true })

/-! ## Moving a live context (28 R454 to R457) -/

/-- HOLD: MOVECTL.HOLD is written. A new hold starts with DONE clear. -/
def execHoldCtx (ctx : Nat) (on : Bool) (s : State) : Answer := .next (s.updCtx ctx fun x => { x with hold := on, done := x.done && !(on && !x.hold) })

/-- Nothing of a context is resident and no engine holds its work (28 R455). -/
def idleWork (s : State) (c : Nat) : Bool :=
  (ctxGroups s c).isEmpty && s.conts.all (fun p => p.2.ctx != c) && (ctxOps s c).isEmpty && (ctxCopies s c).isEmpty && (s.ctx c).comms.all (fun p => p.2.insts.isEmpty) &&
  (s.ctx c).devq.isEmpty && answered s c && s.msgs.all (fun p => p.2.part != partOf c) && s.tasks.all (fun p => p.2.ctx != c || p.2.st != .spawning) &&
  s.launches.all fun l => l.2.ctx != c || l.2.dev.isNone

/-- The launches a carry area holds: queue by queue in acceptance order (log entry 12). -/
def carried (s : State) (c : Nat) : List Launch := (List.range 4).flatMap fun q => (s.launches.map (·.2)).filter fun l => l.ctx == c && l.dev.isNone && l.queue == q

/-- 28 R456: the bytes of a carry area. -/
def carryBytes (s : State) (c : Nat) : List Byte :=
  let ls := carried s c
  leBytes 4 ls.length ++ leBytes 60 0 ++
  (s.ctx c).lq.flatMap (fun q => leBytes 8 q.base.toNat ++ leBytes 2 q.tail.toNat ++ leBytes 2 q.acc.toNat ++ leBytes 2 q.cpl.toNat ++ leBytes 2 0) ++
  ls.flatMap fun l => l.rec_.raw ++ (List.range 64).flatMap fun k => leBytes 8 ((l.started[k]?).getD 0)

/-- CARRY_WRITTEN (28 R455, R456). -/
def execCarryWritten (ctx : Nat) (s : State) : Answer :=
  let x := s.ctx ctx; let at_ := (x.carrybase.extractLsb' 12 40).toNat * 4096
  if x.st != .running || !x.hold || x.done || !idleWork s ctx then .next s
  else .next ((writeByteList at_ (carryBytes s ctx) (agentPass (partOf ctx) at_ (carryBytes s ctx).length true s)).updCtx ctx fun y => { y with done := true })

/-- A lookup of the carry area's tables walks at once. -/
def settleWalks (core c : Nat) (s : State) : State :=
  (s.lookups.filter fun p => p.2.core == core && p.2.ctx == c && p.2.err == 0).foldl (fun s p => walkDone p.1 p.2 s) s
where
  /-- A walk ends: its result enters the lookaside, or its failure is kept (02 R33, R35). -/
  walkDone (id : Nat) (l : Lookup) (s : State) : State :=
    let s := walkPass l.ctx (l.va * 4096) (countWalk (partOf l.ctx) s)
    let bad (e : Nat) : State := { s with lookups := sset id { l with err := e, started := false } s.lookups }
    match walk s l.ctx (l.va * 4096) with
    | .bad e => bad e
    | .found lo hi phys attr size range =>
      match nodeOf s l.ctx (atNode attr) with
      | .error e => bad e
      | .ok (n, ok) => installLook ⟨l.core, l.ctx, lo, hi, phys, attr, n, ok, range, size⟩ { s with lookups := serase id s.lookups }

/-- What another device answers to a read of entry i's tables within the one step that ADOPT is: nothing of that device's memory is in this machine, so the answer is a free value (log 1). -/
def farAnswer (s : State) (i k : Nat) (r : FabReq) : RemoteResp :=
  let key := 2 ^ 74 + (i * 65536 + k) * 8
  match s.pick key 3 with
  | 0 => .undeliverable
  | 1 => .refused
  | _ => .done ((List.range ((r.size + 3) / 4)).map fun j => ⟨BitVec.ofNat 32 (s.draw (key + 1 + j)), s.coin (key + 4 + j)⟩)

/-- Read the tables of the i-th carried record; its walks end at once. The state holds what the reads have passed through, those of tables that cannot be read whole too. -/
def readCarried (c i : Nat) (r : LRec) : Nat → State → Option Tables × State
  | 0, s => (none, s)
  | n + 1, s =>
    match readTables (fun k mk s => (some (farAnswer s i k (mk 0)), s)) 0 c r s with
    | .ok t => (some t, passTables 0 c r t s)
    | .fault _ _ _ => (none, passLists 0 c r s)
    | .wait s1 => readCarried c i r n (settleWalks 0 c s1)

/-- What ADOPT has of the carry area so far: the state, whether a record has failed a check, the launches and their preload slots. -/
structure Adopted where
  s : State
  bad : Bool
  ls : List Launch
  pre : List (DWord × Nat × List PWord × Bool)
deriving Repr

/-- Entry i of the carry area: its record is checked by 23 R405, its tables with it; it takes the given place of a queue. -/
def adoptEntry (ctx base : Nat) (place : Nat × Nat) (i : Nat) (x : Adopted) : Adopted :=
  let s := x.s; let part := partOf ctx; let at_ := base + 128 + 768 * i
  let r := parseRec (readByteList s at_ 256)
  if x.bad then x
  else if markedMem s at_ 768 || !r.fieldsOk then { x with bad := true }
  else
    match readCarried ctx i r 700 s with
    | (none, s) => { x with s := s, bad := true }
    | (some t, s) =>
      let (code, map) := mapLaunch s part r
      let started := (List.range (r.w * r.h)).map fun k => readMem s (at_ + 256 + 8 * k) 8
      if code != 0 || !t.valid (s.part part) || ((started.zipIdx).any fun (m, k) => decide (r.share k < m)) then { x with s := s, bad := true }
      else { s := s, bad := false, ls := x.ls ++ [⟨ctx, place.1, place.2, none, r, t.consts.map fun k => (k.1, k.2.setWidth 32), map, started, none, false, none⟩], pre := x.pre ++ t.pre }

/-- ADOPT (28 R457): every carried record is checked; all of them are adopted, or none. The area does not say to which queue an entry belongs; where fewer are carried than ACC − CPL allow, which places they take is free, but for a queue's place CPL, whose launch has not completed (23 R401; log 12). With fewer entries than queues with such a place, which no part writes, the launches without one count as complete. -/
def execAdoptCarry (ctx : Nat) (s : State) : Answer :=
  let x := s.ctx ctx; let part := partOf ctx
  if x.st != .saved then .next s
  else
    let base := (x.carrybase.extractLsb' 12 40).toNat * 4096
    let n := readMem s base 4
    let refused (s : State) : Answer := .next ((forgetAll 0 ctx s).updCtx ctx fun y => { y with badcarry := true }).bump
    if markedMem s base 128 || decide (262144 < n) then refused (agentPass part base 128 false s)
    else
      let lq := (x.lq.zipIdx).map fun (q, k) =>
        let o := base + 64 + 16 * k
        { q with base := BitVec.ofNat 64 (readMem s o 8) &&& 0x01FFFFFFFFFFFF1F#64, tail := BitVec.ofNat 16 (readMem s (o + 8) 2), acc := BitVec.ofNat 16 (readMem s (o + 10) 2),
                 cpl := BitVec.ofNat 16 (readMem s (o + 12) 2), latBase := none, latTail := none, done := [] }
      let all := (lq.zipIdx).flatMap fun (q, k) => (List.range (q.acc - q.cpl).toNat).map fun j => (k, (q.cpl + BitVec.ofNat 16 j).toNat)
      let first (p : Nat × Nat) : Bool := match lq[p.1]? with | some q => p.2 == q.cpl.toNat | none => false
      -- which of the accepted launches had completed ahead of an earlier one the area does not say
      let order := shuffle s 87600 (List.range all.length)
      let pick (k : Nat) : Bool := match all[k]? with | some p => first p | none => false
      let mine := (order.filter pick ++ order.filter fun k => !pick k).take n
      let places := if all.length ≤ n then all else (all.zipIdx.filter fun p => mine.contains p.2).map (·.1)
      let r := (List.range n).foldl (fun r i => adoptEntry ctx base ((places[i]?).getD (0, 65536)) i r) ⟨readDescriptor ctx (agentPass part base (128 + 768 * n) false s), false, [], []⟩
      if r.bad then refused r.s
      else
        let lq := lq.zipIdx.map fun (q, k) => let ahead := (all.filter fun p => p.1 == k && !places.contains p).map (·.2); advanceCpl ahead.length { q with done := ahead }
        let s2 := r.ls.foldl (fun s l => ({ s with launches := sset s.nextId l s.launches }).takeId) r.s
        .next (s2.updCtx ctx fun y => { y with lq := lq, carryPre := r.pre }).bump

end Sys2Proof.Machine
end

