-- ==== Sys2Proof/Machine/Walks.lean ====
section
/-! DEFINITION. Walks, invalidation, and the completion of variable-latency results (02 R33 to R43; 08 R172; 03 R70). -/

namespace Sys2Proof.Machine

/-! ## Walks (02 R36, R41) -/

/-- Walks under way on a die. -/
def walksOn (s : State) (die : Nat) : Nat := (s.lookups.filter fun p => p.2.started && dieOf p.2.core == die).length

/-- WALK_START: a waiting lookup gets a walker of its die. -/
def execWalkStart (lookup : Nat) (s : State) : Answer :=
  match sget lookup s.lookups with
  | none => .next s
  | some l =>
    if l.started || l.err != 0 || decide (Config.walkers ≤ walksOn s (dieOf l.core)) then .next s
    else .next { s with lookups := sset lookup { l with started := true } s.lookups }

/-- WALK_COMPLETE: a stale walk has run to its end, its reads with it, and its lookup walks again (02 R41); another ends in a lookaside entry, or in a failure for the accesses that need it. -/
def execWalkComplete (lookup : Nat) (s : State) : Answer :=
  match sget lookup s.lookups with
  | none => .next s
  | some l =>
    if !l.started then .next s
    else if l.stale then let s := walkPass l.ctx (l.va * 4096) (countWalk (partOf l.ctx) s); .next ({ s with lookups := sset s.nextId { l with id := s.nextId, started := false, stale := false } (serase lookup s.lookups) }).takeId.bump
    else .next (settleWalks.walkDone lookup l s).bump

/-! ## Invalidation (02 R38 to R42) -/

/-- An invalidation covers a lookaside entry: 0 all, 1 pages, 2 made by a range entry, 3 through a node index. DESIGN CHOICE (log 70): kind 2 does not reach an entry
made by a page-table entry whose addresses a range entry now covers; it goes on translating them. -/
def invCovers (kind page pages : Nat) (e : LookAside) : Bool :=
  match kind with
  | 0 => true
  | 1 => decide (pages ≠ 0) && decide (e.lo / 4096 < page + pages) && decide (page ≤ e.hi / 4096)
  | 2 => e.range
  | 3 => atNode e.attr != 0
  | _ => false
/-- It covers a walk in flight: what the walk will find is not known for kinds 2 and 3. -/
def invStale (kind page pages va : Nat) : Bool :=
  match kind with
  | 1 => decide (page ≤ va) && decide (va < page + pages)
  | 0 | 2 | 3 => true
  | _ => false

/-- 02 R40, R41: a command is accepted: covered walks in flight become stale; a covered lookaside entry goes now or before the command completes. -/
def acceptInv (c kind : Nat) (seq : BitVec 16) (pages : Nat) (s : State) : State :=
  let page := ((s.ctx c).invaddr.extractLsb' 12 45).toNat
  let inFlight := (s.lookups.filter fun p => p.2.ctx == c && p.2.started).map (·.1)
  let s1 : State := { s with
    lookups := (s.lookups.filter fun p => !(p.2.ctx == c && p.2.err != 0)).map fun p => if p.2.ctx == c && p.2.started && invStale kind page pages p.2.va then (p.1, { p.2 with stale := true }) else p
    looks := (s.looks.zipIdx.filter fun (e, k) => !(e.ctx == c && invCovers kind page pages e && s.coin (90000 + k))).map (·.1) }
  let s2 := s1.updCtx c fun x => { x with invs := x.invs ++ [⟨seq, kind, page, pages, inFlight⟩], badkind := x.badkind || decide (4 ≤ kind) }
  (if kind == 2 || kind == 3 then readDescriptor c s2 else s2).bump

/-- INVALIDATE_CONTEXT, kind 0x0. -/
def execInvalidateContext (ctx : Nat) (seq : BitVec 16) (s : State) : Answer := .next (acceptInv ctx 0 seq 0 s)
/-- INVALIDATE_PAGES, kind 0x1. -/
def execInvalidatePages (ctx : Nat) (seq : BitVec 16) (pages : BitVec 32) (s : State) : Answer := .next (acceptInv ctx 1 seq pages.toNat s)
/-- INVALIDATE_RANGES, kind 0x2. -/
def execInvalidateRanges (ctx : Nat) (seq : BitVec 16) (s : State) : Answer := .next (acceptInv ctx 2 seq 0 s)
/-- INVALIDATE_NODES, kind 0x3. -/
def execInvalidateNodes (ctx : Nat) (seq : BitVec 16) (s : State) : Answer := .next (acceptInv ctx 3 seq 0 s)
/-- INVALIDATE_RESERVED, kinds 0x4 to 0xF: covers nothing and still completes in its turn. -/
def execInvalidateReserved (ctx : Nat) (seq : BitVec 16) (kind : BitVec 4) (s : State) : Answer := .next (if kind.toNat < 4 then s else acceptInv ctx kind.toNat seq 0 s)

/-- INVALIDATION_COMPLETE (02 R42): the oldest command of a context completes once its walks have ended or are stale and no access made through a covered entry is out. -/
def execInvalidationComplete (ctx : Nat) (s : State) : Answer :=
  match (s.ctx ctx).invs with
  | [] => .next s
  | i :: rest =>
    let walking := s.lookups.any fun p => i.walks.contains p.1 && p.2.started && !p.2.stale
    if walking || (decide (i.kind < 4) && !answered s ctx) then .next s
    else
      let s0 := settleCtx ctx s
      let s1 : State := { s0 with looks := s0.looks.filter fun e => !(e.ctx == ctx && invCovers i.kind i.page i.pages e) }
      .next (s1.updCtx ctx fun x => { x with invs := rest, invdone := i.seq })

/-! ## Variable-latency results (08 R172, R173; 03 R70) -/

/-- The operation of w0 or w1 that completes next: the oldest (03 R70). While its context stops, the results of those behind an ACCRD that waits in the sequencer queue are written too, and only their turn to complete is left (25 R419). -/
def resultTok (s : State) (g : Group) (ctr : Nat) : Option Tok :=
  let ready (t : Tok) : Bool := match g.vp.find? fun v => v.id == t.id with | some v => v.known || g.late.any (·.vp == t.id) | none => false
  match g.oldest ctr with
  | none => none
  | some t =>
    if (s.ctx g.ctx).st == .running || !(g.vp.any fun v => v.id == t.id) || ready t then some t
    else match g.out.find? fun x => x.ctr == ctr && !x.fin && ready x with
      | some x => some x
      | none => some t

/-- VARIABLE_RESULT_COMPLETE: the oldest result of w0 or w1, with the accesses that it still needs performed, is written and its counter goes down. -/
def execVariableResultComplete (gid : Nat) (w1 : Bool) (s : State) : Answer :=
  let ctr := if w1 then 1 else 0
  match s.group? gid with
  | none => .next s
  | some g =>
    match resultTok s g ctr with
    | none => .next s
    | some t =>
      let r := performLate (fun x => x.1.vp == t.id) (s, g)
      let s := if g.late.isEmpty then s else r.1.setGroup gid r.2; let g := r.2
      match g.vp.find? fun v => v.id == t.id with
      | none => .next (if g.resident then completeTok gid ctr t.id s else s)
      | some v =>
        if !v.known || !g.resident then .next s
        else
          let g1 := g.land ctr v
          let g2 := { g1 with vp := g1.vp.filter fun x => x.id != t.id }
          if (g.oldest ctr).map (·.id) == some t.id then .next (completeTok gid ctr t.id (s.setGroup gid g2))
          else .next (s.setGroup gid { g2 with out := g2.out.map fun x => if x.ctr == ctr && x.id == t.id then { x with fin := true } else x })

end Sys2Proof.Machine
end

