-- ==== Sys2Proof/Machine/Host.lean ====
section
/-! DEFINITION. The host link: registers as functions 0 to 255 show them, grants and shares, the event queue, accesses through CXL (27 R437 to R445; 02 R38, R44; 04 R79, R81; 23 R400, R402; 25 R424; 28 R454; 29 R461; 03 R76). -/

namespace Sys2Proof.Machine

/-! ## Which register an address names (27 R438) -/

/-- A place in the register space: a device register, a partition's block, a context's block, or nothing. -/
inductive RegAt where
  | dev (off : Nat) | part (p off : Nat) | ctx (c off : Nat) | none_
deriving DecidableEq, Repr, Inhabited

/-- 27 R438: the span of partition p, 128 KiB. -/
def spanAt (p off : Nat) : RegAt :=
  if off < 0x1000 then .part p off else if off < 0x11000 then .ctx (p * 16 + off / 0x1000 - 1) (off % 0x1000) else .none_

/-- What an offset of a function's BAR0 reaches. -/
def regAt (fn off : Nat) : RegAt :=
  if fn == 0 then
    if off < 0x1000000 then .dev off
    else if off < 0x1000000 + 0x20000 * 256 then spanAt ((off - 0x1000000) / 0x20000) ((off - 0x1000000) % 0x20000) else .none_
  else if fn < 256 && off < 0x20000 then spanAt fn off else .none_

/-- One bit as a number. -/
def bitN (b : Bool) (k : Nat) : Nat := if b then 2 ^ k else 0
/-- Quarter n of QUADS, or eighth n of SPSETS. -/
def wordOf {n : Nat} (v : BitVec n) (k : Nat) : DWord := v.extractLsb' (64 * k) 64

/-! ## Reading -/

/-- 29 R461: device registers. -/
def devRead (s : State) (off : Nat) : DWord :=
  let d := s.dev
  match off with
  | 0x100 => BitVec.ofNat 64 (d.bootState.toNat + bitN d.edFail 2 + bitN d.mlFail 3 + d.svn.toNat * 256)
  | 0x108 => BitVec.ofNat 64 d.plimit
  | 0x110 => BitVec.ofNat 64 (d.powerMw % 2 ^ 32 * 2 ^ 32)
  | 0x118 => BitVec.ofNat 64 (d.maxC % 256 * 256)
  | 0x120 => BitVec.ofNat 64 (bitN d.pthr 0 + bitN d.tthr 1 + bitN d.trip 2 + d.mhz * 65536)
  | 0x128 => d.cecnt
  | _ => 0

/-- 27 R439, 04 R79, R81: a partition's block. -/
def partRead (s : State) (part off : Nat) : DWord :=
  let p := s.part part
  if off < 0x20 then wordOf p.quads (off / 8)
  else if 0x80 ≤ off && off < 0xC0 then wordOf p.spsets (off / 8 - 16)
  else if 0xC0 ≤ off && off < 0x100 then (if off % 16 == 0 then (p.pwinb[(off - 0xC0) / 16]?).getD 0 else (p.pwinl[(off - 0xC0) / 16]?).getD 0)
  else match off with
  | 0x20 => BitVec.ofNat 64 (p.slotlo * 65536 + p.slotn)
  | 0x28 => BitVec.ofNat 64 (p.taskn * 65536 + p.tasklo)
  | 0x30 => BitVec.ofNat 64 (p.hostsh * 65536 + p.fabsh * 256 + p.memsh)
  | 0x38 => BitVec.ofNat 64 (p.tslice * 2 ^ 32 + p.lquota * 65536 + p.agemax)
  | 0x40 => p.dcways.setWidth 64
  | 0x48 => p.sup.setWidth 64
  | 0x100 => p.hbmb
  | 0x108 => p.fabb
  | 0x110 => p.hostb
  | 0x118 => p.issue
  | 0x140 => p.eqbase
  | 0x148 => p.eqhead.setWidth 64
  | 0x150 => p.eqtail.setWidth 64
  | 0x158 => BitVec.ofNat 64 (bitN p.ien 0)
  | _ => 0

/-- 25 R425: the code of a state. -/
def CtxSt.code : CtxSt → Nat
  | .idle => 0 | .running => 1 | .halting => 2 | .halted => 3 | .saving => 4 | .saved => 5 | .killing => 6 | .killed => 7

/-- 02 R38, R44; 23 R400; 25 R424; 28 R454: a context's block. -/
def ctxRead (s : State) (c off : Nat) : DWord :=
  let x := s.ctx c
  if 0x200 ≤ off && off < 0x280 then
    let q := x.queue ((off - 0x200) / 32)
    match off % 32 with
    | 0 => q.latBase.getD q.base
    | 8 => (q.latTail.getD q.tail).setWidth 64
    | 16 => BitVec.ofNat 64 (q.cpl.toNat * 65536 + q.acc.toNat)
    | 24 => BitVec.ofNat 64 (q.idx.toNat * 65536 + bitN q.err 8 + q.code.toNat)
    | _ => 0
  else match off with
  | 0x100 => x.invaddr
  | 0x110 => BitVec.ofNat 64 (x.invdone.toNat + bitN x.badkind 16)
  | 0x118 => BitVec.ofNat 64 (x.kts.toNat % 2 ^ 63 + bitN x.killed 63)
  | 0x308 => BitVec.ofNat 64 (x.st.code + bitN x.haltpend 4 + bitN x.quiesce 5 + bitN x.badcmd 6 + x.cause % 256 * 256)
  | 0x310 => x.stopbase
  | 0x318 => x.stopseq.setWidth 64
  | 0x320 => x.savebase
  | 0x328 => (s.part (partOf c)).savePages.setWidth 64
  | 0x330 => x.sliceat
  | 0x338 => x.sliceend
  | 0x340 => x.latens
  | 0x348 => BitVec.ofNat 64 (bitN x.hold 0)
  | 0x350 => BitVec.ofNat 64 (bitN x.done 0 + bitN x.badcarry 1)
  | 0x358 => x.carrybase
  | _ => 0

/-- 29 R458: a refused part reads every register but BOOTSTAT as zero. -/
def refused (s : State) : Bool := s.dev.bootState == 3

/-- The whole register that an offset lies in. -/
def regWhole (s : State) (fn off : Nat) : DWord :=
  let o := off / 8 * 8
  match regAt fn o with
  | .dev a => if refused s && a != 0x100 then 0 else devRead s a
  | .part p a => if refused s then 0 else partRead s p a
  | .ctx c a => if refused s then 0 else ctxRead s c a
  | .none_ => 0

/-- 27 R438: a read of 32 or 64 bits, naturally aligned; any other reads as zero. -/
def regRead (s : State) (fn off size : Nat) : DWord :=
  if size == 8 && off % 8 == 0 then regWhole s fn off
  else if size == 4 && off % 4 == 0 then ((regWhole s fn off).extractLsb' (8 * (off % 8)) 32).setWidth 64
  else 0

/-! ## Grants (27 R440; 04 R81) -/

/-- The other partitions. -/
def otherParts (s : State) (part : Nat) : List Part := (s.parts.filter fun p => p.1 != part).map (·.2)
/-- 27 R440: a partition with a context that is neither IDLE nor KILLED keeps its grants. -/
def grantLocked (s : State) (part : Nat) : Bool := (List.range 16).any fun k => let t := (s.ctx (part * 16 + k)).st; t != .idle && t != .killed
/-- Two ranges meet. -/
def meets (a n b m : Nat) : Bool := decide (0 < n) && decide (0 < m) && decide (a < b + m) && decide (b < a + n)

/-- A window's first and last page, if it is valid. -/
def winOf (b l : DWord) : Option (Nat × Nat) := if l.getLsbD 0 then some ((b.extractLsb' 12 40).toNat, (l.extractLsb' 12 40).toNat) else none
/-- The windows of a partition, their registers changed at one place. -/
def setWin (p : Part) (off : Nat) (v : DWord) : Part :=
  let n := (off - 0xC0) / 16
  if off % 16 == 0 then { p with pwinb := p.pwinb.set n (v &&& 0x000FFFFFFFFFF000#64) } else { p with pwinl := p.pwinl.set n (v &&& 0x000FFFFFFFFFF001#64) }

/-- GRANT_WRITE: QUADS, SLOTS, TASKS, SPSETS and PWIN take effect only for what no other partition holds; ranges and windows whole or not at all. -/
def execGrantWrite (part off : Nat) (v : BitVec 64) (s : State) : Answer :=
  let p := s.part part; let others := otherParts s part
  if grantLocked s part || decide (256 ≤ part) then .next s
  else if off < 0x20 then
    let k := off / 8
    let held := others.foldl (fun m q => m ||| wordOf q.quads k) 0
    .next (s.setPart part { p with quads := (p.quads &&& ~~~((0xFFFFFFFFFFFFFFFF#256) <<< (64 * k))) ||| (((v &&& ~~~held).setWidth 256) <<< (64 * k)) })
  else if 0x80 ≤ off && off < 0xC0 then
    let k := off / 8 - 16
    let held := others.foldl (fun m q => m ||| wordOf q.spsets k) 0
    .next (s.setPart part { p with spsets := (p.spsets &&& ~~~((0xFFFFFFFFFFFFFFFF#512) <<< (64 * k))) ||| (((v &&& ~~~held).setWidth 512) <<< (64 * k)) })
  else if off == 0x20 then
    let lo := (v.extractLsb' 16 8).toNat; let n := (v.extractLsb' 0 9).toNat
    if decide (256 < n) || decide (256 < lo + n) || others.any (fun q => meets lo n q.slotlo q.slotn) then .next s else .next (s.setPart part { p with slotlo := lo, slotn := n })
  else if off == 0x28 then
    let lo := (v.extractLsb' 0 10).toNat; let n := (v.extractLsb' 16 11).toNat
    if decide (1024 < n) || decide (1024 < lo + n) || others.any (fun q => meets lo n q.tasklo q.taskn) then .next s else .next (s.setPart part { p with tasklo := lo, taskn := n })
  else if 0xC0 ≤ off && off < 0x100 then
    let q := setWin p off v; let n := (off - 0xC0) / 16
    let clash := match winOf ((q.pwinb[n]?).getD 0) ((q.pwinl[n]?).getD 0) with
      | none => false
      | some (a, b) => others.any fun o => (o.pwinb.zip o.pwinl).any fun w => match winOf w.1 w.2 with | some (c, d) => decide (a ≤ d) && decide (c ≤ b) && decide (a ≤ b) && decide (c ≤ d) | none => false
    if clash then .next s else .next (s.setPart part q)
  else .next s

/-- SHARES_WRITE (27 R440): a field whose sum over all partitions would pass 256 keeps its value. -/
def execSharesWrite (part : Nat) (v : BitVec 64) (s : State) : Answer :=
  let p := s.part part; let o := otherParts s part
  let fits (f : Part → Nat) (n : Nat) : Nat := if (o.map f).foldl (· + ·) 0 + n ≤ 256 then n else f p
  .next (s.setPart part { p with hostsh := fits (·.hostsh) (v.extractLsb' 16 8).toNat, fabsh := fits (·.fabsh) (v.extractLsb' 8 8).toNat, memsh := fits (·.memsh) (v.extractLsb' 0 8).toNat })

/-! ## The event queue and the launch queues (27 R445; 23 R400, R402) -/

/-- EQHEAD_WRITE: never past TAIL; the first entry freed after a drop brings one LOST event. -/
def execEqheadWrite (part : Nat) (v : BitVec 64) (s : State) : Answer :=
  let p := s.part part; let h := v.extractLsb' 0 16
  if (p.eqtail - p.eqhead).toNat < (h - p.eqhead).toNat then .next s
  else
    let s1 := s.setPart part { p with eqhead := h, signalled := false }
    if p.dropped != 0 && h != p.eqhead then .next (pushEvent part (srcNum 0 0xF) 0 8 0 0 p.dropped (s1.updPart part fun p => { p with dropped := 0 })) else .next s1

/-- 23 R402: the window of a switch-out. -/
def inSwitch (s : State) (c : Nat) : Bool := (s.ctx c).st == .saving || (s.ctx c).st == .saved

/-- LQTAIL_WRITE: live, or latched in the window of a switch-out. -/
def execLqtailWrite (ctx q : Nat) (v : BitVec 64) (s : State) : Answer :=
  let t := v.extractLsb' 0 16
  .next (s.updCtx ctx fun x => x.updQueue q fun l => if inSwitch s ctx then { l with latTail := some t } else { l with tail := t })
/-- LQBASE_WRITE: while EN = 1 only EN changes; EN with LG above 12 is ignored whole; latched in the window of a switch-out. -/
def execLqbaseWrite (ctx q : Nat) (v : BitVec 64) (s : State) : Answer :=
  let w := v &&& 0x01FFFFFFFFFFFF1F#64
  .next (s.updCtx ctx fun x => x.updQueue q fun l =>
    let old := l.latBase.getD l.base
    let new := if old.getLsbD 4 then (old &&& ~~~0x10#64) ||| (w &&& 0x10#64) else w
    if !old.getLsbD 4 && w.getLsbD 4 && decide (12 < (w.extractLsb' 0 4).toNat) then l
    else if inSwitch s ctx then { l with latBase := some new } else { l with base := new })

/-- PLIMIT_WRITE (29 R461, R462). -/
def execPlimitWrite (v : BitVec 64) (s : State) : Answer :=
  .next { s with dev := { s.dev with plimit := max 1000 (min 3400 (v.extractLsb' 0 12).toNat) } }

/-! ## Writing (27 R438) -/

/-- The state a write comes to. -/
def stateOf (s : State) : Answer → State
  | .next t => t
  | _ => s

/-- A whole write of a device register. -/
def devWrite (off : Nat) (v : DWord) (s : State) : State :=
  match off with
  | 0x108 => stateOf s (execPlimitWrite v s)
  | 0x120 => { s with dev := { s.dev with pthr := s.dev.pthr && !v.getLsbD 0, tthr := s.dev.tthr && !v.getLsbD 1, trip := s.dev.trip && !v.getLsbD 2 } }
  | _ => s

/-- A whole write of a partition register; a virtual function may write EQHEAD and EQCTL only. -/
def partWrite (fn part off : Nat) (v : DWord) (s : State) : State :=
  if off == 0x148 then stateOf s (execEqheadWrite part v s)
  else if off == 0x158 then s.updPart part fun p => { p with ien := v.getLsbD 0 }
  else if fn != 0 then s
  else match off with
  | 0x30 => stateOf s (execSharesWrite part v s)
  | 0x38 => s.updPart part fun p => Part.setAge s.clk (max 16 (v.extractLsb' 0 16).toNat) { p with tslice := (v.extractLsb' 32 32).toNat, lquota := (v.extractLsb' 16 8).toNat }
  | 0x40 => s.updPart part fun p => { p with dcways := v.extractLsb' 0 24 }
  | 0x48 => s.updPart part fun p => { p with sup := v.extractLsb' 0 16 }
  | 0x140 => s.updPart part fun p => { p with eqbase := v &&& 0x000FFFFFFFFFF00F#64 }
  | _ => stateOf s (execGrantWrite part off v s)

/-- INVCMD (02 R38). -/
def invWrite (c : Nat) (v : DWord) (s : State) : State :=
  let seq := v.extractLsb' 48 16
  match (v.extractLsb' 8 4).toNat with
  | 0 => stateOf s (execInvalidateContext c seq s)
  | 1 => stateOf s (execInvalidatePages c seq (v.extractLsb' 16 32) s)
  | 2 => stateOf s (execInvalidateRanges c seq s)
  | 3 => stateOf s (execInvalidateNodes c seq s)
  | _ => stateOf s (execInvalidateReserved c seq (v.extractLsb' 8 4) s)

/-- CTXCMD (25 R424). -/
def cmdWrite (c : Nat) (v : DWord) (s : State) : State :=
  match (v.extractLsb' 0 4).toNat with
  | 1 => stateOf s (execHaltCtxCmd c s)
  | 2 => stateOf s (execResumeCtx c s)
  | 3 => stateOf s (execSwitchOut c s)
  | 4 => stateOf s (execSwitchIn c s)
  | 5 => stateOf s (execKillCtx c s)
  | 6 => stateOf s (execQuiesceCtx c s)
  | 7 => stateOf s (execCreateCtx c s)
  | _ => stateOf s (execCtxcmdReserved c (v.extractLsb' 0 4) s)

/-- 25 R424: STOPBASE and SAVEBASE ignore writes in the states 0x1, 0x2 and 0x4. -/
def baseLocked (x : Ctx) : Bool := x.st == .running || x.st == .halting || x.st == .saving

/-- A whole write of a context register. -/
def ctxWrite (c off : Nat) (v : DWord) (s : State) : State :=
  let x := s.ctx c
  if 0x200 ≤ off && off < 0x280 then
    let q := (off - 0x200) / 32
    match off % 32 with
    | 0 => stateOf s (execLqbaseWrite c q v s)
    | 8 => stateOf s (execLqtailWrite c q v s)
    | 24 => s.setCtx c (x.updQueue q fun l => { l with err := l.err && !v.getLsbD 8 })
    | _ => s
  else match off with
  | 0x100 => s.setCtx c { x with invaddr := v &&& 0x01FFFFFFFFFFF000#64 }
  | 0x108 => invWrite c v s
  | 0x110 => s.setCtx c { x with badkind := x.badkind && !v.getLsbD 16 }
  | 0x300 => cmdWrite c v s
  | 0x308 => s.setCtx c { x with badcmd := x.badcmd && !v.getLsbD 6 }
  | 0x310 => if baseLocked x then s else s.setCtx c { x with stopbase := v &&& 0x000FFFFFFFFFF01F#64 }
  | 0x320 => if baseLocked x then s else s.setCtx c { x with savebase := v &&& 0x000FFFFFFFFFF000#64 }
  | 0x330 => stateOf s (execSliceatWrite c v s)
  | 0x338 => s.setCtx c { x with sliceend := v, endDone := false }
  | 0x348 =>
    let s1 := stateOf s (execHoldCtx c (v.getLsbD 0) s)
    if v.getLsbD 1 then stateOf s1 (execAdoptCarry c s1) else s1
  | 0x350 => s.setCtx c { x with badcarry := x.badcarry && !v.getLsbD 1 }
  | 0x358 => s.setCtx c { x with carrybase := v &&& 0x000FFFFFFFFFF000#64 }
  | _ => s

/-- The registers whose writes start commands take 64-bit writes only. -/
def RegAt.command : RegAt → Bool
  | .ctx _ 0x108 | .ctx _ 0x300 | .ctx _ 0x348 => true
  | _ => false
/-- The registers that clear on writing 1, wholly in their low half. -/
def RegAt.w1c : RegAt → Bool
  | .dev 0x120 | .ctx _ 0x110 | .ctx _ 0x308 | .ctx _ 0x350 => true
  | .ctx _ o => decide (0x200 ≤ o) && decide (o < 0x280) && o % 32 == 24
  | _ => false

/-- EQHEAD, whose write the host is signalled again by (27 R445). -/
def RegAt.eqhead : RegAt → Bool
  | .part _ 0x148 => true
  | _ => false

/-- A whole write. -/
def wholeWrite (fn : Nat) (r : RegAt) (v : DWord) (s : State) : State :=
  match r with
  | .dev off => devWrite off v s
  | .part p off => partWrite fn p off v s
  | .ctx c off => ctxWrite c off v s
  | .none_ => s

/-- A write of 32 or 64 bits, naturally aligned; a 32-bit write leaves the other half as it stands, and one of the upper half of EQHEAD covers no field. -/
def regWrite (fn off size : Nat) (v : DWord) (s : State) : State :=
  let r := regAt fn (off / 8 * 8)
  if refused s then s
  else if size == 8 && off % 8 == 0 then wholeWrite fn r v s
  else if size == 4 && off % 4 == 0 then
    if r.command || (r.eqhead && off % 8 == 4) then s
    else
      let old := if r.w1c then 0 else regWhole s fn off
      let w := v.extractLsb' 0 32
      wholeWrite fn r (if off % 8 == 0 then old.extractLsb' 32 32 ++ w else w ++ old.extractLsb' 0 32) s
  else s

/-- REGISTER_WRITE. -/
def execRegisterWrite (fn off size : Nat) (v : BitVec 64) (s : State) : Answer := .next (regWrite fn off size v s)

/-! ## Accesses through CXL (27 R437, R438; 02 R20; 03 R76) -/

/-- The words that an access touches, as read. -/
def wordsRead (s : State) (addr size : Nat) : List PWord := (wordsOf addr size).map fun w => readPWord s (4 * w)
/-- Data for the host. -/
def giveHost (addr : Nat) (ws : List PWord) (s : State) : State := { s with out := { s.out with reads := s.out.reads ++ [(addr, ws)] } }
/-- Device memory the decoders reach. -/
def isDevMem (pa : Nat) : Bool := match regionOf pa with | .hbm _ | .tier2 => true | _ => false

/-- HOST_MEM_READ: device memory, never discarded and never checked against windows; or registers, laid out as in function 0. -/
def execHostMemRead (addr size : Nat) (s : State) : Answer :=
  if regionOf addr == .devreg then
    let v := regRead s 0 (addr - 0xF000000000000) size
    .next (giveHost addr (if size == 8 then [⟨v.setWidth 32, false⟩, ⟨v.extractLsb' 32 32, false⟩] else [⟨v.setWidth 32, false⟩]) s)
  else if size != 0 && isDevMem addr && isDevMem (addr + size - 1) then .next (giveHost addr (wordsRead s addr size) (cachePass addr size false s))
  else .next s
/-- HOST_MEM_WRITE. -/
def execHostMemWrite (addr : Nat) (data : List (BitVec 8)) (s : State) : Answer :=
  if regionOf addr == .devreg then .next (regWrite 0 (addr - 0xF000000000000) data.length (BitVec.ofNat 64 (bytesWord data)) s)
  else if !data.isEmpty && isDevMem addr && isDevMem (addr + data.length - 1) then .next (writeByteList addr data (cachePass addr data.length true s))
  else .next s
/-- HOST_COHERENT_AGENT_ACCESS: a host agent reads or writes host memory, within .sys of every agent of the device. -/
def execHostCoherentAgentAccess (addr size : Nat) (data : Option (List (BitVec 8))) (s : State) : Answer :=
  if regionOf addr != .host then .next s
  else match data with
  | none => .next (giveHost addr (wordsRead s addr size) (cachePass addr size false s))
  | some bs => .next (writeByteList addr bs (cachePass addr bs.length true s))
/-- HOST_FENCE: accesses of the model have one order (log entry 4), so a fence changes nothing. -/
def execHostFence (_release : Bool) (s : State) : Answer := .next s

end Sys2Proof.Machine
end

