-- ==== Sys2Proof/Machine/Fabric.lean ====
section
/-! DEFINITION. The fabric ports: flits, training, time, remote accesses in and their responses back (19 R328, R329; 27 R441; 02 R46; 12 R266). -/

namespace Sys2Proof.Machine

/-- A port. -/
def State.port (s : State) (p : Nat) : Port := (s.dev.ports[p]?).getD Port.reset
/-- Change a port. -/
def State.updPort (p : Nat) (f : Port → Port) (s : State) : State :=
  { s with dev := { s.dev with ports := (s.dev.ports.zipIdx).map fun (x, k) => if k == p then f x else x } }

/-! ## Flits and training (19 R328) -/

/-- The time master as this device knows it: the lowest node number among itself, its partners and the devices joined beyond them (19 R329; log 64). -/
def knownMaster (s : State) : Nat := ((s.dev.ports.filter (·.up)).flatMap fun x => [x.node, x.far]).foldl min Config.nodeId.toNat
/-- The master after a change of the links. -/
def noteMaster (s : State) : State := { s with dev := { s.dev with master := knownMaster s } }

/-- FLIT_RECEIVE: a flit whose CRC fails is sent again; after 16 failed retransmissions the link goes down, and the chunks in flight on it are lost (`linkLost`). -/
def execFlitReceive (port : Nat) (crcOk : Bool) (s : State) : Answer :=
  let x := s.port port
  if !x.up then .next s
  else if crcOk then .next (s.updPort port fun x => { x with tries := 0 })
  else if 16 ≤ x.tries then .next (noteMaster (s.updPort port fun x => { x with up := false, tries := 0 }))
  else .next (s.updPort port fun x => { x with tries := x.tries + 1 })

/-- 19 R329: the first synchronisation steps $tsc, once. -/
def firstSync (t : DWord) (s : State) : State :=
  if s.dev.synced then s else { s with tsc := t, dev := { s.dev with synced := true, mayCreate := true } }
/-- How far the master's time lies from $tsc. -/
def offsetFrom (t : DWord) (s : State) : Int := (t.toNat : Int) - s.tsc.toNat

/-- LINK_TRAINED: a port and its partner adopt a link version; an unsynchronised device takes the master's time. -/
def execLinkTrained (port version node : Nat) (masterTime : BitVec 64) (s : State) : Answer :=
  if decide (s.dev.ports.length ≤ port) || version == 0 || decide (3 < version) then .next s
  else
    let s1 := firstSync masterTime s
    .next (noteMaster (s1.updPort port fun x => { x with up := true, version := version, node := node, tries := 0, far := s.draw (87300 + port), offset := offsetFrom masterTime s1 })).bump

/-! ## Time (19 R329) -/

/-- TIME_SYNC_SEND: a time-synchronisation flit every 10 µs. -/
def execTimeSyncSend (port : Nat) (s : State) : Answer :=
  let x := s.port port
  if !x.up || (x.lastSync != 0 && decide ((s.tsc - x.lastSync).toNat < 10000)) then .next s
  else .next { (s.updPort port fun x => { x with lastSync := s.tsc }) with out := { s.out with sync := s.out.sync ++ [(port, s.tsc)] } }
/-- TIME_SYNC_RECEIVE: the offset from the master's time, towards which $tsc slews (`State.slewed`); a device not yet synchronised steps. -/
def execTimeSyncReceive (port : Nat) (masterTime : BitVec 64) (s : State) : Answer :=
  if !(s.port port).up then .next s
  else let s1 := firstSync masterTime s; .next (s1.updPort port fun x => { x with offset := offsetFrom masterTime s1 })
/-- SYNC_WAIT_EXPIRY: 1 s has passed with no link trained, and contexts may be created. -/
def execSyncWaitExpiry (s : State) : Answer :=
  if s.dev.ports.any (·.up) || s.dev.synced || decide (s.tsc.toNat < 1000000000) then .next s else .next { s with dev := { s.dev with mayCreate := true } }
/-- MASTER_LEAVES: its links are down, and the next lowest node is master; no step of $tsc. -/
def execMasterLeaves (node : Nat) (s : State) : Answer :=
  if s.dev.master != node then .next s
  else
    let ports := s.dev.ports.zipIdx.map fun (x, k) => { x with up := x.up && x.node != node, far := if x.far == node then node + 1 + s.draw (87300 + k) else x.far }
    .next (noteMaster { s with dev := { s.dev with ports := ports } }).bump

/-! ## Remote accesses (27 R441; 02 R46) -/

/-- A value of n bytes in words of the fabric. -/
def fabWords (s : State) (pa size : Nat) : List PWord := (List.range ((size + 3) / 4)).map fun k =>
  let n := min 4 (size - 4 * k)
  (⟨BitVec.ofNat 32 (readMem s (pa + 4 * k) n), markedMem s (pa + 4 * k) n⟩ : PWord)
/-- Words of the fabric stored as n bytes, each word with its mark. -/
def fabStore (pa size : Nat) (ws : List PWord) (s : State) : State :=
  (List.range ((size + 3) / 4)).foldl (fun s k => let w := (ws[k]?).getD ⟨0, false⟩; writeMem (pa + 4 * k) (min 4 (size - 4 * k)) w.val.toNat w.poison s) s
/-- Words of the fabric as one operand. -/
def fabVal (ws : List PWord) : PVal :=
  match ws with
  | [a] => ⟨(pwGet a).setWidth 64, a.poison⟩
  | a :: b :: _ => if a.poison || b.poison then ⟨poisonPair, true⟩ else ⟨b.val ++ a.val, false⟩
  | [] => ⟨0, false⟩

/-- A context being killed whose memory holds an address (02 R46). -/
def killedMem (s : State) (pa : Nat) : Bool := s.ctxs.any fun p => p.2.st == .killing && inWindow (s.part (partOf p.1)) pa

/-- FABRIC_ACCESS: an access of another device: checked against this device's windows of the issuing partition, discarded while it reaches a killed context's memory, else performed. -/
def execFabricAccess (r : FabReq) (s : State) : Answer :=
  let give (x : RemoteResp) (s : State) : Answer := .next (countFab r.part { s with out := { s.out with resps := s.out.resps ++ [(r.id, x)] } }).bump
  if !inWindow (s.part r.part) r.addr then give .refused s
  else if !isDevMem r.addr then give .undeliverable s
  else if r.op == 3 then give (.done []) s
  else if killedMem s r.addr then give .discarded s
  else
  let s := agentPass r.part r.addr r.size (r.op != 0) s
  if r.op == 0 then give (.done (fabWords s r.addr r.size)) s
  else if r.op == 1 then give (.done []) (fabStore r.addr r.size r.data s)
  else
    let b := fabVal r.data; let c := fabVal r.cmp
    let x : Late := ⟨0, 2, false, r.addr, r.size, r.aop, b.val, b.poison, c.val, c.poison, 0, [], 0, 0⟩
    give (.done (pvWords (r.size / 4) (x.seen s default))) (x.now s default).2

/-- A store or atomic that has been made is answered: done or discarded (12 R266), its old value goes to the result that waits for it. It had leave, so that an answer that is neither sends it out again (DESIGN CHOICE, log 61). -/
def madeAnswer (gid : Nat) (g : Group) (w : RemoteWait) (r : RemoteResp) (s : State) : State :=
  let rest := g.remote.filter fun x => x.id != w.id
  match r with
  | .done _ | .discarded => s.setGroup gid (({ g with remote := rest } : Group).giveTo w.vp w.keys (respCells w.req.size 0 r))
  | _ =>
    let id := s.nextId
    (countFab w.req.part { s.setGroup gid { g with remote := { w with id := id } :: rest } with out := { s.out with fab := s.out.fab ++ [{ w.req with id := id }] } }).takeId

/-- REMOTE_ACCESS_RESPONSE: the response reaches the gang, the engine or the distributor that waits for it. -/
def execRemoteAccessResponse (id : Nat) (r : RemoteResp) (s : State) : Answer :=
  match s.groups.findSome? fun p => (p.2.remote.find? fun w => w.id == id && w.made).map fun w => (p.1, p.2, w) with
  | some (gid, g, w) => .next (madeAnswer gid g w r s)
  | none => .next { s with
    groups := s.groups.map fun p => if p.2.remote.any (·.id == id) then
      (p.1, { p.2 with remote := p.2.remote.filterMap fun w => if w.id == id && w.resp.isNone then (if w.slice == 65 then none else some { w with resp := some r }) else some w }) else p
    waits := s.waits.filterMap fun w => if w.id == id && w.resp.isNone then (if w.k == noAccess then none else some { w with resp := some r }) else some w }

end Sys2Proof.Machine
end

