-- ==== Sys2Proof/Machine/Crypto.lean ====
section
/-! DEFINITION. The digest and the two signatures that the boot ROM checks (29 R458), which the spec names and does not write out: SHA-512 (FIPS 180-4), Ed25519 (RFC 8032) and ML-DSA-65 (FIPS 204, with SHAKE of FIPS 202). PRESUMED (log 72): all of it is taken from those standards. -/

namespace Sys2Proof.Machine

/-! ## SHA-512 -/

/-- The round constants. -/
def shaK : List DWord :=
  [0x428a2f98d728ae22, 0x7137449123ef65cd, 0xb5c0fbcfec4d3b2f, 0xe9b5dba58189dbbc, 0x3956c25bf348b538, 0x59f111f1b605d019, 0x923f82a4af194f9b, 0xab1c5ed5da6d8118] ++
  [0xd807aa98a3030242, 0x12835b0145706fbe, 0x243185be4ee4b28c, 0x550c7dc3d5ffb4e2, 0x72be5d74f27b896f, 0x80deb1fe3b1696b1, 0x9bdc06a725c71235, 0xc19bf174cf692694] ++
  [0xe49b69c19ef14ad2, 0xefbe4786384f25e3, 0x0fc19dc68b8cd5b5, 0x240ca1cc77ac9c65, 0x2de92c6f592b0275, 0x4a7484aa6ea6e483, 0x5cb0a9dcbd41fbd4, 0x76f988da831153b5] ++
  [0x983e5152ee66dfab, 0xa831c66d2db43210, 0xb00327c898fb213f, 0xbf597fc7beef0ee4, 0xc6e00bf33da88fc2, 0xd5a79147930aa725, 0x06ca6351e003826f, 0x142929670a0e6e70] ++
  [0x27b70a8546d22ffc, 0x2e1b21385c26c926, 0x4d2c6dfc5ac42aed, 0x53380d139d95b3df, 0x650a73548baf63de, 0x766a0abb3c77b2a8, 0x81c2c92e47edaee6, 0x92722c851482353b] ++
  [0xa2bfe8a14cf10364, 0xa81a664bbc423001, 0xc24b8b70d0f89791, 0xc76c51a30654be30, 0xd192e819d6ef5218, 0xd69906245565a910, 0xf40e35855771202a, 0x106aa07032bbd1b8] ++
  [0x19a4c116b8d2d0c8, 0x1e376c085141ab53, 0x2748774cdf8eeb99, 0x34b0bcb5e19b48a8, 0x391c0cb3c5c95a63, 0x4ed8aa4ae3418acb, 0x5b9cca4f7763e373, 0x682e6ff3d6b2b8a3] ++
  [0x748f82ee5defb2fc, 0x78a5636f43172f60, 0x84c87814a1f0ab72, 0x8cc702081a6439ec, 0x90befffa23631e28, 0xa4506cebde82bde9, 0xbef9a3f7b2c67915, 0xc67178f2e372532b] ++
  [0xca273eceea26619c, 0xd186b8c721c0c207, 0xeada7dd6cde0eb1e, 0xf57d4f7fee6ed178, 0x06f067aa72176fba, 0x0a637dc5a2c898a6, 0x113f9804bef90dae, 0x1b710b35131c471b] ++
  [0x28db77f523047d84, 0x32caab7b40c72493, 0x3c9ebe0a15c9bebc, 0x431d67c49c100d4c, 0x4cc5d4becb3e42b6, 0x597f299cfc657e2a, 0x5fcb6fab3ad6faec, 0x6c44198c4a475817]

/-- The first chaining value. -/
def shaStart : List DWord :=
  [0x6a09e667f3bcc908, 0xbb67ae8584caa73b, 0x3c6ef372fe94f82b, 0xa54ff53a5f1d36f1, 0x510e527fade682d1, 0x9b05688c2b3e6c1f, 0x1f83d9abfb41bd6b, 0x5be0cd19137e2179]

/-- Word k of a list. -/
def lane (l : List DWord) (k : Nat) : DWord := (l[k]?).getD 0

/-- The message schedule, latest word first: 16 words of the block, then as many more as are asked for. -/
def shaSchedule : Nat → List DWord → List DWord
  | 0, l => l
  | n + 1, l =>
    let w (k : Nat) : DWord := lane l (k - 1)
    let s0 := (w 15).rotateRight 1 ^^^ (w 15).rotateRight 8 ^^^ (w 15 >>> 7)
    let s1 := (w 2).rotateRight 19 ^^^ (w 2).rotateRight 61 ^^^ (w 2 >>> 6)
    shaSchedule n ((s1 + w 7 + s0 + w 16) :: l)

/-- One round, with its constant and its word of the schedule. -/
def shaRound (v : List DWord) (kw : DWord × DWord) : List DWord :=
  match v with
  | [a, b, c, d, e, f, g, h] =>
    let t1 := h + (e.rotateRight 14 ^^^ e.rotateRight 18 ^^^ e.rotateRight 41) + ((e &&& f) ^^^ (~~~e &&& g)) + kw.1 + kw.2
    let t2 := (a.rotateRight 28 ^^^ a.rotateRight 34 ^^^ a.rotateRight 39) + ((a &&& b) ^^^ (a &&& c) ^^^ (b &&& c))
    [t1 + t2, a, b, c, d + t1, e, f, g]
  | v => v

/-- Bytes as a number, the first the most significant. -/
def beNat (l : List Byte) : Nat := l.foldl (fun n b => 256 * n + b.toNat) 0
/-- Bytes as a number, the first the least significant. -/
def leNat (l : List Byte) : Nat := l.foldr (fun b n => b.toNat + 256 * n) 0
/-- A number as n bytes, the most significant first. -/
def beBytes (n v : Nat) : List Byte := (leBytes n v).reverse
/-- Piece k of m bytes. -/
def piece (m k : Nat) (l : List Byte) : List Byte := (l.drop (m * k)).take m

/-- One block of 128 bytes. -/
def shaBlock (h : List DWord) (b : List Byte) : List DWord :=
  let w := ((List.range 16).map fun k => BitVec.ofNat 64 (beNat (piece 8 k b))).reverse
  ((shaK.zip (shaSchedule 64 w).reverse).foldl shaRound h).zipWith (· + ·) h

/-- SHA-512 as its 64 bytes. -/
def sha512 (m : List Byte) : List Byte :=
  let n := m.length
  let p := m ++ [0x80#8] ++ List.replicate ((239 - n % 128) % 128) 0#8 ++ beBytes 16 (8 * n)
  ((List.range (p.length / 128)).foldl (fun h k => shaBlock h (piece 128 k p)) shaStart).flatMap fun w => beBytes 8 w.toNat

/-! ## SHAKE (FIPS 202) -/

/-- The round constants of Keccak-f[1600]. -/
def keccakRc : List DWord :=
  [0x0000000000000001, 0x0000000000008082, 0x800000000000808a, 0x8000000080008000, 0x000000000000808b, 0x0000000080000001, 0x8000000080008081, 0x8000000000008009] ++
  [0x000000000000008a, 0x0000000000000088, 0x0000000080008009, 0x000000008000000a, 0x000000008000808b, 0x800000000000008b, 0x8000000000008089, 0x8000000000008003] ++
  [0x8000000000008002, 0x8000000000000080, 0x000000000000800a, 0x800000008000000a, 0x8000000080008081, 0x8000000000008080, 0x0000000080000001, 0x8000000080008008]

/-- The rotation of lane x + 5y. -/
def keccakRot : List Nat := [0, 1, 62, 28, 27] ++ [36, 44, 6, 55, 20] ++ [3, 10, 43, 25, 39] ++ [41, 45, 15, 21, 8] ++ [18, 2, 61, 56, 14]

/-- One round of Keccak-f[1600] on the 25 lanes x + 5y. -/
def keccakRound (a : List DWord) (rc : DWord) : List DWord :=
  let c := (List.range 5).map fun x => lane a x ^^^ lane a (x + 5) ^^^ lane a (x + 10) ^^^ lane a (x + 15) ^^^ lane a (x + 20)
  let d := (List.range 5).map fun x => lane c ((x + 4) % 5) ^^^ (lane c ((x + 1) % 5)).rotateLeft 1
  let t := a.zipIdx.map fun (v, i) => v ^^^ lane d (i % 5)
  -- lane (x, y) of the result of rho and pi is lane (x + 3y, x) of t, turned
  let b := (List.range 25).map fun i => let j := (i % 5 + 3 * (i / 5)) % 5 + 5 * (i % 5); (lane t j).rotateLeft ((keccakRot[j]?).getD 0)
  let e := (List.range 25).map fun i => lane b i ^^^ (~~~(lane b (i / 5 * 5 + (i + 1) % 5)) &&& lane b (i / 5 * 5 + (i + 2) % 5))
  e.zipIdx.map fun (v, i) => if i == 0 then v ^^^ rc else v
/-- Keccak-f[1600]. -/
def keccak (a : List DWord) : List DWord := keccakRc.foldl keccakRound a

/-- Squeeze n blocks of `rate` bytes. -/
def squeeze (rate : Nat) : Nat → List DWord → List Byte
  | 0, _ => []
  | n + 1, a => (a.flatMap fun w => leBytes 8 w.toNat).take rate ++ squeeze rate n (keccak a)

/-- SHAKE with a rate in bytes (168 for SHAKE128, 136 for SHAKE256): its first n bytes of output. -/
def shake (rate n : Nat) (m : List Byte) : List Byte :=
  let pad := rate - m.length % rate
  let p := m ++ (if pad == 1 then [0x9F#8] else [0x1F#8] ++ List.replicate (pad - 2) 0#8 ++ [0x80#8])
  let st := (List.range (p.length / rate)).foldl (fun a k =>
    let b := piece rate k p
    keccak (a.zipIdx.map fun (v, i) => v ^^^ BitVec.ofNat 64 (leNat (piece 8 i b)))) (List.replicate 25 0)
  (squeeze rate ((n + rate - 1) / rate) st).take n

/-! ## Ed25519 (RFC 8032) -/

/-- b to the power of e modulo m, over n bits of e. -/
def powMod (m b : Nat) : Nat → Nat → Nat
  | 0, _ => 1 % m
  | n + 1, e => let r := powMod m b n (e / 2); if e % 2 = 1 then r * r % m * b % m else r * r % m

/-- The field's prime, the order of the base point, d of the curve, a square root of -1. -/
def edP : Nat := 2 ^ 255 - 19
def edL : Nat := 2 ^ 252 + 27742317777372353535851937790883648493
def edD : Nat := 37095705934669439343138083508754565189542113879843219016388785533085940283555
def edI : Nat := powMod edP 2 255 ((edP - 1) / 4)

/-- A point in extended coordinates. -/
structure EdPoint where
  x : Nat
  y : Nat
  z : Nat
  t : Nat
deriving DecidableEq, Repr

/-- The sum of two points. -/
def EdPoint.add (p q : EdPoint) : EdPoint :=
  let m (u v : Nat) : Nat := u * v % edP
  let sub (u v : Nat) : Nat := (u + edP - v) % edP
  let a := m (sub p.y p.x) (sub q.y q.x); let b := m ((p.y + p.x) % edP) ((q.y + q.x) % edP)
  let c := m (m (2 * p.t) q.t) edD; let d := m (2 * p.z) q.z
  let e := sub b a; let f := sub d c; let g := (d + c) % edP; let h := (b + a) % edP
  ⟨m e f, m g h, m f g, m e h⟩
/-- k times a point, over n bits of k. -/
def EdPoint.mul (p : EdPoint) : Nat → Nat → EdPoint
  | 0, _ => ⟨0, 1, 1, 0⟩
  | n + 1, k => let r := p.mul n (k / 2); let r2 := r.add r; if k % 2 = 1 then r2.add p else r2
/-- Two points are the same. -/
def EdPoint.same (p q : EdPoint) : Bool := p.x * q.z % edP == q.x * p.z % edP && p.y * q.z % edP == q.y * p.z % edP

/-- The point that 32 bytes encode, if they do. -/
def edDecode (l : List Byte) : Option EdPoint :=
  let n := leNat l; let y := n % 2 ^ 255; let sign := n / 2 ^ 255 % 2
  if y ≥ edP then none
  else
    let u := (y * y + edP - 1) % edP; let v := (edD * (y * y) + 1) % edP
    -- a candidate square root of u / v
    let x0 := u * powMod edP v 255 3 % edP * powMod edP (u * powMod edP v 255 7 % edP) 255 ((edP - 5) / 8) % edP
    let x1 := if v * x0 * x0 % edP == u then some x0 else if v * x0 * x0 % edP == (edP - u) % edP then some (x0 * edI % edP) else none
    x1.bind fun x => if x == 0 && sign == 1 then none else
      let x := if x % 2 == sign then x else edP - x
      some ⟨x, y, 1, x * y % edP⟩

/-- The base point: y is 4/5, x even. -/
def edBase : Option EdPoint := edDecode (leBytes 32 (4 * powMod edP 5 255 (edP - 2) % edP))

/-- A signature of 64 bytes over a message verifies under a key of 32. -/
def verifyEd (key m sig : List Byte) : Bool :=
  let r := sig.take 32; let s := leNat (sig.drop 32)
  sig.length == 64 && decide (s < edL) &&
  match edDecode key, edDecode r, edBase with
  | some a, some p, some b =>
    let k := leNat (sha512 (r ++ key ++ m)) % edL
    ((b.mul 256 s).mul 4 8).same ((p.add (a.mul 256 k)).mul 4 8)
  | _, _, _ => false

/-! ## ML-DSA-65 (FIPS 204) -/

/-- The modulus; 2 times gamma2; gamma1. -/
def mlQ : Nat := 8380417
def mlTwoG : Nat := 523776
def mlG1 : Nat := 524288

/-- Bit string of bytes cut into n numbers of w bits. -/
def unpackBits (w n : Nat) (l : List Byte) : List Nat := let v := leNat l; (List.range n).map fun k => v / 2 ^ (w * k) % 2 ^ w
/-- Numbers of w bits packed into bytes. -/
def packBits (w : Nat) (l : List Nat) : List Byte := leBytes ((w * l.length + 7) / 8) (l.foldr (fun x n => x + 2 ^ w * n) 0)

/-- The eight bits of a number reversed. -/
def rev8 (k : Nat) : Nat := (List.range 8).foldl (fun n j => 2 * n + k / 2 ^ j % 2) 0
/-- The powers of 1753, a 512th root of 1. -/
def mlRoots : List Nat := (List.range 512).foldl (fun l _ => match l with | x :: _ => x * 1753 % mlQ :: l | [] => [1]) [] |>.reverse
/-- The values of a polynomial at the roots 1753^(2 rev8(i) + 1). -/
def ntt (f : List Nat) : List Nat :=
  let r := mlRoots.toArray
  (List.range 256).map fun i => let s := 2 * rev8 i + 1; (f.zipIdx.foldl (fun a (c, j) => a + c * (r[s * j % 512]?).getD 0) 0) % mlQ
/-- The polynomial with those values. -/
def nttInv (g : List Nat) : List Nat :=
  let r := mlRoots.toArray; let h := g.zipIdx.map fun (c, i) => (c, 2 * rev8 i + 1)
  (List.range 256).map fun j => (h.foldl (fun a (c, s) => a + c * (r[(512 - s * j % 512) % 512]?).getD 0) 0) % mlQ * 8347681 % mlQ

/-- A polynomial of the matrix A, by its values, from its seed. -/
def mlReject (seed : List Byte) : List Nat :=
  let b := shake 168 4032 seed
  (((List.range 1344).map fun k => leNat (piece 3 k b) % 2 ^ 23).filter (· < mlQ)).take 256

/-- The challenge: 49 coefficients of 1 or -1. -/
def sampleBall (c : List Byte) : List Nat :=
  let b := shake 136 1088 c; let signs := leNat (b.take 8)
  let r := (List.range 49).foldl (fun (acc : List Nat × List Byte) k =>
    let i := 207 + k
    let rest := acc.2.dropWhile fun x => decide (i < x.toNat)
    let j := match rest with | x :: _ => x.toNat | [] => 0
    let moved := acc.1.set i ((acc.1[j]?).getD 0)
    (moved.set j (if signs / 2 ^ k % 2 == 1 then mlQ - 1 else 1), rest.drop 1)) (List.replicate 256 0, b.drop 8)
  r.1

/-- The hints of six polynomials, each the places of its ones; none where the encoding is not the one of a hint. -/
def unpackHint (y : List Byte) : Option (List (List Nat)) :=
  let at_ (k : Nat) : Nat := ((y[k]?).getD 0).toNat
  let r := (List.range 6).foldl (fun (o : Option (List (List Nat) × Nat)) i => o.bind fun (l, from_) =>
    let upTo := at_ (55 + i)
    if upTo < from_ || 55 < upTo then none
    else
      let places := (List.range (upTo - from_)).map fun k => at_ (from_ + k)
      if (places.zip (places.drop 1)).all fun p => decide (p.1 < p.2) then some (l ++ [places], upTo) else none) (some ([], 0))
  r.bind fun (l, n) => if (List.range (55 - n)).all fun k => at_ (n + k) == 0 then some l else none

/-- The high part of a coefficient, corrected by its hint. -/
def useHint (h : Bool) (r : Nat) : Nat :=
  let low := r % mlTwoG; let pos := decide (0 < low) && decide (low ≤ mlTwoG / 2)
  -- the centred remainder is `low`, or below 0 when `low` passes half of the modulus
  let up := if low ≤ mlTwoG / 2 then r - low else r - low + mlTwoG
  let r1 := if up == mlQ - 1 then 0 else up / mlTwoG
  let pos := pos && up != mlQ - 1
  if !h then r1 else if pos then (r1 + 1) % 16 else (r1 + 15) % 16

/-- A signature of 3,309 bytes over a message, with an empty context string, verifies under a key of 1,952. -/
def verifyMl (key m sig : List Byte) : Bool :=
  let rho := key.take 32
  let t1 := (List.range 6).map fun i => unpackBits 10 256 (((key.drop 32).drop (320 * i)).take 320)
  let c := sig.take 48
  let z := (List.range 5).map fun i => (unpackBits 20 256 (((sig.drop 48).drop (640 * i)).take 640)).map fun (x : Nat) => (mlG1 : Int) - x
  let short := z.all fun p => p.all fun x => decide (x.natAbs < mlG1 - 196)
  match unpackHint (sig.drop 3248) with
  | none => false
  | some h =>
    let mu := shake 136 64 (shake 136 64 key ++ [0#8, 0#8] ++ m)
    let ch := ntt (sampleBall c)
    let zh := z.map fun p => ntt (p.map fun x => (x % (mlQ : Int)).toNat)
    let w := (t1.zipIdx).map fun (t, i) =>
      let az := (zh.zipIdx).foldl (fun (acc : List Nat) (p, j) => acc.zipWith (· + ·) ((mlReject (rho ++ [BitVec.ofNat 8 j, BitVec.ofNat 8 i])).zipWith (· * ·) p)) (List.replicate 256 0)
      let ct := ch.zipWith (fun a b => a * b % mlQ) (ntt (t.map (· * 8192)))
      nttInv (az.zipWith (fun a b => (a + mlQ - b) % mlQ) ct)
    let w1 := (w.zip h).flatMap fun (p, ones) => packBits 4 (p.zipIdx.map fun (x, k) => useHint (ones.contains k) x)
    sig.length == 3309 && key.length == 1952 && short && shake 136 48 (mu ++ w1) == c

end Sys2Proof.Machine
end

