-- ==== Sys2Proof/Machine/Power.lean ====
section
/-! DEFINITION. Boot, attestation, power and heat, thermal migration, uncorrectable errors (29 R458 to R462; 23 R410, R411; 25 R429). -/

namespace Sys2Proof.Machine

/-! ## Boot and identity (29 R458, R459) -/

/-- RESET: everything at its reset value but memory; the ROM starts the firmware only when both signatures over the digest verify under the root keys and the security version is new enough. The digest is kept with its first byte the least significant, as a report carries it. -/
def execResetPart (img : BootImage) (s : State) : Answer :=
  let d := sha512 img.body; let digest := BitVec.ofNat 512 (leNat d)
  let ed := verifyEd Config.rootEd d img.edSig; let ml := verifyMl Config.rootMl d img.mlSig
  let ok := ed && ml && Config.minSvn ≤ img.svn
  .next { State.reset with
    agenda := s.agenda, turn := s.turn, free := s.free + 1, nextId := s.nextId, mem := s.mem, memPoison := s.memPoison
    dev := { Dev.reset with bootState := if ok then 2 else 3, edFail := !ed, mlFail := !ml, svn := if ok then img.svn else 0, digest := if ok then digest else 0 } }

/-- 29 R459: the contents of a report. -/
def reportBytes (nonce : BitVec 256) (s : State) : List Byte :=
  leBytes 32 nonce.toNat ++ leBytes 8 Config.serial.toNat ++ leBytes 64 s.dev.digest.toNat ++ leBytes 4 s.dev.svn.toNat ++ leBytes 8 s.tsc.toNat
/-- ATTESTATION_REPORT: signed by both identity keys. -/
def execAttestationReport (nonce : BitVec 256) (s : State) : Answer :=
  if s.dev.bootState != 2 then .next s
  else
    let b := reportBytes nonce s
    .next { s with out := { s.out with reports := s.out.reports ++ [(b, Config.signEd b, Config.signMl b)] } }

/-! ## Power and cooling (29 R460, R462) -/

/-- THERMAL_TRIP: at 125 °C every context halts with UNCORRECTABLE, TRIP is set and, once all have halted, the clocks stop. -/
def tripNow (maxC : Nat) (s : State) : State :=
  let s1 := s.ctxs.foldl (fun s p => raiseHalt p.1 (tripRec s) s) s
  State.tripped { s1 with dev := { s1.dev with trip := true, maxC := maxC, stopped := true } }

/-- CLOCK_STEP_DECISION: the clock goes down by 100 MHz, to 1,000 MHz at the least, while the power passes PLIMIT or a die is at 105 °C; with neither it may come back. At 125 °C the part trips. -/
def execClockStepDecision (powerMw maxC : Nat) (s : State) : Answer :=
  let d := s.dev
  let hot := decide (105 ≤ maxC); let much := decide (d.plimit * 1000 < powerMw)
  let mhz := if hot || much then max 1000 (d.mhz - 100) else if s.coin 91000 then min 2100 (d.mhz + 100) else d.mhz
  let t := ({ s with dev := { d with powerMw := powerMw, maxC := maxC, mhz := mhz, pthr := d.pthr || much, tthr := d.tthr || hot } } : State).bump
  .next (if decide (125 ≤ maxC) && !d.stopped then tripNow maxC t else t)

/-- THERMAL_TRIP. -/
def execThermalTrip (maxC : Nat) (s : State) : Answer := .next (if maxC < 125 then s else tripNow maxC s)

/-! ## Thermal migration (23 R410, R411) -/

/-- The core's message queues of a partition are all empty. -/
def queuesEmpty (s : State) (part core : Nat) : Bool := (List.range 4).all fun q => (s.mq part core q).entries == 0
/-- A gang stands at a blocking point: BAR, LAUNCH, WAIT on w0 or w1 whose oldest outstanding load goes through a node index, or SLEEP with the core's queues empty. -/
def atBlockingPoint (s : State) (part core : Nat) (g : Group) (a : Gang) : Bool :=
  match a.hold with
  | .bar _ | .launch => true
  | .wait m _ => [0, 1].any fun c => m.getLsbD c && (match g.oldest c with | some t => g.far.contains t.id | none => false)
  | .sleep _ | .sleepTsc _ => queuesEmpty s part core
  | _ => false

/-- 23 R410: everything on core `a` may move to core `b`. -/
def mayMigrate (s : State) (c a b : Nat) : Bool :=
  let gs := (ctxGroups s c).filter fun p => p.2.core == a; let part := partOf c
  (s.ctx c).st == .running && (spareCores s c a).contains b &&
  (s.wgs.all fun w => w.2.core != a || decide (w.2.placedAt + 2000000 ≤ s.tsc.toNat) || !(s.launches.any fun l => l.1 == w.2.lid && l.2.ctx == c)) &&
  gs.all (fun p => p.2.remote.isEmpty && p.2.gangs.all (atBlockingPoint s part a p.2)) &&
  (s.launches.all fun l => l.2.ctx != c || !l.2.map.contains a || !l.2.rec_.pers) &&
  (ctxCopies s c).all (fun p => p.2.core != a) && (ctxOps s c).all (fun p => coreOf p.1 != a) && (s.ctx c).comms.all (fun p => p.2.insts.all fun i => i.core != a) &&
  ((s.lines part a).all fun l => !l.asked) && (List.range 4).all (fun q => (s.mq part a q).held.isEmpty) && s.msgs.all fun p => p.2.part != part

/-- THERMAL_MIGRATION: the virtual cores on one core move to another. Whether a SLEEP ends with the move (22 R385) or its end moves along and is evaluated at the target (23 R411) is free, for the spec says both (log 31). -/
def execThermalMigration (lid vcore core : Nat) (s : State) : Answer :=
  match sget lid s.launches with
  | none => .next s
  | some l =>
    match l.map[vcore]? with
    | none => .next s
    | some a =>
      if !mayMigrate s l.ctx a core then .next s
      else
        let s1 := moveCore l.ctx a core s
        let wake (gid : Nat) (x : Gang) : Gang :=
          match x.hold with
          | .sleep n => { x with hold := if s.coin (87400 + 32 * gid + x.slices.headD 0) then .sleepTsc (s.tsc.toNat + ((n - s.clk) * 1000 + s.dev.mhz - 1) / s.dev.mhz) else .free, since := s.clk }
          | .sleepTsc _ => if s.coin (87400 + 32 * gid + x.slices.headD 0) then x else { x with hold := .free, since := s.clk }
          | _ => x
        let s2 : State := { s1 with groups := s1.groups.map fun p => if p.2.ctx == l.ctx && p.2.core == core then (p.1, { p.2.settled with gangs := p.2.gangs.map (wake p.1) }) else p }
        let seq := (s2.ctx l.ctx).stopseq.toNat
        .next (pushEvent (partOf l.ctx) (srcNum core 0xF) seq 5 0x61 l.ctx 0 (ctxRec l.ctx 0x61 0 false s2)).bump

/-! ## Uncorrectable errors (25 R429) -/

/-- The contexts with work on a core: groups, copies, continuations, task entries, collective instances, and launches that have a virtual core there. -/
def ctxsOn (s : State) (core : Nat) : List Nat :=
  ((s.groups.filter fun p => p.2.core == core && p.2.resident).map (·.2.ctx) ++ (s.copies.filter fun p => p.2.core == core).map (·.2.ctx) ++
   (s.conts.filter fun p => coreOf p.2.quad == core).map (·.2.ctx) ++ (s.tasks.filter fun p => p.1 / 1024 == core).map (·.2.ctx) ++
   (s.ctxs.filter fun p => p.2.comms.any fun q => q.2.insts.any (·.core == core)).map (·.1) ++
   (s.launches.filter fun p => p.2.map.contains core).map (·.2.ctx)).eraseDups

/-- The faulty state is saved with its poison tag set. -/
def strike (site : ErrSite) (s : State) : State :=
  match site with
  | .reg gid key => s.updGroup gid fun g => g.putCell key poisoned
  | .tile gid key => s.updGroup gid fun g => { g with tile := sset key poisoned g.tile }
  | .pv gid key => s.updGroup gid fun g => { g with pv := sset key poisoned g.pv }
  | .control _ => s

/-- UNCORRECTABLE_ERROR: the core is fenced, and an event tells of it for each context with work there (27 R444; log 69); running contexts with work on it halt and are redistributed; one whose control state is unreadable is killed. -/
def execUncorrectableError (core : Nat) (site : ErrSite) (s : State) : Answer :=
  if decide (64 ≤ core) || s.dev.fenced.contains core then .next s
  else
    let on := ctxsOn s core
    let s1 := strike site { s with dev := { s.dev with fenced := core :: s.dev.fenced } }
    let s2 := on.foldl (fun s c => pushEvent (partOf c) (srcNum core 0xF) 0 6 0x50 c 0 s) s1
    .next (on.foldl (fun s c =>
      if site == .control c then (match (s.ctx c).st with | .idle | .killing | .killed => s | _ => killNow c 3 s)
      else match (s.ctx c).st with
        | .running => s.updCtx c fun x => { x with st := .halting, redist := true }
        | _ => s) s2)

end Sys2Proof.Machine
end

