-- ==== Sys2Proof/Machine/System.lean ====
section
/-! DEFINITION. ERET and HALTCTX (25 R430, R432), and the hint space (08 R187, R188; 12 R263). -/

namespace Sys2Proof.Machine

/-! ## ERET (25 R430) -/

/-- The stacks of a handler's slices stand as they were at its entry. -/
def depthsKept (g : Group) : Bool := (g.trap.getD []).all fun t => (g.slice t.slice).recs.length == t.recDepth && (g.slice t.slice).rets.length == t.retDepth

/-- Fetch a word of the clause an ERET returns to; a fault is the ERET's own. -/
def eretFetch (va : DWord) (f : Fetched) (go : DWord → Act) : Act :=
  match f with
  | .wait s => .stall s
  | .fault c d => .halt c d va 0
  | .ok w => go w

/-- ERET. -/
def execEret (w : WB) (s : State) : Answer :=
  runInstr (.eret w) w.g .none (fun e =>
    let h := e.sr.epc; let idx := (e.sr.ecause.extractLsb' 8 4).toNat; let cause := (e.sr.ecause.extractLsb' 0 8).toNat
    if !e.g0.sr.handler then .halt cOPERAND 0 0 0
    else if !depthsKept e.g0 then .halt cTARGET 0 0 0
    else if h.toNat % 8 != 0 then .halt cTARGET 0 0 0
    else eretFetch h (fetchWord e.s0 e.gid e.g0 h) fun word =>
      match decHeader word with
      | none => .halt cTARGET 0 0 0
      | some hd =>
        let n := hd.count.toNat
        if decide (n < idx) then .halt cTARGET 0 0 0
        else
          let s := fetchPass e.s e.g0 h
          let i := if cause == 0x41 || cause == 0x42 then idx + 1 else idx
          let g := leaveHandler e.s.clk e.a h i e.g
          if n < i then
            let resumeAt := nextHeader h hd
            let b := { e.a with pc := resumeAt, idx := 0, hdr := none, stream := none, hold := .free, due := e.s.clk + w.g.stall.toNat + 1 }
            .moved (arrive e.s.clk b (b.slices.map fun k => (k, resumeAt)) g) s
          else eretFetch (wordAddr h i) (fetchInstr e.s0 e.gid e.g0 hd (wordAddr h i)) fun _ => .moved (g.updGang e.slice fun a => { a with due := e.s.clk + w.g.stall.toNat + 1 }) (fetchPass s e.g0 (wordAddr h i))) s

/-! ## HALTCTX (25 R432) -/

/-- HALTCTX: 0 halt, 1 kill, 2 quiesce. -/
def execHaltctx (w : WI) (s : State) : Answer :=
  let op := (w.mod.extractLsb' 0 2).toNat
  runInstr (.haltctx w) w.g (if w.a == .z then .none else ⟨[(w.a, 1, false)], [], [], [], true⟩) (fun e =>
    let own := e.g0.ctx
    let bad := w.a != .z && !e.lanes.isEmpty && (e.r32 w.a e.lead).poison
    let n := if w.a == .z || e.lanes.isEmpty then own else (e.r32 w.a e.lead).w.toNat
    if bad && e.sr.trapPoison then .trap cPOISON (2 ^ e.lead) 0
    else if !(Instr.haltctx w).ownOk || decide (4096 ≤ n) || partOf n != partOf own then .halt cOPERAND 0 0 0
    else if !isSup e.s0 e.g0 && n != own then .halt cPRIVILEGE 0 0 0
    else if e.lanes.isEmpty then .done e.g e.s
    else
      let g := stepOn e.s.clk w.g.stall.toNat e.slice (e.noteLead bad e.g)
      let s1 := match op with | 0 => haltCmd n 2 e.s | 1 => killCmd n 2 e.s | _ => quiesceCmd n e.s
      if op == 1 then .moved ((ctxStopped n g s1.clk)) s1
      else if op == 0 && n == own && (e.s.ctx own).st == .running then
        -- the group's own record: it stops at its next instruction
        let s2 := s1.setGroup e.gid g
        .moved g (s1.updCtx n fun x => { x with recs := x.recs ++ [groupRec s2 e.gid (((g.gangs.find? fun a => a.slices.contains e.slice).map fun a => a.slices.headD 0).getD 0) 0 2 0 0 true] })
      else .moved g s1) s
where
  /-- The issuing group stops with its context when that is killed. -/
  ctxStopped (n : Nat) (g : Group) (clk : Nat) : Group := if g.ctx == n then { g with gangs := g.gangs.map (stopGang clk) } else g

/-! ## Hints (08 R187, R188; 12 R263) -/

/-- The address a PREF or EVICT names (12 R246); a reserved size counts as 16 bytes (log 27). -/
def hintAddr (e : Env) (w : WM) (L : Nat) : DWord := memAddr e w.base w.off w.imm (2 ^ min w.size.toNat 4) L
/-- PREF acts as CCTL.pf: a line is brought into the die cache. -/
def execPref (w : WM) (s : State) : Answer :=
  runInstr (.pref w) w.g ⟨[(w.base, 2, false), (w.off, 1, false)], [], [], [], true⟩ (fun e => cctlAct e 0 (hintAddr e w)) s
/-- EVICT acts as CCTL.lo: a line becomes the first victim of its set. -/
def execEvict (w : WM) (s : State) : Answer :=
  runInstr (.evict w) w.g ⟨[(w.base, 2, false), (w.off, 1, false)], [], [], [], true⟩ (fun e => cctlAct e 1 (hintAddr e w)) s

/-- PRIO: the group's priority level, in force 2 clk later. -/
def execPrio (w : WI) (s : State) : Answer :=
  runInstr (.prio w) w.g .none (fun e =>
    if e.lanes.isEmpty then .done e.g e.s
    else .done (e.g.setPrio e.s.clk (w.imm.setWidth 2)) e.s) s

/-- The registers a hint poisons: a v within the allocation or an o in its lanes, an s for the group. -/
def hintKeys (o : Opd) (regs : Nat) (lanes : List Nat) : List Nat :=
  match o with
  | .v n => if n.toNat < regs then lanes.map fun L => keyV L n.toNat else []
  | .o n => lanes.map fun L => keyO L n.toNat
  | .s n => if lanes.isEmpty then [] else [keyS n.toNat]
  | _ => []

/-- An unassigned hint writes poison. -/
def execUnassignedHint (w : WH) (s : State) : Answer :=
  runInstr (.unassignedHint w) w.g .none (fun e => .done ((hintKeys w.dst e.g0.regs e.lanes).foldl (fun g k => g.putCell k poisoned) e.g) e.s) s

end Sys2Proof.Machine
end

