-- ==== Sys2Proof/Machine/Dispatch.lean ====
section
/-! DEFINITION. One arm per constructor of Instr: which meaning runs. -/

namespace Sys2Proof.Machine

/-- The meaning of one instruction of the current gang, or of one event. -/
def exec (i : Instr) (s : State) : Host.Outcome State Fault Refusal :=
  match i with
  | .nop w => Sys2Proof.Machine.execNop w s
  | .mov w => Sys2Proof.Machine.execMov w s
  | .movi w => Sys2Proof.Machine.execMovi w s
  | .sel w => Sys2Proof.Machine.execSel w s
  | .iadd w => Sys2Proof.Machine.execIadd w s
  | .isub w => Sys2Proof.Machine.execIsub w s
  | .iaddc w => Sys2Proof.Machine.execIaddc w s
  | .add64 w => Sys2Proof.Machine.execAdd64 w s
  | .sub64 w => Sys2Proof.Machine.execSub64 w s
  | .lea w => Sys2Proof.Machine.execLea w s
  | .imul w => Sys2Proof.Machine.execImul w s
  | .imulhi w => Sys2Proof.Machine.execImulhi w s
  | .umulhi w => Sys2Proof.Machine.execUmulhi w s
  | .imad w => Sys2Proof.Machine.execImad w s
  | .imadw w => Sys2Proof.Machine.execImadw w s
  | .idiv w => Sys2Proof.Machine.execIdiv w s
  | .udiv w => Sys2Proof.Machine.execUdiv w s
  | .irem w => Sys2Proof.Machine.execIrem w s
  | .urem w => Sys2Proof.Machine.execUrem w s
  | .imin w => Sys2Proof.Machine.execImin w s
  | .imax w => Sys2Proof.Machine.execImax w s
  | .umin w => Sys2Proof.Machine.execUmin w s
  | .umax w => Sys2Proof.Machine.execUmax w s
  | .iabs w => Sys2Proof.Machine.execIabs w s
  | .ineg w => Sys2Proof.Machine.execIneg w s
  | .iand w => Sys2Proof.Machine.execIand w s
  | .ior w => Sys2Proof.Machine.execIor w s
  | .ixor w => Sys2Proof.Machine.execIxor w s
  | .andn w => Sys2Proof.Machine.execAndn w s
  | .inot w => Sys2Proof.Machine.execInot w s
  | .shl w => Sys2Proof.Machine.execShl w s
  | .shr w => Sys2Proof.Machine.execShr w s
  | .sar w => Sys2Proof.Machine.execSar w s
  | .rotl w => Sys2Proof.Machine.execRotl w s
  | .funnel w => Sys2Proof.Machine.execFunnel w s
  | .bfx w => Sys2Proof.Machine.execBfx w s
  | .bfi w => Sys2Proof.Machine.execBfi w s
  | .popc w => Sys2Proof.Machine.execPopc w s
  | .clz w => Sys2Proof.Machine.execClz w s
  | .ctz w => Sys2Proof.Machine.execCtz w s
  | .brev w => Sys2Proof.Machine.execBrev w s
  | .prmt w => Sys2Proof.Machine.execPrmt w s
  | .icmp w => Sys2Proof.Machine.execIcmp w s
  | .ucmp w => Sys2Proof.Machine.execUcmp w s
  | .plop w => Sys2Proof.Machine.execPlop w s
  | .pstore w => Sys2Proof.Machine.execPstore w s
  | .pload w => Sys2Proof.Machine.execPload w s
  | .pmov w => Sys2Proof.Machine.execPmov w s
  | .shfl w => Sys2Proof.Machine.execShfl w s
  | .vote w => Sys2Proof.Machine.execVote w s
  | .redux w => Sys2Proof.Machine.execRedux w s
  | .firstl w => Sys2Proof.Machine.execFirstl w s
  | .mfs w => Sys2Proof.Machine.execMfs w s
  | .mts w => Sys2Proof.Machine.execMts w s
  | .fadd w => Sys2Proof.Machine.execFadd w s
  | .fsub w => Sys2Proof.Machine.execFsub w s
  | .fmul w => Sys2Proof.Machine.execFmul w s
  | .ffma w => Sys2Proof.Machine.execFfma w s
  | .fdiv w => Sys2Proof.Machine.execFdiv w s
  | .fsqrt w => Sys2Proof.Machine.execFsqrt w s
  | .fmin w => Sys2Proof.Machine.execFmin w s
  | .fmax w => Sys2Proof.Machine.execFmax w s
  | .fminnum w => Sys2Proof.Machine.execFminnum w s
  | .fmaxnum w => Sys2Proof.Machine.execFmaxnum w s
  | .fabs w => Sys2Proof.Machine.execFabs w s
  | .fneg w => Sys2Proof.Machine.execFneg w s
  | .fcopysign w => Sys2Proof.Machine.execFcopysign w s
  | .fcmp w => Sys2Proof.Machine.execFcmp w s
  | .fclass w => Sys2Proof.Machine.execFclass w s
  | .frint w => Sys2Proof.Machine.execFrint w s
  | .fscaleb w => Sys2Proof.Machine.execFscaleb w s
  | .flogb w => Sys2Proof.Machine.execFlogb w s
  | .cvt w => Sys2Proof.Machine.execCvt w s
  | .cvti w => Sys2Proof.Machine.execCvti w s
  | .icvtf w => Sys2Proof.Machine.execIcvtf w s
  | .frcp w => Sys2Proof.Machine.execFrcp w s
  | .frsq w => Sys2Proof.Machine.execFrsq w s
  | .fexp2 w => Sys2Proof.Machine.execFexp2 w s
  | .flog2 w => Sys2Proof.Machine.execFlog2 w s
  | .fsin w => Sys2Proof.Machine.execFsin w s
  | .fcos w => Sys2Proof.Machine.execFcos w s
  | .ftanh w => Sys2Proof.Machine.execFtanh w s
  | .dot w => Sys2Proof.Machine.execDot w s
  | .expr w => Sys2Proof.Machine.execExpr w s
  | .rng w => Sys2Proof.Machine.execRng w s
  | .qmx w => Sys2Proof.Machine.execQmx w s
  | .ld w => Sys2Proof.Machine.execLd w s
  | .st w => Sys2Proof.Machine.execSt w s
  | .lds w => Sys2Proof.Machine.execLds w s
  | .sts w => Sys2Proof.Machine.execSts w s
  | .ldu w => Sys2Proof.Machine.execLdu w s
  | .atom w => Sys2Proof.Machine.execAtom w s
  | .atoms w => Sys2Proof.Machine.execAtoms w s
  | .red w => Sys2Proof.Machine.execRed w s
  | .stmc w => Sys2Proof.Machine.execStmc w s
  | .fence w => Sys2Proof.Machine.execFence w s
  | .cctl w => Sys2Proof.Machine.execCctl w s
  | .msgput w => Sys2Proof.Machine.execMsgput w s
  | .msgtake w => Sys2Proof.Machine.execMsgtake w s
  | .mloop w => Sys2Proof.Machine.execMloop w s
  | .mconv w => Sys2Proof.Machine.execMconv w s
  | .mzero w => Sys2Proof.Machine.execMzero w s
  | .mlda w => Sys2Proof.Machine.execMlda w s
  | .msta w => Sys2Proof.Machine.execMsta w s
  | .accrd w => Sys2Proof.Machine.execAccrd w s
  | .accwr w => Sys2Proof.Machine.execAccwr w s
  | .drain w => Sys2Proof.Machine.execDrain w s
  | .epload w => Sys2Proof.Machine.execEpload w s
  | .faclu w => Sys2Proof.Machine.execFaclu w s
  | .facch w => Sys2Proof.Machine.execFacch w s
  | .facqr w => Sys2Proof.Machine.execFacqr w s
  | .trsm w => Sys2Proof.Machine.execTrsm w s
  | .pvapply w => Sys2Proof.Machine.execPvapply w s
  | .pvmov w => Sys2Proof.Machine.execPvmov w s
  | .cpy w => Sys2Proof.Machine.execCpy w s
  | .gather w => Sys2Proof.Machine.execGather w s
  | .scatter w => Sys2Proof.Machine.execScatter w s
  | .cinit w => Sys2Proof.Machine.execCinit w s
  | .cstart w => Sys2Proof.Machine.execCstart w s
  | .cquery w => Sys2Proof.Machine.execCquery w s
  | .cfree w => Sys2Proof.Machine.execCfree w s
  | .tdef w => Sys2Proof.Machine.execTdef w s
  | .tsig w => Sys2Proof.Machine.execTsig w s
  | .bar w => Sys2Proof.Machine.execBar w s
  | .barc w => Sys2Proof.Machine.execBarc w s
  | .launch w => Sys2Proof.Machine.execLaunch w s
  | .selsched w => Sys2Proof.Machine.execSelsched w s
  | .bra w => Sys2Proof.Machine.execBra w s
  | .brx w => Sys2Proof.Machine.execBrx w s
  | .call w => Sys2Proof.Machine.execCall w s
  | .callx w => Sys2Proof.Machine.execCallx w s
  | .ret w => Sys2Proof.Machine.execRet w s
  | .exitLanes w => Sys2Proof.Machine.execExitLanes w s
  | .regang w => Sys2Proof.Machine.execRegang w s
  | .waitCtr w => Sys2Proof.Machine.execWaitCtr w s
  | .yield w => Sys2Proof.Machine.execYield w s
  | .sleep w => Sys2Proof.Machine.execSleep w s
  | .xlate w => Sys2Proof.Machine.execXlate w s
  | .trapCode w => Sys2Proof.Machine.execTrapCode w s
  | .bkpt w => Sys2Proof.Machine.execBkpt w s
  | .ifence w => Sys2Proof.Machine.execIfence w s
  | .eret w => Sys2Proof.Machine.execEret w s
  | .mfsp w => Sys2Proof.Machine.execMfsp w s
  | .mtsp w => Sys2Proof.Machine.execMtsp w s
  | .haltctx w => Sys2Proof.Machine.execHaltctx w s
  | .pref w => Sys2Proof.Machine.execPref w s
  | .evict w => Sys2Proof.Machine.execEvict w s
  | .prio w => Sys2Proof.Machine.execPrio w s
  | .unassignedHint w => Sys2Proof.Machine.execUnassignedHint w s
  | .clauseStart gid slice => Sys2Proof.Machine.execClauseStart gid slice s
  | .variableResultComplete gid w1 => Sys2Proof.Machine.execVariableResultComplete gid w1 s
  | .walkStart lookup => Sys2Proof.Machine.execWalkStart lookup s
  | .walkComplete lookup => Sys2Proof.Machine.execWalkComplete lookup s
  | .invalidateContext ctx seq => Sys2Proof.Machine.execInvalidateContext ctx seq s
  | .invalidatePages ctx seq pages => Sys2Proof.Machine.execInvalidatePages ctx seq pages s
  | .invalidateRanges ctx seq => Sys2Proof.Machine.execInvalidateRanges ctx seq s
  | .invalidateNodes ctx seq => Sys2Proof.Machine.execInvalidateNodes ctx seq s
  | .invalidateReserved ctx seq kind => Sys2Proof.Machine.execInvalidateReserved ctx seq kind s
  | .invalidationComplete ctx => Sys2Proof.Machine.execInvalidationComplete ctx s
  | .copyEngineRow op => Sys2Proof.Machine.execCopyEngineRow op s
  | .copyEngineComplete op => Sys2Proof.Machine.execCopyEngineComplete op s
  | .sequencerOpStart quad => Sys2Proof.Machine.execSequencerOpStart quad s
  | .kStep quad => Sys2Proof.Machine.execKStep quad s
  | .drainRow quad => Sys2Proof.Machine.execDrainRow quad s
  | .matrixOpComplete gid => Sys2Proof.Machine.execMatrixOpComplete gid s
  | .factorColumn quad => Sys2Proof.Machine.execFactorColumn quad s
  | .factorGrowth quad => Sys2Proof.Machine.execFactorGrowth quad s
  | .msgputAppend msg => Sys2Proof.Machine.execMsgputAppend msg s
  | .creditRequest msg => Sys2Proof.Machine.execCreditRequest msg s
  | .creditGrant msg => Sys2Proof.Machine.execCreditGrant msg s
  | .creditReturn part core => Sys2Proof.Machine.execCreditReturn part core s
  | .taskSpawn core entry quad => Sys2Proof.Machine.execTaskSpawn core entry quad s
  | .sleepExpiry gid slice => Sys2Proof.Machine.execSleepExpiry gid slice s
  | .groupEnd gid => Sys2Proof.Machine.execGroupEnd gid s
  | .launchRecordAccept ctx src => Sys2Proof.Machine.execLaunchRecordAccept ctx src s
  | .workgroupStart lid vcore => Sys2Proof.Machine.execWorkgroupStart lid vcore s
  | .launchComplete lid => Sys2Proof.Machine.execLaunchComplete lid s
  | .commNegotiate ctx m => Sys2Proof.Machine.execCommNegotiate ctx m s
  | .commAbortNotice ctx tag mismatch => Sys2Proof.Machine.execCommAbortNotice ctx tag mismatch s
  | .commTimeout ctx h => Sys2Proof.Machine.execCommTimeout ctx h s
  | .slotRequest sw r => Sys2Proof.Machine.execSlotRequest sw r s
  | .slotDecision sw => Sys2Proof.Machine.execSlotDecision sw s
  | .slotReclaim sw owner => Sys2Proof.Machine.execSlotReclaim sw owner s
  | .chunkReceive ctx c => Sys2Proof.Machine.execChunkReceive ctx c s
  | .chunkResendRequest ctx h inst chunk => Sys2Proof.Machine.execChunkResendRequest ctx h inst chunk s
  | .chunkAck ctx h inst chunk => Sys2Proof.Machine.execChunkAck ctx h inst chunk s
  | .instanceComplete ctx h inst => Sys2Proof.Machine.execInstanceComplete ctx h inst s
  | .flitReceive port crcOk => Sys2Proof.Machine.execFlitReceive port crcOk s
  | .linkTrained port version node masterTime => Sys2Proof.Machine.execLinkTrained port version node masterTime s
  | .timeSyncSend port => Sys2Proof.Machine.execTimeSyncSend port s
  | .timeSyncReceive port masterTime => Sys2Proof.Machine.execTimeSyncReceive port masterTime s
  | .syncWaitExpiry => Sys2Proof.Machine.execSyncWaitExpiry s
  | .masterLeaves node => Sys2Proof.Machine.execMasterLeaves node s
  | .fabricAccess r => Sys2Proof.Machine.execFabricAccess r s
  | .hostMemRead addr size => Sys2Proof.Machine.execHostMemRead addr size s
  | .hostMemWrite addr data => Sys2Proof.Machine.execHostMemWrite addr data s
  | .haltCtxCmd ctx => Sys2Proof.Machine.execHaltCtxCmd ctx s
  | .resumeCtx ctx => Sys2Proof.Machine.execResumeCtx ctx s
  | .switchOut ctx => Sys2Proof.Machine.execSwitchOut ctx s
  | .switchIn ctx => Sys2Proof.Machine.execSwitchIn ctx s
  | .killCtx ctx => Sys2Proof.Machine.execKillCtx ctx s
  | .quiesceCtx ctx => Sys2Proof.Machine.execQuiesceCtx ctx s
  | .createCtx ctx => Sys2Proof.Machine.execCreateCtx ctx s
  | .ctxcmdReserved ctx cmd => Sys2Proof.Machine.execCtxcmdReserved ctx cmd s
  | .sliceatReached ctx => Sys2Proof.Machine.execSliceatReached ctx s
  | .sliceendReached ctx => Sys2Proof.Machine.execSliceendReached ctx s
  | .sliceatWrite ctx v => Sys2Proof.Machine.execSliceatWrite ctx v s
  | .tsliceExpiry part => Sys2Proof.Machine.execTsliceExpiry part s
  | .contextHalted ctx => Sys2Proof.Machine.execContextHalted ctx s
  | .saveComplete ctx => Sys2Proof.Machine.execSaveComplete ctx s
  | .contextKilled ctx => Sys2Proof.Machine.execContextKilled ctx s
  | .lqtailWrite ctx q v => Sys2Proof.Machine.execLqtailWrite ctx q v s
  | .lqbaseWrite ctx q v => Sys2Proof.Machine.execLqbaseWrite ctx q v s
  | .eqheadWrite part v => Sys2Proof.Machine.execEqheadWrite part v s
  | .grantWrite part off v => Sys2Proof.Machine.execGrantWrite part off v s
  | .sharesWrite part v => Sys2Proof.Machine.execSharesWrite part v s
  | .adoptCarry ctx => Sys2Proof.Machine.execAdoptCarry ctx s
  | .holdCtx ctx on => Sys2Proof.Machine.execHoldCtx ctx on s
  | .carryWritten ctx => Sys2Proof.Machine.execCarryWritten ctx s
  | .plimitWrite v => Sys2Proof.Machine.execPlimitWrite v s
  | .registerWrite fn off size v => Sys2Proof.Machine.execRegisterWrite fn off size v s
  | .clockStepDecision powerMw maxC => Sys2Proof.Machine.execClockStepDecision powerMw maxC s
  | .thermalTrip maxC => Sys2Proof.Machine.execThermalTrip maxC s
  | .thermalMigration lid vcore core => Sys2Proof.Machine.execThermalMigration lid vcore core s
  | .uncorrectableError core site => Sys2Proof.Machine.execUncorrectableError core site s
  | .resetPart img => Sys2Proof.Machine.execResetPart img s
  | .attestationReport nonce => Sys2Proof.Machine.execAttestationReport nonce s
  | .remoteAccessResponse id r => Sys2Proof.Machine.execRemoteAccessResponse id r s
  | .hostFence release => Sys2Proof.Machine.execHostFence release s
  | .hostCoherentAgentAccess addr size data => Sys2Proof.Machine.execHostCoherentAgentAccess addr size data s

end Sys2Proof.Machine
end

