-- ==== Sys2Proof/Machine/Turns.lean ====
section
/-! DEFINITION. One step: late accesses, a turn, and what it leaves of memory and scratchpads as they stood (03 R56; 05 R102; 12 R253; 14 R282; 15 R308; 22 R388). -/

namespace Sys2Proof.Machine

/-- A turn after a trip: a context that would run again halts. -/
def afterTrip : Answer → Answer
  | .next u => .next (State.tripped ((u.ctxs.filter fun p => p.2.st == .running).foldl (fun s p => raiseHalt p.1 (tripRec s) s) u))
  | x => x

/-! ## What a turn leaves behind -/

/-- Keys of the entries that two lists of rising keys do not share. -/
def changedKeys {α : Type} [DecidableEq α] (l m : List (Nat × α)) : List Nat := l.foldr step (fun m => m.map (·.1)) m
where
  /-- One entry of the first list, beside the entries of the second; `k` goes on with the rest of the first. -/
  step (x : Nat × α) (k : List (Nat × α) → List Nat) : List (Nat × α) → List Nat
    | [] => x.1 :: k []
    | y :: m => if x.1 < y.1 then x.1 :: k (y :: m) else if y.1 < x.1 then y.1 :: step x k m else if x.2 = y.2 then k m else x.1 :: k m

/-- Eight bytes of memory as they stand before a turn that replaces them. -/
def pastUnit (s : State) (turn u : Nat) : Past := ⟨8 * u, BitVec.ofNat 64 (readMem s (8 * u) 8), (markAt s (8 * u), markAt s (8 * u + 4)), turn⟩

/-- What a turn from s to t has replaced in memory is kept (22 R388; 12 R253). -/
def keepPast (s t : State) : State :=
  if t.mem == s.mem && t.memPoison == s.memPoison then t
  else
    let us := ((changedKeys s.mem t.mem).map (· / 8) ++ (changedKeys s.memPoison t.memPoison).map (· / 2)).eraseDups
    let new := us.map (pastUnit s t.turn)
    { t with past := new ++ t.past.filter fun p => !new.any fun x => x.pa == p.pa && x.word == p.word && x.marks == p.marks }

/-- An operation whose reads race with writes of the scratchpad made since it issued (14 R282; 05 R104). -/
def SeqOp.watches (s : State) (o : SeqOp) : Bool := o.kind.races && o.phase != 3 && (s.ctx o.ctx).st.stopsOrRuns
/-- The same of a copy: it reads an index list. -/
def CopyOp.watches (s : State) (c : CopyOp) : Bool := decide (c.kind ≥ 2) && (s.ctx c.ctx).st.stopsOrRuns

/-- The operations that stood in the queues before a turn from s to t keep the scratchpads as they stood, if it has changed them. -/
def keepViews (s t : State) : State :=
  if !(s.seqs.any (fun q => q.2.any (·.watches s)) || s.copies.any (·.2.watches s)) || (t.spad == s.spad && t.spadPoison == s.spadPoison) then t
  else
    let was : SpadView := ⟨s.spad, s.spadPoison⟩
    { t with
      seqs := t.seqs.map fun q => (q.1, q.2.map fun o => if o.watches t && s.seqs.any (fun p => p.2.any (·.id == o.id)) then { o with old := o.old ++ [was] } else o)
      copies := t.copies.map fun p => if p.2.watches t && (sget p.1 s.copies).isSome then (p.1, { p.2 with old := p.2.old ++ [was] }) else p }

/-- Both, of what a turn from s has come to. -/
def kept (s t : State) : State := keepViews s (keepPast s t)

/-! ## Accesses that are late (03 R56; 05 R102; 15 R308; 19 R350) -/

/-- Nothing waits to be performed. -/
def nothingLate (s : State) : Bool := s.groups.all (fun p => p.2.late.isEmpty) && s.copies.all (fun p => p.2.pend.isEmpty) && s.seqs.all (fun p => p.2.all (·.pend.isEmpty)) &&
  s.ctxs.all fun p => p.2.comms.all fun q => q.2.insts.all (·.pend.isEmpty)

/-- Elements of copies. -/
def driftCopies (s : State) : State :=
  s.copies.foldl (fun s p => if p.2.pend.isEmpty then s else
    let r := p.2.settle (fun x => s.coin (2 ^ 79 + p.1 * 2 ^ 20 + x.2)) s
    { r.2 with copies := sset p.1 r.1 r.2.copies }) s
/-- Stores of sequencer operations. -/
def driftOps (s : State) : State :=
  s.seqs.foldl (fun s p => p.2.foldl (fun s op => if op.pend.isEmpty then s else
    let r := SeqStore.settle (partOf op.ctx) (coreOf p.1) (fun x => s.coin (2 ^ 80 + op.id * 2 ^ 20 + x.2)) op.pend s
    putOp p.1 { op with pend := r.1 } r.2) s) s
/-- Stores of collective instances. -/
def driftInsts (s : State) : State :=
  s.ctxs.foldl (fun s p => p.2.comms.foldl (fun s q => q.2.insts.foldl (fun s i => if i.pend.isEmpty then s else
    let r := SeqStore.settle (partOf p.1) i.core (fun x => s.coin (2 ^ 81 + i.tok * 2 ^ 20 + x.2)) i.pend s
    r.2.updCtx p.1 fun x => match x.comm? q.1 with | some m => { x with comms := sset q.1 { m with insts := m.insts.map fun y => if y.tok == i.tok then { y with pend := r.1 } else y } x.comms } | none => x) s) s) s
/-- Before every turn each late access is performed or not, by a free choice. -/
def drift (s : State) : State := if nothingLate s then s else kept s (driftInsts (driftOps (driftCopies (driftLate s)))).bump

/-- One step: the next turn of the agenda, or, when it lists none, a turn of the free schedule (log entry 2). After a thermal trip every context comes to its halt; then the clocks stop, and only what the host does comes about (29 R460; log entry 66). -/
def stepWith (ex : Instr → State → Answer) (s : State) : Answer :=
  let t := s.agenda.head?.getD (Config.schedule s.turn)
  let s1 := drift { s with turn := s.turn + 1, agenda := s.agenda.tail }
  let a := match runTurn ex t s1 with
    | .next u => .next (kept s1 u)
    | x => x
  if s.dev.stopped then (if !s.dev.clockOff || hostTurn t then afterTrip a else .fault .clocksStopped) else a

end Sys2Proof.Machine
end

