-- ==== Sys2Proof/Machine/Step.lean ====
section
/-! DEFINITION. One step of the machine. -/

namespace Sys2Proof.Machine

/-- One step: the next turn, with `exec` for the meaning of what it runs (Machine/Turns.lean). -/
def step (s : State) : Host.Outcome State Fault Refusal := stepWith exec s

/-- s with an instruction of nbits bits ready to run as its very next step (log entry 9): the bits above nbits are zero. -/
def State.withFetchWord (s : State) (nbits w : Nat) : State := placeWord (BitVec.ofNat 64 (w % 2 ^ nbits)) s

end Sys2Proof.Machine
end

