-- ==== Sys2Proof/Claims.lean ====
section
/-! DEFINITION. The terms the statements use: when a gang issues an instruction, what an instruction may write, and what it leaves. -/

namespace Sys2Proof.Claims

open Sys2Proof.Machine

/-- The gang whose first slice is `slice`, of group gid, issues i in s, and nothing stops i before its own meaning: no decode check (08 R186), no STALL_SHORT (08 R173), no poisoned guard that traps (10 R211). -/
structure Issues (i : Instr) (gd : Guard) (u : Uses) (s : State) (gid slice : Nat) (g : Group) (a : Gang) (h : Header) : Prop where
  cur : curGang s = some (gid, slice, g, a, h)
  decoded : decodeCheck i g a h = none
  timely : ((g.effSr s).dbgctl.getLsbD 0 && decide (i.opcode < 0xF8) && stallShort s g a (actingLanes s g a gd).1 gd u) = false
  guarded : (!(actingLanes s g a gd).2.isEmpty && (g.effSr s).trapPoison && decide (i.opcode < 0xF8)) = false

/-- The gang whose first slice is `slice`, of group gid, has fetched i, in a clause of a class that allows i at its place (08 R186, steps 1 and 2). -/
def Fetched (i : Instr) (s : State) (gid slice : Nat) (g : Group) (a : Gang) (h : Header) : Prop :=
  curGang s = some (gid, slice, g, a, h) ∧ ∃ c, clsOf h.cls.toNat = some c ∧ i.classOk c (a.idx == h.count.toNat) = true

/-! ## Frames -/

/-- A late access is as it was, but that it may now come before what the group accesses from now on (03 R56). -/
def Late.unordered (x : Late) : Late := { x with ord := 0 }

/-- The group after an instruction that moves its gang and may write registers and count operations: tiles, pv registers, special registers, the trap's saves, the priority and every coordinate are as they were, and the accesses it has not performed yet too, but for their order. -/
def RegistersOnly (g g' : Group) : Prop :=
  g' = { g with rf := g'.rf, hz := g'.hz, srhz := g'.srhz, vp := g'.vp, out := g'.out, slices := g'.slices, gangs := g'.gangs, partings := g'.partings, remote := g'.remote, resume := g'.resume, late := g'.late } ∧
  g'.late.map Late.unordered = g.late.map Late.unordered

/-- Beside group gid, only the count of issued instructions of its partition, the draw of free values and the next identifier have moved: memory, scratchpad, every other group, context, engine and register of the machine is as it was. -/
structure GroupOnly (gid : Nat) (g : Group) (s t : State) : Prop where
  rest : t = { s with groups := t.groups, parts := t.parts, free := t.free, nextId := t.nextId }
  groups : ∀ j, j ≠ gid → t.group? j = s.group? j
  parts : ∀ p, t.part p = if p = g.part then { s.part p with issue := (s.part p).issue + 1 } else s.part p
  memory : ∀ a, readByte t a = readByte s a

/-- The keys of the registers whose last use an instruction marks in its acting lanes (08 R158). -/
def marked (e : Env) (u : Uses) : List Nat :=
  e.lanes.flatMap fun L => u.src.flatMap fun x => if x.2.2 then (match x.1 with | .v _ | .o _ => opdKeys x.1 x.2.1 L | _ => []) else []

/-- The keys of the registers an instruction may write in its acting lanes: its destinations, l0, l1 and $fpflags (08 R153, R155, R157), and the registers whose last use it marks (08 R158). -/
def touched (e : Env) (u : Uses) : List Nat :=
  e.lanes.flatMap fun L =>
    [keyL L 0, keyL L 1, keyF L] ++ (u.dst.flatMap fun d => opdKeys d.1 d.2 L) ++ (u.pdst.filterMap fun p => if p = 15 then none else some (keyP L p)) ++
    u.src.flatMap fun x => if x.2.2 then (match x.1 with | .v _ | .o _ => opdKeys x.1 x.2.1 L | _ => []) else []

/-! ## Results -/

/-- The destination of n words holds a value of each acting lane; an s register the leader's (08 R155). -/
def Holds (e : Env) (n : Nat) (dst : Opd) (val : Nat → PVal) (g' : Group) : Prop :=
  ∀ L ∈ e.lanes, ∀ k key, k < n → opdKey? dst L k = some key → (dst.isS = true → e.leader = some L) →
    some (g'.cellAt key) = (resWords n (val L).val (val L).poison)[k]?

/-- 08 R153: the last-result file after a result of n words into a destination that is no s register: a pair fills l1:l0, a word enters l0 and the old l0 moves to l1. -/
def LastResult (e : Env) (n : Nat) (dst : Opd) (val : Nat → PVal) (g' : Group) : Prop :=
  dst.isS = false → ∀ L ∈ e.lanes,
    some (g'.cellAt (keyL L 0)) = (resWords n (val L).val (val L).poison)[0]? ∧
    (n = 1 → g'.cellAt (keyL L 1) = e.g0.cellAt (keyL L 0)) ∧ (n = 2 → some (g'.cellAt (keyL L 1)) = (resWords n (val L).val (val L).poison)[1]?)

/-- 08 R153: an instruction that leaves the last-result file alone: l0 and l1 of the acting lanes are as they were. -/
def LastKept (e : Env) (g' : Group) : Prop :=
  ∀ L ∈ e.lanes, g'.cellAt (keyL L 0) = e.g0.cellAt (keyL L 0) ∧ g'.cellAt (keyL L 1) = e.g0.cellAt (keyL L 1)

/-- No register has changed yet but those whose last use is marked: no destination, no l0 or l1 (08 R153), no $fpflags of any lane. -/
structure Unwritten (e : Env) (u : Uses) (g' : Group) : Prop where
  others : ∀ key, key ∉ marked e u → g'.cellAt key = e.g0.cellAt key
  last : LastKept e g'
  flags : ∀ L ∈ e.lanes, g'.cellAt (keyF L) = e.g0.cellAt (keyF L)

/-- The same for an instruction that sets bits of $fpflags at once. -/
structure FlagsOnly (e : Env) (u : Uses) (bits : Nat → Word) (g' : Group) : Prop where
  others : ∀ key, key ∉ marked e u → (∀ L ∈ e.lanes, key ≠ keyF L) → g'.cellAt key = e.g0.cellAt key
  last : LastKept e g'
  flags : ∀ L ∈ e.lanes, (g'.cellAt (keyF L)).val = (e.g0.cellAt (keyF L)).val ||| bits L

/-- $fpflags of the acting lanes: the bits given are set, the others stay (08 R157, R160). -/
def FlagsSet (e : Env) (bits : Nat → Word) (g' : Group) : Prop :=
  ∀ L ∈ e.lanes, (g'.cellAt (keyF L)).val = (e.g0.cellAt (keyF L)).val ||| bits L

/-- i completes, in every state in which it issues and `ok` holds, with a result of n words in its destination: its value in each acting lane, the last-result file, the flags it raises and the poison flag, and nothing else. -/
def RegResult (i : Instr) (gd : Guard) (u : Uses) (n : Nat) (dst : Opd) (ok : Env → Prop) (val : Env → Nat → PVal) (fl : Env → Nat → Word) : Prop :=
  ∀ s gid slice g a h, Issues i gd u s gid slice g a h → ok (mkEnv s gid g a h gd u) →
    let e := mkEnv s gid g a h gd u
    ∃ t g', exec i s = .next t ∧ t.group? gid = some g' ∧ GroupOnly gid g s t ∧ RegistersOnly g g' ∧
      (∀ key, key ∉ touched e u → g'.cellAt key = g.cellAt key) ∧
      Holds e n dst (val e) g' ∧ LastResult e n dst (val e) g' ∧
      FlagsSet e (fun L => fl e L ||| (if (val e L).poison then poisonFlag else 0)) g'

/-- The same for an instruction whose result waits for its completion on counter ctr (08 R162, R172): no register but a last-used one has changed yet; the operation is counted, and it will write ws and set the flag bits of fl when it completes. -/
def PendsResult (i : Instr) (gd : Guard) (u : Uses) (ok : Env → Prop) (ctr : Env → Nat) (ws : Env → List (Nat × RegCell)) (fl : Env → List (Nat × Word)) : Prop :=
  ∀ s gid slice g a h, Issues i gd u s gid slice g a h → ok (mkEnv s gid g a h gd u) →
    let e := mkEnv s gid g a h gd u
    e.lanes ≠ [] → e.full (ctr e) = false →
    ∃ t g' v, exec i s = .next t ∧ t.group? gid = some g' ∧ GroupOnly gid g s t ∧ RegistersOnly g g' ∧ Unwritten e u g' ∧
      g'.vp = g.vp ++ [v] ∧ v.known = true ∧ v.keys = (ws e).map (·.1) ∧ v.gone = overlaps e g v.keys ∧
      v.writes = ws e ++ (fl e).filterMap (fun p => if p.2 == 0 then none else some (keyF p.1, ⟨p.2, false, 0⟩)) ∧
      g'.out = dropVoid (ctr e) (g.out ++ [⟨ctr e, v.id, false⟩])

/-- i completes, in every state in which it issues and `ok` holds, with predicates pd1 and pd2 of the acting lanes written from a condition, and the last-result file left alone (08 R153, R179; 10 R210, R211). -/
def CmpResult (i : Instr) (w : WC) (u : Uses) (ok : Env → Prop) (cond : Env → Nat → Bool × Bool) (fl : Env → Nat → Word) : Prop :=
  ∀ s gid slice g a h, Issues i w.g u s gid slice g a h → ok (mkEnv s gid g a h w.g u) →
    let e := mkEnv s gid g a h w.g u
    ∃ t g', exec i s = .next t ∧ t.group? gid = some g' ∧ GroupOnly gid g s t ∧ RegistersOnly g g' ∧
      (∀ key, key ∉ touched e u → g'.cellAt key = g.cellAt key) ∧ LastKept e g' ∧
      (∀ L ∈ e.lanes,
        let c := cond e L
        let pc := rdPred s g w.pc.toNat L
        let p := c.2 || (w.comb != 0 && pc.2)
        let op (x : Bool) : Bool := match w.comb.toNat with | 0 => x | 1 => x && (pc.1 != w.pneg) | 2 => x || (pc.1 != w.pneg) | _ => x != (pc.1 != w.pneg)
        (w.pd1 ≠ 15#4 → g'.cellAt (keyP L w.pd1.toNat) = cell (if op c.1 then 1 else 0) p) ∧
        (w.pd2 ≠ 15#4 → g'.cellAt (keyP L w.pd2.toNat) = cell (if op (!c.1) then 1 else 0) p)) ∧
      FlagsSet e (fun L => fl e L ||| (if (cond e L).2 || (w.comb != 0 && (rdPred s g w.pc.toNat L).2) then poisonFlag else 0)) g'

/-! ## Memory -/

/-- Beside group gid, what an access to memory, the scratchpad or a unit may move: the counts of its partition, the draw of free values, the next identifier, what the caches hold, and what `more` says. -/
structure AccessOnly (gid : Nat) (g : Group) (s t more : State) : Prop where
  rest : t = { more with groups := t.groups, parts := t.parts, free := t.free, nextId := t.nextId, cache := t.cache }
  groups : ∀ j, j ≠ gid → t.group? j = s.group? j
  parts : ∀ p, t.part p = if p = g.part then { s.part p with issue := (s.part p).issue + 1, hbmb := (t.part p).hbmb, hostb := (t.part p).hostb } else s.part p

/-- The checks 2, 3 and 5 to 6 of 12 R249 pass for a global access in the lanes ls, and each lane's copies lie in local memory at `at_`. -/
structure GlobalAt (e : Env) (ls : List Nat) (os : List (Opd × Nat)) (size : Nat) (addr : Nat → DWord) (k : Acc) (all : Bool) (at_ : Nat → Where) : Prop where
  clean : poisonLanes e os = [] ∨ e.sr.trapPoison = false
  aligned : ∀ L ∈ ls, (addr L).toNat % size = 0
  found : ∀ L ∈ ls, lookVa e.s0 e.g0.core e.g0.ctx (addr L) k e.sys all = .at_ (at_ L)
  here : ∀ L ∈ ls, (at_ L).node = 0

/-- The checks 2, 3 and 4 of 12 R249 pass for an access to the scratchpad in the lanes ls. -/
structure SpadAt (e : Env) (ls : List Nat) (os : List (Opd × Nat)) (size : Nat) (addr : Nat → DWord) : Prop where
  clean : poisonLanes e os = [] ∨ e.sr.trapPoison = false
  aligned : ∀ L ∈ ls, (addr L).toNat % size = 0
  inside : ∀ L ∈ ls, (addr L).toNat + size ≤ (e.s0.part e.part).spadSize e.g0.core

/-- The group is not divided, and no access of it is late: what it accesses is performed as it issues (03 R56; log 60). -/
def Together (e : Env) : Prop := e.divided = false ∧ e.g0.late = []

/-- Word k of a register that a load of `size` bytes fills, from the little-endian bytes read (00 R1; 12 R250, R251): the words of a half, of 8 bytes, are poisoned together. -/
def loadedCell (byte : Nat → Byte) (marked : Nat → Nat → Bool) (stamp : Nat → BitVec 4) (size k : Nat) : RegCell :=
  let o := if size = 16 then k / 2 * 8 else 0
  let n := min size 8
  cell (BitVec.ofNat 32 ((List.range (min size 4)).foldl (fun v j => v + (byte (4 * k + j)).toNat * 256 ^ j) 0)) (marked o n) (stamp o)

/-- Byte j of a store's data in a lane, and whether its half is poisoned (06 R129; 12 R250, R254). -/
def storedByte (e : Env) (o : Opd) (size L j : Nat) : Byte × Bool :=
  let v := storeHalf e o size (if size = 16 then j / 8 * 8 else 0) L
  (BitVec.ofNat 8 (v.val.toNat / 256 ^ (j % 8)), v.poison)

/-- i completes and leaves every register and count of the machine as it was, but for what a commit moves. -/
def Quiet (i : Instr) (gd : Guard) (u : Uses) (ok : Env → Prop) : Prop :=
  ∀ s gid slice g a h, Issues i gd u s gid slice g a h → ok (mkEnv s gid g a h gd u) →
    ∃ t g', exec i s = .next t ∧ t.group? gid = some g' ∧ GroupOnly gid g s t ∧ RegistersOnly g g' ∧
      (∀ key, g'.cellAt key = g.cellAt key) ∧ g'.vp = g.vp ∧ g'.out = g.out

/-- i completes by joining the queue of the quadrant's sequencer (14 R280): in every state in which it issues, `ok` holds, some lane acts, the queue has room and its counter, if it has one, is not full. The operation holds its operands as read now; no register changes but those whose last use is marked and the bits of fl in $fpflags, nor anything else of the machine. -/
def Joins (i : Instr) (gd : Guard) (u : Uses) (ok : Env → Prop) (fl : Env → Nat → Word) (ctr : Option Nat) (kind : Env → Nat → SeqKind) (vps : Env → Nat → List VPend) : Prop :=
  ∀ s gid slice g a h, Issues i gd u s gid slice g a h → let e := mkEnv s gid g a h gd u
    ok e → e.lanes ≠ [] → (∀ c, ctr = some c → e.full c = false) → queueFree g.ctx (s.queue g.quad) = true →
    ∃ t g' op, exec i s = .next t ∧ t.group? gid = some g' ∧ AccessOnly gid g s t { s with seqs := t.seqs } ∧ RegistersOnly g g' ∧ FlagsOnly e u (fl e) g' ∧
      t.queue g.quad = s.queue g.quad ++ [op] ∧ (∀ q, q ≠ g.quad → t.queue q = s.queue q) ∧
      op.gid = gid ∧ op.ctx = g.ctx ∧ op.phase = 0 ∧ op.kdone = 0 ∧ op.row = 0 ∧ op.tok = op.id ∧ op.kind = kind e op.id ∧
      g'.vp = g.vp ++ vps e op.id ∧ g'.out = (match ctr with | some c => dropVoid c (g.out ++ [⟨c, op.id, false⟩]) | none => g.out)

/-- Group j stays, but that those of its gangs which `hold` has kept back may try again (14 R280; 05 R91). -/
def Awake (hold : Hold) (s t : State) (j : Nat) : Prop :=
  t.group? j = s.group? j ∨ ∃ h, s.group? j = some h ∧ t.group? j = some (releaseHold s.clk (fun a => a.hold == hold) h)

/-! ## Stops of the context and traps -/

/-- A context whose unit has raised the halt line, with its record (25 R418, R425, R433). -/
def stopped (r : StopRec) (x : Ctx) : Ctx :=
  match x.st with
  | .running => { x with st := .halting, recs := x.recs ++ [r] }
  | .halting => { x with recs := x.recs ++ [r] }
  | .saving => { x with recs := x.recs ++ [r], haltpend := true }
  | _ => x

/-- Nothing of an instruction that stops its context is committed (25 R414): beside the context of the group, its issue is counted (27 R443), failed walks are forgotten (02 R35), and the responses that its own accesses have had, and with them a resume point that the instruction passes by (18 R325). Memory, scratchpads, message queues, task tables, every register and every other group are as they were. -/
structure StopOnly (gid : Nat) (g : Group) (s t : State) : Prop where
  rest : t = { s with groups := t.groups, ctxs := t.ctxs, parts := t.parts, lookups := t.lookups, free := t.free }
  own : ∃ sl r, t.group? gid = some { g with remote := restRemote sl g.remote, resume := r } ∧ (r = g.resume ∨ r = none ∧ ∃ n, passesBy s gid n = true)
  groups : ∀ j, j ≠ gid → t.group? j = s.group? j
  ctxs : ∀ c, c ≠ g.ctx → t.ctx c = s.ctx c
  parts : ∀ p, t.part p = if p = g.part then { s.part p with issue := (s.part p).issue + 1 } else s.part p
  lookups : ∀ p ∈ t.lookups, p ∈ s.lookups

/-- i raises a halt cause in the lanes given: nothing of it is committed; its context begins to halt with the record of the group (25 R414, R418, R422). -/
def HaltsIn (i : Instr) (s : State) (gid : Nat) (g : Group) (cause detail : Nat) (addr : DWord) (lanes : Nat) : Prop :=
  ∃ t r, exec i s = .next t ∧ StopOnly gid g s t ∧ t.ctx g.ctx = stopped r (s.ctx g.ctx) ∧
    r.cause = cause ∧ r.detail = detail ∧ r.addr = addr ∧ r.lanes = lanes ∧ r.first = true ∧ r.unit = gid

/-- The same, in lanes that are not said. -/
def Halts (i : Instr) (s : State) (gid : Nat) (g : Group) (cause detail : Nat) (addr : DWord) : Prop :=
  ∃ lanes, HaltsIn i s gid g cause detail addr lanes

end Sys2Proof.Claims
end

