-- ==== Sys2Proof/Safety.lean ====
section
/-! DEFINITION. What counts as a safe run. -/

namespace Sys2Proof

/-- A run of n steps stops on no fault and no refusal. -/
def Safety.runsOn (n : Nat) (s : Machine.State) : Prop := ∃ t, Host.Core.run Sys2Proof.core n s = Host.Outcome.next t

/-- A step from here stops only when the clocks have stopped (29 R460). -/
def Safety.onlyStopsOnTrip (s : Machine.State) : Prop := ∀ r, Machine.step s = Host.Outcome.fault r → s.dev.stopped = true

/-- What every step keeps: memory and its marks in their canonical form; PLIMIT and the clock in the ranges of 29 R460 and R461. -/
def Safety.Inv (s : Machine.State) : Prop :=
  Machine.Memory.wf s.mem = true ∧ Machine.canon false s.memPoison = true ∧ 1000 ≤ s.dev.plimit ∧ s.dev.plimit ≤ 3400 ∧ 1000 ≤ s.dev.mhz ∧ s.dev.mhz ≤ 2100

end Sys2Proof
end

