-- ==== Sys2Proof/WellFormed.lean ====
section
/-! DEFINITION. Well-formed instructions: those whose words mean what their fields say and pass every check on their own fields (08 R175, R186). -/

namespace Sys2Proof

/-- An operand is written in its one form: the reserved form holds only a reserved value 0x18B to 0x1FF (08 R175). -/
def Opd.canonical : Opd → Bool
  | .rsv n => decide (0x18B ≤ n.toNat)
  | _ => true

/-- 08 R167: guard negate with predicate 15 would be the tag of a clause header, so no instruction word holds both. -/
def Guard.canonical (g : Guard) : Bool := !(g.neg && g.pred == 15#4)

/-- Every operand of a V word is canonical. -/
def WV.canonical (w : WV) : Bool := w.g.canonical && w.dst.canonical && w.a.canonical && w.b.canonical && w.c.canonical
/-- Every operand of an I word is canonical. -/
def WI.canonical (w : WI) : Bool := w.g.canonical && w.dst.canonical && w.a.canonical && w.b.canonical
/-- Every operand of an M word is canonical. -/
def WM.canonical (w : WM) : Bool := w.g.canonical && w.data.canonical && w.base.canonical && w.off.canonical
/-- Every operand of an ATOM or ATOMS word is canonical. -/
def WT.canonical (w : WT) : Bool := w.g.canonical && w.data.canonical && w.base.canonical && w.off.canonical && w.b.canonical
/-- The base of an X word is canonical. -/
def WX.canonical (w : WX) : Bool := w.g.canonical && w.base.canonical
/-- Every operand of an A word is canonical. -/
def WA.canonical (w : WA) : Bool := w.g.canonical && w.base.canonical && w.opnd.canonical && w.task.canonical
/-- The register of an S word is canonical. -/
def WS.canonical (w : WS) : Bool := w.g.canonical && w.reg.canonical
/-- The destination of an unassigned hint is canonical and its opcode is one of 0xFB to 0xFF (08 R187). -/
def WH.canonical (w : WH) : Bool := w.g.canonical && w.dst.canonical && decide (0xFB ≤ w.opc.toNat)

/-- A C word has no operand of its own form. -/
def WC.canonical (w : WC) : Bool := w.g.canonical
/-- A B word has no operand of its own form. -/
def WB.canonical (w : WB) : Bool := w.g.canonical

/-- The instruction is the abstract form of a 64-bit word. Events are not words. -/
def Instr.canonical : Instr → Bool
  | .sel w | .iaddc w | .imad w | .imadw w | .funnel w | .bfi w | .prmt w | .fadd w | .fsub w | .fmul w | .ffma w | .fdiv w | .fsqrt w | .fmin w | .fmax w | .fminnum w | .fmaxnum w | .fabs w | .fneg w | .fcopysign w | .frint w | .fscaleb w | .flogb w | .cvt w | .cvti w | .icvtf w | .frcp w | .frsq w | .fexp2 w | .flog2 w | .fsin w | .fcos w | .ftanh w | .dot w | .rng w | .qmx w => w.canonical
  | .nop w | .mov w | .movi w | .iadd w | .isub w | .add64 w | .sub64 w | .lea w | .imul w | .imulhi w | .umulhi w | .idiv w | .udiv w | .irem w | .urem w | .imin w | .imax w | .umin w | .umax w | .iabs w | .ineg w | .iand w | .ior w | .ixor w | .andn w | .inot w | .shl w | .shr w | .sar w | .rotl w | .bfx w | .popc w | .clz w | .ctz w | .brev w | .pstore w | .pload w | .shfl w | .vote w | .redux w | .firstl w | .expr w | .waitCtr w | .yield w | .sleep w | .xlate w | .trapCode w | .bkpt w | .haltctx w | .prio w => w.canonical
  | .ld w | .st w | .lds w | .sts w | .ldu w | .red w | .stmc w | .fence w | .cctl w | .ifence w | .pref w | .evict w => w.canonical
  | .atom w | .atoms w => w.canonical
  | .mloop w | .mconv w | .mzero w | .mlda w | .msta w | .accrd w | .accwr w | .drain w | .faclu w | .facch w | .facqr w | .trsm w | .pvapply w | .pvmov w => w.canonical
  | .msgput w | .msgtake w | .epload w | .cpy w | .gather w | .scatter w | .cinit w | .cstart w | .cquery w | .cfree w | .tdef w | .tsig w | .bar w | .barc w | .launch w | .selsched w => w.canonical
  | .mfs w | .mts w | .mfsp w | .mtsp w => w.canonical
  | .icmp w | .ucmp w | .plop w | .pmov w | .fcmp w | .fclass w => w.canonical
  | .bra w | .brx w | .call w | .callx w | .ret w | .exitLanes w | .regang w | .eret w => w.canonical
  | .unassignedHint w => w.canonical
  | .clauseStart _ _ | .variableResultComplete _ _ | .walkStart _ | .walkComplete _ | .invalidateContext _ _ | .invalidatePages _ _ _ | .invalidateRanges _ _ | .invalidateNodes _ _ => false
  | .invalidateReserved _ _ _ | .invalidationComplete _ | .copyEngineRow _ | .copyEngineComplete _ | .sequencerOpStart _ | .kStep _ | .drainRow _ | .matrixOpComplete _ => false
  | .factorColumn _ | .factorGrowth _ | .msgputAppend _ | .creditRequest _ | .creditGrant _ | .creditReturn _ _ | .taskSpawn _ _ _ | .sleepExpiry _ _ => false
  | .groupEnd _ | .launchRecordAccept _ _ | .workgroupStart _ _ | .launchComplete _ | .commNegotiate _ _ | .commAbortNotice _ _ _ | .commTimeout _ _ | .slotRequest _ _ => false
  | .slotDecision _ | .slotReclaim _ _ | .chunkReceive _ _ | .chunkResendRequest _ _ _ _ | .chunkAck _ _ _ _ | .instanceComplete _ _ _ | .flitReceive _ _ | .linkTrained _ _ _ _ => false
  | .timeSyncSend _ | .timeSyncReceive _ _ | .syncWaitExpiry | .masterLeaves _ | .fabricAccess _ | .hostMemRead _ _ | .hostMemWrite _ _ | .haltCtxCmd _ => false
  | .resumeCtx _ | .switchOut _ | .switchIn _ | .killCtx _ | .quiesceCtx _ | .createCtx _ | .ctxcmdReserved _ _ | .sliceatReached _ => false
  | .sliceendReached _ | .sliceatWrite _ _ | .tsliceExpiry _ | .contextHalted _ | .saveComplete _ | .contextKilled _ | .lqtailWrite _ _ _ | .lqbaseWrite _ _ _ => false
  | .eqheadWrite _ _ | .grantWrite _ _ _ | .sharesWrite _ _ | .adoptCarry _ | .holdCtx _ _ | .carryWritten _ | .plimitWrite _ | .registerWrite _ _ _ _ => false
  | .clockStepDecision _ _ | .thermalTrip _ | .thermalMigration _ _ _ | .uncorrectableError _ _ | .resetPart _ | .attestationReport _ | .remoteAccessResponse _ _ | .hostFence _ => false
  | .hostCoherentAgentAccess _ _ _ => false

/-- A word of the machine that no check on its own fields refuses (08 R175, R186). -/
def Instr.wellFormed (i : Instr) : Bool := i.canonical && i.fieldsOk

end Sys2Proof
end

