-- ==== Sys2Proof/Certificates/Slice0/Obligations.lean ====
section
/-! DEFINITION. The statements for the provers. Every statement about an instruction is about Sys2Proof.Machine.exec, in every state in which the instruction issues. -/

open Sys2Proof Sys2Proof.Machine Sys2Proof.Claims

/-! ## Integer instructions (10 R203 to R209) -/

/-- 10 R205: an exact signed result clamped to the range of a 32-bit register. -/
def Sys2Proof.Claims.clamp (x : Int) : Word := BitVec.ofInt 32 (if x < -(2 ^ 31) then -(2 ^ 31) else if x > 2 ^ 31 - 1 then 2 ^ 31 - 1 else x)

/-- Two 32-bit sources, b from a register or imm8 (sign-extended, or zero-extended where the flag says so): the value of each instruction by R205, R206 and R209, exactly once each. -/
def Obligations.TwoSourceIntegerResults : Prop :=
  ∀ (w : WI), ∀ p ∈ ([
      (.iadd w, false, fun a b => if w.x then clamp (a.toInt + b.toInt) else BitVec.ofInt 32 (a.toInt + b.toInt)),
      (.isub w, false, fun a b => if w.x then clamp (a.toInt - b.toInt) else BitVec.ofInt 32 (a.toInt - b.toInt)),
      (.imul w, false, fun a b => BitVec.ofInt 32 (a.toInt * b.toInt)),
      (.imulhi w, false, fun a b => BitVec.ofInt 32 (a.toInt * b.toInt / 2 ^ 32)),
      (.umulhi w, false, fun a b => BitVec.ofNat 32 (a.toNat * b.toNat / 2 ^ 32)),
      (.imin w, false, fun a b => BitVec.ofInt 32 (min a.toInt b.toInt)),
      (.imax w, false, fun a b => BitVec.ofInt 32 (max a.toInt b.toInt)),
      (.umin w, false, fun a b => BitVec.ofNat 32 (min a.toNat b.toNat)),
      (.umax w, false, fun a b => BitVec.ofNat 32 (max a.toNat b.toNat)),
      (.iand w, false, fun a b => a &&& b),
      (.ior w, false, fun a b => a ||| b),
      (.ixor w, false, fun a b => a ^^^ b),
      (.andn w, false, fun a b => a &&& ~~~b),
      (.shl w, true, fun a b => BitVec.ofNat 32 (a.toNat * 2 ^ b.toNat)),
      (.shr w, true, fun a b => BitVec.ofNat 32 (a.toNat / 2 ^ b.toNat)),
      (.sar w, true, fun a b => BitVec.ofInt 32 (a.toInt / 2 ^ b.toNat)),
      (.rotl w, true, fun a b => a <<< (b.toNat % 32) ||| a >>> (32 - b.toNat % 32)),
      (.bfx w, true, fun a b =>
        let len := (w.mod.extractLsb' 0 5).toNat + 1
        let f := a.toNat / 2 ^ (b.toNat % 32) % 2 ^ len
        if w.x = true ∧ 2 ^ (len - 1) ≤ f then BitVec.ofInt 32 ((f : Int) - 2 ^ len) else BitVec.ofNat 32 f)]
      : List (Instr × Bool × (Word → Word → Word))),
    RegResult p.1 w.g (usesI 1 1 1 w) 1 w.dst (fun _ => True)
      (fun e L => ⟨(p.2.2 (e.r32 w.a L).w (e.srcB p.2.1 w L).w).setWidth 64, (e.r32 w.a L).poison || (e.srcB p.2.1 w L).poison⟩) (fun _ _ => 0)

/-- One 32-bit source: IABS, INEG, NOT, POPC, CLZ, CTZ, BREV by R205 and R209. Three 32-bit sources: IMAD, FUNNEL, BFI, PRMT by R206 and R209. -/
def Obligations.OneAndThreeSourceIntegerResults : Prop :=
  (∀ (w : WI), ∀ p ∈ ([
      (.iabs w, fun a => if w.x then clamp a.toInt.natAbs else BitVec.ofInt 32 a.toInt.natAbs),
      (.ineg w, fun a => if w.x then clamp (-a.toInt) else BitVec.ofInt 32 (-a.toInt)),
      (.inot w, fun a => ~~~a),
      (.popc w, fun a => BitVec.ofNat 32 ((List.range 32).filter fun k => a.getLsbD k).length),
      (.clz w, fun a => if a = 0 then 32 else BitVec.ofNat 32 (31 - a.toNat.log2)),
      (.ctz w, fun a => BitVec.ofNat 32 (((List.range 32).find? fun k => a.getLsbD k).getD 32)),
      (.brev w, fun a => a.reverse)]
      : List (Instr × (Word → Word))),
    RegResult p.1 w.g (usesI 1 1 1 w) 1 w.dst (fun _ => True) (fun e L => ⟨(p.2 (e.r32 w.a L).w).setWidth 64, (e.r32 w.a L).poison⟩) (fun _ _ => 0)) ∧
  (∀ (w : WV), ∀ p ∈ ([
      (.imad w, fun a b c => BitVec.ofNat 32 (a.toNat * b.toNat + c.toNat)),
      (.funnel w, fun a b c => BitVec.ofNat 32 ((b.toNat * 2 ^ 32 + a.toNat) / 2 ^ (c.toNat % 64))),
      (.bfi w, fun a b c =>
        let mask : Word := BitVec.ofNat 32 ((2 ^ ((w.mod.extractLsb' 0 5).toNat + 1) - 1) * 2 ^ (c.toNat % 32))
        (a &&& ~~~mask) ||| ((b <<< (c.toNat % 32)) &&& mask)),
      (.prmt w, fun a b c =>
        let byte (i : Nat) : BitVec 8 :=
          let x := ((b ++ a : BitVec 64) >>> (8 * (c.toNat / 2 ^ (4 * i) % 8))).setWidth 8
          if c.getLsbD (4 * i + 3) then (if x.getLsbD 7 then 0xFF#8 else 0x00#8) else x
        byte 3 ++ byte 2 ++ byte 1 ++ byte 0)]
      : List (Instr × (Word → Word → Word → Word))),
    RegResult p.1 w.g (usesV 1 1 1 1 w) 1 w.dst (fun _ => True)
      (fun e L => ⟨(p.2 (e.r32 w.a L).w (e.r32 w.b L).w (e.r32 w.c L).w).setWidth 64, (e.r32 w.a L).poison || (e.r32 w.b L).poison || (e.r32 w.c L).poison⟩) (fun _ _ => 0))

/-- 64-bit results: ADD64, SUB64, LEA, IADDC and IMADW by R205 and R206, the low register first. -/
def Obligations.PairResults : Prop :=
  (∀ (w : WI), let b2 (e : Env) (L : Nat) : PVal := if w.mod.getLsbD 9 then ⟨w.imm.signExtend 64, false⟩ else e.rN w.b 2 L
    RegResult (.add64 w) w.g (usesI 2 2 2 w) 2 w.dst (fun _ => True)
      (fun e L => ⟨BitVec.ofNat 64 ((e.rN w.a 2 L).val.toNat + (b2 e L).val.toNat), (e.rN w.a 2 L).poison || (b2 e L).poison⟩) (fun _ _ => 0) ∧
    RegResult (.sub64 w) w.g (usesI 2 2 2 w) 2 w.dst (fun _ => True)
      (fun e L => ⟨BitVec.ofInt 64 ((e.rN w.a 2 L).val.toNat - (b2 e L).val.toNat), (e.rN w.a 2 L).poison || (b2 e L).poison⟩) (fun _ _ => 0)) ∧
  (∀ (w : WI), RegResult (.lea w) w.g (usesI 2 2 1 w) 2 w.dst (fun _ => True)
      (fun e L => ⟨(e.rN w.a 2 L).val + BitVec.ofInt 64 ((if w.x then (e.r32 w.b L).w.toInt else ((e.r32 w.b L).w.toNat : Int)) * 2 ^ (w.imm.toNat % 32)),
        (e.rN w.a 2 L).poison || (e.r32 w.b L).poison⟩) (fun _ _ => 0)) ∧
  (∀ (w : WV), RegResult (.iaddc w) w.g (usesV 2 1 1 1 w) 2 w.dst (fun _ => True)
      (fun e L =>
        let a := (e.r32 w.a L).w.toNat; let b := (e.r32 w.b L).w.toNat; let c := (e.r32 w.c L).w.toNat % 2
        ⟨if w.mod.getLsbD 0 then BitVec.ofNat 64 ((if a < b + c then 2 ^ 32 else 0) + ((2 ^ 33 + a - b - c) % 2 ^ 32)) else BitVec.ofNat 64 (a + b + c),
          (e.r32 w.a L).poison || (e.r32 w.b L).poison || (e.r32 w.c L).poison⟩) (fun _ _ => 0)) ∧
  (∀ (w : WV), RegResult (.imadw w) w.g (usesV 2 1 1 2 w) 2 w.dst (fun _ => True)
      (fun e L =>
        let x (v : Word) : Int := if w.mod.getLsbD 0 then v.toInt else v.toNat
        ⟨BitVec.ofInt 64 (x (e.r32 w.a L).w * x (e.r32 w.b L).w) + (e.rN w.c 2 L).val, (e.r32 w.a L).poison || (e.r32 w.b L).poison || (e.rN w.c 2 L).poison⟩) (fun _ _ => 0))

/-- Moves and the choice by a predicate: MOV of a register or a pair, MOVI, SEL, by R205 and R211, where SEL is poisoned by every source, the one it does not choose too (log 48); and NOP, which changes nothing and does not shift the last-result file (R205). -/
def Obligations.MoveResults : Prop :=
  (∀ (w : WI), let n := if w.x then 2 else 1
    RegResult (.mov w) w.g (usesI n n n w) n w.dst (fun _ => True) (fun e L => e.rN w.a n L) (fun _ _ => 0)) ∧
  (∀ (w : WI), RegResult (.movi w) w.g (usesI 1 1 1 w) 1 w.dst (fun _ => True)
      (fun _ _ => ⟨(if w.x then BitVec.ofNat 32 w.imm.toNat else BitVec.ofInt 32 w.imm.toInt).setWidth 64, false⟩) (fun _ _ => 0)) ∧
  (∀ (w : WV), let n := (w.mod.extractLsb' 0 4).toNat
    RegResult (.sel w) w.g { usesV 1 1 1 1 w with preds := [n] } 1 w.dst (fun _ => True)
      (fun e L => let p := rdPred e.s0 e.g0 n L
        ⟨(if p.1 != w.mod.getLsbD 4 then (e.r32 w.a L).w else (e.r32 w.b L).w).setWidth 64, (e.r32 w.a L).poison || (e.r32 w.b L).poison || p.2⟩) (fun _ _ => 0)) ∧
  (∀ (w : WI) s gid slice g a h, Issues (.nop w) w.g .none s gid slice g a h →
    ∃ t g', exec (.nop w) s = .next t ∧ t.group? gid = some g' ∧ GroupOnly gid g s t ∧ RegistersOnly g g' ∧ ∀ key, g'.cellAt key = g.cellAt key)

/-- 10 R207: the quotient and the remainder of a division, by the divisor and the signedness. -/
def Sys2Proof.Claims.division (signed rem : Bool) (x y : Word) : Word :=
  if y = 0 then (if rem then x else 0xFFFFFFFF#32)
  else if signed = true ∧ x.toInt = -(2 ^ 31) ∧ y.toInt = -1 then (if rem then 0 else 0x80000000#32)
  else if signed then BitVec.ofInt 32 (if rem then x.toInt - y.toInt * (x.toInt.tdiv y.toInt) else x.toInt.tdiv y.toInt)
  else BitVec.ofNat 32 (if rem then x.toNat - y.toNat * (x.toNat / y.toNat) else x.toNat / y.toNat)

/-- A lane whose division is bad: a zero divisor, or the one signed overflow (10 R207). -/
def Sys2Proof.Claims.badDivision (signed : Bool) (x y : Word) : Bool := decide (y = 0 ∨ (signed = true ∧ x.toInt = -(2 ^ 31) ∧ y.toInt = -1))

/-- IDIV, UDIV, IREM, UREM complete with the results of R207 where no lane is bad or no trap is enabled; bad lanes set INTDIV. A division with a bad lane traps when $trapen.INTDIV is set, and commits nothing: DIV_ZERO (0x15) when a divisor is zero, INT_OVERFLOW (0x16) otherwise, with the bad lanes in $elanes (10 R207; 25 R415). -/
def Obligations.Divisions : Prop :=
  (∀ (w : WI), ∀ p ∈ ([(.idiv w, true, false), (.udiv w, false, false), (.irem w, true, true), (.urem w, false, true)] : List (Instr × Bool × Bool)),
    let x (e : Env) (L : Nat) := (e.r32 w.a L).w
    let y (e : Env) (L : Nat) := (e.srcB false w L).w
    RegResult p.1 w.g (usesI 1 1 1 w) 1 w.dst
      (fun e => e.sr.trapIntdiv = false ∨ ∀ L ∈ e.lanes, badDivision p.2.1 (x e L) (y e L) = false)
      (fun e L => ⟨(division p.2.1 p.2.2 (x e L) (y e L)).setWidth 64, (e.r32 w.a L).poison || (e.srcB false w L).poison⟩)
      (fun e L => if badDivision p.2.1 (x e L) (y e L) then intdivFlag else 0)) ∧
  (∀ (w : WI), ∀ p ∈ ([(.idiv w, true), (.udiv w, false), (.irem w, true), (.urem w, false)] : List (Instr × Bool)),
    ∀ s gid slice g a h, Issues p.1 w.g (usesI 1 1 1 w) s gid slice g a h →
      let e := mkEnv s gid g a h w.g (usesI 1 1 1 w)
      let x (L : Nat) := (e.r32 w.a L).w
      let y (L : Nat) := (e.srcB false w L).w
      let bad := e.lanes.filter fun L => badDivision p.2 (x L) (y L)
      bad ≠ [] → e.sr.trapIntdiv = true →
        ((∃ L ∈ bad, y L = 0) → exec p.1 s = .next (issueTrap gid slice 0x15 (lanesMask bad) 0 s).bump) ∧
        ((∀ L ∈ bad, y L ≠ 0) → exec p.1 s = .next (issueTrap gid slice 0x16 (lanesMask bad) 0 s).bump))

/-! ## Compares, predicates and lane operations (08 R179; 10 R210 to R219) -/

/-- 08 R179: a condition code 0x0 to 0x5 on two integers. -/
def Sys2Proof.Claims.relation (cond : Nat) (x y : Int) : Bool :=
  match cond with | 0 => x = y | 1 => x ≠ y | 2 => x < y | 3 => x ≤ y | 4 => x > y | _ => x ≥ y

/-- ICMP and UCMP compare 32- or 64-bit values as signed or unsigned numbers and write pd1 and pd2 (08 R179; 10 R210). PLOP looks two predicates, each negated where its word says so, up in a truth table; PMOV asks whether a register or pair is not zero (10 R212, R213). PLOAD writes one predicate of each acting lane from its bit of a, or p0 to p11 from a [11:0]; a poisoned a poisons what it writes (10 R214). None of them touches the last-result file (08 R153). -/
def Obligations.IntegerPredicates : Prop :=
  ((∀ (w : WC), let n := if w.ty == 1#3 then 2 else 1
    let a := decOpd w.a; let b := decOpd w.b
    let u := usesC [(a, n, w.la), (b, n, w.lb)] [] w
    let sgn (v : DWord) : Int := if n = 2 then v.toInt else (v.setWidth 32 : Word).toInt
    CmpResult (.icmp w) w u (fun _ => True) (fun e L => (relation w.cond.toNat (sgn (e.rN a n L).val) (sgn (e.rN b n L).val), (e.rN a n L).poison || (e.rN b n L).poison)) (fun _ _ => 0) ∧
    CmpResult (.ucmp w) w u (fun _ => True) (fun e L => (relation w.cond.toNat (e.rN a n L).val.toNat (e.rN b n L).val.toNat, (e.rN a n L).poison || (e.rN b n L).poison)) (fun _ _ => 0)) ∧
  ((∀ (w : WC), let pa := (w.a.extractLsb' 0 4).toNat; let pb := (w.b.extractLsb' 0 4).toNat
    CmpResult (.plop w) w (usesC [] [pa, pb] w) (fun _ => True)
      (fun e L =>
        let x := (rdPred e.s0 e.g0 pa L).1 != w.a.getLsbD 4; let y := (rdPred e.s0 e.g0 pb L).1 != w.b.getLsbD 4
        (match x, y with | false, false => w.cond.getLsbD 0 | false, true => w.cond.getLsbD 1 | true, false => w.cond.getLsbD 2 | true, true => w.cond.getLsbD 3,
          (rdPred e.s0 e.g0 pa L).2 || (rdPred e.s0 e.g0 pb L).2)) (fun _ _ => 0)) ∧
  (∀ (w : WC), let n := if w.ty == 1#3 then 2 else 1; let a := decOpd w.a
    CmpResult (.pmov w) w (usesC [(a, n, w.la)] [] w) (fun _ => True) (fun e L => (decide ((e.rN a n L).val ≠ 0), (e.rN a n L).poison)) (fun _ _ => 0)))) ∧
  (∀ (w : WI) s gid slice g a h,
    let n := (w.imm.extractLsb' 0 4).toNat
    let u : Uses := ⟨[(w.a, 1, w.la)], [], [], if w.x then List.range 12 else [n], true⟩
    Issues (.pload w) w.g u s gid slice g a h →
    let e := mkEnv s gid g a h w.g u
    ∃ t g', exec (.pload w) s = .next t ∧ t.group? gid = some g' ∧ GroupOnly gid g s t ∧ RegistersOnly g g' ∧
      (∀ key, key ∉ touched e u → g'.cellAt key = g.cellAt key) ∧ LastKept e g' ∧
      (∀ L ∈ e.lanes, let x := e.r32 w.a L
        (w.x = true → ∀ p, p < 12 → g'.cellAt (keyP L p) = cell (if x.val.getLsbD p then 1 else 0) x.poison) ∧
        (w.x = false → n < 12 → g'.cellAt (keyP L n) = cell (if x.val.getLsbD L then 1 else 0) x.poison)) ∧
      FlagsSet e (fun L => if (e.r32 w.a L).poison then poisonFlag else 0) g')

/-- PSTORE, VOTE and FIRSTL give a number about the acting lanes (10 R214, R217, R219). Every acting lane reads what every lane holds: one poisoned source poisons the number and sets the poison flag in each of them (log 48). -/
def Obligations.LaneNumbers : Prop :=
  (∀ (w : WI), let n := (w.imm.extractLsb' 0 4).toNat
    RegResult (.pstore w) w.g ⟨[], if w.x then List.range 12 else [n], [(w.dst, 1)], [], true⟩ 1 w.dst (fun _ => True)
      (fun e L => if w.x then
          ⟨(BitVec.ofNat 32 (0x8000 + lanesMask ((List.range 12).filter fun p => (rdPred e.s0 e.g0 p L).1))).setWidth 64, (List.range 12).any fun p => (rdPred e.s0 e.g0 p L).2⟩
        else ⟨(BitVec.ofNat 32 (lanesMask (e.lanes.filter fun M => (rdPred e.s0 e.g0 n M).1))).setWidth 64, e.lanes.any fun M => (rdPred e.s0 e.g0 n M).2⟩) (fun _ _ => 0)) ∧
  (∀ (w : WI), let n := (w.imm.extractLsb' 0 4).toNat
    RegResult (.vote w) w.g ⟨[], [n], [(w.dst, 1)], [], true⟩ 1 w.dst (fun _ => True)
      (fun e _ =>
        let holds (M : Nat) : Bool := (rdPred e.s0 e.g0 n M).1 != w.imm.getLsbD 4
        let v : Nat := match (w.mod.extractLsb' 0 2).toNat with
          | 0 => if e.lanes.all holds then 1 else 0
          | 1 => if e.lanes.any holds then 1 else 0
          | 2 => if e.lanes.all holds || e.lanes.all (fun M => !holds M) then 1 else 0
          | _ => lanesMask (e.lanes.filter holds)
        ⟨(BitVec.ofNat 32 v).setWidth 64, e.lanes.any fun M => (rdPred e.s0 e.g0 n M).2⟩) (fun _ _ => 0)) ∧
  (∀ (w : WI),
    RegResult (.firstl w) w.g (usesI 1 (if w.x then 0 else 1) 0 w) 1 w.dst (fun _ => True)
      (fun e _ => let found := e.lanes.find? fun M => w.x || (e.r32 w.a M).w != 0
        ⟨(match found with | some M => BitVec.ofNat 32 M | none => 0xFFFFFFFF#32).setWidth 64, !w.x && e.lanes.any fun M => (e.r32 w.a M).poison⟩) (fun _ _ => 0))

/-- SHFL and REDUX wait on their counter with the value of the lane read (its own where the source takes no part, 10 R216) or with the reduction of all acting lanes (10 R218), which one poisoned source poisons in each of them, with its poison flag (log 48). No register has changed when they have issued. -/
def Obligations.LaneExchanges : Prop :=
  (∀ (w : WI),
    let src (e : Env) (L : Nat) : Nat :=
      let size : Int := 2 ^ (w.mod.extractLsb' 4 3).toNat; let base : Int := (L : Int) / size * size; let k := (e.srcB true w L).w.toNat
      let i : Int := L - base
      let j : Int := match (w.mod.extractLsb' 7 2).toNat with | 0 => k | 1 => i - k | 2 => i + k | _ => ((i.toNat ^^^ k : Nat) : Int)
      if 0 ≤ j ∧ j < size ∧ (base + j).toNat ∈ e.lanes then (base + j).toNat else L
    let val (e : Env) (L : Nat) : PVal := ⟨(e.r32 w.a (src e L)).w.setWidth 64, (e.r32 w.a (src e L)).poison || (e.srcB true w L).poison⟩
    PendsResult (.shfl w) w.g { usesI 1 1 1 w with fixedDst := false } (fun _ => True) (fun _ => if w.mod.getLsbD 10 then 1 else 0)
      (fun e => dstWrites w.dst (e.lanes.map fun L => ⟨L, resWords 1 (val e L).val (val e L).poison⟩))
      (fun e => e.lanes.map fun L => (L, if (val e L).poison then poisonFlag else 0))) ∧
  (∀ (w : WI),
    let op (x y : Word) : Word := match (w.mod.extractLsb' 0 3).toNat with
      | 0 => x + y | 1 => if x.toInt ≤ y.toInt then x else y | 2 => if x.toInt ≥ y.toInt then x else y
      | 3 => if x.toNat ≤ y.toNat then x else y | 4 => if x.toNat ≥ y.toNat then x else y | 5 => x &&& y | 6 => x ||| y | _ => x ^^^ y
    let val (e : Env) : PVal := ⟨(match e.lanes.map fun L => (e.r32 w.a L).w with | [] => 0 | x :: t => t.foldl op x).setWidth 64, e.lanes.any fun L => (e.r32 w.a L).poison⟩
    PendsResult (.redux w) w.g { usesI 1 1 0 w with fixedDst := false } (fun _ => True) (fun _ => if w.mod.getLsbD 10 then 1 else 0)
      (fun e => dstWrites w.dst (e.lanes.map fun L => ⟨L, resWords 1 (val e).val (val e).poison⟩))
      (fun e => e.lanes.map fun L => (L, if (val e).poison then poisonFlag else 0)))

/-! ## Special registers (08 R159 to R161; 10 R220 to R222; 25 R431; 04 R84, R85) -/

/-- MFS and MFSP write the value of a special register into each acting lane, a 64-bit one into an even pair; the value is never poisoned. Every number of R159 and R431 that may be read is named here with what it reads. That $mqcfgq and $mqptrq read as they stand at the issue, and $tsc as it stands or one more, where R222 allows any moment from the issue to the latency, is the model's reading (DEDUCED, log 50). What may be reached: the numbers of R159 by MFS and MTS, a 64-bit register only through an even pair; 0x800 and above only by MFSP and MTSP, and by these only in a handler or, but for 0x804, in a supervisor context. Otherwise PRIVILEGE or OPERAND, and nothing is written. -/
def Obligations.SpecialRegisterReadsAndChecks : Prop :=
  ((∀ (w : WS), let num := w.num.toNat; let n := if srWide num then 2 else 1; let u : Uses := ⟨[], [], [(w.reg, n)], [], true⟩
    RegResult (.mfs w) w.g u n w.reg (fun e => srCheck e false num = none) (fun e L => ⟨srValue e num L, false⟩) (fun _ _ => 0) ∧
    RegResult (.mfsp w) w.g u n w.reg (fun e => srCheck e true num = none) (fun e L => ⟨srValue e num L, false⟩) (fun _ _ => 0)) ∧
  (∀ (e : Env) (L : Nat), let g := e.g0; let r := e.sr
    (∀ p ∈ ([(0x000, L), (0x001, L / 4), (0x002, g.grp), (0x003, g.wgx), (0x004, g.wgy), (0x005, g.wgz), (0x006, g.cx), (0x007, g.cy), (0x008, g.ngrp),
        (0x020, r.fpcr.toNat), (0x022, r.trapen.toNat), (0x023, r.drainflags.toNat), (0x024, r.dbgctl.toNat), (0x025, r.role.toNat), (0x028, r.ctr.toNat), (0x040, r.rngkey.toNat),
        (0x050, r.utvec.toNat), (0x051, r.epc.toNat), (0x052, r.ecause.toNat), (0x053, r.elanes.toNat), (0x054, r.eaddr.toNat),
        (0x030, 0xC0000000), (0x031, 0x87821801), (0x032, 0x44021802), (0x033, 0x08432003), (0x034, 0x08642004), (0x035, 0x0C603005), (0x036, 0xC0000000), (0x037, 0xC0000000), (0x038, 0xC0000000), (0x039, 0xC0000000), (0x03A, 0xC0000000), (0x03B, 0xC0000000), (0x03C, 0xC0000000), (0x03D, 0xC0000000), (0x03E, 0xC0000000), (0x03F, 0xC0000000),
        (0x026, (e.s0.part e.part).ageNow e.s0 % 65536), (0x801, g.ctx % 4096), (0x802, Config.nodeId.toNat), (0x803, (e.s0.ctx g.ctx).stopseq.toNat)] : List (Nat × Nat)),
      srValue e p.1 L = BitVec.ofNat 64 p.2) ∧
    -- a register written less than 2 clk ago may read as before (R160); one that was not reads as it stands
    ((∀ x ∈ g.srhz, x.ready ≤ e.s0.clk) → (∀ q, q < 4 → srValue e (0x060 + q) L = (e.s0.mq e.part g.core q).cfg.setWidth 64 ∧ srValue e (0x064 + q) L = (e.s0.mq e.part g.core q).ptr.setWidth 64) ∧
      srValue e 0x804 L = (if g.resume.isSome then 1 else 0) ∧ (g.hz = [] → g.vp = [] → srValue e 0x021 L = ((g.cellAt (keyF L)).val).setWidth 64)) ∧
    (srValue e 0x010 L = e.s0.tsc ∨ srValue e 0x010 L = e.s0.tsc + 1) ∧
    srValue e 0x800 L = (if isSup e.s0 g then (if g.sr.handler then 3 else 2) else (if g.sr.handler then 1 else 0)))) ∧
  (∀ (w : WS) s gid slice g a h, let num := w.num.toNat; let n := if srWide num then 2 else 1
    let r : Uses := ⟨[], [], [(w.reg, n)], [], true⟩
    let m : Uses := ⟨[(w.reg, n, false)], [], [], [], true⟩
    ∀ p ∈ ([(.mfs w, r, false), (.mts w, m, false), (.mfsp w, r, true), (.mtsp w, m, true)] : List (Instr × Uses × Bool)),
      (Issues p.1 w.g p.2.1 s gid slice g a h →
        (0x800 ≤ num → p.2.2 = false → Halts p.1 s gid g 0x06 0 0) ∧
        (0x800 ≤ num → p.2.2 = true → g.sr.handler = false → ((s.ctx g.ctx).sup = false ∨ num = 0x804) → Halts p.1 s gid g 0x06 0 0)) ∧
      (Fetched p.1 s gid slice g a h →
        (0x804 < num → p.2.2 = true → Halts p.1 s gid g 0x02 0 0) ∧
        (num < 0x800 → srNamed num = false → Halts p.1 s gid g 0x02 0 0) ∧
        (num < 0x800 → srWide num = true → w.reg.even = false → Halts p.1 s gid g 0x02 0 0)))

/-- MTS, and MTSP of any number but 0x804, write a register of the group from the leader, or from an s register: the writable bits of R160 and R161 take the value, the others stay 0, and no other register changes. A read-only register keeps its value. MTSP acts as MTS on 0x000 to 0x7FF (25 R431). Of $fpflags both write bits [6:0] of each acting lane's value into its own lane (10 R222). A poisoned value traps where $trapen.POISON is set; of $lane and $slice, which every lane holds, and of an s register every acting lane reads the value (log 50). -/
def Obligations.SpecialRegisterAndFlagWrites : Prop :=
  (∀ (w : WS), ∀ p ∈ ([(.mts w, false), (.mtsp w, true)] : List (Instr × Bool)), ∀ s gid slice g a h,
    let num := w.num.toNat; let n := if srWide num then 2 else 1; let u : Uses := ⟨[(w.reg, n, false)], [], [], [], true⟩
    Issues p.1 w.g u s gid slice g a h → let e := mkEnv s gid g a h w.g u
    srCheck e p.2 num = none → num ≠ 0x21 → ¬ (0x60 ≤ num ∧ num ≤ 0x67) → num ≠ 0x804 →
    ∀ L, e.leader = some L →
      let x := e.rN w.reg n L; let v : Word := x.val.setWidth 32
      let bad (M : Nat) : Bool := (decide (M = L) || w.reg.isS || decide (num ≤ 1)) && (e.rN w.reg n M).poison
      (((∀ M ∈ e.lanes, bad M = false) ∨ e.sr.trapPoison = false) →
        ((num = 0x20 → v.toNat % 8 ≤ 4) → (num = 0x25 → v.toNat % 4 ≠ 3) →
          ∃ t g', exec p.1 s = .next t ∧ t.group? gid = some g' ∧ GroupOnly gid g s t ∧
            RegistersOnly { g with sr := g'.sr } g' ∧ (∀ key, (∀ M ∈ e.lanes, key ≠ keyF M) → g'.cellAt key = g.cellAt key) ∧
            (∀ M ∈ e.lanes, (g'.cellAt (keyF M)).val = (g.cellAt (keyF M)).val ||| (if bad M then poisonFlag else 0)) ∧
            g'.sr = (match num with
              | 0x20 => { g.sr with fpcr := v &&& 0x1FF7 } | 0x22 => { g.sr with trapen := v &&& 7 } | 0x23 => { g.sr with drainflags := v &&& 0x3F }
              | 0x24 => { g.sr with dbgctl := v &&& 1 } | 0x25 => { g.sr with role := v &&& 3 } | 0x40 => { g.sr with rngkey := x.val } | 0x50 => { g.sr with utvec := x.val }
              | 0x51 => { g.sr with epc := x.val } | 0x52 => { g.sr with ecause := v &&& 0xFFF } | 0x53 => { g.sr with elanes := v } | 0x54 => { g.sr with eaddr := x.val }
              | _ => g.sr)) ∧
        ((num = 0x20 ∧ v.toNat % 8 > 4) ∨ (num = 0x25 ∧ v.toNat % 4 = 3) → Halts p.1 s gid g 0x02 0 0)) ∧
      ((∃ M ∈ e.lanes, bad M = true) → e.sr.trapPoison = true → exec p.1 s = .next (issueTrap gid slice 0x08 (lanesMask (e.lanes.filter bad)) 0 s).bump)) ∧
  (∀ (w : WS), ∀ i ∈ ([.mts w, .mtsp w] : List Instr), ∀ s gid slice g a h, let u : Uses := ⟨[(w.reg, 1, false)], [], [], [], true⟩
    w.num = 0x021#12 → Issues i w.g u s gid slice g a h → let e := mkEnv s gid g a h w.g u
    e.lanes ≠ [] → ((∀ L ∈ e.lanes, (e.r32 w.reg L).poison = false) ∨ e.sr.trapPoison = false) →
    ∃ t g', exec i s = .next t ∧ t.group? gid = some g' ∧ GroupOnly gid g s t ∧ RegistersOnly g g' ∧
      (∀ L ∈ e.lanes, (g'.cellAt (keyF L)).val = (e.r32 w.reg L).w &&& 0x7F) ∧ (∀ key, (∀ L ∈ e.lanes, key ≠ keyF L) → g'.cellAt key = g.cellAt key))

/-- MTS and MTSP of $mqcfgq configure a message queue of the core, and of $mqptrq set the pointers of a disabled one; a configuration that R85 forbids and a pointer write to an enabled queue raise their cause and leave every queue. DROP stays until a 1 is written to it (04 R84). MTSP of 0x804 drops the resume point when bit 0 is clear (25 R431). -/
def Obligations.QueueAndResumeWrites : Prop :=
  ∀ (w : WS) s gid slice g a h, let num := w.num.toNat; let u : Uses := ⟨[(w.reg, 1, false)], [], [], [], true⟩
    ∀ L, ((mkEnv s gid g a h w.g u).leader = some L) → let e := mkEnv s gid g a h w.g u
    let v : Word := (e.r32 w.reg L).w; let core := g.core; let p := s.part g.part
    (∀ M ∈ e.lanes, (e.r32 w.reg M).poison = false) →
    -- the checks look at the queue as the instruction sees it: less than 2 clk after a write, as before or after it (R160; log 50)
    (∀ i ∈ ([.mts w, .mtsp w] : List Instr), Issues i w.g u s gid slice g a h →
      (∀ q, q < 4 → num = 0x60 + q → let m := e.mqSeen q; let old := s.mq g.part core q
        let lg := v.toNat / 65536 % 16; let base := v.toNat % 2048; let en := v.getLsbD 31
        (en = true → lg > 12 → Halts i s gid g 0x02 0 0) ∧
        (en = true → lg ≤ 12 → base * 4096 + 64 * 2 ^ lg > p.spadSize core → Halts i s gid g 0x28 0 0) ∧
        (en = true → lg ≤ 12 → base * 4096 + 64 * 2 ^ lg ≤ p.spadSize core → m.en = true → (lg ≠ cfgLg m.cfg ∨ base ≠ cfgBase m.cfg) → Halts i s gid g 0x02 0 0) ∧
        ((en = true → lg ≤ 12 ∧ base * 4096 + 64 * 2 ^ lg ≤ p.spadSize core ∧ (m.en = true → lg = cfgLg m.cfg ∧ base = cfgBase m.cfg)) →
          ∃ t, exec i s = .next t ∧
            t.mq g.part core q = { old with cfg := (v &&& 0xFFFF07FF) ||| (if old.cfg.getLsbD 15 && !v.getLsbD 15 then 0x8000 else 0), held := if en then old.held else [] } ∧
            (∀ c k, k < 4 → (c ≠ core ∨ k ≠ q) → t.mq g.part c k = s.mq g.part c k) ∧ (∀ a, readByte t a = readByte s a))) ∧
      (∀ q, q < 4 → num = 0x64 + q → let m := e.mqSeen q
        (m.en = true → Halts i s gid g 0x02 0 0) ∧
        (m.en = false → ∃ t, exec i s = .next t ∧ t.mq g.part core q = { s.mq g.part core q with ptr := v } ∧
          (∀ c k, k < 4 → (c ≠ core ∨ k ≠ q) → t.mq g.part c k = s.mq g.part c k) ∧ (∀ a, readByte t a = readByte s a)))) ∧
    (Issues (.mtsp w) w.g u s gid slice g a h → num = 0x804 → g.sr.handler = true → wasArmed s gid = false →
      ∃ t g', exec (.mtsp w) s = .next t ∧ t.group? gid = some g' ∧ GroupOnly gid g s t ∧ g'.sr = g.sr ∧ g'.resume = if v.getLsbD 0 then g.resume else none)

/-! ## Floating point (11 R224 to R244; 06) -/

/-- 11 R224: an operation taken on the low element of a scalar type, or on both halves of a packed one (types 4 and 5), whose results are put together and whose exceptions are joined. -/
def Sys2Proof.Claims.elementwise (t : Nat) (op : DWord → DWord → DWord → FRes) (a b c : DWord) : FRes :=
  if t = 4 ∨ t = 5 then
    let lo := op ((a.extractLsb' 0 16).setWidth 64) ((b.extractLsb' 0 16).setWidth 64) ((c.extractLsb' 0 16).setWidth 64)
    let hi := op ((a.extractLsb' 16 16).setWidth 64) ((b.extractLsb' 16 16).setWidth 64) ((c.extractLsb' 16 16).setWidth 64)
    ⟨lo.bits ||| (hi.bits <<< 16), lo.flags ||| hi.flags⟩
  else
    let low (x : DWord) : DWord := BitVec.ofNat 64 (x.toNat % 2 ^ (tyFmt t).width)
    op (low a) (low b) (low c)

/-- 06 R110, 11 R225: an operand as a float instruction takes it: flushed where $fpcr opts in, then negated where its word says so. -/
def Sys2Proof.Claims.prepared (e : Env) (f : Fmt) (neg : Bool) (x : DWord) : DWord :=
  let y := if fzOf e.sr.fpcr f then f.flush x else x
  if neg then f.neg y else y

/-- One lane of a V-format float instruction with nsrc sources. -/
def Sys2Proof.Claims.floatLane (w : WV) (nsrc : Nat) (op : Fmt → Rnd → Bool → Bool → DWord → DWord → DWord → FRes) (e : Env) (L : Nat) : LaneF :=
  let t := fTy w.mod; let n := tyWords t; let f := tyFmt t
  let a := e.rN w.a n L
  let b : PVal := if nsrc ≥ 2 then e.rN w.b n L else ⟨0, false⟩
  let c : PVal := if nsrc ≥ 3 then e.rN w.c n L else ⟨0, false⟩
  let r := elementwise t (fun x y z => op f (modeOf e.sr.fpcr (fRnd w.mod)) (w.mod.getLsbD 2) (fzOf e.sr.fpcr f)
    (prepared e f (w.mod.getLsbD 1) x) (prepared e f false y) (prepared e f (nsrc ≥ 3 && w.mod.getLsbD 0) z)) a.val b.val c.val
  ⟨r.bits, a.poison || b.poison || c.poison, r.flags⟩

/-- What a V-format float word reads. -/
def Sys2Proof.Claims.usesF (w : WV) (nsrc : Nat) (fixed : Bool) : Uses :=
  let n := tyWords (fTy w.mod)
  { usesV n n (if nsrc ≥ 2 then n else 0) (if nsrc ≥ 3 then n else 0) w with fixedDst := fixed }

/-- No lane raises an exception that $fpcr.TE enables (11 R226). -/
def Sys2Proof.Claims.quiet (e : Env) (f : Nat → LaneF) : Prop := ∀ L ∈ e.lanes, (f L).poison = true ∨ (f L).flags &&& teOf e.sr.fpcr = 0

/-- The arithmetic of one-latency float instructions: the operation each one is (11 R227, R229, R233). -/
def Sys2Proof.Claims.floatTable (w : WV) : List (Instr × Nat × (Fmt → Rnd → Bool → Bool → DWord → DWord → DWord → FRes)) := [
  (.fadd w, 2, fun f m sat fz a b _ => opAdd f m sat fz a b),
  (.fsub w, 2, fun f m sat fz a b _ => opAdd f m sat fz a (f.neg b)),
  (.fmul w, 2, fun f m sat fz a b _ => opMul f m sat fz a b),
  (.ffma w, 3, fun f m sat fz a b c => opFma f m sat fz a b c),
  (.fmin w, 2, fun f _ _ _ a b _ => opMinMax f false false a b),
  (.fmax w, 2, fun f _ _ _ a b _ => opMinMax f true false a b),
  (.fminnum w, 2, fun f _ _ _ a b _ => opMinMax f false true a b),
  (.fmaxnum w, 2, fun f _ _ _ a b _ => opMinMax f true true a b),
  (.frint w, 1, fun f m _ _ a _ _ => opRint f m a),
  (.flogb w, 1, fun f _ _ _ a _ _ => opLogb f a)]

/-- FADD, FSUB, FMUL, FFMA, FMIN, FMAX, FMINNUM, FMAXNUM, FRINT, FLOGB and FSCALEB complete with their values when no enabled exception is raised, and set the bits of the exceptions raised. FDIV, FSQRT and the approximate functions: the same on counter w0 or w1 (mod bit 0). That the operations named here give on numbers the exact value rounded, FloatSpecialValues says beside it. -/
def Obligations.FloatArithmetic : Prop :=
  ((∀ (w : WV), ∀ p ∈ floatTable w, let n := tyWords (fTy w.mod)
    RegResult p.1 w.g (usesF w p.2.1 true) n w.dst (fun e => quiet e (floatLane w p.2.1 p.2.2 e))
      (fun e L => ⟨(floatLane w p.2.1 p.2.2 e L).val, (floatLane w p.2.1 p.2.2 e L).poison⟩)
      (fun e L => if (floatLane w p.2.1 p.2.2 e L).poison then 0 else (floatLane w p.2.1 p.2.2 e L).flags.setWidth 32)) ∧
  (∀ (w : WV), let n := tyWords (fTy w.mod); let f := tyFmt (fTy w.mod)
    let r (e : Env) (L : Nat) : FRes := opScaleb f (modeOf e.sr.fpcr (fRnd w.mod)) (w.mod.getLsbD 2) (fzOf e.sr.fpcr f)
      (prepared e f (w.mod.getLsbD 1) (BitVec.ofNat 64 ((e.rN w.a n L).val.toNat % 2 ^ f.width))) (e.r32 w.b L).w
    let lane (e : Env) (L : Nat) : LaneF := ⟨(r e L).bits, (e.rN w.a n L).poison || (e.r32 w.b L).poison, (r e L).flags⟩
    RegResult (.fscaleb w) w.g (usesV n n 1 0 w) n w.dst (fun e => quiet e (lane e)) (fun e L => ⟨(lane e L).val, (lane e L).poison⟩)
      (fun e L => if (lane e L).poison then 0 else (lane e L).flags.setWidth 32))) ∧
  (∀ (w : WV), ∀ p ∈ ([
      (.fdiv w, 2, fun _ f m sat fz a b _ => opDiv f m sat fz a b),
      (.fsqrt w, 1, fun _ f m sat fz a _ _ => opSqrt f m sat fz a),
      (.frcp w, 1, fun e f _ _ fz a _ _ => approx .rcp e.eph.ft f fz a (e.s0.draw 52)),
      (.frsq w, 1, fun e f _ _ fz a _ _ => approx .rsq e.eph.ft f fz a (e.s0.draw 52)),
      (.fexp2 w, 1, fun e f _ _ fz a _ _ => approx .exp2 e.eph.ft f fz a (e.s0.draw 52)),
      (.flog2 w, 1, fun e f _ _ fz a _ _ => approx .log2 e.eph.ft f fz a (e.s0.draw 52)),
      (.fsin w, 1, fun e f _ _ fz a _ _ => approx .sin e.eph.ft f fz a (e.s0.draw 52)),
      (.fcos w, 1, fun e f _ _ fz a _ _ => approx .cos e.eph.ft f fz a (e.s0.draw 52)),
      (.ftanh w, 1, fun e f _ _ fz a _ _ => approx .tanh e.eph.ft f fz a (e.s0.draw 52))]
      : List (Instr × Nat × (Env → Fmt → Rnd → Bool → Bool → DWord → DWord → DWord → FRes))),
    let lane (e : Env) (L : Nat) : LaneF := floatLane w p.2.1 (p.2.2 e) e L
    PendsResult p.1 w.g (usesF w p.2.1 false) (fun e => quiet e (lane e)) (fun _ => if w.mod.getLsbD 0 then 1 else 0)
      (fun e => dstWrites w.dst (e.lanes.map fun L => ⟨L, resWords (tyWords (fTy w.mod)) (lane e L).val (lane e L).poison⟩))
      (fun e => e.lanes.map fun L => (L, if (lane e L).poison then poisonFlag else (lane e L).flags.setWidth 32)))

/-- FABS, FNEG and FCOPYSIGN (opcodes 0x4A to 0x4C) act on the sign bit of each element and raise nothing; FABS and FNEG with another b than 0x18A are ILLEGAL_OPERAND (11 R230). -/
def Obligations.FloatSignResults : Prop :=
  (∀ (w : WV), ∀ p ∈ ([(.fabs w, false, fun top a _ => a &&& ~~~top), (.fneg w, false, fun top a _ => a ^^^ top), (.fcopysign w, true, fun top a b => (a &&& ~~~top) ||| (b &&& top))]
      : List (Instr × Bool × (DWord → DWord → DWord → DWord))),
    let t := fTy w.mod; let n := tyWords t; let top : DWord := BitVec.ofNat 64 (2 ^ ((tyFmt t).width - 1))
    let b (e : Env) (L : Nat) : PVal := if p.2.1 then e.rN w.b n L else ⟨0, false⟩
    RegResult p.1 w.g (usesV n n (if p.2.1 then n else 0) 0 w) n w.dst (fun _ => True)
      (fun e L => ⟨(elementwise t (fun x y _ => ⟨p.2.2 top x y, 0⟩) (e.rN w.a n L).val (b e L).val 0).bits, (e.rN w.a n L).poison || (b e L).poison⟩) (fun _ _ => 0)) ∧
  (∀ (w : WV), ∀ i ∈ ([.fabs w, .fneg w] : List Instr), w.b ≠ .z → ∀ s gid slice g a h, Fetched i s gid slice g a h → Halts i s gid g 0x02 0 0) ∧
  (∀ (w : WV), ∀ p ∈ ([(.fabs w, 0x4A#8), (.fneg w, 0x4B#8), (.fcopysign w, 0x4C#8)] : List (Instr × BitVec 8)), ∃ x, encode p.1 = some x ∧ x.extractLsb' 51 8 = p.2)

/-- An enabled exception traps and commits nothing: the cause is 0x10 plus the lowest kind any lane raised and $fpcr.TE enables, the lanes are those that raised that kind (11 R226; 25 R414, R415). -/
def Obligations.FloatTraps : Prop :=
  ∀ (w : WV), ∀ p ∈ floatTable w ++ [(.fdiv w, 2, fun f m sat fz a b _ => opDiv f m sat fz a b), (.fsqrt w, 1, fun f m sat fz a _ _ => opSqrt f m sat fz a)],
    ∀ fixed s gid slice g a h, fixed = (p.1.opcode != (Instr.fdiv w).opcode && p.1.opcode != (Instr.fsqrt w).opcode) →
      Issues p.1 w.g (usesF w p.2.1 fixed) s gid slice g a h →
      let e := mkEnv s gid g a h w.g (usesF w p.2.1 fixed)
      let raises (k L : Nat) : Bool := !(floatLane w p.2.1 p.2.2 e L).poison && (floatLane w p.2.1 p.2.2 e L).flags.getLsbD k
      ∀ k, k < 5 → (teOf e.sr.fpcr).getLsbD k = true → (∃ L ∈ e.lanes, raises k L = true) →
        (∀ j, j < k → (teOf e.sr.fpcr).getLsbD j = true → ∀ L ∈ e.lanes, raises j L = false) →
        exec p.1 s = .next (issueTrap gid slice (0x10 + k) (lanesMask (e.lanes.filter (raises k))) 0 s).bump

/-- FCMP and FCLASS write pd1 and pd2: FCMP from the order of the flushed values, unordered where one is a NaN, with invalid for a signalling NaN and for an ordering condition of a NaN; FCLASS from the class of the bits (11 R231, R232). A lane whose predicates come out poisoned, by a source or by pc, raises POISON alone (R226). The last-result file stays (08 R153). -/
def Obligations.FloatCompares : Prop :=
  (∀ (w : WC), let t := w.ty.toNat; let n := tyWords t; let f := tyFmt t; let a := decOpd w.a; let b := decOpd w.b
    let val (e : Env) (o : Opd) (L : Nat) : FVal := f.dec (if fzOf e.sr.fpcr f then f.flush (BitVec.ofNat 64 ((e.rN o n L).val.toNat % 2 ^ f.width)) else (e.rN o n L).val)
    let nan (v : FVal) : Bool := match v with | .nan _ => true | _ => false
    let flags (e : Env) (L : Nat) : FpFlags :=
      if val e a L = .nan true ∨ val e b L = .nan true ∨ ((nan (val e a L) || nan (val e b L)) = true ∧ 2 ≤ w.cond.toNat ∧ w.cond.toNat ≤ 5) then fInvalid else 0
    let poison (e : Env) (L : Nat) : Bool := (e.rN a n L).poison || (e.rN b n L).poison || (w.comb != 0 && (rdPred e.s0 e.g0 w.pc.toNat L).2)
    CmpResult (.fcmp w) w (usesC [(a, n, w.la), (b, n, w.lb)] [] w) (fun e => quiet e fun L => ⟨0, poison e L, flags e L⟩)
      (fun e L => (fcmpHolds w.cond.toNat (val e a L) (val e b L), poison e L)) (fun e L => if poison e L then 0 else (flags e L).setWidth 32)) ∧
  (∀ (w : WC), let t := w.ty.toNat; let n := tyWords t; let f := tyFmt t; let a := decOpd w.a
    CmpResult (.fclass w) w (usesC [(a, n, w.la)] [] w) (fun _ => True)
      (fun e L => (fclassHolds f w.cond.toNat (BitVec.ofNat 64 ((e.rN a n L).val.toNat % 2 ^ f.width)), (e.rN a n L).poison)) (fun _ _ => 0)) ∧
  -- the conditions on values: ordered relations fail and unordered ones hold when a value is a NaN
  (∀ (c : Nat) (x y : FVal), (∃ q, x = .nan q ∨ y = .nan q) → c ≤ 13 → (fcmpHolds c x y = decide (c = 1 ∨ c = 7 ∨ 8 ≤ c))) ∧
  -- numbers and infinities compare as numbers: ± m · 2^e at any scale 2^-k that makes both whole, −0 as +0
  (∀ (c : Nat) (x y : ExReal) (k : Int), 0 ≤ x.e + k → 0 ≤ y.e + k → c ≤ 13 →
    let num (z : ExReal) : Int := (if z.neg then -(z.m : Int) else z.m) * 2 ^ (z.e + k).toNat
    fcmpHolds c (.fin x) (.fin y) = (if c = 6 then true else if c = 7 then false else relation (c % 8) (num x) (num y))) ∧
  (∀ (c : Nat) (p q : Bool) (x : ExReal), x.m * 2 ^ x.e.toNat < 2 ^ 5000 → c ≤ 13 →
    let s (p : Bool) : Int := if p then -1 else 1
    let is (u v : Int) : Bool := if c = 6 then true else if c = 7 then false else relation (c % 8) u v
    fcmpHolds c (.inf p) (.inf q) = is (s p) (s q) ∧ fcmpHolds c (.inf p) (.fin x) = is (s p) 0 ∧ fcmpHolds c (.fin x) (.inf p) = is 0 (s p)) ∧
  -- the classes of R232, on bits
  (∀ (f : Fmt) (k : Nat) (v : DWord), k < 16 →
    let top := v.getLsbD (f.width - 1)
    let normal (x : ExReal) : Bool := decide (x.m ≠ 0) && !f.subnormal v
    fclassHolds f k v = (match f.dec v with
      | .nan sig => decide ((k = 8 ∧ sig = true) ∨ (k = 9 ∧ sig = false) ∨ k = 14 ∨ (k = 15 ∧ top = true))
      | .inf neg => decide ((k = 0 ∧ neg = true) ∨ (k = 7 ∧ neg = false) ∨ k = 13 ∨ (k = 15 ∧ neg = true))
      | .fin x => decide (k = 10 ∨ (k = 15 ∧ top = true) ∨ (k = 11 ∧ x.m = 0) ∨ (k = 3 ∧ top = true ∧ x.m = 0) ∨ (k = 4 ∧ top = false ∧ x.m = 0) ∨
          (k = 1 ∧ top = true ∧ normal x = true) ∨ (k = 6 ∧ top = false ∧ normal x = true) ∨
          (f.subnormal v = true ∧ (k = 12 ∨ (k = 2 ∧ top = true) ∨ (k = 5 ∧ top = false))))))

/-- CVT, CVTI and ICVTF complete with the converted value of R234 to R237. That the operations named here give on numbers the exact value rounded, FloatSpecialValues says beside it. -/
def Obligations.ConversionResults : Prop :=
  (∀ (w : WV), let conv := (w.mod.extractLsb' 4 5).toNat; let rnd := (w.mod.extractLsb' 1 3).toNat; let sat := w.mod.getLsbD 0
    let nd := if conv = 3 ∨ conv = 6 ∨ conv = 9 then 2 else 1; let na := if conv ≤ 2 then 2 else 1
    let two : Bool := decide (0x18 ≤ conv); let srnd : Bool := decide (rnd = 6)
    let b (e : Env) (L : Nat) : PVal := if two then e.r32 w.b L else ⟨0, false⟩
    let c (e : Env) (L : Nat) : PVal := if srnd then e.r32 w.c L else ⟨0, false⟩
    let one (e : Env) (L k : Nat) (v : DWord) : FRes := cvtElem (convFmts conv).1 (convFmts conv).2 (cvtMode e rnd k L (c e L).w) sat e.sr.fpcr v
    let lane (e : Env) (L : Nat) : LaneF :=
      let x := one e L 0 (e.rN w.a na L).val; let y := one e L 1 (b e L).val
      ⟨if two then x.bits ||| (y.bits <<< 16) else x.bits, (e.rN w.a na L).poison || (b e L).poison || (c e L).poison, if two then x.flags ||| y.flags else x.flags⟩
    RegResult (.cvt w) w.g (usesV nd na (if two then 1 else 0) (if srnd then 1 else 0) w) nd w.dst (fun e => quiet e (lane e))
      (fun e L => ⟨(lane e L).val, (lane e L).poison⟩) (fun e L => if (lane e L).poison then 0 else (lane e L).flags.setWidth 32)) ∧
  (∀ (w : WV), let ty := (w.mod.extractLsb' 7 2).toNat; let dt := (w.mod.extractLsb' 4 3).toNat; let f := tyFmt ty; let na := tyWords ty; let nd := if dt = 2 ∨ dt = 3 then 2 else 1
    let bits := (intTy dt).1
    let lo : Int := if (intTy dt).2 then -(2 ^ (bits - 1)) else 0
    let hi : Int := if (intTy dt).2 then 2 ^ (bits - 1) - 1 else 2 ^ bits - 1
    let r (e : Env) (L : Nat) : Int × FpFlags := convInt lo hi (modeOf e.sr.fpcr (w.mod.extractLsb' 1 3).toNat)
      (f.dec (prepared e f false (BitVec.ofNat 64 ((e.rN w.a na L).val.toNat % 2 ^ f.width))))
    let lane (e : Env) (L : Nat) : LaneF := ⟨BitVec.ofInt 64 (r e L).1, (e.rN w.a na L).poison, (r e L).2⟩
    RegResult (.cvti w) w.g (usesV nd na 0 0 w) nd w.dst (fun e => quiet e (lane e))
      (fun e L => ⟨(lane e L).val, (lane e L).poison⟩) (fun e L => if (lane e L).poison then 0 else (lane e L).flags.setWidth 32)) ∧
  (∀ (w : WV), let st := (w.mod.extractLsb' 6 3).toNat; let dt := (w.mod.extractLsb' 4 2).toNat; let rnd := (w.mod.extractLsb' 1 3).toNat; let srnd : Bool := decide (rnd = 6)
    let f := tyFmt dt; let na := if st = 2 ∨ st = 3 then 2 else 1; let nd := tyWords dt; let bits := (intTy st).1
    let c (e : Env) (L : Nat) : PVal := if srnd then e.r32 w.c L else ⟨0, false⟩
    let num (e : Env) (L : Nat) : Int := let u := (e.rN w.a na L).val.toNat % 2 ^ bits; if (intTy st).2 = true ∧ 2 ^ (bits - 1) ≤ u then (u : Int) - 2 ^ bits else u
    let r (e : Env) (L : Nat) : FRes := roundTo f (cvtMode e rnd 0 L (c e L).w) (w.mod.getLsbD 0) (fzOf e.sr.fpcr f) (exInt (num e L))
    let lane (e : Env) (L : Nat) : LaneF := ⟨(r e L).bits, (e.rN w.a na L).poison || (c e L).poison, (r e L).flags⟩
    RegResult (.icvtf w) w.g (usesV nd na 0 (if srnd then 1 else 0) w) nd w.dst (fun e => quiet e (lane e))
      (fun e L => ⟨(lane e L).val, (lane e L).poison⟩) (fun e L => if (lane e L).poison then 0 else (lane e L).flags.setWidth 32))

/-- DOT, RNG, QMX and EXPR complete: DOT with the contract's dot product where no enabled stamp mismatch stands (07 R148; 11 R241), RNG with H of the key and its slice's counter, which every slice of the gang then advances, and no flag (11 R243), QMX with the scale and element of the block of acting lanes (11 R244), EXPR with t0 of its slot's program and the flags its micro-ops raise; a lane whose t0 is poisoned raises POISON alone, and one whose micro-op reads a poisoned register sets POISON beside the others (11 R226, R242; log 48). Each enters the last-result file (08 R153). A slot outside the partition's range and a micro-op that R242 forbids stop an EXPR, with the index of the micro-op. -/
def Obligations.ElementResults : Prop :=
  (∀ (w : WV), let fmt := (w.mod.extractLsb' 5 4).toNat
    let r (e : Env) (L : Nat) : FRes := dotLane e.eph fmt (w.mod.getLsbD 1) (w.mod.getLsbD 0) (e.r32 w.a L).w (e.r32 w.b L).w (e.r32 w.c L).w
    let lane (e : Env) (L : Nat) : LaneF := ⟨(r e L).bits, (e.r32 w.a L).poison || (e.r32 w.b L).poison || (e.r32 w.c L).poison, (r e L).flags⟩
    RegResult (.dot w) w.g (usesV 1 1 1 1 w) 1 w.dst
      (fun e => quiet e (lane e) ∧ (e.sr.trapCmix = false ∨ ∀ L ∈ e.lanes, stampBad e.sr.ctr (e.rc w.a L 0).stamp = false ∧ stampBad e.sr.ctr (e.rc w.b L 0).stamp = false))
      (fun e L => ⟨(lane e L).val, (lane e L).poison⟩) (fun e L => if (lane e L).poison then 0 else (lane e L).flags.setWidth 32)) ∧
  (∀ (w : WV), let n := if w.mod.getLsbD 8 then 2 else 1; let u := usesV n 0 0 0 w
    RegResult (.rng w) w.g u n w.dst (fun _ => True)
      (fun e L => ⟨hashH (e.sr.rngkey ^^^ groupId e.g0) (BitVec.ofNat 64 ((e.g0.slice (L / 4)).rng.toNat * 256 + L)), false⟩) (fun _ _ => 0) ∧
    (∀ s gid slice g a h, Issues (.rng w) w.g u s gid slice g a h →
      ∃ t g', exec (.rng w) s = .next t ∧ t.group? gid = some g' ∧
        ∀ i, i < g.slices.length → (g'.slice i).rng = (g.slice i).rng + (a.slices.count i : Nat))) ∧
  (∀ (w : WV), let f := match fTy w.mod with | 0 => e4m3 | 1 => e5m2 | 2 => e2m3 | 3 => e3m2 | _ => e2m1
    let q (e : Env) : Nat × List FRes := mxQuantise f .rn false (e.lanes.map fun L => f32.dec (e.r32 w.a L).val)
    let lane (e : Env) (L : Nat) : LaneF :=
      match (e.lanes.zip (q e).2).find? (·.1 == L) with
      | some (_, r) => ⟨BitVec.ofNat 64 ((q e).1 * 256) ||| r.bits, e.lanes.any fun M => (e.r32 w.a M).poison, r.flags⟩
      | none => ⟨0, e.lanes.any fun M => (e.r32 w.a M).poison, 0⟩
    RegResult (.qmx w) w.g (usesV 1 1 0 0 w) 1 w.dst (fun e => quiet e (lane e))
      (fun e L => ⟨(lane e L).val, (lane e L).poison⟩) (fun e L => if (lane e L).poison then 0 else (lane e L).flags.setWidth 32)) ∧
  (∀ (w : WI), let u : Uses := ⟨[(w.a, 4, w.la), (w.b, 4, w.lb)], [], [(w.dst, 1)], [], true⟩
    let us (e : Env) : List Uop := uopsOf 7 (slotWords e.s0 e.g0.core w.imm.toNat)
    let run (e : Env) (L : Nat) : UEl := ((runUops .expr e.eph 0 0 (e.s0.draw 53) (us e) [exprLane e w L]).headD (default, default)).2
    let t0 (e : Env) (L : Nat) : PVal := ((run e L).t[0]?).getD pv0
    RegResult (.expr w) w.g u 1 w.dst
      (fun e => (e.s0.part e.part).hasSlot w.imm.toNat = true ∧ firstBadUop .expr false (us e) = none ∧ quiet e fun L => ⟨(t0 e L).val, (t0 e L).poison, (run e L).flags⟩)
      t0 (fun e L => (if (t0 e L).poison then 0 else (run e L).flags.setWidth 32) ||| (if (run e L).poisonRead then poisonFlag else 0)) ∧
    (∀ s gid slice g a h, Issues (.expr w) w.g u s gid slice g a h → let e := mkEnv s gid g a h w.g u
      ((s.part g.part).hasSlot w.imm.toNat = false → Halts (.expr w) s gid g 0x02 0 0) ∧
      (∀ k, (s.part g.part).hasSlot w.imm.toNat = true → firstBadUop .expr false (us e) = some k → Halts (.expr w) s gid g 0x02 0 (BitVec.ofNat 64 k))))

/-- The number a decoded value stands for. -/
def Sys2Proof.Claims.valueOf (x : ExReal) : ℚ := (if x.neg then -1 else 1) * x.m * 2 ^ x.e
/-- 06 R108, R112: the numbers of a format's precision, under an unbounded exponent range, or with no exponent below the format's. -/
def Sys2Proof.Claims.onGrid (f : Fmt) (bounded : Bool) (z : ℝ) : Prop :=
  ∃ k e : ℤ, |k| < 2 ^ (f.frac + 1) ∧ (bounded = true → f.emin - f.frac ≤ e) ∧ z = k * (2 : ℝ) ^ e
/-- A whole number. -/
def Sys2Proof.Claims.isWhole (z : ℝ) : Prop := ∃ k : ℤ, z = k
/-- 06 R111: y is the one of the numbers in G that a mode rounds x to. Of two that are equally near, the even one is an even multiple of their distance. -/
def Sys2Proof.Claims.Picks (m : Rnd) (G : ℝ → Prop) (x y : ℝ) : Prop :=
  G y ∧ match m with
  | .rn => (∀ z, G z → |x - y| ≤ |x - z|) ∧ ∀ z, G z → z ≠ y → |x - z| = |x - y| → ∃ j : ℤ, y = 2 * j * (y - z)
  | .rz => |y| ≤ |x| ∧ 0 ≤ x * y ∧ ∀ z, G z → |z| ≤ |x| → 0 ≤ x * z → |z| ≤ |y|
  | .ru => x ≤ y ∧ ∀ z, G z → x ≤ z → y ≤ z
  | .rd => y ≤ x ∧ ∀ z, G z → z ≤ x → z ≤ y
  | .rna => (∀ z, G z → |x - y| ≤ |x - z|) ∧ ∀ z, G z → |x - z| = |x - y| → |z| ≤ |y|
  | .sr _ => False
/-- 06 R110, R112: a result is the exact nonzero x rounded to a format, with its flags: beyond the largest finite value infinity or that value; below the smallest normal zero where the format's flush is set; tininess is detected after rounding. -/
def Sys2Proof.Claims.Rounds (f : Fmt) (m : Rnd) (sat fz : Bool) (x : ℝ) (r : FRes) : Prop :=
  ∃ y t top, Picks m (onGrid f true) x y ∧ Picks m (onGrid f false) x t ∧ f.dec (BitVec.ofNat 64 f.maxCode) = .fin top ∧
    let max : ℝ := (valueOf top : ℚ); let normal : ℝ := (2 : ℝ) ^ f.emin; let neg : Bool := decide (r.bits.toNat / 2 ^ (f.width - 1) = 1)
    let toInf : Prop := f.inf = true ∧ sat = false ∧ (m = .rn ∨ m = .rna ∨ (m = .ru ∧ 0 < x) ∨ (m = .rd ∧ x < 0))
    (neg = true ↔ x < 0) ∧ r.bits.toNat < 2 ^ f.width ∧
    (max < |y| → r.flags = fOverflow ||| fInexact ∧ (toInf → r.bits = f.infBits neg) ∧ (¬ toInf → r.bits = f.signed neg f.maxCode)) ∧
    (|y| ≤ max → fz = true ∧ y ≠ 0 ∧ |y| < normal → r = ⟨f.signed neg 0, fUnderflow ||| fInexact⟩) ∧
    (|y| ≤ max → ¬ (fz = true ∧ y ≠ 0 ∧ |y| < normal) → (∃ v, f.dec r.bits = .fin v ∧ ((valueOf v : ℚ) : ℝ) = y) ∧
      ((y = x → r.flags = 0) ∧ (y ≠ x → |t| < normal → r.flags = fInexact ||| fUnderflow) ∧ (y ≠ x → normal ≤ |t| → r.flags = fInexact)))

/-- The values of the arithmetic and of the conversions, special ones and numbers (11 R227, R228, R233; 06 R110 to R112, R126). A NaN operand gives the format's default NaN, with invalid when it signals; ∞ − ∞, 0 × ∞, 0 / 0, ∞ / ∞ and the root of a negative number give the default NaN with invalid; a number over zero gives an infinity with divzero; another infinite operand gives the exact infinite result; a sum of two zeros is +0, or −0 under .rd, and −0 in every mode when both are −0. Every other result of FADD, FMUL, FFMA, FDIV, FSQRT and FSCALEB in the four wide formats is the exact real result rounded, and so is every finite value converted to a format; FRINT and a conversion to an integer give the whole number that the mode rounds to; FLOGB the whole logarithm. What rounding is, `Rounds` says in real numbers, apart from the model's own rounding. -/
def Obligations.FloatSpecialValues : Prop :=
  (∀ (f : Fmt) (m : Rnd) (sat fz : Bool) (a b : DWord),
    (∀ p x, f.dec a = .inf p → f.dec b = .fin x → opAdd f m sat fz a b = ⟨f.infBits p, 0⟩ ∧ opAdd f m sat fz b a = ⟨f.infBits p, 0⟩ ∧ opDiv f m sat fz a b = ⟨f.infBits (p != x.neg), 0⟩ ∧ opDiv f m sat fz b a = ⟨f.signed (x.neg != p) 0, 0⟩ ∧
      (x.m ≠ 0 → opMul f m sat fz a b = ⟨f.infBits (p != x.neg), 0⟩ ∧ opMul f m sat fz b a = ⟨f.infBits (x.neg != p), 0⟩)) ∧
    (∀ p q, f.dec a = .inf p → f.dec b = .inf q → (p = q → opAdd f m sat fz a b = ⟨f.infBits p, 0⟩) ∧ opMul f m sat fz a b = ⟨f.infBits (p != q), 0⟩) ∧
    (f.dec a = .inf false → opSqrt f m sat fz a = ⟨f.infBits false, 0⟩) ∧ (f.dec a = .inf true → opSqrt f m sat fz a = ⟨f.nanBits, fInvalid⟩) ∧
    (∀ q, (f.dec a = .nan q ∨ f.dec b = .nan q) → ∀ r ∈ [opAdd f m sat fz a b, opMul f m sat fz a b, opDiv f m sat fz a b],
      r.bits = f.nanBits ∧ r.flags = if f.dec a = .nan true ∨ f.dec b = .nan true then fInvalid else 0) ∧
    (∀ p, f.dec a = .inf p → f.dec b = .inf (!p) → opAdd f m sat fz a b = ⟨f.nanBits, fInvalid⟩) ∧
    (∀ p q, f.dec a = .inf p → f.dec b = .inf q → opDiv f m sat fz a b = ⟨f.nanBits, fInvalid⟩) ∧
    (∀ p x, f.dec a = .inf p → f.dec b = .fin x → x.m = 0 → opMul f m sat fz a b = ⟨f.nanBits, fInvalid⟩) ∧
    (∀ x y, f.dec a = .fin x → f.dec b = .fin y → x.m = 0 → y.m = 0 → opDiv f m sat fz a b = ⟨f.nanBits, fInvalid⟩) ∧
    (∀ x y, f.dec a = .fin x → f.dec b = .fin y → x.m ≠ 0 → y.m = 0 → opDiv f m sat fz a b = ⟨f.infBits (x.neg != y.neg), fDivzero⟩) ∧
    (∀ x y, f.dec a = .fin x → f.dec b = .fin y → x.m = 0 → y.m = 0 → opAdd f m sat fz a b = ⟨f.signed ((x.neg && y.neg) || m == .rd) 0, 0⟩) ∧
    (∀ x, f.dec a = .fin x → x.m ≠ 0 → x.neg = true → opSqrt f m sat fz a = ⟨f.nanBits, fInvalid⟩)) ∧
  (∀ (f : Fmt) (m : Rnd) (sat fz : Bool) (a b c : DWord) (x y z : ExReal), f ∈ [f16, bf16, f32, f64] → (∀ d, m ≠ .sr d) → f.dec a = .fin x → f.dec b = .fin y → f.dec c = .fin z →
    let X : ℝ := (valueOf x : ℚ); let Y : ℝ := (valueOf y : ℚ); let Z : ℝ := (valueOf z : ℚ)
    (X + Y ≠ 0 → Rounds f m sat fz (X + Y) (opAdd f m sat fz a b)) ∧
    (X + Y = 0 → X ≠ 0 → opAdd f m sat fz a b = ⟨f.signed (m == .rd) 0, 0⟩) ∧
    (X * Y ≠ 0 → Rounds f m sat fz (X * Y) (opMul f m sat fz a b)) ∧
    (X * Y = 0 → opMul f m sat fz a b = ⟨f.signed (x.neg != y.neg) 0, 0⟩) ∧
    (X * Y + Z ≠ 0 → Rounds f m sat fz (X * Y + Z) (opFma f m sat fz a b c)) ∧
    (X * Y + Z = 0 → opFma f m sat fz a b c = ⟨f.signed (m == .rd || (decide (z.m = 0) && (x.neg != y.neg) && z.neg)) 0, 0⟩) ∧
    (X ≠ 0 → Y ≠ 0 → Rounds f m sat fz (X / Y) (opDiv f m sat fz a b)) ∧
    (X = 0 → Y ≠ 0 → opDiv f m sat fz a b = ⟨f.signed (x.neg != y.neg) 0, 0⟩) ∧
    (0 < X → Rounds f m sat fz (Real.sqrt X) (opSqrt f m sat fz a)) ∧ (X = 0 → opSqrt f m sat fz a = ⟨f.signed x.neg 0, 0⟩) ∧
    (∀ n : Word, X ≠ 0 → Rounds f m sat fz (X * (2 : ℝ) ^ n.toInt) (opScaleb f m sat fz a n)) ∧ (∀ n : Word, X = 0 → opScaleb f m sat fz a n = ⟨f.signed x.neg 0, 0⟩) ∧
    (∃ v, f.dec (opRint f m a).bits = .fin v ∧ v.neg = x.neg ∧ Picks m isWhole X ((valueOf v : ℚ) : ℝ) ∧ (opRint f m a).flags = if valueOf v = valueOf x then 0 else fInexact) ∧
    (X ≠ 0 → ∃ v, f.dec (opLogb f a).bits = .fin v ∧ valueOf v = Int.log 2 |valueOf x| ∧ (opLogb f a).flags = 0) ∧ (X = 0 → opLogb f a = ⟨f.infBits true, fDivzero⟩)) ∧
  (∀ (f : Fmt) (m : Rnd) (sat fz : Bool) (x : ExReal), f ∈ [f16, bf16, f32, f64, e4m3, e5m2, e2m3, e3m2, e2m1] → (∀ d, m ≠ .sr d) →
    (x.m ≠ 0 → Rounds f m sat fz ((valueOf x : ℚ) : ℝ) (convTo f m sat fz (.fin x))) ∧ (x.m = 0 → convTo f m sat fz (.fin x) = ⟨f.signed x.neg 0, 0⟩)) ∧
  (∀ (lo hi : Int) (m : Rnd) (x : ExReal), lo ≤ hi → (∀ d, m ≠ .sr d) → ∃ n : ℤ, Picks m isWhole ((valueOf x : ℚ) : ℝ) n ∧
    (n < lo → convInt lo hi m (.fin x) = (lo, fInvalid)) ∧ (hi < n → convInt lo hi m (.fin x) = (hi, fInvalid)) ∧
    (lo ≤ n → n ≤ hi → convInt lo hi m (.fin x) = (n, if (n : ℚ) = valueOf x then 0 else fInexact)))

/-! ## Memory instructions (12 R246 to R263) -/

/-- LD, LDS and LDU count on their counter and will write, when they complete, the bytes at each lane's address (LDU the leader's alone), zero-extended, with the stamp of the page or the line, and poison throughout where an address operand is poisoned (log 26); a mark poisons the words of an aligned 8-byte element together, and a 16-byte load by halves (log 49). A load of the constant space takes, half by half, what memory holds or anything it has held since the launch started (12 R253). Nothing is stored anywhere, and no register has changed yet, the last-result file and the flags among them (08 R153). What is read is stated for a group that is not divided and has performed its accesses (03 R56; log 60): a divided one completes the same way, with its accesses performed now or later. -/
def Obligations.LoadResults : Prop :=
  ∀ (w : WM), let u := usesLoad w; let size : Nat := 2 ^ w.size.toNat; let os := [(w.base, 2), (w.off, 1)]
    ∀ p ∈ ([(.ld w, false, false), (.lds w, true, false), (.ldu w, false, true)] : List (Instr × Bool × Bool)),
    ∀ s gid slice g a h, Issues p.1 w.g u s gid slice g a h →
      let e := mkEnv s gid g a h w.g u; let ls := if p.2.2 then e.lanes.take 1 else e.lanes
      let addr (L : Nat) : DWord := (e.rN w.base 2 L).val + (e.r32 w.off L).w.signExtend 64 + BitVec.ofInt 64 (w.imm.toInt * size)
      let bad (L : Nat) : Bool := (e.rN w.base 2 L).poison || (e.r32 w.off L).poison
      let completes (reads : List (Nat × RegCell) → Prop) : Prop :=
        e.lanes ≠ [] → e.full w.ctr.toNat = false →
        ∃ t g', exec p.1 s = .next t ∧ t.group? gid = some g' ∧ Unwritten e u g' ∧ g'.out = dropVoid w.ctr.toNat (g.out ++ [⟨w.ctr.toNat, s.nextId, false⟩]) ∧
          (Together e → AccessOnly gid g s t s ∧ RegistersOnly g g' ∧ ∃ v ws, g'.vp = g.vp ++ [v] ∧ v.id = s.nextId ∧ v.known = true ∧ reads ws ∧ v.keys = ws.map (·.1) ∧ v.gone = overlaps e g v.keys ∧
            v.writes = ws ++ e.lanes.filterMap (fun L => if bad L then some (keyF L, ⟨poisonFlag, false, 0⟩) else none))
      let cellsOf (cells : Nat → List RegCell) : List (Nat × RegCell) := dstWrites w.data (ls.map fun L => ⟨L, if bad L then (cells L).map fun c => ⟨0, true, c.stamp⟩ else cells L⟩)
      let all (cells : Nat → Nat → RegCell) : List (Nat × RegCell) := cellsOf fun L => (List.range (szWords w.size)).map (cells L)
      (p.2.1 = false → ∀ at_, GlobalAt e ls os size addr .read false at_ → completes fun ws =>
        let pa (L : Nat) : Nat := (at_ L).pas.headD 0
        (w.space ≠ 2#2 → ws = all fun L k => loadedCell (fun j => readByte s (pa L + j)) (fun o n => markedMem s (pa L + o) n) (fun _ => atStamp (at_ L).attr) size k) ∧
        (w.space = 2#2 → ∃ val : Nat → Nat → Nat × Bool, (∀ L ∈ ls, ∀ x ∈ halves size, val L x.1 ∈ constValues s g.lid (pa L + x.1) x.2) ∧
          ws = cellsOf fun L => (halves size).flatMap fun x => halfCells x.2 (val L x.1).1 (val L x.1).2 (atStamp (at_ L).attr))) ∧
      (p.2.1 = true → SpadAt e ls os size addr → completes fun ws =>
        ws = all fun L k => loadedCell (fun j => spadByte s g.part g.core ((addr L).toNat + j)) (fun o n => markedSpad s g.part g.core ((addr L).toNat + o) n)
          (fun o => stampSpad s g.part g.core ((addr L).toNat + o)) size k)

/-- ST, STMC and STS store each acting lane's data at its address: ST on the local copy, STMC on every copy, STS in the partition's scratchpad with stamp 0. A byte that one lane alone stores reads as that lane's data, its word marked as its data is poisoned (two lanes storing in one word leave either mark); every byte outside the stored bytes, every other mark and every other stamp reads as before. No register changes, nor the last-result file, but that a poisoned source sets the poison flag of its lane (08 R153, R157). What is stored is stated for a group that is not divided and has performed its accesses (03 R56; log 60): a divided one completes the same way, with its stores performed now or later. -/
def Obligations.StoreResults : Prop :=
  ∀ (w : WM), let u := usesStore w; let size : Nat := 2 ^ w.size.toNat; let os := [(w.base, 2), (w.off, 1), (w.data, szWords w.size)]
    ∀ p ∈ ([(.st w, false, false), (.sts w, true, false), (.stmc w, false, true)] : List (Instr × Bool × Bool)),
    ∀ s gid slice g a h, Issues p.1 w.g u s gid slice g a h →
      let e := mkEnv s gid g a h w.g u
      let addr (L : Nat) : DWord := (e.rN w.base 2 L).val + (e.r32 w.off L).w.signExtend 64 + BitVec.ofInt 64 (w.imm.toInt * size)
      let completes (stored : State → Prop) (more : State → State) : Prop :=
        ∃ t g', exec p.1 s = .next t ∧ t.group? gid = some g' ∧ FlagsOnly e u (fun L => if L ∈ poisonLanes e os then poisonFlag else 0) g' ∧ g'.out = g.out ∧
          (Together e → AccessOnly gid g s t (more t) ∧ RegistersOnly g g' ∧ g'.vp = g.vp ∧ stored t)
      (p.2.1 = false → ∀ at_, GlobalAt e e.lanes os size addr .write p.2.2 at_ →
        let stores (L b : Nat) : Prop := ∃ pa ∈ (at_ L).pas, pa ≤ b ∧ b < pa + size
        completes (fun t =>
          (∀ b, (∀ L ∈ e.lanes, ¬ stores L b) → readByte t b = readByte s b) ∧
          (∀ b, (∀ L ∈ e.lanes, ∀ c, c / 4 = b / 4 → ¬ stores L c) → markAt t b = markAt s b) ∧
          (∀ L ∈ e.lanes, ∀ pa ∈ (at_ L).pas, ∀ j, j < size →
            ((∀ M ∈ e.lanes, ∀ qa ∈ (at_ M).pas, (M ≠ L ∨ qa ≠ pa) → ¬ (qa ≤ pa + j ∧ pa + j < qa + size)) → readByte t (pa + j) = (storedByte e w.data size L j).1) ∧
            ((∀ M ∈ e.lanes, ∀ qa ∈ (at_ M).pas, (M ≠ L ∨ qa ≠ pa) → ∀ c, c / 4 = (pa + j) / 4 → ¬ (qa ≤ c ∧ c < qa + size)) → (size = 16 → pa % 16 = 0) → markAt t (pa + j) = (storedByte e w.data size L j).2)))
          fun t => { s with mem := t.mem, memPoison := t.memPoison }) ∧
      (p.2.1 = true → SpadAt e e.lanes os size addr →
        let at_ (L j : Nat) : Nat := spadPlace (s.part g.part) g.core ((addr L).toNat + j)
        completes (fun t =>
          (∀ c, (∀ L ∈ e.lanes, ∀ j, j < size → at_ L j ≠ c) → sget c t.spad = sget c s.spad) ∧
          (∀ c, (∀ L ∈ e.lanes, ∀ j, j < size → at_ L j / 4 ≠ c) → sget c t.spadPoison = sget c s.spadPoison) ∧
          (∀ c, (∀ L ∈ e.lanes, ∀ j, j < size → at_ L j / 64 ≠ c) → sget c t.spadStamp = sget c s.spadStamp) ∧
          (∀ L ∈ e.lanes, ∀ j, j < size → sgetD 0 (at_ L j / 64) t.spadStamp = 0 ∧
            ((∀ M ∈ e.lanes, M ≠ L → ∀ k, k < size → at_ M k ≠ at_ L j) → sgetD 0 (at_ L j) t.spad = (storedByte e w.data size L j).1) ∧
            ((∀ M ∈ e.lanes, M ≠ L → ∀ k, k < size → at_ M k / 4 ≠ at_ L j / 4) → sgetD false (at_ L j / 4) t.spadPoison = (storedByte e w.data size L j).2)))
          fun t => { s with spad := t.spad, spadPoison := t.spadPoison, spadStamp := t.spadStamp })

/-- ATOM, ATOMS and RED in local memory and in the scratchpad: in a lane whose word no other acting lane's atomic touches, memory takes op(m, b, compare) little-endian with the poison of the three, and the value that will be returned is the old one with its own poison; every other byte, mark and stamp is as it was, and the line of the scratchpad takes stamp 0. An op returns its old value only with a destination, and then counts on its counter: no register has changed yet, the last-result file and the flags among them; without one a poisoned source sets the poison flag of its lane at once (08 R153, R157). What is written is stated for a group that is not divided and has performed its accesses (03 R56; log 60): a divided one completes the same way. -/
def Obligations.AtomicResults : Prop :=
  ∀ (i : Instr) (gd : Guard) (u : Uses) (spad : Bool) (op : BitVec 4) (base off b : Opd) (dst : Option (Opd × Nat)),
    ((∃ w : WT, (i = .atom w ∧ spad = false ∨ i = .atoms w ∧ spad = true) ∧ gd = w.g ∧ op = w.op ∧ base = w.base ∧ off = w.off ∧ b = w.b ∧
        (dst = if w.data = .z then none else some (w.data, w.ctr.toNat)) ∧
        u = ⟨[(w.b, (if aop64 op then 2 else 1) * (if aopCas op then 2 else 1), w.lb), (w.base, 2, false), (w.off, 1, w.lo)], [], [(w.data, if aop64 op then 2 else 1)], [], false⟩) ∨
     (∃ w : WM, i = .red w ∧ gd = w.g ∧ spad = (w.space == 1#2) ∧ op = w.imm.extractLsb' 4 4 ∧ base = w.base ∧ off = w.off ∧ b = w.data ∧ dst = none ∧
        u = ⟨[(w.data, if aop64 op then 2 else 1, w.ld), (w.base, 2, false), (w.off, 1, w.lo)], [], [], [], true⟩)) →
    ∀ s gid slice g a h, Issues i gd u s gid slice g a h →
      let e := mkEnv s gid g a h gd u
      let n := if aop64 op then 2 else 1; let nb := if aopCas op then 2 * n else n
      let os := [(base, 2), (off, 1), (b, nb)]
      let addr (L : Nat) : DWord := (e.rN base 2 L).val + (e.r32 off L).w.signExtend 64
      let val (L k : Nat) : PVal := if n = 2 then (let c := e.rc b L k; let d := e.rc b L (k + 1); if c.poison || d.poison then ⟨poisonPair, true⟩ else ⟨d.val ++ c.val, false⟩)
        else ⟨(e.rc b L k).get.setWidth 64, (e.rc b L k).poison⟩
      let cmp (L : Nat) : PVal := if aopCas op then val L n else ⟨0, false⟩
      (∀ r, b = .v r → aopCas op = true → r.toNat + nb ≤ g.regs) →
      (∀ d, dst = some d → e.full d.2 = false) → e.lanes ≠ [] →
      let after (L : Nat) (m : PVal) (v : Nat) (p : Bool) : Prop :=
        v = (aopVal op.toNat m.val (val L 0).val (cmp L).val).toNat % 2 ^ (32 * n) ∧ p = (m.poison || (val L 0).poison || (cmp L).poison)
      let completes (written : State → Prop) (old : Nat → PVal) (sole : Nat → Prop) (more : State → State) : Prop :=
        ∃ t g', exec i s = .next t ∧ t.group? gid = some g' ∧
          (dst = none → FlagsOnly e u (fun L => if L ∈ poisonLanes e os then poisonFlag else 0) g' ∧ g'.out = g.out) ∧
          (∀ d, dst = some d → Unwritten e u g' ∧ g'.out = dropVoid d.2 (g.out ++ [⟨d.2, s.nextId, false⟩])) ∧
          (Together e → AccessOnly gid g s t (more t) ∧ RegistersOnly g g' ∧ written t ∧ (dst = none → g'.vp = g.vp) ∧
            (∀ d, dst = some d → ∃ v, g'.vp = g.vp ++ [v] ∧ v.id = s.nextId ∧ v.known = true ∧
              (∀ key, (key ∈ v.keys ↔ ∃ L ∈ e.lanes, (d.1.isS = true → e.leader = some L) ∧ key ∈ opdKeys d.1 n L)) ∧
              (∀ L ∈ e.lanes, (L ∈ poisonLanes e os ↔ (keyF L, (⟨poisonFlag, false, 0⟩ : RegCell)) ∈ v.writes)) ∧
              (∀ L ∈ e.lanes, sole L → (d.1.isS = true → e.leader = some L) → ∀ k key, k < n → opdKey? d.1 L k = some key →
                some ((v.writes.find? (·.1 == key)).getD (0, poisoned)).2 = (resWords n (old L).val (old L).poison)[k]?)))
      (spad = false → ∀ at_, GlobalAt e e.lanes os (4 * n) addr .update false at_ →
        let pa (L : Nat) : Nat := (at_ L).pas.headD 0
        let old (L : Nat) : PVal := ⟨BitVec.ofNat 64 (readMem s (pa L) (4 * n)), markedMem s (pa L) (4 * n)⟩
        let sole (L : Nat) : Prop := pa L % 4 = 0 ∧ ∀ M ∈ e.lanes, M ≠ L → ∀ c, pa M ≤ c → c < pa M + 4 * n → ¬ (pa L / 4 ≤ c / 4 ∧ c / 4 < pa L / 4 + n)
        completes (fun t =>
          (∀ c, (∀ L ∈ e.lanes, ¬ (pa L ≤ c ∧ c < pa L + 4 * n)) → readByte t c = readByte s c) ∧
          (∀ c, (∀ L ∈ e.lanes, ∀ d, d / 4 = c / 4 → ¬ (pa L ≤ d ∧ d < pa L + 4 * n)) → markAt t c = markAt s c) ∧
          (∀ L ∈ e.lanes, sole L → after L (old L) (readMem t (pa L) (4 * n)) (markedMem t (pa L) (4 * n))))
          old sole fun t => { s with mem := t.mem, memPoison := t.memPoison }) ∧
      (spad = true → SpadAt e e.lanes os (4 * n) addr →
        let o (L : Nat) : Nat := (addr L).toNat
        let at_ (L j : Nat) : Nat := spadPlace (s.part g.part) g.core (o L + j)
        let old (L : Nat) : PVal := ⟨BitVec.ofNat 64 (readSpad s g.part g.core (o L) (4 * n)), markedSpad s g.part g.core (o L) (4 * n)⟩
        let sole (L : Nat) : Prop := ∀ M ∈ e.lanes, M ≠ L → ∀ j k, j < 4 * n → k < 4 * n → at_ M k ≠ at_ L j
        completes (fun t =>
          (∀ c, (∀ L ∈ e.lanes, ∀ j, j < 4 * n → at_ L j ≠ c) → sget c t.spad = sget c s.spad) ∧
          (∀ c, (∀ L ∈ e.lanes, ∀ j, j < 4 * n → at_ L j / 4 ≠ c) → sget c t.spadPoison = sget c s.spadPoison) ∧
          (∀ c, (∀ L ∈ e.lanes, ∀ j, j < 4 * n → at_ L j / 64 ≠ c) → sget c t.spadStamp = sget c s.spadStamp) ∧
          (∀ L ∈ e.lanes, stampSpad t g.part g.core (o L) = 0 ∧ (sole L → after L (old L) (readSpad t g.part g.core (o L) (4 * n)) (markedSpad t g.part g.core (o L) (4 * n)))))
          old sole fun t => { s with spad := t.spad, spadPoison := t.spadPoison, spadStamp := t.spadStamp })

/-- 12 R257: what each atomic operation leaves in memory, in numbers: sums modulo the width, signed and unsigned extremes, the bitwise operations, exchange, compare and swap, the increment that wraps at b, and the sums m + b rounded to nearest even, with the special operands of 11 R228 (a NaN gives the default NaN, as unlike infinities do; an infinite operand remains; an exact zero sum is +0, or −0 of two −0). -/
def Obligations.AtomicOperations : Prop :=
  let rounded (f : Fmt) (dflt minus v w r : DWord) : Prop :=
    ((∃ k, f.dec v = .nan k) ∨ (∃ k, f.dec w = .nan k) → r = dflt) ∧ (∀ p q, f.dec v = .inf p → f.dec w = .inf q → r = if p = q then v else dflt) ∧
    (∀ p q, f.dec v = .inf p → f.dec w = .fin q → r = v) ∧ (∀ p q, f.dec v = .fin p → f.dec w = .inf q → r = w) ∧
    (∀ p q, f.dec v = .fin p → f.dec w = .fin q → ((exAdd p q).m ≠ 0 → r = (roundTo f .rn false false (exAdd p q)).bits) ∧ ((exAdd p q).m = 0 → r = if v = minus ∧ w = minus then minus else 0))
  ∀ (m b c : DWord), let x := m.toNat % 2 ^ 32; let y := b.toNat % 2 ^ 32
    let sx := (BitVec.ofNat 32 x).toInt; let sy := (BitVec.ofNat 32 y).toInt
    (aopVal 0x0 m b c).toNat = (x + y) % 2 ^ 32 ∧
    ((aopVal 0x1 m b c).setWidth 32 : Word).toInt = min sx sy ∧ ((aopVal 0x2 m b c).setWidth 32 : Word).toInt = max sx sy ∧
    (aopVal 0x3 m b c).toNat = min x y ∧ (aopVal 0x4 m b c).toNat = max x y ∧
    (aopVal 0x5 m b c).toNat = x &&& y ∧ (aopVal 0x6 m b c).toNat = x ||| y ∧ (aopVal 0x7 m b c).toNat = x ^^^ y ∧
    (aopVal 0x8 m b c).toNat = y ∧ (aopVal 0x9 m b c).toNat = (if x = c.toNat % 2 ^ 32 then y else x) ∧
    (aopVal 0xB m b c).toNat = (if y ≤ x then 0 else x + 1) ∧
    (aopVal 0xC m b c).toNat = (m.toNat + b.toNat) % 2 ^ 64 ∧ aopVal 0xD m b c = b ∧ aopVal 0xE m b c = (if m = c then b else m) ∧
    rounded f32 0x7FC00000 0x80000000 (BitVec.ofNat 64 x) (BitVec.ofNat 64 y) (aopVal 0xA m b c) ∧ rounded f64 0x7FF8000000000000 0x8000000000000000 m b (aopVal 0xF m b c)

/-- The checks 2 to 6 of 12 R249 of one instruction that accesses, over the lanes that access and in their order; `room` says that its counter takes it. -/
def Sys2Proof.Claims.ChecksInOrder (i : Instr) (gd : Guard) (u : Uses) (spad one : Bool) (k : Acc) (all : Bool) (os : List (Opd × Nat)) (size : Nat) (addr : Env → Nat → DWord) (room : Env → Prop) : Prop :=
  ∀ s gid slice g a h, Issues i gd u s gid slice g a h →
    let e := mkEnv s gid g a h gd u; let ls := if one then e.lanes.take 1 else e.lanes
    let look (L : Nat) : Look := lookVa s g.core g.ctx (addr e L) k e.sys all
    let stops (cause detail : Nat) (bad : List Nat) : Prop := HaltsIn i s gid g cause detail (addr e (bad.headD 0)) (lanesMask bad)
    room e →
    (poisonLanes e os ≠ [] → e.sr.trapPoison = true → exec i s = .next (issueTrap gid slice 0x08 (lanesMask (poisonLanes e os)) 0 s).bump) ∧
    (poisonLanes e os = [] ∨ e.sr.trapPoison = false →
      let mis := ls.filter fun L => (addr e L).toNat % size != 0
      let far := ls.filter fun L => (addr e L).extractLsb' 57 7 != 0
      let past := ls.filter fun L => (addr e L).toNat + size > (s.part g.part).spadSize g.core
      (mis ≠ [] → stops 0x22 0 mis) ∧
      (mis = [] → spad = true → past ≠ [] → stops 0x28 0 past) ∧
      (mis = [] → spad = false → far ≠ [] → stops 0x20 0 far) ∧
      -- where a lane fails here, the leave of the lanes that reach another device has been asked, and answered
      (mis = [] → spad = false → far = [] → (∀ L ∈ ls, look L ≠ .miss) → (∃ L ∈ ls, look L = .perm ∨ ∃ d, look L = .trans d) →
        let leave (L : Nat) (x : Where) : Option RemoteResp :=
          (g.remote.find? fun r => r.hdr == a.pc && r.idx == a.idx && r.lane == 100 + L && r.slice == L / 4 && r.req == ⟨0, g.part, x.node - 1, x.pas.headD 0, 3, size, 0, [], []⟩).bind (·.resp)
        (∀ L ∈ ls, ∀ x, look L = .at_ x → x.node ≠ 0 → leave L x ≠ none) →
        let noTrans := ls.filter fun L => match look L with | .trans _ => true | .at_ x => x.node != 0 && leave L x == some .undeliverable | _ => false
        let noPerm := ls.filter fun L => match look L with | .perm => true | .at_ x => x.node != 0 && leave L x == some .refused | _ => false
        (noTrans ≠ [] → stops 0x20 (match look (noTrans.headD 0) with | .trans d => d | _ => 0) noTrans) ∧
        (noTrans = [] → noPerm ≠ [] → stops 0x21 0 noPerm)))

/-- The checks of 12 R249, each over all lanes that access and in their order, for every load, store and atomic: a poisoned operand that traps; an address that is no multiple of the size; an address outside the space; no translation; no permission. The context halts, or the trap is taken, with the failing lanes and the address of the lowest of them (log 25); nothing is committed. Where a lane fails its check 5 or 6 here and another reaches another device, the leave of that device is asked first, and its refusals count among the failing lanes (log 61). -/
def Obligations.MemoryChecks : Prop :=
  (∀ (w : WM), let size : Nat := 2 ^ w.size.toNat
    let addr (e : Env) (L : Nat) : DWord := (e.rN w.base 2 L).val + (e.r32 w.off L).w.signExtend 64 + BitVec.ofInt 64 (w.imm.toInt * size)
    let ro := [(w.base, 2), (w.off, 1)]; let rw := [(w.base, 2), (w.off, 1), (w.data, szWords w.size)]
    (∀ p ∈ ([(.ld w, false, false), (.lds w, true, false), (.ldu w, false, true)] : List (Instr × Bool × Bool)),
      ChecksInOrder p.1 w.g (usesLoad w) p.2.1 p.2.2 .read false ro size addr fun e => e.full w.ctr.toNat = false) ∧
    (∀ p ∈ ([(.st w, false, false), (.sts w, true, false), (.stmc w, false, true)] : List (Instr × Bool × Bool)),
      ChecksInOrder p.1 w.g (usesStore w) p.2.1 false .write p.2.2 rw size addr fun _ => True)) ∧
  (∀ (w : WT), let n := if aop64 w.op then 2 else 1; let nb := if aopCas w.op then 2 * n else n
    ∀ p ∈ ([(.atom w, false), (.atoms w, true)] : List (Instr × Bool)),
      ChecksInOrder p.1 w.g ⟨[(w.b, nb, w.lb), (w.base, 2, false), (w.off, 1, w.lo)], [], [(w.data, n)], [], false⟩ p.2 false .update false [(w.base, 2), (w.off, 1), (w.b, nb)] (4 * n)
        (fun e L => (e.rN w.base 2 L).val + (e.r32 w.off L).w.signExtend 64) fun e => w.data ≠ .z → e.full w.ctr.toNat = false) ∧
  (∀ (w : WM), let n := if aop64 (w.imm.extractLsb' 4 4) then 2 else 1
    ChecksInOrder (.red w) w.g ⟨[(w.data, n, w.ld), (w.base, 2, false), (w.off, 1, w.lo)], [], [], [], true⟩ (w.space == 1#2) false .update false [(w.base, 2), (w.off, 1), (w.data, n)] (4 * n)
      (fun e L => (e.rN w.base 2 L).val + (e.r32 w.off L).w.signExtend 64) fun _ => True)

/-- FENCE and IFENCE order and change no value; in a model that makes every access whole and in one order (log entry 4) they complete at once. The cores within the scope of an IFENCE drop the instruction words that they held, and no other core does (22 R388): the issuing core; at .clu those of its cluster; at .die those of its die; at .dev and beyond all. A fetch there then reads a word as it stands. When a lane of a FENCE or an IFENCE acts, what the gang's side has accessed and not performed yet, and what a reconvergence or an acquire has put before it, has been performed, but for the stores before a FENCE.acq of their own side (03 R54, R65; log 60). CCTL, PREF and EVICT change no value that any agent reads: memory, its marks, the scratchpad and every register stay (but a CCTL's poison flag and last use); a lane whose address does not translate or is not permitted does nothing. They wait while an address has no lookaside entry (DESIGN CHOICE, log entry 27). -/
def Obligations.FencesAndCacheControl : Prop :=
  (∀ (w : WM), Quiet (.fence w) w.g .none (fun _ => True)) ∧
  (∀ (w : WM) s gid slice g a h, Issues (.ifence w) w.g .none s gid slice g a h → let e := mkEnv s gid g a h w.g .none
    let mates (c : Nat) : Prop := ∃ l v, sget g.lid s.launches = some l ∧ l.map[v]? = some c ∧ v % l.rec_.w / 2 ^ l.rec_.lcw = g.cx / 2 ^ l.rec_.lcw ∧ v / l.rec_.w / 2 ^ l.rec_.lch = g.cy / 2 ^ l.rec_.lch
    let within (c : Nat) : Prop := match w.scope.toNat with | 0 | 1 => c = g.core | 2 => c = g.core ∨ mates c | 3 => dieOf c = dieOf g.core | _ => True
    ∃ t g', exec (.ifence w) s = .next t ∧ t.group? gid = some g' ∧ AccessOnly gid g s t { s with dropped := t.dropped } ∧ t.cache = s.cache ∧ RegistersOnly g g' ∧ (∀ key, g'.cellAt key = g.cellAt key) ∧ g'.vp = g.vp ∧ g'.out = g.out ∧
      (e.lanes = [] → t.dropped = s.dropped) ∧
      (e.lanes ≠ [] → ∀ c, c < 64 → (∀ x, sgetD 0 (64 + x) t.dropped = sgetD 0 (64 + x) s.dropped) ∧ (¬ within c → sgetD 0 c t.dropped = sgetD 0 c s.dropped) ∧
        (within c → sgetD 0 c t.dropped = s.turn ∧
          ∀ x pa, (∀ p ∈ s.past, p.upTo ≤ s.turn) → markedMem s pa 8 = false → fetchLocal t c x pa = BitVec.ofNat 64 (readMem s pa 8)))) ∧
  (∀ (w : WM), ∀ i ∈ ([.fence w, .ifence w] : List Instr), ∀ s gid slice g a, s.group? gid = some g → g.gang? slice = some a → (actingLanes s g a w.g).1 ≠ [] →
    ∃ g', (readyLate (lateRule i) w.g gid slice s).group? gid = some g' ∧
      ∀ x ∈ g'.late, x.ord &&& g.activeMask a.slices = 0 ∧ (x.mask &&& g.activeMask a.slices ≠ 0 → i = .fence w ∧ w.order = 2#2 ∧ x.kind = 1)) ∧
  (∀ (w : WM), let u : Uses := ⟨[(w.base, 2, false), (w.off, 1, w.lo)], [], [], [], true⟩; let v : Uses := ⟨[(w.base, 2, false), (w.off, 1, false)], [], [], [], true⟩
    (∀ s gid slice g a h, Issues (.cctl w) w.g u s gid slice g a h →
      let e := mkEnv s gid g a h w.g u
      poisonLanes e [(w.base, 2), (w.off, 1)] = [] ∨ e.sr.trapPoison = false →
      (∀ L ∈ e.lanes, lookVa s g.core g.ctx ((e.rN w.base 2 L).val + (e.r32 w.off L).w.signExtend 64) .read e.sys false ≠ .miss) →
      ∃ t g', exec (.cctl w) s = .next t ∧ t.group? gid = some g' ∧ AccessOnly gid g s t { s with lookups := t.lookups } ∧ (∀ x ∈ t.lookups, x ∈ s.lookups) ∧ RegistersOnly g g' ∧
        FlagsOnly e u (fun L => if L ∈ poisonLanes e [(w.base, 2), (w.off, 1)] then poisonFlag else 0) g' ∧ g'.vp = g.vp ∧ g'.out = g.out) ∧
    (∀ i ∈ ([.pref w, .evict w] : List Instr), ∀ s gid slice g a h, Issues i w.g v s gid slice g a h → let e := mkEnv s gid g a h w.g v
      let look (L : Nat) : Look := lookVa s g.core g.ctx ((e.rN w.base 2 L).val + (e.r32 w.off L).w.signExtend 64 + BitVec.ofInt 64 (w.imm.toInt * 2 ^ min w.size.toNat 4)) .read e.sys false
      ((∃ L ∈ e.lanes, look L = .miss) → ∃ t, exec i s = .next t ∧ t.group? gid = some g ∧ t = { s with lookups := t.lookups, nextId := t.nextId }) ∧
      ((∀ L ∈ e.lanes, look L ≠ .miss) →
      ∃ t g', exec i s = .next t ∧ t.group? gid = some g' ∧ AccessOnly gid g s t { s with lookups := t.lookups } ∧ (∀ x ∈ t.lookups, x ∈ s.lookups) ∧ RegistersOnly g g' ∧ (∀ key, g'.cellAt key = g.cellAt key) ∧ g'.vp = g.vp ∧ g'.out = g.out)))


/-! ## Messages between cores (04 R84 to R90; 12 R264, R265) -/

/-- MSGPUT with a credit sets the leader's 64 bytes out to the queue and uses the credit; .try then writes true in every acting lane. Without one nothing is sent and it asks for credits: a line of the core's sixteen that has not asked sends one request, a target without a line takes a free one and does the same, and one beyond the sixteenth waits for CREDIT_RETURN (04 R87); that a new line counts as used when it is made and that a failed try is no use of it, and that each partition has its own lines on a core, is the model's (DESIGN CHOICE, log 59); .try writes false, MSGPUT stays at its instruction, its gang held until credits come (21 R374). An illegal target or predicate number is ILLEGAL_OPERAND, the number whatever lanes act; with no acting lane the instruction does nothing. No other group, memory, register or engine changes, nor the last-result file (08 R153). -/
def Obligations.MessageSends : Prop :=
  ∀ (w : WA), let try_ := w.mod.getLsbD 0; let n := (w.imm.extractLsb' 0 4).toNat
    let os := [(w.opnd, 1), (w.base, 16)]
    let u : Uses := ⟨[(w.opnd, 1, false), (w.base, 16, false)], [], [], if try_ then [n] else [], true⟩
    ∀ s gid slice g a h, Issues (.msgput w) w.g u s gid slice g a h → let e := mkEnv s gid g a h w.g u
      (e.lanes = [] → (Instr.msgput w).ownOk = false → Halts (.msgput w) s gid g 0x02 0 0) ∧
      (e.lanes = [] → (Instr.msgput w).ownOk = true → ∃ t g', exec (.msgput w) s = .next t ∧ t.group? gid = some g' ∧ GroupOnly gid g s t ∧ RegistersOnly g g' ∧ ∀ key, g'.cellAt key = g.cellAt key) ∧
      ∀ L, e.leader = some L →
      (poisonLanes e os ≠ [] → e.sr.trapPoison = true → exec (.msgput w) s = .next (issueTrap gid slice 0x08 (lanesMask (poisonLanes e os)) 0 s).bump) ∧
      (poisonLanes e os = [] ∨ e.sr.trapPoison = false →
      let t := (e.r32 w.opnd L).w.toNat; let q := t % 4; let x := t / 4 % 256; let y := t / 1024 % 256
      ((Instr.msgput w).ownOk = false ∨ t / 2 ^ 18 ≠ 0 ∨ coreAt s g x y = none → Halts (.msgput w) s gid g 0x02 0 0) ∧
      (∀ core, (Instr.msgput w).ownOk = true → t / 2 ^ 18 = 0 → coreAt s g x y = some core →
        let ls := s.lines g.part g.core
        let regs (g' : Group) (v : Word) : Prop := RegistersOnly g g' ∧ (∀ key, key ∉ touched e u → g'.cellAt key = g.cellAt key) ∧ LastKept e g' ∧
          FlagsSet e (fun L => if L ∈ poisonLanes e os then poisonFlag else 0) g' ∧ g'.vp = g.vp ∧ g'.out = g.out ∧ (try_ = true → n ≠ 15 → ∀ M ∈ e.lanes, g'.cellAt (keyP M n) = ⟨v, false, 0⟩)
        let otherLines (t : State) : Prop := (∀ core' q', (core' ≠ core ∨ q' ≠ q) → lineOf core' q' (t.lines g.part g.core) = lineOf core' q' ls) ∧
          ∀ p c, p * 64 + c ≠ g.part * 64 + g.core → t.lines p c = s.lines p c
        (∀ c, lineOf core q ls = some c → c.count ≠ 0 →
          let data := (List.range 16).map fun k => (⟨(e.rc w.base L k).get, (e.rc w.base L k).poison⟩ : PWord)
          ∃ t g', exec (.msgput w) s = .next t ∧ t.group? gid = some g' ∧
            AccessOnly gid g s t { s with msgs := sset s.nextId (.append g.part gid core q c.void data) s.msgs, credits := t.credits } ∧
            lineOf core q (t.lines g.part g.core) = some { c with count := c.count - 1, used := s.clk } ∧ otherLines t ∧ regs g' 1) ∧
        ((∀ c, lineOf core q ls = some c → c.count = 0) →
          let asked (t : State) : Prop := let now := lineOf core q (t.lines g.part g.core)
            let sent : Prop := t.msgs = sset s.nextId (.request g.part g.core core q) s.msgs
            (∀ c, lineOf core q (ls.take 16) = some c → c.asked = false → sent ∧ now = some { c with asked := true }) ∧
            (lineOf core q ls = none → ls.length < 16 → sent ∧ now = some ⟨core, q, 0, false, true, s.clk⟩) ∧
            (lineOf core q ls = none → 16 ≤ ls.length → t.msgs = s.msgs ∧ now = some ⟨core, q, 0, false, false, s.clk⟩) ∧
            (∀ c, lineOf core q ls = some c → (c.asked = true ∨ lineOf core q (ls.take 16) = none) → t.msgs = s.msgs ∧ now = some c)
          ∃ t g', exec (.msgput w) s = .next t ∧ t.group? gid = some g' ∧ asked t ∧ otherLines t ∧
            (try_ = false → g' = g.updGang (a.slices.headD 0) (fun b => { b with hold := .credit core q, stream := none }) ∧
              t = { s with groups := t.groups, credits := t.credits, msgs := t.msgs, nextId := t.nextId } ∧ ∀ j, j ≠ gid → t.group? j = s.group? j) ∧
            (try_ = true → AccessOnly gid g s t { s with msgs := t.msgs, credits := t.credits } ∧ regs g' 0))))

/-- MSGTAKE takes the entry at HEAD of a queue of its core that is enabled and holds one: HEAD advances by one, and its 16 words will enter the registers of every acting lane, its predicate true; from another queue it takes nothing and the predicate will be false. The freed entry is granted to the oldest held request, in a credit message of at most four entries that reserves them, or stays unreserved where none is held (04 R87). No register has changed yet, the last-result file and the flags among them (08 R153). -/
def Obligations.MessageTakes : Prop :=
  ∀ (w : WA), let q := (w.imm.extractLsb' 0 2).toNat; let n := (w.imm.extractLsb' 2 4).toNat; let ctr := if w.mod.getLsbD 8 then 1 else 0
    let u : Uses := ⟨[], [], [(w.opnd, 16)], [n], false⟩
    ∀ s gid slice g a h, Issues (.msgtake w) w.g u s gid slice g a h → let e := mkEnv s gid g a h w.g u
      e.lanes ≠ [] → e.full ctr = false →
      let m := e.mqSeen q
      let base := (m.cfg.toNat % 2048) * 4096 + 64 * (m.ptr.toNat % 2 ^ 16 % 2 ^ (m.cfg.toNat / 2 ^ 16 % 16))
      let word (k : Nat) : RegCell := cell (BitVec.ofNat 32 (readSpad s g.part g.core (base + 4 * k) 4)) (markedSpad s g.part g.core (base + 4 * k) 4)
      let preds (v : Bool) : List (Nat × RegCell) := if n = 15 then [] else e.lanes.map fun L => (keyP L n, ⟨if v then 1 else 0, false, 0⟩)
      ∃ t g' v, exec (.msgtake w) s = .next t ∧ t.group? gid = some g' ∧ AccessOnly gid g s t { s with mqs := t.mqs, msgs := t.msgs } ∧ RegistersOnly g g' ∧ Unwritten e u g' ∧
        g'.vp = g.vp ++ [v] ∧ v.known = true ∧ v.keys = v.writes.map (·.1) ∧ v.gone = overlaps e g v.keys ∧ g'.out = dropVoid ctr (g.out ++ [⟨ctr, v.id, false⟩]) ∧ (∀ b, readByte t b = readByte s b) ∧ t.spad = s.spad ∧
        (m.en = true ∧ m.head ≠ m.tail → v.writes = dstWrites w.opnd (e.lanes.map fun L => ⟨L, (List.range 16).map word⟩) ++ preds true ∧
          (t.mq g.part g.core q).head = m.head + 1 ∧ (t.mq g.part g.core q).tail = m.tail ∧ (t.mq g.part g.core q).cfg = (s.mq g.part g.core q).cfg ∧
          let m1 : MsgQ := { s.mq g.part g.core q with ptr := m.tail ++ (m.head + 1) }; let free := 2 ^ cfgLg m1.cfg - m1.entries - m1.reserved
          (m1.held = [] ∨ m1.en = false ∨ free = 0 → t.msgs = s.msgs ∧ t.mq g.part g.core q = m1) ∧
          (∀ src rest, m1.held = src :: rest → m1.en = true → free ≠ 0 → sget s.nextId t.msgs = some (.grant g.part src g.core q (min 4 free) false) ∧
            (free = 1 → t.msgs = sset s.nextId (.grant g.part src g.core q 1 false) s.msgs ∧ t.mq g.part g.core q = { m1 with reserved := m1.reserved + 1, held := rest })) ∧
          (∀ core' q', (core' ≠ g.core ∨ q' ≠ q) → q' < 4 → core' < 64 → t.mq g.part core' q' = s.mq g.part core' q')) ∧
        (m.en = false ∨ m.head = m.tail → v.writes = preds false ∧ t.mqs = s.mqs ∧ t.msgs = s.msgs)

/-- MSGPUT_APPEND, with no older append of its group to its queue under way: an enabled queue takes the 64 bytes at TAIL, TAIL advances and the reserved entry is used; a disabled queue or a void credit sets DROP; while a context of the partition is being killed the bytes are discarded. No task entry changes but where SIG names one of the partition's range (log 59). -/
def Obligations.MessageArrives : Prop :=
  ∀ (s : State) (msg part gid core q : Nat) (v : Bool) (data : List PWord), sget msg s.msgs = some (.append part gid core q v data) →
    (∀ p ∈ s.msgs, p.1 < msg → ∀ v' d', p.2 ≠ .append part gid core q v' d') →
    let m := s.mq part core q; let at_ := (m.cfg.toNat % 2048) * 4096 + 64 * (m.tail.toNat % 2 ^ (m.cfg.toNat / 2 ^ 16 % 16))
    ∃ t, exec (.msgputAppend msg) s = .next t ∧ (∀ b, readByte t b = readByte s b) ∧ t.groups = s.groups ∧ (partKilling s part = false → sget msg t.msgs = none) ∧
      (m.en = false ∨ v = true ∨ m.sig = false ∨ partKilling s part = true ∨ (s.part part).hasTask m.task = false → t.tasks = s.tasks) ∧
      (partKilling s part = false → m.en = true → v = false → m.sig = true → (s.part part).hasTask m.task = true → t.tasks = (signalTask core m.task s).tasks) ∧
      (partKilling s part = true → t.spad = s.spad ∧ (t.mq part core q).ptr = m.ptr) ∧
      (partKilling s part = false → m.en = false ∨ v = true → t.spad = s.spad ∧ (t.mq part core q).ptr = m.ptr ∧ (t.mq part core q).cfg = m.cfg ||| 0x8000) ∧
      (partKilling s part = false → m.en = true → v = false → data.length = 16 →
        (t.mq part core q).head = m.head ∧ (t.mq part core q).tail = m.tail + 1 ∧ (t.mq part core q).cfg = m.cfg ∧ (t.mq part core q).reserved = m.reserved - 1 ∧
        (∀ k w, data[k]? = some w → readSpad t part core (at_ + 4 * k) 4 = w.val.toNat ∧ markedSpad t part core (at_ + 4 * k) 4 = w.poison) ∧
        (∀ c, (∀ j, j < 64 → spadPlace (s.part part) core (at_ + j) ≠ c) → sget c t.spad = sget c s.spad))

/-- CREDIT_REQUEST, CREDIT_GRANT and CREDIT_RETURN complete in every state in which there is something for them to do (04 R87, R88). CREDIT_REQUEST takes the request: a disabled queue grants four void credits at once; an enabled one with free entries that no credit reserves and no older request held grants at most four and reserves them; one without free entries holds the request, one per sending core. CREDIT_GRANT adds the credits to the line that asked among the core's sixteen, and the gangs that wait for it may try again; where that line has been given up since, the credits go back. CREDIT_RETURN, where a core needs a seventeenth line, drops the least recently used of its sixteen (what counts as a use: DESIGN CHOICE, log 59), gives its reservation back, and the line that waited asks. -/
def Obligations.CreditMessages : Prop :=
  (∀ (s : State) (msg part src core q : Nat), sget msg s.msgs = some (.request part src core q) → msg < s.nextId → let m := s.mq part core q
    ∃ t, exec (.creditRequest msg) s = .next t ∧ sget msg t.msgs = none ∧ t.groups = s.groups ∧ t.credits = s.credits ∧ (∀ b, readByte t b = readByte s b) ∧
      (t.mq part core q).cfg = m.cfg ∧ (t.mq part core q).ptr = m.ptr ∧
      (m.en = false → sget s.nextId t.msgs = some (.grant part src core q 4 true) ∧ t.mq part core q = m) ∧
      (m.en = true → m.held = [] → let n := min 4 (2 ^ cfgLg m.cfg - m.entries - m.reserved)
        n ≠ 0 → sget s.nextId t.msgs = some (.grant part src core q n false) ∧ t.mq part core q = { m with reserved := m.reserved + n }) ∧
      (m.en = true → 2 ^ cfgLg m.cfg ≤ m.entries + m.reserved → src ∉ m.held → t.mq part core q = { m with held := m.held ++ [src] }) ∧
      (m.en = true → src ∈ m.held → t.mq part core q = m)) ∧
  (∀ (s : State) (msg part src core q n : Nat) (v : Bool), sget msg s.msgs = some (.grant part src core q n v) → msg < s.nextId → let m := s.mq part core q
    ∃ t, exec (.creditGrant msg) s = .next t ∧ sget msg t.msgs = none ∧ (∀ b, readByte t b = readByte s b) ∧
      (∀ c, lineOf core q ((s.lines part src).take 16) = some c → c.asked = true →
        lineOf core q (t.lines part src) = some { c with count := c.count + n, void := v, asked := false } ∧ t.mqs = s.mqs ∧
        ∀ gid g, s.group? gid = some g → ∃ g', t.group? gid = some g' ∧ g' = { g with gangs := g'.gangs } ∧
          g'.gangs = if g.part = part ∧ g.core = src then g.gangs.map fun a => if a.hold = .credit core q then { a with hold := .free, since := s.clk } else a else g.gangs) ∧
      ((∀ c, lineOf core q ((s.lines part src).take 16) = some c → c.asked = false) → t.credits = s.credits ∧ t.groups = s.groups ∧
        (v = true → t.mqs = s.mqs) ∧ (v = false → m.held = [] → t.mq part core q = { m with reserved := m.reserved - n }))) ∧
  (∀ (s : State) (part core : Nat), let ls := s.lines part core
    (ls.length ≤ 16 → exec (.creditReturn part core) s = .next s) ∧
    (16 < ls.length → (∀ (i j : Nat) (c d : Credit), ls[i]? = some c → ls[j]? = some d → c.core = d.core → c.q = d.q → i = j) →
      ∃ t c, exec (.creditReturn part core) s = .next t ∧ c ∈ ls.take 16 ∧ (∀ d ∈ ls.take 16, c.used ≤ d.used) ∧
        lineOf c.core c.q (t.lines part core) = none ∧ (t.lines part core).length = ls.length - 1 ∧ (∀ b, readByte t b = readByte s b) ∧
        (∀ d ∈ ls.take 16, (d.core ≠ c.core ∨ d.q ≠ c.q) → lineOf d.core d.q (t.lines part core) = some d) ∧
        (∀ n, ls[16]? = some n → n.asked = false → lineOf n.core n.q (t.lines part core) = some { n with asked := true }) ∧
        (c.void = true → t.mqs = s.mqs) ∧
        (c.void = false → (s.mq part c.core c.q).held = [] → (t.mq part c.core c.q).reserved = (s.mq part c.core c.q).reserved - c.count)))

/-! ## The matrix unit (14 R267 to R288; 15 R289 to R310; 18 R314 to R327) -/

/-- MLOOP, MCONV, DRAIN, EPLOAD and the tile instructions, once their checks pass, join the queue of their quadrant with every operand as read at issue; MLOOP, MCONV, MLDA, MSTA, DRAIN and EPLOAD count on wm, ACCRD on w0 or w1 with its registers pending, the others on none. No register has changed yet, the last-result file among them (08 R153), but the poison flag of lanes that read a poisoned register (08 R157; 14 R278). ACCWR.64 poisons both words of an element when either register is poisoned (06 R129). A field that breaks the rule of MZERO or PVAPPLY (an odd tile of a pair) stops with ILLEGAL_OPERAND. -/
def Obligations.MatrixOperationsJoin : Prop :=
  let clean (e : Env) (o : Opd) (n : Nat) : Prop := (e.sregs o n).2 = false ∨ e.sr.trapPoison = false
  let sel (e : Env) (slot : BitVec 8) (row : Nat) : Prop :=
    if slot.getLsbD 7 then (let c := e.rc (.s (slot.extractLsb' 0 7)) 0 0; (c.poison = false ∨ e.sr.trapPoison = false) ∧ row = c.get.toNat ∧ row < 64) else row = slot.toNat % 64
  let mark (b : Bool) : Word := if b then poisonFlag else 0
  let selFl (e : Env) (slot : BitVec 8) : Bool := slot.getLsbD 7 && (e.rc (.s (slot.extractLsb' 0 7)) 0 0).poison
  let selU (slot : BitVec 8) : List (Opd × Nat × Bool) := if slot.getLsbD 7 then [(.s (slot.extractLsb' 0 7), 1, false)] else []
  ∀ (w : WX), let fa := w.fa.toNat; let fb := w.fb.toNat; let T := w.t.toNat; let wide := w.mod.getLsbD 0; let H := if w.mod.getLsbD 1 then 1 else 0
    (∀ (conv : Bool), let sa := w.mod.getLsbD 0; let sb := w.mod.getLsbD 1; let nodrain := w.mod.getLsbD 2; let n := if conv || sa || sb then 16 else 8
      let ta := if w.fromAcc then some w.ta.toNat else none; let ra : Int := rowAlign fa; let rb : Int := rowAlign fb
      Joins (if conv then .mconv w else .mloop w) w.g ⟨[(w.base, n, false)], [], [], [], true⟩
        (fun e => let d := (e.sregs w.base n).1; let l := loopDesc d; let prog := slotWords e.s0 e.g0.core w.slot.toNat
          clean e w.base n ∧ ownLoop conv w = true ∧ loopFields conv w d = true ∧ e.g0.ownsTile (fa == 0) T = true ∧ (w.fromAcc = true → e.g0.ownsTile false w.ta.toNat = true) ∧
          (nodrain = false → e.g0.ownsTile false w.x.toNat = true ∧ (e.s0.part e.part).hasSlot w.slot.toNat = true ∧ firstBadUop (drainKind (tileKind fa)) (e.g0.ownsTile (fa == 0) w.x.toNat) (uopsOf 16 prog) = none ∧ l.dpb.toNat % 64 = 0) ∧
          (l.bbase : Int) % rb = 0 ∧ l.binc % rb = 0 ∧ (l.bpitch : Int) % rb = 0 ∧
          (w.fromAcc = false → (l.abase : Int) % ra = 0 ∧ l.ainc % ra = 0 ∧ ((if conv then (shapeOf d).pitch else l.apitch : Nat) : Int) % ra = 0) ∧
          (sa = true → matAsym fa = true → l.aside % 4 = 0 ∧ l.asinc % 4 = 0) ∧ (sb = true → matAsym fb = true → l.bside % 4 = 0 ∧ l.bsinc % 4 = 0) ∧
          (∀ k i, k < loopSteps conv fa d → i < 64 → ∀ x ∈ loopSpans conv fa fb ta sa sb d k i, 0 ≤ x.1 ∧ x.1 + x.2 ≤ ((e.s0.part e.part).spadSize e.g0.core : Int)) ∧
          ((loopStamps e conv fa fb ta sa sb d).1 = none ∨ e.sr.trapCmix = false))
        (fun e _ => mark (e.sregs w.base n).2) (some 2)
        (fun e _ => .loop conv T w.x.toNat w.slot.toNat (w.p.toNat + 1) fa fb ta sa sb nodrain (e.sregs w.base n).1 (if nodrain then [] else slotWords e.s0 e.g0.core w.slot.toNat))
        (fun _ _ => [])) ∧
    Joins (.mzero w) w.g .none (fun e => tilePair wide w.t = true ∧ e.g0.ownsTile wide T = true) (fun _ _ => 0) none (fun _ _ => .mzero T wide) (fun _ _ => []) ∧
    (let ok (e : Env) : Prop := let off := (wordAt (e.sregs w.base 2).1 0).toNat; let p := (wordAt (e.sregs w.base 2).1 1).toNat
        clean e w.base 2 ∧ e.g0.ownsTile false T = true ∧ off < 2 ^ 23 ∧ 16 ≤ p ∧ p < 65536 ∧ p % 4 = 0 ∧ off % 64 = 0 ∧ off + 63 * p * 16 + 256 ≤ (e.s0.part e.part).spadSize e.g0.core
      let off (e : Env) := (wordAt (e.sregs w.base 2).1 0).toNat; let pitch (e : Env) := (wordAt (e.sregs w.base 2).1 1).toNat * 16
      Joins (.mlda w) w.g ⟨[(w.base, 2, false)], [], [], [], true⟩ ok (fun e _ => mark (e.sregs w.base 2).2) (some 2) (fun e _ => .mlda T (off e) (pitch e)) (fun _ _ => []) ∧
      Joins (.msta w) w.g ⟨[(w.base, 2, false)], [], [], [], true⟩ ok (fun e _ => mark (e.sregs w.base 2).2) (some 2) (fun e _ => .msta T (off e) (pitch e)) (fun _ _ => [])) ∧
    (∀ row, Joins (.accrd w) w.g ⟨selU w.slot, [], [(w.base, 2)], [], false⟩ (fun e => sel e w.slot row ∧ tilePair wide w.t = true ∧ e.g0.ownsTile wide T = true) (fun e _ => mark (selFl e w.slot)) (some (if w.mod.getLsbD 8 then 1 else 0))
      (fun e id => .accrd T row wide H (e.lanes.map fun L => (L, (opdKey? w.base L 0).getD 0, (opdKey? w.base L 1).getD 0)) id)
      (fun e id => let keys := e.lanes.flatMap fun L => opdKeys w.base 2 L; [⟨id, false, [], keys, overlaps e e.g keys⟩])) ∧
    (∀ row, Joins (.accwr w) w.g ⟨selU w.slot ++ [(w.base, 2, false)], [], [], [], true⟩ (fun e => sel e w.slot row ∧ tilePair wide w.t = true ∧ e.g0.ownsTile wide T = true)
      (fun e L => mark (selFl e w.slot || decide (L ∈ poisonLanes e [(w.base, 2)]))) none
      (fun e _ => .accwr T row wide H (e.lanes.map fun L => let c := e.rc w.base L 0; let d := e.rc w.base L 1; if wide = true ∧ (c.poison = true ∨ d.poison = true) then (L, poisoned, poisoned) else (L, c, d))) (fun _ _ => [])) ∧
    Joins (.pvapply w) w.g .none (fun e => tilePair wide w.t = true ∧ e.g0.ownsTile wide T = true ∧ e.g0.ownsPv (w.p.toNat % 4) = true) (fun _ _ => 0) none (fun _ _ => .pvapply T (w.p.toNat % 4) wide (w.mod.getLsbD 1)) (fun _ _ => []) ∧
    (∀ row, let form := (w.mod.extractLsb' 1 2).toNat; let d := w.p.toNat / 4; let src := w.p.toNat % 4
      Joins (.pvmov w) w.g ⟨if 2 ≤ form then selU w.slot else [], [], [], [], true⟩
        (fun e => (if 2 ≤ form then sel e w.slot row ∧ e.g0.ownsTile false T = true else row = 0) ∧ (form ≠ 2 → e.g0.ownsPv d = true) ∧ (form = 0 ∨ form = 2 → e.g0.ownsPv src = true)) (fun e _ => mark (decide (2 ≤ form) && selFl e w.slot)) none
        (fun _ _ => .pvmov form T row d src) (fun _ _ => [])) ∧
    (let k := (w.mod.extractLsb' 0 2).toNat; let dpb (e : Env) := pairAt (e.sregs (w.base.plus 6) 2).1 0
      Joins (.drain w) w.g ⟨[(w.base.plus 6, 2, false)], [], [], [], true⟩
        (fun e => clean e (w.base.plus 6) 2 ∧ tilePair (k == 2) w.t = true ∧ e.g0.ownsTile (k == 2) T = true ∧ e.g0.ownsTile false w.x.toNat = true ∧ (e.s0.part e.part).hasSlot w.slot.toNat = true ∧
          firstBadUop (drainKind k) (e.g0.ownsTile (k == 2) w.x.toNat) (uopsOf 16 (slotWords e.s0 e.g0.core w.slot.toNat)) = none ∧ (dpb e).toNat % 64 = 0)
        (fun e _ => mark (e.sregs (w.base.plus 6) 2).2) (some 2) (fun e _ => .drain T w.x.toNat k w.slot.toNat (dpb e) (slotWords e.s0 e.g0.core w.slot.toNat)) (fun _ _ => [])) ∧
    (∀ v : WA, let n := v.mod.toNat % 16 + 1; let off (e : Env) := (e.rc v.opnd 0 0).get.toNat
      Joins (.epload v) v.g ⟨[(v.opnd, 1, false)], [], [], [], true⟩
        (fun e => ((e.rc v.opnd 0 0).poison = false ∨ e.sr.trapPoison = false) ∧ off e < 2 ^ 23 ∧ off e % 64 = 0 ∧ v.imm.toNat + n ≤ 256 ∧
          (e.s0.part e.part).hasSlot v.imm.toNat = true ∧ (e.s0.part e.part).hasSlot (v.imm.toNat + n - 1) = true ∧ off e + 64 * n ≤ (e.s0.part e.part).spadSize e.g0.core)
        (fun e _ => mark (e.rc v.opnd 0 0).poison) (some 2) (fun e _ => .epload v.imm.toNat n (off e)) (fun _ _ => [])) ∧
    (∀ i ∈ [Instr.mzero w, Instr.pvapply w], tilePair wide w.t = false → ∀ s gid slice g a h, Issues i w.g .none s gid slice g a h → Halts i s gid g 0x02 0 0)

/-- FACLU, FACCH, FACQR and TRSM join the queue with the issuing gang held until they end: column 0 of the operands named, or, at the group's resume point after an ERET, the column and the largest magnitude kept there. No register has changed yet, the last-result file among them (08 R153), but the poison flag of lanes that read a poisoned sQ. Of those with no register to read, fields that break their rule stop with ILLEGAL_OPERAND. -/
def Obligations.FactorisationsJoin : Prop :=
  ∀ (w : WX), let T := w.t.toNat; let wide := w.fa == 0#4
    let off (e : Env) := (e.rc (.s (w.slot.extractLsb' 0 7)) 0 0).get.toNat; let size := if wide then 8 else 4
    ∀ p ∈ ([(.faclu w, .none, (fun e => e.g0.ownsTile wide T = true ∧ e.g0.ownsPv (w.p.toNat % 4) = true),
              fun e => .fac 0 wide T 0 (w.p.toNat % 4) w.base (w.mod.getLsbD 0) false false false 0 e.mask),
            (.facch w, .none, (fun e => e.g0.ownsTile wide T = true), fun e => .fac 1 wide T 0 0 w.base false false false false 0 e.mask),
            (.facqr w, ⟨[(.s (w.slot.extractLsb' 0 7), 1, false)], [], [], [], true⟩,
              (fun e => ((e.rc (.s (w.slot.extractLsb' 0 7)) 0 0).poison = false ∨ e.sr.trapPoison = false) ∧ e.g0.ownsTile wide T = true ∧ off e < 2 ^ 23 ∧ off e % size = 0 ∧ off e + 64 * size ≤ (e.s0.part e.part).spadSize e.g0.core),
              fun e => .fac 2 wide T 0 0 w.base false false false false (off e) e.mask),
            (.trsm w, .none, (fun e => e.g0.ownsTile wide T = true ∧ e.g0.ownsTile wide w.x.toNat = true),
              fun e => .fac 3 wide T w.x.toNat 0 w.base false (w.mod.getLsbD 0) (w.mod.getLsbD 1) (w.mod.getLsbD 2) 0 e.mask)] : List (Instr × Uses × (Env → Prop) × (Env → SeqKind))),
    ∀ s gid slice g a h, Issues p.1 w.g p.2.1 s gid slice g a h → let e := mkEnv s gid g a h w.g p.2.1
      (p.1.ownOk = false → e.lanes ≠ [] → p.2.1 = .none → Halts p.1 s gid g 0x02 0 0) ∧ (p.1.ownOk = true → p.2.2.1 e → e.lanes ≠ [] → queueFree g.ctx (s.queue g.quad) = true →
      ∃ t g' op, exec p.1 s = .next t ∧ t.group? gid = some g' ∧ AccessOnly gid g s t { s with seqs := t.seqs } ∧ RegistersOnly g g' ∧
        FlagsOnly e p.2.1 (fun _ => if p.2.1 ≠ .none ∧ (e.rc (.s (w.slot.extractLsb' 0 7)) 0 0).poison = true then poisonFlag else 0) g' ∧ g'.vp = g.vp ∧ g'.out = g.out ∧
        t.queue g.quad = s.queue g.quad ++ [op] ∧ (∀ q, q ≠ g.quad → t.queue q = s.queue q) ∧ op.gid = gid ∧ op.ctx = g.ctx ∧ op.phase = 0 ∧ op.kind = p.2.2.2 e ∧ op.hdr = a.pc ∧ op.idx = a.idx ∧
        (∀ b, g'.gang? slice = some b → b.hold = .factor ∧ b.pc = a.pc ∧ b.idx = a.idx) ∧
        (let here := ∃ r, g.resume = some r ∧ r.armed = true ∧ r.hdr = a.pc ∧ r.idx = a.idx
         (¬ here → op.kdone = 0 ∧ op.row = 0) ∧
         (∀ r, g.resume = some r → r.armed = true → r.hdr = a.pc → r.idx = a.idx → op.kdone = r.k ∧ op.amax = r.amax ∧ op.amaxPoison = r.amaxPoison ∧ op.row = 1)))

/-- SEQUENCER_OP_START performs the short operations whole, each as 14 R284 gives: MZERO, MLDA, MSTA, ACCRD, ACCWR, PVAPPLY, PVMOV, EPLOAD. Words keep their bits with their poison; a word of the scratchpad written since MLDA or MSTA issued may be taken as any of those writes found it, or stay, as the other side of that race has it (R282; log 62); a store of MSTA is performed now, or waits until the operation completes. Elements and entries not named stay, tiles and scratchpad words alike; the inverse PVAPPLY moves row i to the row that entry i names, the last of several to one row remaining; gangs kept back by a full queue may try again. -/
def Obligations.SequencerPerforms : Prop :=
  ∀ (s : State) (q : Nat) (op : SeqOp) (g : Group), seqReady s q = some op → s.group? op.gid = some g →
    let E (g : Group) (t i j : Nat) : RegCell := g.tileAt t i j
    let R (c : RegCell) : RegCell := cell c.val c.poison
    let raw (x : PWord) : RegCell := ⟨x.val, x.poison, 0⟩
    let word (o : Nat) : PWord := spadPWord s g.part g.core o
    let earlier (v : SpadView) (o : Nat) : PWord := spadPWord { s with spad := v.bytes, spadPoison := v.marks } g.part g.core o
    let performed (P : State → Group → Prop) : Prop := ∃ t g', exec (.sequencerOpStart q) s = .next t ∧ t.group? op.gid = some g' ∧ (∀ b, readByte t b = readByte s b) ∧
      (∀ j, j ≠ op.gid → Awake .seqFull s t j) ∧ g' = { g with tile := g'.tile, pv := g'.pv, vp := g'.vp, gangs := g'.gangs } ∧ P t g'
    let left (t : State) : Prop := ∀ o ∈ t.queue q, o.id ≠ op.id
    let counted (t : State) : Prop := ∀ o ∈ t.queue q, o.id = op.id → o.phase = 3
    (∀ T wide, op.kind = .mzero T wide → performed fun t g' => left t ∧ g'.pv = g.pv ∧
      ∀ u i j, i < 64 → j < 64 → E g' u i j = if u = T ∨ (wide = true ∧ u = T + 1) then ⟨0, false, 0⟩ else E g u i j) ∧
    (∀ T off pitch, op.kind = .mlda T off pitch → performed fun t g' => counted t ∧ g'.pv = g.pv ∧ t.spad = s.spad ∧
      ∀ u i j, i < 64 → j < 64 → (u ≠ T → E g' u i j = E g u i j) ∧ (u = T → E g' u i j = raw (word (off + i * pitch + 4 * j)) ∨ ∃ v ∈ op.old, E g' u i j = raw (earlier v (off + i * pitch + 4 * j)))) ∧
    (∀ T off pitch, op.kind = .msta T off pitch → 256 ≤ pitch → off % 4 = 0 → pitch % 4 = 0 → off + 63 * pitch + 256 ≤ (s.part g.part).spadSize g.core → performed fun t g' => counted t ∧ g'.tile = g.tile ∧
      ∀ i j, i < 64 → j < 64 → let o := off + i * pitch + 4 * j
        (spadPWord t g.part g.core o = ⟨(E g T i j).val, (E g T i j).poison⟩ ∧ stampSpad t g.part g.core o = 0) ∨
          (spadPWord t g.part g.core o = word o ∧ ((∀ p ∈ t.queue q, p.id = op.id → ⟨true, o, 4, (E g T i j).val.toNat, (E g T i j).poison, 0⟩ ∈ p.pend) ∨ ∃ v ∈ op.old, word o ≠ earlier v o))) ∧
    (∀ T off pitch, op.kind = .msta T off pitch → performed fun t g' => counted t ∧ g'.tile = g.tile ∧ g'.pv = g.pv ∧
      let at_ (i j : Nat) : Nat := spadPlace (s.part g.part) g.core (off + i * pitch + j)
      ∀ c, ((∀ i j, i < 64 → j < 256 → at_ i j ≠ c) → sget c t.spad = sget c s.spad) ∧ ((∀ i j, i < 64 → j < 256 → at_ i j / 4 ≠ c) → sget c t.spadPoison = sget c s.spadPoison) ∧
        ((∀ i j, i < 64 → j < 256 → at_ i j / 64 ≠ c) → sget c t.spadStamp = sget c s.spadStamp)) ∧
    (∀ T row wide H lanes vp, op.kind = .accrd T row wide H lanes vp → performed fun t g' => left t ∧ g'.tile = g.tile ∧ g'.pv = g.pv ∧
      ∀ v ∈ g'.vp, v.id = vp → v.known = true ∧ v.writes = lanes.flatMap fun (L, k0, k1) =>
        if wide then [(k0, R (E g T row (32 * H + L))), (k1, R (E g (T + 1) row (32 * H + L)))] else [(k0, R (E g T row (2 * L))), (k1, R (E g T row (2 * L + 1)))]) ∧
    (∀ T row wide H cells, op.kind = .accwr T row wide H cells → (∀ c ∈ cells, c.1 < 32) → (cells.map (·.1)).Nodup → H < 2 → row < 64 → performed fun t g' => left t ∧ g'.pv = g.pv ∧
      (∀ c ∈ cells, let a := if wide then E g' T row (32 * H + c.1) else E g' T row (2 * c.1); let b := if wide then E g' (T + 1) row (32 * H + c.1) else E g' T row (2 * c.1 + 1)
        a = tileCell c.2.1.val c.2.1.poison ∧ b = tileCell c.2.2.val c.2.2.poison) ∧
      (∀ u i j, i < 64 → j < 64 → (i ≠ row ∨ ∀ c ∈ cells, if wide then (u ≠ T ∧ u ≠ T + 1) ∨ j ≠ 32 * H + c.1 else u ≠ T ∨ (j ≠ 2 * c.1 ∧ j ≠ 2 * c.1 + 1)) → E g' u i j = E g u i j)) ∧
    (∀ T m wide inv, op.kind = .pvapply T m wide inv → performed fun t g' => left t ∧ g'.pv = g.pv ∧
      (∀ u i j, i < 64 → j < 64 → u ≠ T → (wide = false ∨ u ≠ T + 1) → E g' u i j = E g u i j) ∧
      (inv = false → ∀ u i j, i < 64 → j < 64 → (u = T ∨ (wide = true ∧ u = T + 1)) →
        let from_ := E g u ((g.pvAt m i).get.toNat % 64) j; E g' u i j = ⟨from_.val, from_.poison || (g.pvAt m i).poison, 0⟩) ∧
      (inv = true → ∀ u r j, r < 64 → j < 64 → (u = T ∨ (wide = true ∧ u = T + 1)) → let names (i : Nat) : Prop := (g.pvAt m i).get.toNat % 64 = r
        ((∀ i, i < 64 → ¬ names i) → E g' u r j = E g u r j) ∧
        ∀ i, i < 64 → names i → (∀ k, i < k → k < 64 → ¬ names k) → E g' u r j = ⟨(E g u i j).val, (E g u i j).poison || (g.pvAt m i).poison, 0⟩)) ∧
    (∀ form T row d src, op.kind = .pvmov form T row d src → performed fun t g' => left t ∧
      (form = 0 → ∀ i, i < 64 → g'.pvAt d i = g.pvAt src i) ∧ (form = 1 → ∀ i, i < 64 → g'.pvAt d i = ⟨BitVec.ofNat 32 i, false, 0⟩) ∧
      (form = 2 → row < 64 → ∀ i, i < 64 → E g' T row i = tileCell (g.pvAt src i).val (g.pvAt src i).poison) ∧
      (form = 2 → row < 64 → ∀ u i j, i < 64 → j < 64 → (u ≠ T ∨ i ≠ row) → E g' u i j = E g u i j) ∧
      (form = 3 → ∀ i, i < 64 → g'.pvAt d i = cell (BitVec.ofNat 32 ((E g T row i).val.toNat % 64)) (E g T row i).poison) ∧
      (form ≠ 2 → g'.tile = g.tile ∧ ∀ m i, i < 64 → m ≠ d → g'.pvAt m i = g.pvAt m i) ∧ (form = 2 → g'.pv = g.pv)) ∧
    (∀ slot n off, op.kind = .epload slot n off → performed fun t g' => counted t ∧ g'.tile = g.tile ∧ g'.pv = g.pv ∧
      ∀ k, sgetD 0 k t.slots = if g.core * 4096 + slot * 16 ≤ k ∧ k < g.core * 4096 + slot * 16 + 16 * n
        then (let x := spadPWord s g.part g.core (off + 4 * (k - (g.core * 4096 + slot * 16))); if x.poison then 0 else x.val) else sgetD 0 k s.slots)

/-- 14 R267, R269, R274; 07 R139: the k-steps of a floating-point loop, taken one after the other, give each output element the dot_contract of its row of A and its row of B over all products in ascending k, with no poisoned operand. Those of an integer loop add the exact products of the two's-complement codes one after the other, each sum kept within 32 bits by saturation, and raise nothing (07 R143). K_STEP takes one of them for every element; a loop with no k-step ends with its elements as they started. -/
def Obligations.LoopIsDotContract : Prop :=
  (∀ (e : Eph) (fa p : Nat) (c : DWord) (rows : List (Row × Row)), fa ≠ 0 → matInt fa = false →
    (∀ r ∈ rows, r.1.vals.length = matK fa ∧ r.2.vals.length = matK fa ∧ (∀ v ∈ r.1.vals ++ r.2.vals, v.2 = false)) →
    let x := rows.zipIdx.foldl (fun x r => elemStep e fa p r.2 r.1.1 r.1.2 x) (ElemAcc.start c false)
    let d := dotContract e (e.group (p * matK fa)) c (rows.flatMap fun r => (r.1.vals.zip r.2.vals).map fun v => termMul v.1.1 v.2.1)
    elemEnd e fa x = (⟨d.bits, false⟩, d.flags)) ∧
  (∀ (e : Eph) (fa p : Nat) (c : Word) (rows : List (Row × Row)), matInt fa = true → (∀ r ∈ rows, r.1.codes.length = matK fa ∧ r.2.codes.length = matK fa) →
    let W := if fa = 9 then 8 else 4
    let int (v : PVal) : Int := let n : Nat := v.val.toNat % 2 ^ W; if n < 2 ^ (W - 1) then (n : Int) else (n : Int) - 2 ^ W
    let products := rows.flatMap fun r => (r.1.codes.zip r.2.codes).map fun v => int v.1 * int v.2
    let r := elemEnd e fa (rows.zipIdx.foldl (fun x r => elemStep e fa p r.2 r.1.1 r.1.2 x) (ElemAcc.start (c.setWidth 64) false))
    (r.1.val.setWidth 32 : Word).toInt = products.foldl (fun acc z => max (-2147483648) (min 2147483647 (acc + z))) c.toInt ∧
      r.1.poison = rows.any (fun r => (r.1.vals ++ r.2.vals).any (·.2)) ∧ r.2 = 0) ∧
  (∀ (s : State) (q : Nat) (op : SeqOp) (g : Group) (conv : Bool) (T x slot p fa fb : Nat) (ta : Option Nat) (sa sb nodrain : Bool) (d prog : List Word),
    (s.queue q).find? (fun o => o.phase == 1 && (s.ctx o.ctx).st == .running) = some op → op.kind = .loop conv T x slot p fa fb ta sa sb nodrain d prog → s.group? op.gid = some g → op.elems.length = 4096 →
    let e := eph (g.sr.ctr.toNat % 256)
    let els (i j : Nat) : ElemAcc := if loopSteps conv fa d = 0 then (op.elems[64 * i + j]?).getD default else elemStep e fa p op.kdone (rowA s op.old op.id g e conv fa ta sa d op.kdone i) (rowB s op.old op.id g e fb sb d op.kdone j) ((op.elems[64 * i + j]?).getD default)
    ∃ t g', exec (.kStep q) s = .next t ∧ t.group? op.gid = some g' ∧ (∀ b, readByte t b = readByte s b) ∧ t.spad = s.spad ∧
      (op.kdone + 1 < loopSteps conv fa d → g'.tile = g.tile ∧ ∀ o ∈ t.queue q, o.id = op.id → o.kdone = op.kdone + 1 ∧ o.phase = 1 ∧ ∀ i j, i < 64 → j < 64 → o.elems[64 * i + j]? = some (els i j)) ∧
      (loopSteps conv fa d ≤ op.kdone + 1 → (∀ o ∈ t.queue q, o.id = op.id → o.phase = if nodrain then 3 else 2) ∧
        ∀ i j, i < 64 → j < 64 → let r := (elemEnd e fa (els i j)).1
          (fa ≠ 0 → g'.tileAt T i j = tileCell (r.val.setWidth 32) r.poison) ∧ (fa = 0 → r.poison = false → g'.tileAt T i j = ⟨r.val.setWidth 32, false, 0⟩ ∧ g'.tileAt (T + 1) i j = ⟨r.val.extractLsb' 32 32, false, 0⟩) ∧
          (fa = 0 → (g'.tileAt T i j).poison = r.poison ∧ (g'.tileAt (T + 1) i j).poison = r.poison)))

/-- DRAIN_ROW makes the stores of one row to memory and to the scratchpad, each now or later, in any order that keeps those of one column in micro-op order and those of one place as they come (15 R308): a scratchpad store that is made and shares its words with no other leaves its value there with its mark and stamp 0, and every other byte and mark of the scratchpads stays; the row's STACC elements then enter the tile and the next row follows, after row 63 the operation is done. A store that faults halts the context with an engine record of that micro-op and address; all stores before it in micro-op order are made (which of a partly stored row are: log 46), no later one, and no STACC. MATRIX_OP_COMPLETE takes a finished operation out of its queue and its counter when it is the oldest on wm, every store of it made. -/
def Obligations.DrainRowsAndCompletion : Prop :=
  let made (t r : State) : Prop := (∀ b, readByte t b = readByte r b) ∧ t.memPoison = r.memPoison ∧ t.spad = r.spad ∧ t.spadPoison = r.spadPoison ∧ t.spadStamp = r.spadStamp
  (∀ (s : State) (q : Nat) (op : SeqOp) (g : Group) (d : DrainData) (k : UKind) (T x slot : Nat) (prog : List Word),
    (s.queue q).find? (fun o => o.phase == 2 && ((s.ctx o.ctx).st == .running || ((s.ctx o.ctx).st.stopsOrRuns && rowBegun s o))) = some op → s.group? op.gid = some g → op.dpb = some d →
    ((∃ m a, op.kind = .drain T x m slot a prog ∧ k = drainKind m) ∨ (∃ conv p fa fb ta sa sb dd, op.kind = .loop conv T x slot p fa fb ta sa sb false dd prog ∧ k = drainKind (tileKind fa))) →
    let els := drainElems op g k T prog d op.row; let stores := drainStores op d op.row els s
    let localOf (st : DStore) : Option SeqStore := st.local (dPlace s g st)
    let at_ (a j : Nat) : Nat := spadPlace (s.part g.part) g.core (a + j)
    let isHere (st : DStore) : Prop := dPlace s g st = .spad ∨ ∃ w, dPlace s g st = .mem w ∧ w.node = 0
    let apart (c n : Nat) : Prop := (∀ st ∈ stores, st.spad = true → ∀ j, j < st.size → at_ st.addr.toNat j / n ≠ c) ∧ (∀ y ∈ op.pend, y.spad = true → ∀ j, j < y.n → at_ y.at_ j / n ≠ c)
    ((∀ st ∈ stores, isHere st) → let acc := drainAcc (k == .f64) x op.row els g
      ∃ t g', exec (.drainRow q) s = .next t ∧ t.group? op.gid = some g' ∧ g'.tile = acc.1.tile ∧ g'.rf = g.rf ∧
        (∃ (order : List DStore) (l : List (SeqStore × Bool)), order.Perm stores ∧ (∀ c, order.filter (fun x => x.k % 100 == c) = stores.filter (fun x => x.k % 100 == c)) ∧
          l.map (·.1) = op.pend ++ order.filterMap localOf ∧ l.Pairwise (fun x y => x.1.meets y.1 = true → y.2 = true → x.2 = true) ∧
          made t (((l.filter (·.2)).map (·.1)).foldl (SeqStore.perform g.part g.core) s) ∧ ∀ o ∈ t.queue q, o.id = op.id → o.pend = (l.filter (!·.2)).map (·.1)) ∧
        (∀ c, (apart c 1 → sget c t.spad = sget c s.spad) ∧ (apart c 4 → sget c t.spadPoison = sget c s.spadPoison)) ∧
        (∀ st ∈ stores, st.spad = true → (∀ o ∈ t.queue q, o.id = op.id → ∀ y, localOf st = some y → y ∉ o.pend) → (t.queue q).any (·.id == op.id) = true → stampSpad t g.part g.core st.addr.toNat = 0 ∧
          ((∀ y ∈ stores, y.spad = true → y ≠ st → ∀ j k, j < st.size → k < y.size → at_ y.addr.toNat k / 4 ≠ at_ st.addr.toNat j / 4) →
            readSpad t g.part g.core st.addr.toNat st.size = st.val % 2 ^ (8 * st.size) ∧ markedSpad t g.part g.core st.addr.toNat st.size = st.poison)) ∧
        (∀ o ∈ t.queue q, o.id = op.id → o.row = op.row + 1 ∧ o.phase = if op.row = 63 then 3 else 2)) ∧
    (∀ pre st post c, stores = pre ++ st :: post → (∀ y ∈ pre, isHere y) → dPlace s g st = .fault c → (∀ y ∈ post, isHere y ∨ ∃ c', dPlace s g y = .fault c') → (s.ctx op.ctx).st = .running →
      ∃ t r, exec (.drainRow q) s = .next t ∧ (t.ctx op.ctx).st = .halting ∧ (t.ctx op.ctx).recs = (s.ctx op.ctx).recs ++ [r] ∧
        r.kind = 3 ∧ r.cause = 0x32 ∧ r.detail = c ∧ r.addr = st.addr ∧ r.uop = st.uop ∧ r.row = op.row ∧ r.tile = T ∧ r.slot = slot ∧ Awake .seqFull s t op.gid ∧
        t.queue q = (s.queue q).map (fun o => if o.id = op.id then { op with pend := [] } else o) ∧ made t ((op.pend ++ pre.filterMap localOf).foldl (SeqStore.perform g.part g.core) s))) ∧
  (∀ (s : State) (gid : Nat) (g : Group) (tok : Tok) (op : SeqOp), s.group? gid = some g → g.oldest 2 = some tok →
    (s.queue g.quad).find? (fun o => o.tok == tok.id && o.gid == gid && o.phase == 3) = some op →
    ∃ t g', exec (.matrixOpComplete gid) s = .next t ∧ t.group? gid = some g' ∧ g'.out = dropVoid 2 (g.out.filter fun x => !(x.ctr == 2 && x.id == tok.id)) ∧
      (∀ o ∈ t.queue g.quad, o.id ≠ op.id) ∧ (∀ o, o.id ≠ op.id → (o ∈ t.queue g.quad ↔ o ∈ s.queue g.quad)) ∧ g'.rf = g.rf ∧ g'.tile = g.tile ∧
      made t (op.pend.foldl (SeqStore.perform g.part g.core) s))

/-- FACTOR_COLUMN does one column in place. FACCH: L(k,k) = √A(k,k), L(i,k) = A(i,k) / L(k,k), and the trailing lower part less the products, each result rounded on its own. FACLU: the pivot is the first row that ranks highest; its row and row k of the tile and their two entries of pvM change places, then come the quotients and the trailing part; a pivot of zero with .zp sets $drainflags.ZP and clears the column below. FACQR: a column that is zero below its diagonal stays and its tau is +0; another gets its reflector, the norm summed down the column, alpha of the sign opposite to the diagonal's, the quotients by the diagonal less alpha, tau, and the trailing columns less their share, each result rounded on its own and each sum in ascending rows; tau enters its place in the scratchpad with its mark and stamp 0. A step of TRSM solves one row of B, the first to the last of a lower triangle and the last to the first of an upper one, in ascending terms, and divides by the diagonal unless .u; the triangle stays. A zero pivot without .zp, and a diagonal that is not positive, trap at the column: with a handler the group enters it, with the resume point kept and the operation gone from the queue; without one the context halts with the column in its record. FACTOR_GROWTH writes the estimate into sG, even while the context halts or is saved (26 R435). When the operation ends, with FACTOR_GROWTH or with step 63 of TRSM, its group is released: no gang of it is held, and the one that issued goes on to the next word. -/
def Obligations.FactorColumns : Prop :=
  ∀ (s : State) (q : Nat) (op : SeqOp) (g : Group) (which : Nat) (w : Bool) (T b pv : Nat) (sg : Opd) (zp up tr unit : Bool) (tau lanes : Nat),
    s.group? op.gid = some g → op.kind = .fac which w T b pv sg zp up tr unit tau lanes →
    let k := op.kdone; let A (i j : Nat) : PVal := g.elemAt w T i j; let f := facFmt w
    let held (v : PVal) : PVal := if w then v else ⟨(v.val.setWidth 32 : Word).setWidth 64, v.poison⟩
    let sl := facSlice g lanes
    let ends (t : State) : Prop := ∀ o ∈ t.queue q, o.id ≠ op.id
    let next (t : State) : Prop := ∀ o ∈ t.queue q, o.id = op.id → o.kdone = k + 1
    let released (g' : Group) : Prop :=
      ((∀ a ∈ g.gangs, a.hold = .factor → a.slices.head? = some sl) → g'.heldByFactor = false) ∧
      (∀ a h, g.gang? sl = some a → a.hdr = some h → a.idx < h.count.toNat → ∃ a', g'.gang? sl = some a' ∧ a'.hold = .free ∧ a'.pc = a.pc ∧ a'.idx = a.idx + 1 ∧ a'.due = max a.due (s.clk + 1))
    let pivot (p : Nat) : Prop := k ≤ p ∧ p < 64 ∧ (∀ i, k ≤ i → i < 64 → ranksAbove f (A i k).val (A p k).val = false) ∧ (∀ i, k ≤ i → i < p → ranksAbove f (A p k).val (A i k).val = true)
    (facRunning s q = some op → k < 64 →
      (which = 1 → (∀ x, f.dec (A k k).val = .fin x → x.m ≠ 0 ∧ x.neg = false) → (∀ n, f.dec (A k k).val = .inf n → n = false) → (∀ n, f.dec (A k k).val ≠ .nan n) →
        let d := held (facSqrt w (A k k)).1; let c (i : Nat) : PVal := held (facDiv w (A i k) d).1
        ∃ t g', exec (.factorColumn q) s = .next t ∧ t.group? op.gid = some g' ∧ next t ∧ g'.rf = g.rf ∧ (∀ a, readByte t a = readByte s a) ∧
          g'.elemAt w T k k = d ∧ (∀ i, k < i → i < 64 → g'.elemAt w T i k = c i) ∧
          (∀ i j, k < j → j ≤ i → i < 64 → g'.elemAt w T i j = held (facFma w (facNeg w (c i)) (c j) (A i j)).1) ∧
          (∀ i j, i < 64 → j < 64 → (j < k ∨ i < j) → g'.elemAt w T i j = A i j)) ∧
      (which = 0 → ∀ p, pivot p → isZero f (A p k).val = false →
        let swap (i : Nat) : Nat := if i = p then k else if i = k then p else i
        let B (i j : Nat) : PVal := A (swap i) j; let c (i : Nat) : PVal := held (facDiv w (B i k) (B k k)).1
        ∃ t g', exec (.factorColumn q) s = .next t ∧ t.group? op.gid = some g' ∧ next t ∧ g'.rf = g.rf ∧ (∀ i, i < 64 → g'.pvAt pv i = g.pvAt pv (swap i)) ∧ (∀ m i, m ≠ pv → i < 64 → g'.pvAt m i = g.pvAt m i) ∧
          (∀ i, k < i → i < 64 → g'.elemAt w T i k = c i) ∧
          (∀ i j, k < i → i < 64 → k < j → j < 64 → g'.elemAt w T i j = held (facFma w (facNeg w (c i)) (B k j) (B i j)).1) ∧
          (∀ i j, i < 64 → j < 64 → (i ≤ k ∨ j < k) → g'.elemAt w T i j = B i j)) ∧
      (which = 0 → zp = true → ∀ p, pivot p → isZero f (A p k).val = true →
        ∃ t g', exec (.factorColumn q) s = .next t ∧ t.group? op.gid = some g' ∧ next t ∧ g'.rf = g.rf ∧ g'.pv = g.pv ∧ g'.sr.drainflags = g.sr.drainflags ||| 0x20 ∧
          (∀ i, k < i → i < 64 → g'.elemAt w T i k = ⟨0, false⟩) ∧ (∀ i j, i < 64 → j < 64 → (i ≤ k ∨ j ≠ k) → g'.elemAt w T i j = A i j)) ∧
      (∀ cause, (which = 0 ∧ cause = 0x30 ∧ zp = false ∧ ∃ p, pivot p ∧ isZero f (A p k).val = true) ∨
          (which = 1 ∧ cause = 0x31 ∧ ((∃ x, f.dec (A k k).val = .fin x ∧ (x.m = 0 ∨ x.neg = true)) ∨ f.dec (A k k).val = .inf true ∨ ∃ n, f.dec (A k k).val = .nan n)) →
        ∀ a, g.gang? sl = some a → op.ctx = g.ctx →
        ((g.effSr s).utvec = 0 ∨ g.sr.handler = true → (s.ctx g.ctx).st = .running →
          ∃ t r g', exec (.factorColumn q) s = .next t ∧ t.group? op.gid = some g' ∧ g' = { g with gangs := g'.gangs } ∧ (t.ctx g.ctx).st = .halting ∧ (t.ctx g.ctx).recs = (s.ctx g.ctx).recs ++ [r] ∧
            r.cause = cause ∧ r.col = k ∧ r.lanes = lanes ∧ t.queue q = s.queue q) ∧
        (∀ word, let vec := (g.effSr s).utvec
          vec ≠ 0 → vec.toNat % 8 = 0 → g.sr.handler = false → fetchWord s op.gid g vec = .ok word → (decHeader word).isSome = true →
          ∃ t g', exec (.factorColumn q) s = .next t ∧ t.group? op.gid = some g' ∧ ends t ∧ g'.tile = g.tile ∧ g'.pv = g.pv ∧ g'.rf = g.rf ∧ (t.ctx g.ctx).recs = (s.ctx g.ctx).recs ∧
            g'.sr = { g.sr with epc := a.pc, ecause := BitVec.ofNat 32 (a.idx * 256 + cause), elanes := BitVec.ofNat 32 lanes, eaddr := BitVec.ofNat 64 k, handler := true } ∧
            g'.resume = some ⟨op.hdr, op.idx, k, op.amax, op.amaxPoison, false⟩ ∧ ∀ a', g'.gang? sl = some a' → a'.pc = vec ∧ a'.idx = 0 ∧ a'.hdr = none ∧ a'.hold = .free)) ∧
      (which = 2 → tau % (if w then 8 else 4) = 0 → tau + (if w then 512 else 256) ≤ (s.part g.part).spadSize g.core →
        let below := after k; let flat := ∀ i ∈ below, isZero f (A i k).val = true
        let norm := (k :: below).foldl (fun x i => (facFma w (A i k) (A i k) x).1) ⟨0, false⟩
        let root := (facSqrt w norm).1
        let negative := (∃ x, f.dec (A k k).val = .fin x ∧ x.m ≠ 0 ∧ x.neg = true) ∨ f.dec (A k k).val = .inf true
        ∀ alpha, (isNan f norm.val = true ∨ negative → alpha = root) → (isNan f norm.val = false → ¬ negative → alpha = facNeg w root) →
        let v0 := (facSub w (A k k) alpha).1; let tv := (facDiv w (facNeg w v0) alpha).1; let c (i : Nat) : PVal := held (facDiv w (A i k) v0).1
        let u (j : Nat) : PVal := (facMul w tv (below.foldl (fun x i => (facFma w (c i) (A i j) x).1) (A k j))).1
        ∃ t g', exec (.factorColumn q) s = .next t ∧ t.group? op.gid = some g' ∧ next t ∧ g'.rf = g.rf ∧ g'.pv = g.pv ∧ (∀ a, readByte t a = readByte s a) ∧
          (let size := if w then 8 else 4; let tauIs (v : PVal) : Prop := readSpad t g.part g.core (tau + size * k) size = v.val.toNat % 2 ^ (8 * size) ∧ markedSpad t g.part g.core (tau + size * k) size = v.poison
           stampSpad t g.part g.core (tau + size * k) = 0 ∧ (∀ p, (∀ j, j < size → spadPlace (s.part g.part) g.core (tau + size * k + j) ≠ p) → sget p t.spad = sget p s.spad) ∧
           (flat → tauIs ⟨0, false⟩ ∧ ∀ i j, i < 64 → j < 64 → g'.elemAt w T i j = A i j) ∧
           (¬ flat → tauIs tv ∧ g'.elemAt w T k k = held alpha ∧ (∀ i ∈ below, g'.elemAt w T i k = c i) ∧ (∀ j ∈ below, g'.elemAt w T k j = held (facSub w (A k j) (u j)).1) ∧
             (∀ i ∈ below, ∀ j ∈ below, g'.elemAt w T i j = held (facFma w (facNeg w (u j)) (c i) (A i j)).1) ∧ (∀ i j, i < 64 → j < 64 → (i < k ∨ j < k) → g'.elemAt w T i j = A i j)))) ∧
      (which = 3 → b ≠ T → (w = true → b % 2 = 0 ∧ T % 2 = 0) →
        let lower := (up = false ∧ tr = false) ∨ (up = true ∧ tr = true); let M (i j : Nat) : PVal := if tr then A j i else A i j; let R (i c : Nat) : PVal := g.elemAt w b i c
        ∀ r (terms : List Nat), (lower → r = k ∧ terms = List.range k) → (¬ lower → r = 63 - k ∧ terms = (List.range k).map (64 - k + ·)) →
        let x (c : Nat) : PVal := terms.foldl (fun x m => (facFma w (facNeg w (M r m)) (R m c) x).1) (R r c)
        ∃ t g', exec (.factorColumn q) s = .next t ∧ t.group? op.gid = some g' ∧ g'.rf = g.rf ∧ g'.pv = g.pv ∧ (∀ a, readByte t a = readByte s a) ∧ t.spad = s.spad ∧
          (∀ c, c < 64 → g'.elemAt w b r c = held (if unit then x c else (facDiv w (x c) (M r r)).1)) ∧
          (∀ i c, i < 64 → c < 64 → i ≠ r → g'.elemAt w b i c = R i c) ∧ (∀ i j, i < 64 → j < 64 → g'.elemAt w T i j = A i j)) ∧
      (3 ≤ which → ∃ t, exec (.factorColumn q) s = .next t ∧ (k < 63 → next t) ∧ (which = 3 → k = 63 → ends t ∧ ∃ g', t.group? op.gid = some g' ∧ released g'))) ∧
    (facGrowing s q = some op → ∃ t g', exec (.factorGrowth q) s = .next t ∧ t.group? op.gid = some g' ∧ ends t ∧ released g' ∧ g'.tile = g.tile ∧ (∀ a, readByte t a = readByte s a) ∧
      (∀ n, sg = .s n → g'.cellAt (keyS n.toNat) = growth which w T ⟨op.amax, op.amaxPoison⟩ g) ∧ (∀ key, (∀ n, sg = .s n → key ≠ keyS n.toNat) → g'.cellAt key = g.cellAt key))

/-! ## The copy engine (05 R91 to R107) -/

/-- CPY, GATHER and SCATTER, once the checks of R97 pass, start an operation of the core's copy engine with the layout record and the leader's operand block as read at issue, counted on wc (CPY) or wg, or announced to a task. No register has changed, the last-result file among them (08 R153), but the leader's poison flag where it read a poisoned source (08 R157). COPY_ENGINE_COMPLETE ends one with no row left, each element that still waited copied (05 R103): on its counter, or by one signal to its task; gangs that the full engine kept back may try again. -/
def Obligations.CopiesStartAndComplete : Prop :=
  (∀ (w : WA), ∀ p ∈ ([(.cpy w, false, if w.mod.getLsbD 0 then 1 else 0), (.gather w, true, 2), (.scatter w, true, 3)] : List (Instr × Bool × Nat)),
    ∀ s gid slice g a h, let u := usesCopy p.2.1 w s
    Issues p.1 w.g u s gid slice g a h → let e := mkEnv s gid g a h w.g u
      ∀ L, e.leader = some L →
      let ws := (e.sregs w.base 16).1; let r := layoutOf ws; let n := r.blockLen p.2.1; let part := s.part g.part; let toTask := w.target = 1#3; let ctr := if p.2.1 then 4 else 3
      let blk := (List.range n).map fun k => (e.rc w.opnd L k).get; let off := (wordAt blk 0).toNat; let ix := (wordAt blk (r.rank + 1)).toNat; let task := (e.r32 w.task L).w.toNat
      let poison := (e.sregs w.base 16).2 || (List.range n).any (fun k => (e.rc w.opnd L k).poison) || (w.target == 1#3 && (e.r32 w.task L).poison)
      (poison = false ∨ e.sr.trapPoison = false) → (p.2.1 = true → w.mod.getLsbD 0 = false) → ownCopy w = true → blockFits w.opnd n g.regs = true → r.fieldsOk p.2.1 = true → r.sizesOk = true →
      off % 16 = 0 → (p.2.1 = true → ix % 4 = 0 ∧ ix + 4 * r.b 1 ≤ part.spadSize g.core) → (toTask → part.hasTask task = true) →
      r.base.toNat % r.es = 0 → r.base.toNat < 2 ^ 57 → off + r.rows * r.pitch ≤ part.spadSize g.core →
      coreCopies s g.core < 64 → (¬ toTask → e.full ctr = false) →
      ∃ t g' id op, exec p.1 s = .next t ∧ t.group? gid = some g' ∧ AccessOnly gid g s t { s with copies := sset id op s.copies } ∧ RegistersOnly g g' ∧
        FlagsOnly e u (fun M => if poison = true ∧ M = L then poisonFlag else 0) g' ∧ g'.vp = g.vp ∧
        op.kind = p.2.2 ∧ op.gid = gid ∧ op.core = g.core ∧ op.ctx = g.ctx ∧ op.rec_ = ws ∧ op.blk = blk ∧ op.row = 0 ∧ op.seen = [] ∧ op.pend = [] ∧ op.old = [] ∧ op.tok = ctr ∧ op.task = (if w.target == 1#3 then some task else none) ∧
        g'.out = (if w.target == 1#3 then g.out else dropVoid ctr (g.out ++ [⟨ctr, id, false⟩]))) ∧
  (∀ (s : State) (id : Nat) (c : CopyOp) (g : Group), sget id s.copies = some c → (layoutOf c.rec_).rows ≤ c.row → (s.ctx c.ctx).st = .running → s.group? c.gid = some g →
    let copied (t : State) : Prop := let r := (c.settle (fun _ => true) s).2; (∀ b, readByte t b = readByte r b) ∧ t.memPoison = r.memPoison ∧ t.spad = r.spad ∧ t.spadPoison = r.spadPoison
    (c.task = none → c.tok = 4 ∨ (∃ x, g.oldest c.tok = some x ∧ x.id = id) →
      ∃ t g', exec (.copyEngineComplete id) s = .next t ∧ sget id t.copies = none ∧ t.group? c.gid = some g' ∧ g'.out = dropVoid c.tok (g.out.filter fun x => !(x.ctr == c.tok && x.id == id)) ∧ g'.rf = g.rf ∧ copied t) ∧
    (∀ n, c.task = some n → ∃ t, exec (.copyEngineComplete id) s = .next t ∧ sget id t.copies = none ∧ copied t ∧ (∀ j, Awake .copyFull s t j) ∧
      ∀ e, sget (taskKey c.core n) s.tasks = some e → e.st = .waiting → sget (taskKey c.core n) t.tasks = some (if e.count ≤ 1 then { e with count := 0, st := .spawning } else { e with count := e.count - 1 })))

/-- 05 R95, R96, R102: which scratchpad offset and which address element i0 of row (i1, i2, i3, i4) of a box has; an element outside the tensor has no address; a position at 2^64 or above keeps a bit above bit 56, so that it faults as 02 R18 has it (which bits its address shows: the model's choice, log 58). COPY_ENGINE_ROW takes every element of a row, in any order: it is copied at once, or waits to be copied, its source read now or then (05 R102, R104). Copied inbound, its place in the scratchpad holds its memory bytes, or the fill outside the tensor; outbound, an inside element's memory holds its scratchpad bytes; nothing else changes. -/
def Obligations.CopyRows : Prop :=
  (∀ (s : State) (op : CopyOp) (i : Nat → Nat), let r := layoutOf op.rec_
    op.kind < 2 → r.fieldsOk false = true → r.es ≤ 4 → (∀ d, i d < r.b d) →
    let row := i 1 + r.b 1 * (i 2 + r.b 2 * (i 3 + r.b 3 * i 4)); let c (d : Nat) : Int := (wordAt op.blk (d + 1)).toInt + i d
    let va : Int := r.base.toNat + ((List.range r.rank).map fun d => if d = 0 then c 0 * r.es else c d * nth r.stride d * 16).sum
    (rowPieces s op r row)[i 0]? = some ⟨i 0, (wordAt op.blk 0).toNat + row * r.pitch + swzOf r.swz (i 0 * r.es) row,
      if (List.range r.rank).all fun d => decide (0 ≤ c d) && decide (c d < nth r.dim d) then some (if va < 2 ^ 64 then BitVec.ofInt 64 va else BitVec.ofInt 64 va ||| 0xFE00000000000000#64) else none⟩) ∧
  (∀ (s : State) (id : Nat) (op : CopyOp) (at_ : DWord → Nat), let r := layoutOf op.rec_; let u := pieceLen r.es; let part := partOf op.ctx; let ps := rowPieces s op r op.row
    sget id s.copies = some op → (s.ctx op.ctx).st = .running → op.row < r.rows → (ps.map (·.k)).Nodup →
    (∀ p ∈ ps, ∀ va, p.va = some va → ∃ w, lookVa s op.core op.ctx va (if op.kind % 2 = 0 then .read else .write) false false = .at_ w ∧ w.node = 0 ∧ w.pas.headD 0 = at_ va) →
    let place (b : Nat) : Nat := spadPlace (s.part part) op.core b
    ∃ t op', exec (.copyEngineRow id) s = .next t ∧ sget id t.copies = some op' ∧ op' = { op with row := op.row + 1, seen := op'.seen, marked := op'.marked, pend := op'.pend } ∧ (∀ x ∈ op.pend, x ∈ op'.pend) ∧ t.groups = s.groups ∧
      let waits (p : Piece) (v : Nat) : Prop := ∃ x ∈ op'.pend, x.row = op.row ∧ ∃ y ∈ x.ps, y.p = p ∧ (x.unread = true ∨ y.val = v)
      (op.kind % 2 = 0 → (∀ b, readByte t b = readByte s b) ∧
        (∀ c, (∀ p ∈ ps, ∀ j, j < u → place (p.sp + j) ≠ c) → sget c t.spad = sget c s.spad) ∧
        (∀ p ∈ ps, p.sp % u = 0 → (∀ p' ∈ ps, p'.k ≠ p.k → ∀ x y, x < u → y < u → place (p'.sp + x) ≠ place (p.sp + y)) →
          let was := readSpad s part op.core p.sp u; let now := readSpad t part op.core p.sp u
          match p.va with
          | some va => now = readMem s (at_ va) u ∨ (now = was ∧ waits p (readMem s (at_ va) u))
          | none => if r.nofill then now = was else now = fillOf r p.k ∨ (now = was ∧ waits p (fillOf r p.k)))) ∧
      (op.kind % 2 = 1 → t.spad = s.spad ∧ (∀ b, (∀ p ∈ ps, ∀ va, p.va = some va → ¬ (at_ va ≤ b ∧ b < at_ va + u)) → readByte t b = readByte s b) ∧
        (∀ p ∈ ps, ∀ va, p.va = some va → (∀ p' ∈ ps, p'.k ≠ p.k → ∀ v', p'.va = some v' → at_ v' + u ≤ at_ va ∨ at_ va + u ≤ at_ v') →
          let data := readSpad s part op.core p.sp u
          readMem t (at_ va) u = data ∨ (readMem t (at_ va) u = readMem s (at_ va) u ∧ waits p data)))) ∧
  (∀ (s : State) (op : CopyOp) (x : CopyLate) (y : PieceVal) (w : Where), x.ps = [y] → y.w = some w → w.node = 0 →
    let u := pieceLen (layoutOf op.rec_).es; let t := (CopyLate.perform (op, s) x).2; let pa := w.pas.headD 0; let part := partOf op.ctx
    (op.kind % 2 = 0 → y.p.sp % u = 0 → readSpad t part op.core y.p.sp u = if x.unread then readMem s pa u else y.val % 2 ^ (8 * u)) ∧
    (op.kind % 2 = 1 → readMem t pa u = if x.unread then readSpad s part op.core y.p.sp u else y.val % 2 ^ (8 * u)))

/-! ## Collectives (19 R330 to R353) -/

/-- 19 R344: a poisoned register that traps comes first; then a register field that breaks R343 is ILLEGAL_OPERAND. -/
def Sys2Proof.Claims.FieldsFirst (i : Instr) (s : State) (gid slice : Nat) (g : Group) (e : Env) (poison : Bool) : Prop :=
  (poison = true → e.sr.trapPoison = true → ∀ L, e.leader = some L → exec i s = .next (issueTrap gid slice 0x08 (2 ^ L) 0 s).bump) ∧
  (ownComm i = false → poison = false ∨ e.sr.trapPoison = false ∨ e.lanes = [] → Halts i s gid g 0x02 0 0)

/-- CINIT takes the lowest free handle of the context, or answers 0xFFFFFFFF when there is none; a TAG in use, or a member list that does not hold this node once and every node once, ends in MISMATCH; with other members the entry is PENDING and each of them is sent this member's description. CSTART queues an instance on a READY communicator; nothing of it has been read or written yet (19 R350). CQUERY answers an item of an entry, FREE (4) and zeros for none; an item above 7 is ILLEGAL_OPERAND; its answer does not enter the last-result file (log 17). CFREE of no entry completes at once, and frees an entry that is neither PENDING nor at work. A poisoned register that traps comes before a register field that breaks R343 (19 R344). -/
def Obligations.CollectiveInstructions : Prop :=
  (∀ (w : WA) s gid slice g a h, let u : Uses := ⟨[(w.base, recLeft w.base, false)], [], [(w.task, 1)], [], true⟩
    Issues (.cinit w) w.g u s gid slice g a h → let e := mkEnv s gid g a h w.g u; let f := (e.sregs w.base 16).1; let me := Config.nodeId.toNat
    FieldsFirst (.cinit w) s gid slice g e (e.sregs w.base (recLeft w.base)).2 ∧ (ownComm (.cinit w) = true → e.lanes ≠ [] → (e.sregs w.base 16).2 = false ∨ e.sr.trapPoison = false → commOk f = true → (pairAt f 0).toNat % 4 = 0 → e.full 5 = false →
    ∀ ws, (∀ rem, readBlock rem g.core g.ctx false (pairAt f 0) (commSize f) s = .ok ws) → firstPoison ws = none →
      let nodes := ws.map fun v => v.val.toNat % 2 ^ 21; let others := nodes.filter (· != me); let x := s.ctx g.ctx
      ∃ t g', exec (.cinit w) s = .next t ∧ t.group? gid = some g' ∧ (∀ b, readByte t b = readByte s b) ∧ (∀ j, j ≠ gid → t.group? j = s.group? j) ∧
        ((∀ k, k < 64 → x.comm? k ≠ none) → (∀ n, w.task = .s n → g'.cellAt (keyS n.toNat) = ⟨0xFFFFFFFF, false, 0⟩) ∧ (t.ctx g.ctx).comms = x.comms) ∧
        (∀ k, k < 64 → x.comm? k = none → (∀ j, j < k → x.comm? j ≠ none) →
          (∀ n, w.task = .s n → g'.cellAt (keyS n.toNat) = ⟨BitVec.ofNat 32 k, false, 0⟩) ∧
          let wrong := (x.comms.any fun p => commTag p.2.fields == commTag f && (p.2.st == .pending || p.2.st == .ready)) || nodes.count me != 1 || nodes.eraseDups.length != nodes.length
          ∃ m, (t.ctx g.ctx).comm? k = some m ∧ m.fields = f ∧ m.members = nodes ∧ m.nextInst = 0 ∧ m.insts = [] ∧
            (wrong = true → m.st = .mismatch) ∧
            (wrong = false → others ≠ [] → m.st = .pending ∧ m.arrived = [] ∧ m.deadline = (if commTmo f = 0 then none else some (s.tsc + BitVec.ofNat 64 (1000 * commTmo f))) ∧
              t.out.comms = s.out.comms ++ others.map fun n => (n, ⟨commTag f, me, f, nodes, myCaps, m.lverHere s, false⟩))))) ∧
  (∀ (w : WA) s gid slice g a h, let toTask := w.target == 1#3; let next16 : Opd := match w.base with | .s n => .s (n + 16) | o => o
    let u : Uses := ⟨[(w.base, if recLeft w.base == 0 then 0 else blockLeft w.base 32, false), (w.task, 1, false)] ++ (if toTask then [(w.opnd, 1, false)] else []), [], [], [], true⟩
    Issues (.cstart w) w.g u s gid slice g a h → let e := mkEnv s gid g a h w.g u; let c := g.ctx
    let poison := (e.sregs w.base (recLeft w.base)).2 || (e.sregs next16 (match w.base with | .s n => if n.toNat ≤ 96 then recLeft next16 else 0 | _ => 0)).2 || (e.r32 w.task e.lead).poison || (toTask && (e.r32 w.opnd e.lead).poison)
    FieldsFirst (.cstart w) s gid slice g e poison ∧ (ownComm (.cstart w) = true →
    ∀ L, e.leader = some L → let A := shardOf (e.sregs w.base 16).1; let B := shardOf (e.sregs next16 16).1
      let bad := (e.sregs w.base 16).2 || (e.sregs next16 16).2 || (e.r32 w.task L).poison || (toTask && (e.r32 w.opnd L).poison)
      let k := (e.r32 w.task L).w.toNat; let task := (e.r32 w.opnd L).w.toNat
      ∀ m x ax, bad = false ∨ e.sr.trapPoison = false → k < 64 → A.ok = true → B.ok = true → (toTask = true → (s.part g.part).hasTask task = true) → exchange A B = some (x, ax) →
      (s.ctx c).comm? k = some m → A.divides m.fields = true → B.divides m.fields = true → A.base.toNat % A.es = 0 → B.base.toNat % B.es = 0 →
      m.st = .ready → m.cfree = [] → ((A.wire = 1 ∨ A.wire = 3) → 2 ≤ m.lver) → (A.wire = 2 → 3 ≤ m.lver) → (commSlot m.fields = true → 2 ≤ m.lver) → A.axesIn m.fields = true → B.axesIn m.fields = true → (toTask = false → e.full 5 = false) →
      ∃ t g', exec (.cstart w) s = .next t ∧ t.group? gid = some g' ∧
        (∃ m' i, (t.ctx c).comm? k = some m' ∧ m'.insts = m.insts ++ [i] ∧ m'.nextInst = (m.nextInst + 1) % 65536 ∧ i.num = m.nextInst ∧ i.gid = gid ∧ i.fixed = false ∧ i.next = 0 ∧ i.since = s.turn ∧ i.pend = [] ∧
          i.src = (e.sregs w.base 16).1 ∧ i.dst = (e.sregs next16 16).1 ∧ i.task = (if toTask then some task else none) ∧ m'.lastAlg = algOf x m.slot ∧
          g'.out = (if toTask then g.out else dropVoid 5 (g.out ++ [⟨5, i.tok, false⟩])) ∧ (∀ b, readByte t b = readByte s b) ∧ (∀ key, key ∉ touched e u → g'.cellAt key = g.cellAt key)))) ∧
  (∀ (w : WA) s gid slice g a h, let u : Uses := ⟨[(w.task, 1, false)], [], [(w.opnd, 1)], [], true⟩
    Issues (.cquery w) w.g u s gid slice g a h → let e := mkEnv s gid g a h w.g u
    FieldsFirst (.cquery w) s gid slice g e (e.r32 w.task e.lead).poison ∧ (ownComm (.cquery w) = true →
    ∀ L, e.leader = some L → let k := (e.r32 w.task L).w.toNat; (e.r32 w.task L).poison = false ∨ e.sr.trapPoison = false → k < 64 → (7 < w.imm.toNat → Halts (.cquery w) s gid g 0x02 0 0) ∧ (w.imm.toNat ≤ 7 →
      let v : Word := BitVec.ofNat 32 (match (s.ctx g.ctx).comm? k with
        | none => if w.imm = 0 then 4 else 0
        | some m => match w.imm.toNat with
          | 0 => (match m.st with | .pending => 0 | .ready => 1 | .timeout => 2 | .mismatch => 3 | .free => 4)
          | 1 => m.contract | 2 => if m.st = .ready then m.slot else 0 | 3 => m.lver | 4 => m.me | 5 => m.members.length | 6 => m.nextInst
          | _ => (match m.insts.getLast? with | some i => if i.fixed then i.alg else m.alg | none => m.lastAlg))
      ∃ t g', exec (.cquery w) s = .next t ∧ t.group? gid = some g' ∧ GroupOnly gid g s t ∧ RegistersOnly g g' ∧ (∀ key, key ∉ touched e u → g'.cellAt key = g.cellAt key) ∧ LastKept e g' ∧
        ∀ M ∈ e.lanes, ∀ key, opdKey? w.opnd M 0 = some key → g'.cellAt key = ⟨v, false, 0⟩))) ∧
  (∀ (w : WA) s gid slice g a h, let u : Uses := ⟨[(w.task, 1, false)], [], [], [], true⟩
    Issues (.cfree w) w.g u s gid slice g a h → let e := mkEnv s gid g a h w.g u
    FieldsFirst (.cfree w) s gid slice g e (e.r32 w.task e.lead).poison ∧ (ownComm (.cfree w) = true →
    ∀ L, e.leader = some L → let k := (e.r32 w.task L).w.toNat; (e.r32 w.task L).poison = false ∨ e.sr.trapPoison = false → k < 64 → e.full 5 = false →
      ∃ t g', exec (.cfree w) s = .next t ∧ t.group? gid = some g' ∧ (∀ b, readByte t b = readByte s b) ∧ (∀ key, key ∉ touched e u → g'.cellAt key = g.cellAt key) ∧
        ((s.ctx g.ctx).comm? k = none → (t.ctx g.ctx).comms = (s.ctx g.ctx).comms ∧ ∃ id, g'.out = dropVoid 5 (g.out ++ [⟨5, id, true⟩])) ∧
        (∀ m, (s.ctx g.ctx).comm? k = some m →
          (m.st = .timeout ∨ m.st = .mismatch ∨ (m.st = .ready ∧ m.insts = []) → (t.ctx g.ctx).comm? k = none) ∧
          (m.st = .pending ∨ (m.st = .ready ∧ m.insts ≠ []) → ∃ m' id, (t.ctx g.ctx).comm? k = some m' ∧ m'.cfree = m.cfree ++ [(gid, id)] ∧ m' = { m with cfree := m'.cfree } ∧ g'.out = dropVoid 5 (g.out ++ [⟨5, id, false⟩])))))

/-- Negotiation, slots, chunks and completion: what each message or decision does to the communicator it concerns. The spec gives the outcome of a negotiation and no wire protocol: that members tell one another twice, and the answer to a description that comes after all have arrived, is the model's (DESIGN CHOICE, log 10), and so is the time of a slot decision (log 54). A chunk of the next instance is kept with the links that were down as it came (19 R349). What a chunk stores is performed now or later, and before its instance completes (19 R350). -/
def Obligations.CollectiveEvents : Prop :=
  (∀ (s : State) (c : Nat) (x : CommMsg) (k : Nat) (m : Comm), pendingOn (s.ctx c) x.tag = some (k, m) → (s.ctx c).comm? k = some m → m.cfree = [] →
    let agrees := x.fields.drop 2 = m.fields.drop 2 ∧ x.members = m.members ∧ x.node ∈ m.members
    let told := if x.all = true ∧ x.node ∉ m.told then m.told ++ [x.node] else m.told
    let ends (m' : Comm) : Prop := if commSlot m.fields = true ∧ 2 ≤ m'.lver then (match m.decided with | none => m'.st = .pending ∧ m'.slot = 3 | some ok => m'.st = .ready ∧ m'.slot = if ok then 1 else 2) else m'.st = .ready ∧ m'.slot = 0
    -- a description that differs: MISMATCH, and every member reached is told; one that comes after all have arrived is only answered
    (¬ agrees → commFull m = false → ∃ t m', exec (.commNegotiate c x) s = .next t ∧ (t.ctx c).comm? k = some m' ∧ m'.st = .mismatch ∧
      t.out.aborts = s.out.aborts ++ (x.node :: m.arrived.map (·.node)).map fun n => (n, commTag m.fields, true)) ∧
    (¬ agrees → commFull m = true → ∃ t, exec (.commNegotiate c x) s = .next t ∧ t.out = { s.out with aborts := s.out.aborts ++ [(x.node, x.tag, true)] } ∧ t = { s with out := t.out, parts := t.parts, free := t.free }) ∧
    (agrees → x.node ≠ Config.nodeId.toNat →
      -- it has arrived, and others are still missing
      (∀ y ∈ m.arrived, y.node ≠ x.node) → commFull m = false →
      ∃ t m', exec (.commNegotiate c x) s = .next t ∧ (t.ctx c).comm? k = some m' ∧ m'.arrived = m.arrived ++ [x] ∧ m'.told = told ∧
        (m.arrived.length + 2 < m.members.length → m' = { m with arrived := m.arrived ++ [x], told := told }) ∧
        -- it is the last: the contract is the highest all hold, LVER the lowest, and the others are told
        (m.members.length ≤ m.arrived.length + 2 →
          (∀ n, n ∈ myCaps → (∀ y ∈ m.arrived ++ [x], n ∈ y.caps) → n ≤ m'.contract) ∧ m'.lver ≤ x.lver ∧ m'.lver ≤ m.lverHere s ∧ m'.deadline = none ∧
          t.out.comms = s.out.comms ++ (m.members.filter (· != Config.nodeId.toNat)).map (fun n => (n, ⟨commTag m.fields, Config.nodeId.toNat, m.fields, m.members, myCaps, m.lverHere s, true⟩)) ∧
          (told.length + 1 < m.members.length → m'.st = .pending ∧ m'.slot = m.slot) ∧ (m.members.length ≤ told.length + 1 → ends m'))) ∧
    -- every member has arrived at every member: READY, once a requested slot is decided
    (agrees → x.node ≠ Config.nodeId.toNat → commFull m = true → (∃ y ∈ m.arrived, y.node = x.node) → x.all = true → x.node ∉ m.told → m.told.length + 2 = m.members.length →
      ∃ t m', exec (.commNegotiate c x) s = .next t ∧ (t.ctx c).comm? k = some m' ∧ m'.lver = m.lver ∧ m'.contract = m.contract ∧ ends m')) ∧
  (∀ (s : State) (c : Nat) (tag : BitVec 32) (mis : Bool) (k : Nat) (m : Comm), pendingOn (s.ctx c) tag = some (k, m) → m.cfree = [] →
    ∃ t m', exec (.commAbortNotice c tag mis) s = .next t ∧ (t.ctx c).comm? k = some m' ∧ m'.st = if mis then .mismatch else .timeout) ∧
  (∀ (s : State) (c k : Nat) (m : Comm) (d : DWord), (s.ctx c).comm? k = some m → m.deadline = some d → m.st = .pending → d.toNat ≤ s.tsc.toNat → commFull m = false → m.cfree = [] →
    ∃ t m', exec (.commTimeout c k) s = .next t ∧ (t.ctx c).comm? k = some m' ∧ m'.st = .timeout ∧ t.out.aborts = s.out.aborts ++ m.arrived.map fun y => (y.node, commTag m.fields, false)) ∧
  (∀ (s : State) (sw : Nat) (r : SlotReq), ∃ t, exec (.slotRequest sw r) s = .next t ∧ (t.switch sw).reqs = (s.switch sw).reqs ++ [{ r with arrived := s.tsc }] ∧ t.groups = s.groups ∧ t.ctxs = s.ctxs) ∧
  (∀ (s : State) (sw : Nat) (r : SlotReq), (s.switch sw).reqs = [r] → r.ts.toNat + 10000 ≤ s.tsc.toNat → r.arrived.toNat ≤ s.tsc.toNat →
    (∀ p ∈ s.ctxs, ∀ q ∈ p.2.comms, slotOwner p.1 (commTag q.2.fields) = r.owner → q.2.cfree = []) →
    ∃ t, exec (.slotDecision sw) s = .next t ∧ (t.switch sw).reqs = [] ∧
      (t.switch sw).granted = (if (s.switch sw).granted.length < Config.switchSlots sw then r.owner :: (s.switch sw).granted else (s.switch sw).granted)) ∧
  (∀ (s : State) (sw owner : Nat), owner ∈ (s.switch sw).granted → (∀ p ∈ s.ctxs, ∀ q ∈ p.2.comms, slotOwner p.1 (commTag q.2.fields) = owner → ∀ i ∈ q.2.insts, i.fixed = false ∨ i.alg ≠ 1) →
    ∃ t, exec (.slotReclaim sw owner) s = .next t ∧ (t.switch sw).granted = (s.switch sw).granted.erase owner ∧ t.groups = s.groups) ∧
  (∀ (s : State) (c : Nat) (ch : Chunk) (k : Mer), (s.ctx c).st = .running → merOf s c ch.h = some k →
    (ch.inst = (k.i.num + 1) % 65536 → ch.inst ≠ k.i.num → commPersist k.m.fields = true → k.m.lver = 3 →
      ∃ t m', exec (.chunkReceive c ch) s = .next t ∧ (t.ctx c).comm? ch.h = some m' ∧ m'.shadow = k.m.shadow ++ [(ch, k.m.members.filter (linkLost s))] ∧ (∀ b, readByte t b = readByte s b)) ∧
    (∀ x, ch.inst = k.i.num → k.chunks.find? (fun y => y.num == ch.num) = some x → (2 * ch.num + if ch.fin then 1 else 0) ∈ k.expected → (2 * ch.num + if ch.fin then 1 else 0) ∉ k.i.got →
      linkLost s (if k.x == .allToAll then k.node x.src else k.node (k.r + k.s - 1)) = false →
      (ch.linkUp = true → ch.resent = false → ch.crc ≠ chunkCrc ch.inst ch.num ch.hop ch.payload →
        ∃ t, exec (.chunkReceive c ch) s = .next t ∧ (∀ b, readByte t b = readByte s b) ∧ t.out.resend = s.out.resend ++ [(ch.h, k.i.num, ch.num)]) ∧
      (ch.fin = true → ch.linkUp = true → ch.crc = chunkCrc ch.inst ch.num ch.hop ch.payload →
        ∀ vs t0, collWrite k.i.tok (4096 * ch.num + 2048) k.i.core c k.b.es (k.dstAddr x) (widen k.a.wire k.wide x.elems.length ch.payload) s = .stores vs t0 →
        ∃ (t : State) (m' : Comm) (i : CInst) (l : List (SeqStore × Bool)), exec (.chunkReceive c ch) s = .next t ∧
          l.map (·.1) = k.i.pend ++ vs ∧ l.Pairwise (fun x y => x.1.meets y.1 = true → y.2 = true → x.2 = true) ∧ i.pend = (l.filter (!·.2)).map (·.1) ∧
          (∀ b, readByte t b = readByte (((l.filter (·.2)).map (·.1)).foldl (SeqStore.perform (partOf c) k.i.core) t0) b) ∧ (t.ctx c).comm? ch.h = some m' ∧ m'.insts.head? = some i ∧ i.got = (2 * ch.num + 1) :: k.i.got))) ∧
  (∀ (s : State) (c h inst n peer : Nat) (m : Comm) (i : CInst) (ch : Chunk), (s.ctx c).comm? h = some m → m.insts.find? (·.num == inst) = some i →
    ((s.ctx c).st ≠ .running → exec (.chunkResendRequest c h inst n) s = .next s) ∧
    ((s.ctx c).st = .running → i.sent.find? (fun p => p.2.num == n) = some (peer, ch) → ∃ t, exec (.chunkResendRequest c h inst n) s = .next t ∧ t.out.chunks = s.out.chunks ++ [(peer, { ch with resent := true })] ∧ (∀ b, readByte t b = readByte s b)) ∧
    (∃ t m', exec (.chunkAck c h inst n) s = .next t ∧ (t.ctx c).comm? h = some m' ∧ (∀ j ∈ m'.insts, j.num = inst → n ∉ j.unacked) ∧ t.groups = s.groups)) ∧
  (∀ (s : State) (c h : Nat) (k : Mer) (g : Group), merOf s c h = some k → (s.ctx c).st = .running → k.duties.length ≤ k.i.next → (∀ x ∈ k.expected, x ∈ k.i.got) → k.i.unacked = [] → k.m.insts.length = 1 → k.m.cfree = [] →
    k.i.task = none → s.group? k.i.gid = some g →
    ∃ t m' g', exec (.instanceComplete c h k.i.num) s = .next t ∧ (t.ctx c).comm? h = some m' ∧ m'.insts = [] ∧ (∀ b, readByte t b = readByte (k.i.pend.foldl (SeqStore.perform (partOf c) k.i.core) s) b) ∧ t.group? k.i.gid = some g' ∧
      g'.out = dropVoid 5 (g.out.map fun x => if x.ctr == 5 && x.id == k.i.tok then { x with fin := true } else x))

/-! ## Tasks, barriers and launches (21 R355 to R373; 22 R389 to R398; 23 R400 to R407) -/

/-- TDEF writes a waiting entry, or a spawning one for a count of 0; TSIG is one signal; TASK_SPAWN starts the entry's group with its arguments, whose contract tags are 0 (07 R147). BAR of a group that stands whole arrives once, and the arrival that makes up the expected count releases every held group and starts a registered continuation that has room (21 R369); a scope or a number that 22 R389 refuses is ILLEGAL_OPERAND; BARC ends its group and leaves a continuation. GROUP_END ends a group whose lanes have all exited and whose counters are down. -/
def Obligations.TasksAndBarriers : Prop :=
  (∀ (w : WA) s gid slice g a h, let u : Uses := ⟨[(w.base, 4, false), (w.task, 1, false)], [], [], [], true⟩
    Issues (.tdef w) w.g u s gid slice g a h → let e := mkEnv s gid g a h w.g u
    ∀ L, e.leader = some L → let ws := (e.sregs w.base 4).1; let n := (e.r32 w.task L).w.toNat; let p := s.part g.part
      let entry := (wordAt ws 0).toNat + 2 ^ 32 * (wordAt ws 1).toNat; let c := (wordAt ws 2).toNat; let d := (wordAt ws 3).toNat; let argOff := c % 2 ^ 23; let argN := c / 2 ^ 23 % 256
      ((e.sregs w.base 4).2 = false ∧ (e.r32 w.task L).poison = false) ∨ e.sr.trapPoison = false → p.hasTask n = true →
      (∀ t, sget (taskKey g.core n) s.tasks = some t → t.st = .free) → c < 2 ^ 31 → d / 64 % 1024 = 0 → argN ≤ 128 → d / 16 % 4 ≠ 3 → 1 ≤ d % 16 → d % 16 ≤ 8 →
      entry % 8 = 0 → entry < 2 ^ 57 → argOff % 4 = 0 → argOff + 4 * argN ≤ p.spadSize g.core →
      ∃ t g' x, exec (.tdef w) s = .next t ∧ t.group? gid = some g' ∧ AccessOnly gid g s t { s with tasks := sset (taskKey g.core n) x s.tasks } ∧ RegistersOnly g g' ∧
        (∀ key, key ∉ touched e u → g'.cellAt key = g.cellAt key) ∧ g'.out = g.out ∧
        x.st = (if d / 65536 = 0 then .spawning else .waiting) ∧ x.entry.toNat = entry ∧ x.slices = d % 16 ∧ x.role = d / 16 % 4 ∧ x.argOff = argOff ∧ x.argN = argN ∧ x.count = d / 65536 ∧
        x.lid = g.lid ∧ x.ctx = g.ctx ∧ x.wgx = g.wgx ∧ x.wgy = g.wgy ∧ x.wgz = g.wgz ∧ x.cx = g.cx ∧ x.cy = g.cy) ∧
  (∀ (w : WA) s gid slice g a h, let u : Uses := ⟨[(w.task, 1, false)], [], [], [], true⟩
    Issues (.tsig w) w.g u s gid slice g a h → let e := mkEnv s gid g a h w.g u
    ∀ L, e.leader = some L → let n := (e.r32 w.task L).w.toNat; (e.r32 w.task L).poison = false ∨ e.sr.trapPoison = false → (s.part g.part).hasTask n = true →
      ∃ t g', exec (.tsig w) s = .next t ∧ t.group? gid = some g' ∧ AccessOnly gid g s t { s with tasks := t.tasks } ∧ RegistersOnly g g' ∧ (∀ key, key ∉ touched e u → g'.cellAt key = g.cellAt key) ∧
        (∀ x, sget (taskKey g.core n) s.tasks = some x → sget (taskKey g.core n) t.tasks = some (if x.st = .waiting then (if x.count ≤ 1 then { x with count := 0, st := .spawning } else { x with count := x.count - 1 }) else x)) ∧
        (∀ k, k ≠ taskKey g.core n → sget k t.tasks = sget k s.tasks)) ∧
  (∀ (s : State) (core n quad : Nat) (x : TaskEntry) (l : Launch), sget (taskKey core n) s.tasks = some x → sget x.lid s.launches = some l → x.st = .spawning → (s.ctx x.ctx).st = .running →
    coreOf quad = core → quadFits s (partOf x.ctx) quad l.rec_.regs l.rec_.tiles = true → x.argN ≤ 128 →
    ∃ t gid g, exec (.taskSpawn core n quad) s = .next t ∧ t.group? gid = some g ∧ sget (taskKey core n) t.tasks = none ∧ g.quad = quad ∧ g.nsl = x.slices ∧ g.grp = 0 ∧ g.ngrp = 1 ∧
      g.gangs = [Gang.start x.slices x.entry s.clk] ∧ g.sr = SRegs.start (BitVec.ofNat 32 x.role) (BitVec.ofNat 32 l.rec_.contract) ∧ g.wgx = x.wgx ∧ g.cx = x.cx ∧ g.lid = x.lid ∧ sget g.wk t.wgs = some ⟨x.lid, core, 1, s.tsc.toNat⟩ ∧
      (∀ k, k < x.argN → g.cellAt (keyS k) = (let y := spadPWord s (partOf x.ctx) core (x.argOff + 4 * k); cell y.val y.poison 0)) ∧
      (∀ k, x.argN ≤ k → k < 128 → g.cellAt (keyS k) = ⟨0, false, 0⟩) ∧ (∀ L k, L < 32 → k < 256 → g.cellAt (keyV L k) = ⟨0, true, 0⟩)) ∧
  (∀ (w : WA) s gid slice g a h, let id := w.imm.toNat % 8; let named := decide (w.base ≠ .z); let u : Uses := ⟨if w.base == .z then [] else [(w.base, 1, false)], [], [], [], true⟩
    Issues (.bar w) w.g u s gid slice g a h → let e := mkEnv s gid g a h w.g u
    ∀ L, e.leader = some L → let n := (e.r32 w.base L).w.toNat; let b := s.bar g.wk id; let want := if named then n else s.members g.wk
      (named = true → ((e.r32 w.base L).poison = false ∨ e.sr.trapPoison = false) ∧ 1 ≤ n ∧ n ≤ 32) → gid < s.nextId →
      ((Instr.bar w).ownOk = false → Halts (.bar w) s gid g 0x02 0 0) ∧ ((Instr.bar w).ownOk = true → g.partings = [] → g.gangs.length = 1 →
      (b.arrived ≠ 0 → b.named = if named then some n else none) →
      ∃ t g', exec (.bar w) s = .next t ∧ t.group? gid = some g' ∧ (∀ key, key ∉ touched e u → g'.cellAt key = g.cellAt key) ∧ g'.out = g.out ∧ g'.sr = g.sr ∧ (∀ x, readByte t x = readByte s x) ∧
        (b.arrived + 1 < want → t.bar g.wk id = ⟨b.arrived + 1, if named then some n else none, b.phase⟩ ∧ ∀ x ∈ g'.gangs, x.hold = .bar id ∨ ∃ r, x.hold = .atHeader r) ∧
        (want ≤ b.arrived + 1 → t.bar g.wk id = ⟨0, none, b.phase + 1⟩ ∧ (∀ x ∈ g'.gangs, x.hold ≠ .bar id) ∧ ∀ j g1, t.group? j = some g1 → g1.wk = g.wk → ∀ x ∈ g1.gangs, x.hold ≠ .bar id) ∧
        (∀ key c l, want ≤ b.arrived + 1 → s.conts = [(key, c)] → c.wk = g.wk → c.bar = id → (s.ctx c.ctx).st = .running → sget c.lid s.launches = some l → quadFits s (partOf c.ctx) c.quad l.rec_.regs l.rec_.tiles = true →
          t.conts = [] ∧ ∃ j g2, t.group? j = some g2 ∧ g2.gangs = [Gang.start c.nsl c.entry s.clk] ∧ g2.grp = c.grp ∧ g2.wk = g.wk ∧ g2.quad = c.quad))) ∧
  (∀ (w : WA) s gid slice g a h, let id := w.imm.toNat % 8; let u : Uses := ⟨(if w.base == .z then [] else [(w.base, 1, false)]) ++ [(w.opnd, 2, false)], [], [], [], true⟩
    Issues (.barc w) w.g u s gid slice g a h → let e := mkEnv s gid g a h w.g u
    ∀ L, e.leader = some L → let v := e.rN w.opnd 2 L; let b := s.bar g.wk id
      w.base = .z → v.poison = false → ((Instr.barc w).ownOk = false → Halts (.barc w) s gid g 0x02 0 0) ∧ ((Instr.barc w).ownOk = true → v.val.toNat % 8 = 0 → g.partings = [] → g.gangs.length = 1 → g.drained = true → b.arrived + 1 < s.members g.wk → (b.arrived ≠ 0 → b.named = none) → (∀ p ∈ s.conts, p.2.ready = false) →
      ∃ t c, exec (.barc w) s = .next t ∧ t.group? gid = none ∧ sget s.nextId t.conts = some c ∧ t.bar g.wk id = ⟨b.arrived + 1, none, b.phase⟩ ∧ t.members g.wk = s.members g.wk ∧
        c.entry = v.val ∧ c.nsl = g.nsl ∧ c.grp = g.grp ∧ c.role = g.sr.role ∧ c.ctr = g.sr.ctr ∧ c.wk = g.wk ∧ c.bar = id ∧ c.ready = false ∧
        (∀ k x, k < 128 → ((k, x) ∈ c.sregs ↔ x = g.cellAt (keyS k) ∧ x ≠ ⟨0, false, 0⟩)))) ∧
  (∀ (s : State) (gid : Nat) (g : Group), s.group? gid = some g → g.gangs ≠ [] → (∀ x ∈ g.gangs, x.hold = .exiting) → g.drained = true → (s.ctx g.ctx).st = .running → s.conts = [] →
    ∃ t, exec (.groupEnd gid) s = .next t ∧ t.group? gid = none ∧ (∀ j, j ≠ gid → (t.group? j).isSome = (s.group? j).isSome) ∧
      (∀ wg, sget g.wk s.wgs = some wg → sget g.wk t.wgs = if wg.members ≤ 1 then none else some { wg with members := wg.members - 1 }))

/-- LAUNCH hands its record and its tables, read before any status is known (22 R397), to the distributor and waits; SELSCHED selects the first schedule entry that covers an extent; a predicate number of 12 to 14 is ILLEGAL_OPERAND. LAUNCH_RECORD_ACCEPT takes the next record of the source in turn: a refused one is counted with its code (an invalid record or table 1, no fit 2, a read that faults or is poisoned 3; 23 R405) and reported as event 4, and starts nothing; an accepted one enters the launches. How much of an invalid record's tables LAUNCH reads is the model's choice (log 33), and so is that LAUNCH and SELSCHED leave l0 and l1 (log 17). WORKGROUP_START starts the next workgroup of a virtual core; the first is where its launch starts (12 R253). LAUNCH_COMPLETE counts a launch in its queue once every workgroup of it has started and no group, continuation, task, copy or collective of it is left (21 R370), and not before; that a task defined and never spawned keeps its launch from completing is one reading of R370 (DEDUCED, log 34). That the distributor reads through core 0 (log 36) and the SRC of the REFUSED event (log 52) are the model's too. -/
def Obligations.Launches : Prop :=
  (∀ (w : WA) s gid slice g a h, let withTask := w.target == 1#3; let u : Uses := ⟨[(w.base, 2, false)] ++ (if withTask then [(w.task, 1, false)] else []), [], [(w.opnd, 1)], [], true⟩
    Issues (.launch w) w.g u s gid slice g a h → let e := mkEnv s gid g a h w.g u
    ∀ L, e.leader = some L → let va := (e.rN w.base 2 L).val
      ((e.rN w.base 2 L).poison = false ∧ (withTask = true → (e.r32 w.task L).poison = false)) ∨ e.sr.trapPoison = false → (withTask = true → (s.part g.part).hasTask (e.r32 w.task L).w.toNat = true) →
      va.toNat % 64 = 0 → ∀ ws tab, (∀ rem, readBlock rem g.core g.ctx e.sys va 64 s = .ok ws) → firstPoison ws = none →
      let r := parseRec (pwBytes ws)
      (∀ rem, readTables rem g.core g.ctx r.capped s = .ok tab) →
      let bad := (e.rN w.base 2 L).poison || (withTask && (e.r32 w.task L).poison)
      ∃ t g' q, exec (.launch w) s = .next t ∧ t.group? gid = some g' ∧ AccessOnly gid g s t { s with ctxs := t.ctxs } ∧ RegistersOnly g g' ∧
        FlagsOnly e u (fun M => if bad = true ∧ M = L then poisonFlag else 0) g' ∧ g'.vp = g.vp ∧ g'.out = g.out ∧ (∀ c, c ≠ g.ctx → t.ctx c = s.ctx c) ∧
        t.ctx g.ctx = { s.ctx g.ctx with devq := (s.ctx g.ctx).devq ++ [q] } ∧ q.ctx = g.ctx ∧ q.slices = a.slices ∧ q.rec_ = r ∧ q.gid = gid ∧ q.dst = w.opnd ∧ q.lanes = e.mask ∧ q.consts = tab.consts ∧ q.pre = tab.pre ∧
        q.task = (if withTask then some (g.core, (e.r32 w.task L).w.toNat) else none) ∧ (∀ x, g'.gang? slice = some x → x.hold = .launch)) ∧
  (∀ (w : WA) s gid slice g a h, let n := w.imm.toNat % 16; let u : Uses := ⟨[(w.task, 1, false)], [], [(w.opnd, 2)], [n], true⟩
    Issues (.selsched w) w.g u s gid slice g a h → let e := mkEnv s gid g a h w.g u
    ∀ L l, e.leader = some L → let x := e.r32 w.task L; x.poison = false ∨ e.sr.trapPoison = false → ((Instr.selsched w).ownOk = false → Halts (.selsched w) s gid g 0x02 0 0) ∧ ((Instr.selsched w).ownOk = true → sget g.lid s.launches = some l →
      let hit := l.rec_.sched.find? fun p => decide (x.w.toNat ≤ p.2)
      ∃ t g', exec (.selsched w) s = .next t ∧ t.group? gid = some g' ∧ GroupOnly gid g s t ∧ RegistersOnly g g' ∧ (∀ key, key ∉ touched e u → g'.cellAt key = g.cellAt key) ∧ LastKept e g' ∧
        FlagsSet e (fun M => if x.poison = true ∧ M = L then poisonFlag else 0) g' ∧
        Holds e 2 w.opnd (fun _ => ⟨match hit with | some p => p.1 | none => 0, x.poison⟩) g' ∧ (n ≠ 15 → ∀ M ∈ e.lanes, g'.cellAt (keyP M n) = cell (if hit.isSome then 1 else 0) x.poison))) ∧
  (∀ (s : State) (c q : Nat), q < 4 → (s.ctx c).lq.length = 4 → (s.ctx c).st = .running → inTurn s c = some q → let l := (s.ctx c).queue q
    let refusedWith (code : BitVec 8) : Prop := ∃ t, exec (.launchRecordAccept c q) s = .next t ∧ ((t.ctx c).queue q).acc = l.acc + 1 ∧ ((t.ctx c).queue q).err = true ∧ ((t.ctx c).queue q).code = code ∧ ((t.ctx c).queue q).idx = l.acc ∧
        t.launches = s.launches ∧ t.groups = s.groups ∧ (∀ b, readByte t b = readByte s b) ∧ (l.done = [] → l.cpl = l.acc → ((t.ctx c).queue q).cpl = l.cpl + 1) ∧
        ∃ before after, (s.part (partOf c)).evq = before ++ after ∧ (t.part (partOf c)).evq = before ++ ⟨s.tsc, srcNum 0 0xF, 0, 4, 0, c, q * 65536 + l.acc.toNat⟩ :: after
    let slot := l.slot l.acc.toNat
    ((∀ rem, ∃ x d a, readBlock rem 0 c false slot 64 s = .fault x d a) → refusedWith 3) ∧
    ∀ ws, (∀ rem, readBlock rem 0 c false slot 64 s = .ok ws) → let r := parseRec (pwBytes ws)
      (firstPoison ws ≠ none → refusedWith 3) ∧ (firstPoison ws = none →
      (r.fieldsOk = false → refusedWith 1) ∧
      (r.fieldsOk = true → (∀ rem, ∃ x d a, readTables rem 0 c r s = .fault x d a) → refusedWith 3) ∧
      ∀ tab, r.fieldsOk = true → (∀ rem, readTables rem 0 c r s = .ok tab) →
        (tab.valid (s.part (partOf c)) = false → refusedWith 1) ∧ (tab.valid (s.part (partOf c)) = true →
        (∀ code map, mapLaunch s (partOf c) r = (code, map) → code ≠ 0 → refusedWith (BitVec.ofNat 8 code)) ∧
        (∀ map, mapLaunch s (partOf c) r = (0, map) →
        ∃ t lid x, exec (.launchRecordAccept c q) s = .next t ∧ ((t.ctx c).queue q).acc = l.acc + 1 ∧ ((t.ctx c).queue q).cpl = l.cpl ∧ ((t.ctx c).queue q).err = l.err ∧ sget lid t.launches = some x ∧
          x.rec_ = r ∧ x.ctx = c ∧ x.queue = q ∧ x.index = l.acc.toNat ∧ x.dev = none ∧ x.map = map ∧ (∀ v, v < r.w * r.h → x.started[v]? = some 0) ∧ t.groups = s.groups)))) ∧
  (∀ (s : State) (c : Nat) (q : DevReq) (rest : List DevReq) (g : Group), (s.ctx c).st = .running → inTurn s c = some 4 → (s.ctx c).devq = q :: rest → s.group? q.gid = some g → q.dst.isS = false →
    ∃ t g', exec (.launchRecordAccept c 4) s = .next t ∧ (t.ctx c).devq = rest ∧ t.group? q.gid = some g' ∧ (∀ x k, g.gangs = [x] → x.hold = .launch → k ∈ x.slices → k ∈ q.slices → ∀ y ∈ g'.gangs, y.hold ≠ .launch) ∧
      ∀ L ∈ maskLanes q.lanes, ∀ key, opdKey? q.dst L 0 = some key → let v := (g'.cellAt key).val.toNat
        v % 65536 = (devStatus s q).1 ∧ ((devStatus s q).1 ≠ 0 → v / 65536 = 0xFFFF) ∧ ((devStatus s q).1 = 0 → v / 65536 < 0xFFFF)) ∧
  (∀ (s t : State) (lid vc : Nat) (l : Launch), sget lid s.launches = some l → (s.ctx l.ctx).st = .running → ((s.ctx l.ctx).hold = false ∨ l.dev.isSome = true) → vc < l.rec_.w * l.rec_.h →
    (l.started[vc]?).getD 0 < l.rec_.share vc → l.rec_.cor = false → startWorkgroup lid vc s = some t →
    ∃ wk, exec (.workgroupStart lid vc) s = .next t.bump ∧ sget wk t.wgs = some ⟨lid, (l.map[vc]?).getD 0, l.rec_.groups, s.tsc.toNat⟩ ∧ (∃ l', sget lid t.launches = some l' ∧ l'.before = some (l.before.getD s.turn)) ∧
      (∀ k, k < l.rec_.groups → ∃ gid g, t.group? gid = some g ∧ g.wk = wk ∧ g.grp = k ∧ g.ngrp = l.rec_.groups ∧ g.nsl = l.rec_.slices ∧ g.core = (l.map[vc]?).getD 0 ∧ g.gangs = [Gang.start l.rec_.slices l.rec_.entry s.clk] ∧
        g.cx = vc % l.rec_.w ∧ g.cy = vc / l.rec_.w ∧ g.wIndex = vc + (l.started[vc]?).getD 0 * (l.rec_.w * l.rec_.h))) ∧
  (∀ (s : State) (lid : Nat) (l : Launch), sget lid s.launches = some l → (s.ctx l.ctx).st = .running →
    let ended : Prop := (∀ v n, l.started[v]? = some n → n = l.rec_.share v) ∧ (∀ p ∈ s.groups, p.2.lid ≠ lid) ∧ (∀ p ∈ s.conts, p.2.lid ≠ lid) ∧ (∀ p ∈ s.copies, p.2.lid ≠ lid) ∧
      (∀ p ∈ (s.ctx l.ctx).comms, ∀ i ∈ p.2.insts, i.lid ≠ lid) ∧ ∀ p ∈ s.tasks, p.2.lid = lid → p.2.st = .free
    (¬ ended → exec (.launchComplete lid) s = .next s) ∧ (ended →
    ∃ t, exec (.launchComplete lid) s = .next t ∧ sget lid t.launches = none ∧
      (l.dev = none → l.queue < 4 → (s.ctx l.ctx).lq.length = 4 → let q := (s.ctx l.ctx).queue l.queue; q.done = [] → q.cpl.toNat = l.index → ((t.ctx l.ctx).queue l.queue).cpl = q.cpl + 1) ∧
      (∀ n core, l.dev.isSome = true → l.task = some (core, n) → ∀ x, sget (taskKey core n) s.tasks = some x → x.st = .waiting → x.count ≤ 1 → sget (taskKey core n) t.tasks = some { x with count := 0, st := .spawning })))

/-! ## Control (08 R167 to R170; 21 R361 to R365, R374; 22 R376 to R388; 25 R415 to R417, R430 to R432) -/

/-- BRA and BRX send the lanes taken to the target and the others on; a slice whose active lanes all take, or none, has no entry pushed, and one that diverges pushes the saved mask, the fall-through and the pending lanes (21 R362); a divergence without a reconvergence header, or one that would push a ninth entry, is ILLEGAL_TARGET with nothing committed, and so is a target or a reconvergence label that is no header; a target that cannot be fetched halts with that fault (22 R376). CALL and CALLX push a return-stack entry in each slice where a lane takes, RET pops it. Registers, the last-result file (08 R153), counters and memory stay. -/
def Obligations.Branches : Prop :=
  ∀ (w : WB), let reg := decOpd (w.tgt.extractLsb' 23 9); let ux : Uses := ⟨[(reg, 2, false)], [], [], [], true⟩
    let quiet (s t : State) (gid : Nat) (g g' : Group) (e : Env) (u : Uses) (fl : Nat → Word) : Prop := t.group? gid = some g' ∧ AccessOnly gid g s t s ∧ RegistersOnly g g' ∧ FlagsOnly e u fl g' ∧ g'.vp = g.vp ∧ g'.out = g.out
    let isHeader (e : Env) (va : DWord) : Prop := va.extractLsb' 57 7 = 0 ∧ va.toNat % 8 = 0 ∧ ∃ x, fetchWord e.s0 e.gid e.g0 va = .ok x ∧ (decHeader x).isSome = true
    (∀ p ∈ ([(.bra w, .none, false, false), (.brx w, ux, true, false), (.call w, .none, false, true), (.callx w, ux, true, true)] : List (Instr × Uses × Bool × Bool)),
      ∀ s gid slice g a h, Issues p.1 w.g p.2.1 s gid slice g a h → let e := mkEnv s gid g a h w.g p.2.1
      (e.lanes = [] → ∃ t g', exec p.1 s = .next t ∧ quiet s t gid g g' e p.2.1 fun _ => 0) ∧
      ∀ L, e.leader = some L → let bad : Prop := p.2.2.1 = true ∧ (e.rN reg 2 L).poison = true
      (bad → e.sr.trapPoison = true → exec p.1 s = .next (issueTrap gid slice 0x08 (2 ^ L) 0 s).bump) ∧ (¬ bad ∨ e.sr.trapPoison = false →
      let tgt : DWord := if p.2.2.1 then (e.rN reg 2 L).val else a.pc + BitVec.ofInt 64 (8 * w.tgt.toInt)
      let fall : DWord := a.pc + BitVec.ofNat 64 (8 * (h.count.toNat + 2))
      let rc : Option DWord := if p.2.2.2 then some fall else if w.rcv = 0 then none else some (a.pc + BitVec.ofInt 64 (8 * w.rcv.toInt))
      let takes (i : Nat) : BitVec 4 := BitVec.ofNat 4 (e.mask / 2 ^ (4 * i)) &&& (g.slice i).active
      (tgt.extractLsb' 57 7 ≠ 0 → Halts p.1 s gid g 0x20 0 tgt) ∧
      (tgt.extractLsb' 57 7 = 0 → tgt.toNat % 8 ≠ 0 → Halts p.1 s gid g 0x05 0 0) ∧
      (tgt.extractLsb' 57 7 = 0 → tgt.toNat % 8 = 0 → (∀ c d, fetchWord s gid g tgt = .fault c d → Halts p.1 s gid g c d tgt) ∧ (∀ x, fetchWord s gid g tgt = .ok x → decHeader x = none → Halts p.1 s gid g 0x05 0 0)) ∧
      (isHeader e tgt → p.2.2.2 = false → ∀ r, rc = some r → (r.extractLsb' 57 7 ≠ 0 ∨ r.toNat % 8 ≠ 0 ∨ (∃ c d, fetchWord s gid g r = .fault c d) ∨ ∃ x, fetchWord s gid g r = .ok x ∧ decHeader x = none) → Halts p.1 s gid g 0x05 0 0) ∧
      (isHeader e tgt → (∀ r, rc = some r → p.2.2.2 = false → isHeader e r) →
        (∀ i ∈ a.slices, takes i = (g.slice i).active ∨ takes i = 0 ∨ (rc.isSome = true ∧ (g.slice i).recs.length < 8)) → (p.2.2.2 = true → ∀ i ∈ a.slices, takes i ≠ 0 → (g.slice i).rets.length < 16) →
        ∃ t g', exec p.1 s = .next t ∧ quiet s t gid g g' e p.2.1 (fun M => if bad ∧ M = L then poisonFlag else 0) ∧
          (a.slices = [slice] → g.partings = [] → (g.slices[slice]?).isSome = true → (∀ r ∈ (g.slice slice).recs, r.hdr ≠ tgt ∧ r.hdr ≠ fall) → rc ≠ some tgt →
            ((g'.slice slice).rets = if p.2.2.2 && takes slice != 0 then ⟨fall, a.pc, a.idx, takes slice != (g.slice slice).active, (g.slice slice).recs.length + (if takes slice != (g.slice slice).active then 1 else 0)⟩ :: (g.slice slice).rets else (g.slice slice).rets) ∧
            (takes slice = (g.slice slice).active → (g'.slice slice).active = (g.slice slice).active ∧ (g'.slice slice).recs = (g.slice slice).recs ∧ ∃ x, g'.gang? slice = some x ∧ x.pc = tgt) ∧
            (takes slice ≠ (g.slice slice).active → takes slice = 0 → (g'.slice slice).recs = (g.slice slice).recs ∧ ∃ x, g'.gang? slice = some x ∧ x.pc = fall) ∧
            (∀ r, rc = some r → takes slice ≠ (g.slice slice).active → takes slice ≠ 0 → (g'.slice slice).active = takes slice ∧
              (g'.slice slice).recs = ⟨r, (g.slice slice).active, fall, (g.slice slice).active &&& ~~~takes slice⟩ :: (g.slice slice).recs ∧ ∃ x, g'.gang? slice = some x ∧ x.pc = tgt))) ∧
      (isHeader e tgt → rc = none → (∃ i ∈ a.slices, takes i ≠ 0 ∧ takes i ≠ (g.slice i).active) → Halts p.1 s gid g 0x05 0 0) ∧
      (isHeader e tgt → (∀ r, rc = some r → p.2.2.2 = false → isHeader e r) → (∃ i ∈ a.slices, takes i ≠ 0 ∧ takes i ≠ (g.slice i).active ∧ 8 ≤ (g.slice i).recs.length) → Halts p.1 s gid g 0x05 0 0) ∧
      (p.2.2.2 = true → isHeader e tgt → (∃ i ∈ a.slices, takes i ≠ 0 ∧ 16 ≤ (g.slice i).rets.length) → Halts p.1 s gid g 0x05 0 0))) ∧
    (∀ s gid slice g a h, Issues (.ret w) w.g .none s gid slice g a h → let e := mkEnv s gid g a h w.g .none
      let takes (i : Nat) : BitVec 4 := BitVec.ofNat 4 (e.mask / 2 ^ (4 * i)) &&& (g.slice i).active
      ((∃ i ∈ a.slices, takes i ≠ 0 ∧ (takes i ≠ (g.slice i).active ∨ (g.slice i).rets = [])) → Halts (.ret w) s gid g 0x05 0 0) ∧
      ((∀ i ∈ a.slices, takes i = 0 ∨ (takes i = (g.slice i).active ∧ ∃ r t, (g.slice i).rets = r :: t ∧ r.depth = (g.slice i).recs.length)) →
        ∃ t g', exec (.ret w) s = .next t ∧ quiet s t gid g g' e .none (fun _ => 0) ∧
          (∀ r rest, a.slices = [slice] → g.partings = [] → (g.slices[slice]?).isSome = true → takes slice ≠ 0 → (g.slice slice).rets = r :: rest → (∀ x ∈ (g.slice slice).recs, x.hdr ≠ r.ret) →
            (g'.slice slice).rets = rest ∧ ∃ x, g'.gang? slice = some x ∧ x.pc = r.ret)))

/-- 21 R374; 22 R380 to R385; 08 R168: EXIT takes its lanes out of their slices for good; REGANG of a group that stands whole goes on, otherwise its gang waits; WAIT goes on once the counters named are down and holds its gang before, as the last word of a clause at its own word, from where it issues again (DEDUCED, log 18); a wait on wm that ends makes the flags of the matrix operations it covers readable in $drainflags, and no earlier (15 R301; that they stay hidden until then is one reading, DEDUCED, log 73). YIELD and SLEEP take effect at the end of the clause; CLAUSE_START opens a clause only when its header's waits are met, and SLEEP_EXPIRY ends a sleep whose time is over, in $tsc where a migration has carried its end (23 R411). -/
def Obligations.WaitsAndClauses : Prop :=
  let flags (covers : Prop) (g g' : Group) : Prop :=
    let ended (x : Nat × BitVec 5) : Bool := !g.out.any fun (y : Tok) => y.ctr == 2 && y.id == x.1
    (¬ covers → g'.sr = g.sr ∧ g'.due = g.due) ∧
    (covers → g'.due = g.due.filter (fun x => !ended x) ∧ g'.sr = { g.sr with drainflags := g'.sr.drainflags } ∧ g'.sr.drainflags = g.sr.drainflags ||| ((g.due.filter ended).foldl (fun (b : BitVec 5) (x : Nat × BitVec 5) => b ||| x.2) 0).setWidth 32)
  (∀ (w : WB) s gid slice g a h, Issues (.exitLanes w) w.g .none s gid slice g a h → let e := mkEnv s gid g a h w.g .none
    ∃ t g', exec (.exitLanes w) s = .next t ∧ t.group? gid = some g' ∧ GroupOnly gid g s t ∧ RegistersOnly g g' ∧ (∀ key, g'.cellAt key = g.cellAt key) ∧ g'.vp = g.vp ∧ g'.out = g.out ∧
      (∀ i ∈ a.slices, (g.slices[i]?).isSome = true → a.slices.Nodup → (g'.slice i).live &&& (BitVec.ofNat 4 (e.mask / 2 ^ (4 * i)) &&& (g.slice i).active) = 0) ∧
      (g.gangs = [a] → a.slices.Nodup → (∀ i ∈ a.slices, (g.slices[i]?).isSome = true ∧ BitVec.ofNat 4 (e.mask / 2 ^ (4 * i)) &&& (g.slice i).active = (g.slice i).active ∧ (g.slice i).live = (g.slice i).active) → e.lanes ≠ [] → ∀ x ∈ g'.gangs, x.hold = .exiting)) ∧
  (∀ (w : WB) s gid slice g a h, Issues (.regang w) w.g .none s gid slice g a h →
    ((g.partings = [] ∧ g.gangs.length = 1) ∨ (∀ b ∈ g.gangs, b.slices = a.slices ∨ b.hold = .regang a.pc a.idx) →
      ∃ t g', exec (.regang w) s = .next t ∧ t.group? gid = some g' ∧ GroupOnly gid g s t ∧ RegistersOnly g g' ∧ (∀ key, g'.cellAt key = g.cellAt key) ∧ g'.vp = g.vp ∧ g'.out = g.out ∧ (g.gangs.length ≠ 1 → (∀ i, (g.slice i).recs = []) → g'.partings = [] ∧ g'.gangs.length = 1)) ∧
    ((g.partings ≠ [] ∨ g.gangs.length ≠ 1) → (∃ b ∈ g.gangs, b.slices ≠ a.slices ∧ b.hold ≠ .regang a.pc a.idx) →
      ∃ t g', exec (.regang w) s = .next t ∧ t.group? gid = some g' ∧ (∀ key, g'.cellAt key = g.cellAt key) ∧ ∀ x, g'.gang? slice = some x → x.hold = .regang a.pc a.idx ∧ x.pc = a.pc ∧ x.idx = a.idx)) ∧
  (∀ (w : WI) s gid slice g a h, Issues (.waitCtr w) w.g .none s gid slice g a h → let e := mkEnv s gid g a h w.g .none
    let down := ∀ c, c < 6 → w.mod.getLsbD c = true → g.count c ≤ w.imm.toNat
    ∃ t g', exec (.waitCtr w) s = .next t ∧ t.group? gid = some g' ∧ (∀ key, g'.cellAt key = g.cellAt key) ∧ g'.vp = g.vp ∧ g'.out = g.out ∧ (∀ b, readByte t b = readByte s b) ∧
      (down → GroupOnly gid g s t ∧ RegistersOnly { g with sr := g'.sr, due := g'.due } g' ∧ flags (e.lanes ≠ [] ∧ w.mod.getLsbD 2 = true) g g' ∧ (a.idx < h.count.toNat → ∀ x, g'.gang? slice = some x → x.idx = a.idx + 1 ∧ x.hold = a.hold)) ∧
      (¬ down → e.lanes ≠ [] → a.idx < h.count.toNat → ∀ x, g'.gang? slice = some x → x.hold = .wait (w.mod.setWidth 6) w.imm.toNat ∧ x.idx = a.idx + 1) ∧
      (¬ down → e.lanes ≠ [] → a.idx = h.count.toNat → ∀ x, g'.gang? slice = some x → x.hold = .wait (w.mod.setWidth 6) w.imm.toNat ∧ x.idx = a.idx ∧ x.pc = a.pc)) ∧
  (∀ (w : WI) s gid slice g a h, Issues (.yield w) w.g .none s gid slice g a h → let e := mkEnv s gid g a h w.g .none
    ∃ t g', exec (.yield w) s = .next t ∧ t.group? gid = some g' ∧ GroupOnly gid g s t ∧ RegistersOnly g g' ∧ (∀ key, g'.cellAt key = g.cellAt key) ∧ g'.vp = g.vp ∧ g'.out = g.out ∧
      (e.lanes ≠ [] → a.slices = [slice] → g.partings = [] → ∀ x, g'.gang? slice = some x → x.stream = none)) ∧
  (∀ (w : WI) s gid slice g a h, let u : Uses := ⟨[(w.a, 1, false)], [], [], [], true⟩
    Issues (.sleep w) w.g u s gid slice g a h → let e := mkEnv s gid g a h w.g u
    ∃ t g', exec (.sleep w) s = .next t ∧ t.group? gid = some g' ∧ GroupOnly gid g s t ∧ RegistersOnly g g' ∧ FlagsOnly e u (fun M => if w.mod.getLsbD 9 = false ∧ (e.r32 w.a M).poison = true ∧ e.leader = some M then poisonFlag else 0) g' ∧ g'.vp = g.vp ∧ g'.out = g.out ∧
      ∀ L, e.leader = some L → let n := if w.mod.getLsbD 9 then w.imm.toNat else if (e.r32 w.a L).poison then 0 else (e.r32 w.a L).w.toNat
        a.slices = [slice] → g.partings = [] → ∀ x, g'.gang? slice = some x → x.hold = .sleep (s.clk + 16 * n)) ∧
  (∀ (s : State) (gid slice : Nat) (g : Group) (a : Gang) (word : DWord), s.group? gid = some g → g.gang? slice = some a → g.resident = true → (s.ctx g.ctx).st = .running → a.hdr = none → a.hold = .free → g.sr.handler = false → g.heldByFactor = false →
    fetchWord s gid g a.pc = .ok word →
    (∀ c, headerCause g.fresh (privileged s g) word = some c → ∃ t r, exec (.clauseStart gid slice) s = .next t ∧ t.group? gid = some g ∧ (t.ctx g.ctx).st = .halting ∧ (t.ctx g.ctx).recs = (s.ctx g.ctx).recs ++ [r] ∧ r.cause = c) ∧
    (∀ hd, headerCause g.fresh (privileged s g) word = none → decHeader word = some hd →
      ((∃ p ∈ [(hd.w0, 0), (hd.w1, 1), (hd.wm, 2), (hd.wc, 3), (hd.wg, 4), (hd.wx, 5)], p.1 ≠ 15#4 ∧ p.1.toNat < g.count p.2) → exec (.clauseStart gid slice) s = .next s) ∧
      (∀ k, (∀ p ∈ [(hd.w0, 0), (hd.w1, 1), (hd.wm, 2), (hd.wc, 3), (hd.wg, 4), (hd.wx, 5)], p.1 = 15#4 ∨ g.count p.2 ≤ p.1.toNat) → streamFor s gid g a = some k →
        ∃ t g', exec (.clauseStart gid slice) s = .next t ∧ t.group? gid = some g' ∧ (∀ key, g'.cellAt key = g.cellAt key) ∧ g'.out = g.out ∧ flags (hd.wm ≠ 15#4) g g' ∧ ∃ x, g'.gang? slice = some x ∧ x.hdr = some hd ∧ x.stream = some k ∧ x.pc = a.pc ∧ x.idx = a.idx ∧ s.clk < x.due))) ∧
  (∀ (s : State) (gid slice n : Nat) (g : Group) (a : Gang), s.group? gid = some g → g.gang? slice = some a → a.hold = .sleep n →
    ∃ t g' x, exec (.sleepExpiry gid slice) s = .next t ∧ t.group? gid = some g' ∧ g'.gang? slice = some x ∧ g'.rf = g.rf ∧ (n ≤ s.clk → x.hold = .free ∧ x.since = s.clk) ∧ (s.clk < n → x.hold = .sleep n)) ∧
  (∀ (s : State) (gid slice n : Nat) (g : Group) (a : Gang), s.group? gid = some g → g.gang? slice = some a → a.hold = .sleepTsc n →
    ∃ t g' x, exec (.sleepExpiry gid slice) s = .next t ∧ t.group? gid = some g' ∧ g'.gang? slice = some x ∧ g'.rf = g.rf ∧ (n ≤ s.tsc.toNat → x.hold = .free ∧ x.since = s.clk) ∧ (s.tsc.toNat < n → x.hold = .sleepTsc n))

/-- 25 R415, R416, R430: a user trap (TRAP, BKPT and every trap cause) with a handler that lies at a header: $epc, $ecause, $elanes and $eaddr take the clause, the word and the cause, the lanes and the address; the group is in its handler, with every live lane active and the gang at $utvec; no other register changes. With no handler, or in one, the context halts. A word that traps or halts has issued and is counted (27 R443), and a resume point that it passes by is gone (18 R325). ERET of a handler with nothing left on its stacks goes back to $epc at the word of $ecause (the next one after TRAP and BKPT) with the masks, l0 and l1 as they were at entry; outside a handler it is ILLEGAL_OPERAND. -/
def Obligations.TrapEntryAndReturn : Prop :=
  (∀ (w : WI), ∀ p ∈ ([(.trapCode w, 0x41), (.bkpt w, 0x42)] : List (Instr × Nat)), ∀ s gid slice g a h, Issues p.1 w.g .none s gid slice g a h → let e := mkEnv s gid g a h w.g .none
    e.lanes ≠ [] → exec p.1 s = .next (selfTrap gid slice w.g.stall.toNat p.2 (lanesMask e.lanes) (w.imm.setWidth 64) s).bump) ∧
  (∀ (s : State) (gid slice stall cause lanes : Nat) (addr : DWord) (g g' : Group), s.group? gid = some g → (takeTrap gid slice cause lanes addr s).group? gid = some g' →
    let t := takeTrap gid slice cause lanes addr s; let c := t.updPart g.part fun p => { p with issue := p.issue + 1 }
    let counted := if passesBy s gid slice then c.updGroup gid fun x => { x with resume := none } else c
    (passesBy s gid slice = true ↔ ∃ r a, g.resume = some r ∧ g.gang? slice = some a ∧ r.armed = true ∧ ¬ (a.pc = r.hdr ∧ a.idx = r.idx)) ∧
    let issued := issueTrap gid slice cause lanes addr s; let self := selfTrap gid slice stall cause lanes addr s
    let stopped : Prop := (t.ctx g'.ctx).recs.length ≠ (s.ctx g.ctx).recs.length
    (g'.sr.handler = g.sr.handler → ¬ stopped → issued = t ∧ self = t) ∧ (g'.sr.handler = g.sr.handler → stopped → issued = counted ∧ self = counted) ∧
    (g.sr.handler = false → g'.sr.handler = true → issued = counted ∧ self = counted.updGroup gid fun x => x.updGang slice fun y => { y with due := s.clk + stall + 1 })) ∧
  (∀ (s : State) (gid slice cause lanes : Nat) (addr : DWord) (g : Group) (a : Gang), s.group? gid = some g → g.gang? slice = some a → let vec := (g.effSr s).utvec
    (vec = 0 ∨ g.sr.handler = true → (s.ctx g.ctx).st = .running → ∃ r, let t := takeTrap gid slice cause lanes addr s
      t.group? gid = some g ∧ (t.ctx g.ctx).st = .halting ∧ (t.ctx g.ctx).recs = (s.ctx g.ctx).recs ++ [r] ∧ r.cause = cause ∧ r.lanes = lanes ∧ r.addr = addr ∧ r.pc = a.pc ∧ r.idx = a.idx) ∧
    (∀ word, vec ≠ 0 → vec.toNat % 8 = 0 → g.sr.handler = false → fetchWord s gid g vec = .ok word → (decHeader word).isSome = true → a.slices.Nodup → ∃ g', let t := takeTrap gid slice cause lanes addr s
      t.group? gid = some g' ∧ t = { s with groups := t.groups, parts := t.parts, cache := t.cache } ∧ (∀ p, t.part p = { s.part p with hbmb := (t.part p).hbmb, hostb := (t.part p).hostb }) ∧ (∀ j, j ≠ gid → t.group? j = s.group? j) ∧ (∀ key, g'.cellAt key = g.cellAt key) ∧ g'.out = g.out ∧ g'.tile = g.tile ∧
      g'.sr = { g.sr with epc := a.pc, ecause := BitVec.ofNat 32 (a.idx * 256 + cause), elanes := BitVec.ofNat 32 lanes, eaddr := addr, handler := true } ∧
      (∀ i ∈ a.slices, (g.slices[i]?).isSome = true → (g'.slice i).active = (g.slice i).live ∧ (g'.slice i).recs = (g.slice i).recs ∧ (g'.slice i).rets = (g.slice i).rets) ∧
      (∃ x, g'.gang? slice = some x ∧ x.pc = vec ∧ x.idx = 0 ∧ x.hdr = none ∧ x.hold = .free ∧ x.slices = a.slices))) ∧
  (∀ (w : WB) s gid slice g a h, Issues (.eret w) w.g .none s gid slice g a h → let e := mkEnv s gid g a h w.g .none
    (g.sr.handler = false → Halts (.eret w) s gid g 0x02 0 0) ∧
    (∀ saves word hd, g.sr.handler = true → g.trap = some saves → (∀ t ∈ saves, (g.slice t.slice).recs.length = t.recDepth ∧ (g.slice t.slice).rets.length = t.retDepth) →
      let from_ := e.sr.epc; let cause := e.sr.ecause.toNat % 256; let idx := e.sr.ecause.toNat / 256 % 16; let back := if cause = 0x41 ∨ cause = 0x42 then idx + 1 else idx
      from_.toNat % 8 = 0 → fetchWord s gid g from_ = .ok word → decHeader word = some hd → back ≤ hd.count.toNat → (∃ x, fetchInstr s gid g hd (from_ + BitVec.ofNat 64 (8 * (back + 1))) = .ok x) →
      (saves.map (·.slice)).Nodup → (∀ t ∈ saves, t.l0.length = 4 ∧ t.l1.length = 4 ∧ (g.slices[t.slice]?).isSome = true) →
      ∃ t g', exec (.eret w) s = .next t ∧ t.group? gid = some g' ∧ g'.sr = { g.sr with handler := false } ∧ g'.trap = none ∧ g'.out = g.out ∧ (∀ b, readByte t b = readByte s b) ∧
        (∀ x ∈ saves, (g'.slice x.slice).active = x.active &&& (g.slice x.slice).live ∧ ∀ k, k < 4 → some (g'.cellAt (keyL (4 * x.slice + k) 0)) = x.l0[k]? ∧ some (g'.cellAt (keyL (4 * x.slice + k) 1)) = x.l1[k]?) ∧
        (∀ key, (∀ x ∈ saves, ∀ k, k < 4 → key ≠ keyL (4 * x.slice + k) 0 ∧ key ≠ keyL (4 * x.slice + k) 1) → g'.cellAt key = g.cellAt key) ∧
        (∃ x, g'.gang? slice = some x ∧ x.pc = from_ ∧ x.idx = back ∧ x.hdr = none)))

/-- 22 R387: XLATE undoes the call that reached it and halts the context with the function's number. 25 R432: HALTCTX halts, kills or quiesces a context of its partition, its own only outside a supervisor context; fields that break its list are ILLEGAL_OPERAND. 08 R188: PRIO sets the level, in force from 2 clk on and no sooner, an earlier PRIO's level taking part in its turn, and an unassigned hint poisons its destination and nothing else. -/
def Obligations.StubsHaltsAndHints : Prop :=
  (∀ (w : WI) s gid slice g a h, Issues (.xlate w) w.g .none s gid slice g a h → let e := mkEnv s gid g a h w.g .none
    (∀ L, e.leader = some L → (∃ i ∈ a.slices, (g.slice i).rets = []) → Halts (.xlate w) s gid g 0x05 0 0) ∧
    (∀ r rest, e.lanes ≠ [] → a.slices = [slice] → (g.slices[slice]?).isSome = true → (s.ctx g.ctx).st = .running → (∀ L ∈ e.lanes, L / 4 = slice) → (g.slice slice).rets = r :: rest → r.depth = (g.slice slice).recs.length → r.pushed = false →
      ∃ t g' x rec_, exec (.xlate w) s = .next t ∧ t.group? gid = some g' ∧ (∀ key, g'.cellAt key = g.cellAt key) ∧ g'.out = g.out ∧ (g'.slice slice).rets = rest ∧ g'.gang? slice = some x ∧ x.pc = r.siteHdr ∧ x.idx = r.siteIdx ∧
        (t.ctx g.ctx).st = .halting ∧ (t.ctx g.ctx).recs = (s.ctx g.ctx).recs ++ [rec_] ∧ rec_.cause = 0x40 ∧ rec_.addr.toNat = (encI 0xCA w).toNat / 2 ^ 13 % 2 ^ 17 ∧ rec_.pc = r.siteHdr ∧ rec_.idx = r.siteIdx)) ∧
  (∀ (w : WI), let u : Uses := if w.a == .z then .none else ⟨[(w.a, 1, false)], [], [], [], true⟩; let op := w.mod.toNat % 4
    ∀ s gid slice g a h, Issues (.haltctx w) w.g u s gid slice g a h → let e := mkEnv s gid g a h w.g u
    ∀ L, e.leader = some L → let n := if w.a = .z then g.ctx else (e.r32 w.a L).w.toNat
      (w.a ≠ .z → (e.r32 w.a L).poison = false) →
      ((Instr.haltctx w).ownOk = false → Halts (.haltctx w) s gid g 0x02 0 0) ∧ ((Instr.haltctx w).ownOk = true →
      (n / 16 ≠ g.ctx / 16 ∨ 4096 ≤ n → Halts (.haltctx w) s gid g 0x02 0 0) ∧
      (n < 4096 → n / 16 = g.ctx / 16 → (s.ctx g.ctx).sup = false → n ≠ g.ctx → Halts (.haltctx w) s gid g 0x06 0 0) ∧
      (n < 4096 → n / 16 = g.ctx / 16 → ((s.ctx g.ctx).sup = true ∨ n = g.ctx) →
        ∃ t g', exec (.haltctx w) s = .next t ∧ t.group? gid = some g' ∧ (∀ key, key ∉ touched e u → g'.cellAt key = g.cellAt key) ∧ (∀ b, readByte t b = readByte s b) ∧
          (op = 0 → (s.ctx n).st = .running → (t.ctx n).st = .halting ∧ (t.ctx n).haltBy = 2) ∧ (op = 1 → (s.ctx n).st = .running → (t.ctx n).st = .killing) ∧ (op = 2 → (s.ctx n).st = .running → (t.ctx n).quiesce = true ∧ (t.ctx n).st = .running)))) ∧
  (∀ (w : WI) s gid slice g a h, Issues (.prio w) w.g .none s gid slice g a h → (mkEnv s gid g a h w.g .none).lanes ≠ [] →
    ∃ t g', exec (.prio w) s = .next t ∧ t.group? gid = some g' ∧ GroupOnly gid g s t ∧ (∀ key, g'.cellAt key = g.cellAt key) ∧ g'.prio.toNat = w.imm.toNat % 4 ∧ g'.prioAt = s.clk ∧
      RegistersOnly { g with prio := g'.prio, prioOld := g'.prioOld, prioAt := g'.prioAt, prioMid := g'.prioMid, prioMidAt := g'.prioMidAt } g' ∧ (g.prioAt < s.clk → ∀ s', s'.clk = s.clk + 1 → g'.prioNow s' = g.prioNow s') ∧ (∀ s', s'.clk = s.clk → g'.prioNow s' = g.prioNow s) ∧ (∀ s', s.clk + 2 ≤ s'.clk → g'.prioNow s' = w.imm.toNat % 4)) ∧
  (∀ (w : WH) s gid slice g a h, Issues (.unassignedHint w) w.g .none s gid slice g a h → let e := mkEnv s gid g a h w.g .none
    ∃ t g', exec (.unassignedHint w) s = .next t ∧ t.group? gid = some g' ∧ GroupOnly gid g s t ∧ RegistersOnly g g' ∧
      ∀ key, g'.cellAt key = if (∃ L ∈ e.lanes, (∃ n, w.dst = .v n ∧ n.toNat < g.regs ∧ key = keyV L n.toNat) ∨ (∃ n, w.dst = .o n ∧ key = keyO L n.toNat) ∨ (∃ n, w.dst = .s n ∧ key = keyS n.toNat)) then ⟨0, true, 0⟩ else g.cellAt key)

/-! ## Walks, invalidation, and the results that wait (02 R33 to R43; 08 R162, R172) -/

/-- A lookup that waits gets a walker while its die has one free of its 512; a stale walk is dropped and the lookup waits again; a walk that succeeds enters the core's lookaside and ends the lookup, one that fails leaves its failure for the access that asked, and an invalidation of its context drops that failure (DEDUCED, log 36: a failed walk is kept nowhere, 02 R35). Accepting an invalidation appends it, makes the walks in flight that it covers stale, and touches no entry it does not cover; a reserved kind sets BADKIND and covers nothing. It completes, oldest first, when no walk it found in flight goes on and every access of the context to another device is answered, which takes in every access made through a removed entry (02 R42; that it waits for all of the context's is the model's, log 36), late accesses of the context being performed with it (log 60): then no covered entry of the context is left and INVDONE holds its number. -/
def Obligations.WalksAndInvalidations : Prop :=
  (∀ (s : State) (n : Nat) (l : Lookup), sget n s.lookups = some l →
    (l.started = false → l.err = 0 → walksOn s (dieOf l.core) < 512 → exec (.walkStart n) s = .next { s with lookups := sset n { l with started := true } s.lookups }) ∧
    (512 ≤ walksOn s (dieOf l.core) → exec (.walkStart n) s = .next s) ∧
    (l.started = true → ∃ t, exec (.walkComplete n) s = .next t ∧ t.groups = s.groups ∧ (∀ b, readByte t b = readByte s b) ∧
      (l.stale = true → t.looks = s.looks ∧ (∃ m, sget m t.lookups = some { l with id := m, started := false, stale := false } ∧ (m ≠ n → sget n t.lookups = none))) ∧
      (∀ e, l.stale = false → walk s l.ctx (l.va * 4096) = .bad e → t.looks = s.looks ∧ sget n t.lookups = some { l with err := e, started := false }) ∧
      (∀ lo hi phys attr size range node ok, l.stale = false → walk s l.ctx (l.va * 4096) = .found lo hi phys attr size range → nodeOf s l.ctx (atNode attr) = .ok (node, ok) →
        sget n t.lookups = none ∧ (⟨l.core, l.ctx, lo, hi, phys, attr, node, ok, range, size⟩ : LookAside) ∈ t.looks ∧ (∀ x ∈ t.looks, x ∈ s.looks ∨ x = ⟨l.core, l.ctx, lo, hi, phys, attr, node, ok, range, size⟩)))) ∧
  (∀ (s : State) (c : Nat) (seq : BitVec 16) (pages : BitVec 32) (k : BitVec 4),
    ∀ p ∈ ([(.invalidateContext c seq, 0, 0), (.invalidatePages c seq pages, 1, pages.toNat), (.invalidateRanges c seq, 2, 0), (.invalidateNodes c seq, 3, 0)] ++ if 4 ≤ k.toNat then [(.invalidateReserved c seq k, k.toNat, 0)] else [] : List (Instr × Nat × Nat)),
      let page := ((s.ctx c).invaddr.extractLsb' 12 45).toNat
      let covers (x : LookAside) : Prop := x.ctx = c ∧ invCovers p.2.1 page p.2.2 x = true
      ∃ t walks, exec p.1 s = .next t ∧ (∀ b, readByte t b = readByte s b) ∧ t.groups = s.groups ∧
        (t.ctx c).invs = (s.ctx c).invs ++ [⟨seq, p.2.1, page, p.2.2, walks⟩] ∧ (t.ctx c).invdone = (s.ctx c).invdone ∧ (t.ctx c).badkind = ((s.ctx c).badkind || decide (4 ≤ p.2.1)) ∧
        (∀ n l, sget n s.lookups = some l → l.ctx = c → l.started = true → n ∈ walks) ∧
        (∀ x ∈ t.looks, x ∈ s.looks) ∧ (∀ x ∈ s.looks, ¬ covers x → x ∈ t.looks) ∧
        (∀ p ∈ t.lookups, p.2.ctx = c → p.2.err = 0) ∧
        (∀ n l, sget n s.lookups = some l → l.ctx ≠ c ∨ l.err = 0 → sget n t.lookups = some { l with stale := l.stale || (l.ctx == c && l.started && invStale p.2.1 page p.2.2 l.va) })) ∧
  (∀ (s : State) (c : Nat) (i : InvCmd) (rest : List InvCmd), (s.ctx c).invs = i :: rest →
    let ans : Prop := (∀ p ∈ s.groups, p.2.ctx = c → ∀ r ∈ p.2.remote, r.resp ≠ none) ∧ ∀ w ∈ s.waits, w.ctx = c → w.resp ≠ none
    ((∃ p ∈ s.lookups, p.1 ∈ i.walks ∧ p.2.started = true ∧ p.2.stale = false) → exec (.invalidationComplete c) s = .next s) ∧
    (i.kind < 4 → ¬ ans → exec (.invalidationComplete c) s = .next s) ∧
    ((∀ p ∈ s.lookups, p.1 ∈ i.walks → p.2.started = true → p.2.stale = true) → (i.kind < 4 → ans) →
      ∃ t, exec (.invalidationComplete c) s = .next t ∧ t.ctx c = { s.ctx c with invs := rest, invdone := i.seq, comms := (t.ctx c).comms } ∧ t.lookups = s.lookups ∧
        (∀ gid g, t.group? gid = some g → g.ctx = c → g.late = []) ∧ (∀ id x, sget id t.copies = some x → x.ctx = c → x.pend = []) ∧ (∀ q, ∀ o ∈ t.queue q, o.ctx = c → o.pend = []) ∧
        ((∀ p ∈ s.groups, p.2.ctx = c → p.2.late = []) → (∀ p ∈ s.copies, p.2.ctx = c → p.2.pend = []) → (∀ p ∈ s.seqs, ∀ o ∈ p.2, o.ctx = c → o.pend = []) → (∀ k m, (s.ctx c).comm? k = some m → ∀ x ∈ m.insts, x.pend = []) →
          t.mem = s.mem ∧ t.groups = s.groups ∧ (t.ctx c).comms = (s.ctx c).comms) ∧
        (∀ x, x ∈ t.looks ↔ x ∈ s.looks ∧ ¬ (x.ctx = c ∧ invCovers i.kind i.page i.pages x = true))))

/-- 08 R162, R172; 03 R70: the oldest operation of w0 or w1 whose result is known is written to the registers it names, but for those in which the value of a fixed-latency write in flight remains (08 R173), the flags it raises are added, its counter goes down, and nothing else of the group changes; one whose result is not known yet, or of a group that is not resident, waits, and accesses of it that are late are performed first (log 60). While its context stops, a known result behind one that waits is written too, and keeps its place (25 R419). -/
def Obligations.ResultsCompleteInOrder : Prop :=
  ∀ (s : State) (gid : Nat) (w1 : Bool) (g : Group), s.group? gid = some g → let c := if w1 then 1 else 0
    let written (v : VPend) (g' : Group) : Prop :=
      (∀ key, (∀ x ∈ v.writes, x.1 ≠ key) → g'.cellAt key = g.cellAt key) ∧
      (∀ x ∈ v.writes, (∀ L, L < 32 → x.1 ≠ keyF L) → (x.1 ∉ v.keys ∨ x.1 ∈ v.gone → g'.cellAt x.1 = g.cellAt x.1) ∧ (x.1 ∈ v.keys → x.1 ∉ v.gone → (∀ y ∈ v.writes, y.1 = x.1 → y = x) → g'.cellAt x.1 = x.2)) ∧
      (∀ L x, L < 32 → x ∈ v.writes → x.1 = keyF L → (∀ y ∈ v.writes, y.1 = x.1 → y = x) → (g'.cellAt (keyF L)).val = (g.cellAt (keyF L)).val ||| x.2.val)
    (g.oldest c = none → exec (.variableResultComplete gid w1) s = .next s) ∧
    (∀ tok v, g.oldest c = some tok → (g.vp.find? fun x => x.id == tok.id) = some v → let running : Prop := (s.ctx g.ctx).st = .running
      (g.late = [] → running → v.known = false ∨ g.resident = false → exec (.variableResultComplete gid w1) s = .next s) ∧
      (g.late = [] → v.known = true → g.resident = true →
        ∃ t g', exec (.variableResultComplete gid w1) s = .next t ∧ t.group? gid = some g' ∧ t = { s with groups := t.groups } ∧ (∀ j, j ≠ gid → t.group? j = s.group? j) ∧
          RegistersOnly g g' ∧ g'.count c < g.count c ∧ (∀ k, k ≠ c → g'.count k = g.count k) ∧ (∀ x ∈ g'.vp, x ∈ g.vp ∧ x.id ≠ tok.id) ∧ written v g') ∧
      ((∃ x ∈ g.late, x.vp = tok.id) → (∀ r ∈ g.remote, r.made = true → r.vp ≠ tok.id) → g.resident = true →
        ∃ t g', exec (.variableResultComplete gid w1) s = .next t ∧ t.group? gid = some g' ∧ g'.count c < g.count c ∧ (∀ x ∈ g'.vp, x.id ≠ tok.id) ∧ ∀ x ∈ g'.late, x ∈ g.late ∧ x.vp ≠ tok.id) ∧
      (∀ x v', g.late = [] → ¬ running → v.known = false → g.resident = true → (g.out.find? fun y => y.ctr == c && !y.fin && (match g.vp.find? fun z => z.id == y.id with | some z => z.known | none => false)) = some x →
        (g.vp.find? fun z => z.id == x.id) = some v' → x.id ≠ tok.id →
        ∃ t g', exec (.variableResultComplete gid w1) s = .next t ∧ t.group? gid = some g' ∧ t = { s with groups := t.groups } ∧ RegistersOnly g g' ∧ written v' g' ∧
          (∀ z ∈ g'.vp, z ∈ g.vp ∧ z.id ≠ x.id) ∧ g'.out = g.out.map fun y => if y.ctr == c && y.id == x.id then { y with fin := true } else y))

/-! ## Contexts (25 R420 to R432; 27 R442; 28 R454 to R457) -/

/-- The table of 25 R425 for the commands of the host: HALT of a RUNNING context begins its halt, of a SAVING one sets HALTPEND; RESUME makes a HALTED context run, or leaves it HALTED when a core of its map is fenced and nothing can take its place (25 R429; log 30); SWITCHOUT saves a RUNNING or HALTED context, and a HALTING one once it has halted; SWITCHIN restores a SAVED context when its partition is free, else is held; a SAVED one whose save area has been altered or marked since is killed instead (DESIGN CHOICE, log 6); KILL gives up its records, requests, walks and held switch-ins, and a SAVED context beside one that occupies the partition is KILLED at once (KILLING lasts no step there: DESIGN CHOICE, log 29); QUIESCE sets QUIESCE; CREATE of an IDLE or KILLED context makes it SAVED with nothing in it, its supervisor right as PSUP says and the registers the host has written kept (log 29); every other command, a reserved one too, sets BADCMD and does nothing else. A write of SLICEAT at or below $tsc switches in at once. -/
def Obligations.ContextCommands : Prop :=
  ∀ (s : State) (c : Nat), let x := s.ctx c; let bad := s.updCtx c fun y => { y with badcmd := true }
    let free := (∀ k, k < 16 → (s.ctx (partOf c * 16 + k)).st.occupies = false)
    let unfenced := ∀ a ∈ mappedCores s c, a ∉ s.dev.fenced
    let settled : Prop := (∀ p ∈ s.groups, p.2.ctx = c → p.2.late = []) ∧ (∀ p ∈ s.copies, p.2.ctx = c → p.2.pend = []) ∧ (∀ p ∈ s.seqs, ∀ o ∈ p.2, o.ctx = c → o.pend = []) ∧ ∀ p ∈ x.comms, ∀ i ∈ p.2.insts, i.pend = []
    let intact : Prop := ∀ k n, x.image = some (k, n) → markedMem s (saveArea x) n = false ∧ readByteList s (saveArea x) n = (List.range n).map (Config.saveByte k)
    let restored (t : State) : Prop := (t.ctx c).st = (if x.haltpend then .halted else .running) ∧ (t.ctx c).haltpend = false ∧ (t.ctx c).live = true ∧ (t.ctx c).saved = [] ∧ (t.ctx c).stopbase = x.stopbase
    (x.st = .running → exec (.haltCtxCmd c) s = .next (s.updCtx c fun y => { y with st := .halting, haltBy := 1 })) ∧
    (x.st = .saving → exec (.haltCtxCmd c) s = .next (s.updCtx c fun y => { y with haltpend := true, haltBy := 1 })) ∧
    (x.st ≠ .running → x.st ≠ .saving → exec (.haltCtxCmd c) s = .next bad) ∧
    (x.st = .halted → unfenced → ∃ t, exec (.resumeCtx c) s = .next t ∧ (t.ctx c).st = .running ∧ (t.ctx c).runSince = s.tsc ∧ (∀ b, readByte t b = readByte s b) ∧ (t.ctx c).cause = x.cause) ∧
    (x.st = .halted → remap c s = none → ∃ t, exec (.resumeCtx c) s = .next t ∧ (t.ctx c).st = .halted ∧ (t.ctx c).stopseq = x.stopseq + 1 ∧ t.groups = s.groups) ∧
    (x.st ≠ .halted → exec (.resumeCtx c) s = .next bad) ∧
    (x.st = .running → ∃ t, exec (.switchOut c) s = .next t ∧ (t.ctx c).st = .saving ∧ (settled → t.ctx c = { x with st := .saving } ∧ ∀ b, readByte t b = readByte s b) ∧ ∀ i g, t.group? i = some g → g.ctx = c → g.late = [] ∧ ∀ a ∈ g.gangs, a.stream = none) ∧
    (x.st = .halted → exec (.switchOut c) s = .next (s.updCtx c fun y => { y with st := .saving, haltpend := true })) ∧
    (x.st = .halting → exec (.switchOut c) s = .next (s.updCtx c fun y => { y with wantSave := true })) ∧
    (x.st ≠ .running → x.st ≠ .halted → x.st ≠ .halting → exec (.switchOut c) s = .next bad) ∧
    (x.st = .saved → free → unfenced → intact → ∃ t, exec (.switchIn c) s = .next t ∧ restored t) ∧
    (x.st = .saved → free → ¬ intact → ∃ t, exec (.switchIn c) s = .next t ∧ (t.ctx c).st = .killing ∧ (t.ctx c).haltBy = 3) ∧
    (x.st = .saved → ¬ free → (∀ h ∈ (s.part (partOf c)).heldIn, h.1 ≠ c) → ∃ t, exec (.switchIn c) s = .next t ∧ t.ctx c = x ∧ t.groups = s.groups ∧ (t.part (partOf c)).heldIn = (s.part (partOf c)).heldIn ++ [(c, false)]) ∧
    (x.st ≠ .saved → exec (.switchIn c) s = .next bad) ∧
    (x.st = .idle ∨ x.st = .killing ∨ x.st = .killed → exec (.killCtx c) s = .next bad) ∧
    (x.st = .saved → ¬ free → ∃ t, exec (.killCtx c) s = .next t ∧ (t.ctx c).st = .killed ∧ (t.ctx c).killed = true ∧ (t.ctx c).kts = s.tsc &&& 0x7FFFFFFFFFFFFFFF ∧ (t.ctx c).saved = [] ∧ (t.ctx c).comms = [] ∧ (∀ p ∈ t.groups, p.2.ctx ≠ c)) ∧
    (x.st ≠ .idle → x.st ≠ .killing → x.st ≠ .killed → (x.st = .saved → free) → ∃ t, exec (.killCtx c) s = .next t ∧ (t.ctx c).st = .killing ∧ (t.ctx c).recs = [] ∧ (t.ctx c).devq = [] ∧ (settled → ∀ b, readByte t b = readByte s b) ∧
      (∀ p ∈ t.lookups, p.2.ctx ≠ c) ∧ (∀ h ∈ (t.part (partOf c)).heldIn, h.1 ≠ c)) ∧
    (x.st = .running → exec (.quiesceCtx c) s = .next (s.updCtx c fun y => { y with quiesce := true })) ∧ (x.st ≠ .running → exec (.quiesceCtx c) s = .next bad) ∧
    (x.st = .idle ∨ x.st = .killed → s.dev.mayCreate = true → ∃ t, exec (.createCtx c) s = .next t ∧ (t.ctx c).st = .saved ∧ (t.ctx c).saved = [] ∧ (t.ctx c).live = false ∧ (t.ctx c).quiesce = false ∧ (t.ctx c).haltpend = false ∧
      (t.ctx c).stopseq = 0 ∧ (t.ctx c).comms = [] ∧ (t.ctx c).stopbase = x.stopbase ∧ (t.ctx c).savebase = x.savebase ∧ (t.ctx c).sup = (s.part (partOf c)).sup.getLsbD (c % 16) ∧
      (∀ q ∈ (t.ctx c).lq, q.acc = 0 ∧ q.cpl = 0) ∧ (∀ e ∈ t.looks, e.ctx ≠ c)) ∧
    ((x.st ≠ .idle ∧ x.st ≠ .killed) ∨ s.dev.mayCreate = false → exec (.createCtx c) s = .next bad) ∧
    (∀ k, exec (.ctxcmdReserved c k) s = .next bad) ∧
    (∀ v, v.toNat ≤ s.tsc.toNat → v ≠ 0 → x.st = .saved → free → unfenced → intact → ∃ t, exec (.sliceatWrite c v) s = .next t ∧ restored t ∧ (t.ctx c).sliceat = v ∧ (x.lateFrom = none → (t.ctx c).latens = x.latens)) ∧
    (∀ v, v = 0 ∨ s.tsc.toNat < v.toNat ∨ (x.st ≠ .saved ∧ x.st ≠ .saving) → ∃ t, exec (.sliceatWrite c v) s = .next t ∧ (t.ctx c).sliceat = v ∧ (t.ctx c).st = x.st ∧ t.groups = s.groups)

/-- 25 R420, R423 to R426: a HALTING context halts once everything of it is still and not before: every known result written, every write performed, every remote access answered, no append or credit message of its partition under way (DEDUCED, log 28), no copy's row, drain row, chunk or growth estimate begun, no operation its sequencers could still start. CTXSTAT then says HALTED with the cause of the FIRST record, its buffered records and those of the other units take consecutive SEQ; not in a clk in which a gang of it has entered its handler (R416); one of a core out of service is saved where a core can take its work, else it stays HALTED and a record says so (R429). A SAVING one is SAVED, its groups off the chip; one being redistributed then runs on its new cores, where no switch-in was held before it; that it is saved first, its steps and their two records are DEDUCED (log 30). A KILLING one is KILLED once its remote accesses are answered, with KTS and a record of no cause, that of R429 before it where unreadable state is the reason (that order is DEDUCED, log 69), nothing of it left. -/
def Obligations.ContextsStop : Prop :=
  ∀ (s : State) (c : Nat), let x := s.ctx c; let part := partOf c
    let answers : Prop := (∀ p ∈ s.groups, p.2.ctx = c → ∀ r ∈ p.2.remote, r.resp ≠ none) ∧ ∀ w ∈ s.waits, w.ctx = c → w.resp ≠ none
    let noneOut (id : Nat) : Prop := ∀ w ∈ s.waits, w.dist = false → w.op = id → w.k = noAccess
    let still : Prop := answers ∧ (∀ p ∈ s.groups, p.2.ctx = c → (∀ v ∈ p.2.vp, v.known = false) ∧ ∀ y ∈ p.2.late, y.vp = 0) ∧ (∀ p ∈ s.msgs, p.2.part ≠ part) ∧ (∀ p ∈ s.copies, p.2.ctx = c → noneOut p.1) ∧ (∀ p ∈ x.comms, ∀ i ∈ p.2.insts, noneOut i.tok) ∧
      (∀ p ∈ s.seqs, ∀ o ∈ p.2, o.ctx = c → (o.phase = 2 → noneOut o.id) ∧ facGrowing s p.1 = none ∧ seqReady s p.1 = none)
    let trapped : Prop := ∃ p ∈ s.groups, p.2.ctx = c ∧ p.2.trapAt = s.clk + 1
    let lg := min (x.stopbase.extractLsb' 1 4).toNat 12; let ring := (x.stopbase.extractLsb' 12 40).toNat * 4096
    let told (t : State) (seq : Word) (cause detail : Nat) : Prop := x.stopbase.getLsbD 0 = true →
      readByteList t (ring + 128 * (seq.toNat % 2 ^ lg)) 128 = StopRec.bytes { StopRec.blank s.tsc with src := srcNum 0 0xF, kind := 6, cause := cause, detail := detail } seq.toNat
    (x.st = .halting → ¬ still ∨ trapped → exec (.contextHalted c) s = .next s) ∧ (x.st ≠ .halting → exec (.contextHalted c) s = .next s) ∧
    (x.st = .halting → still → ¬ trapped → x.redist = false → ∃ t, exec (.contextHalted c) s = .next t ∧ (t.ctx c).st = (if x.wantSave then .saving else .halted) ∧ (t.ctx c).recs = [] ∧
      (t.ctx c).stopseq = x.stopseq + BitVec.ofNat 32 (x.recs.length + (haltRecs (stopGroups c s) c).length) ∧
      (∀ r, x.recs = [r] → r.first = true → (t.ctx c).cause = r.cause) ∧ (x.recs = [] → (t.ctx c).cause = 0) ∧
      (∀ i g, s.group? i = some g → ∃ g', t.group? i = some g' ∧ g'.rf = g.rf ∧ g'.out = g.out ∧ g'.slices = g.slices ∧ g'.sr = g.sr ∧ g'.gangs.map (fun a => (a.pc, a.idx)) = g.gangs.map (fun a => (a.pc, a.idx)))) ∧
    (∀ a, x.st = .halting → still → ¬ trapped → x.redist = true → x.wantSave = false → (mappedCores s c).filter s.dev.fenced.contains = [a] →
      ∃ t, exec (.contextHalted c) s = .next t ∧ (t.ctx c).recs = [] ∧ (spareCores s c a ≠ [] → (t.ctx c).st = .saving ∧ (t.ctx c).redist = true) ∧
        (spareCores s c a = [] → (t.ctx c).st = .halted ∧ (t.ctx c).redist = false ∧ (t.ctx c).stopseq = x.stopseq + BitVec.ofNat 32 (x.recs.length + (haltRecs (stopGroups c s) c).length + 1))) ∧
    (∀ a, x.st = .saving → still → x.redist = true → x.rotate = false → x.recs = [] → x.haltBy = 0 → x.haltpend = false → x.lateFrom = none → (mappedCores s c).filter s.dev.fenced.contains = [a] → spareCores s c a ≠ [] →
      (s.part part).heldIn = [] → (∀ k, k < 16 → part * 16 + k ≠ c → (s.ctx (part * 16 + k)).st.occupies = false) →
      (x.stopbase.getLsbD 0 = true → ring + 128 * 2 ^ lg ≤ saveArea x ∨ saveArea x + 4096 * (s.part part).savePages.toNat ≤ ring) →
      ∃ t, exec (.saveComplete c) s = .next t ∧ (t.ctx c).st = .running ∧ (t.ctx c).live = true ∧ (t.ctx c).stopseq = x.stopseq + 2 ∧ a ∉ mappedCores t c) ∧
    (x.st = .saving → still → x.rotate = false → x.redist = false → (s.part part).heldIn = [] → x.recs = [] → x.haltBy = 0 → ∃ t, exec (.saveComplete c) s = .next t ∧ (t.ctx c).st = .saved ∧ (t.ctx c).live = false ∧ (t.ctx c).stopseq = x.stopseq + 1 ∧ told t x.stopseq 0x60 0 ∧
      (t.ctx c).saved = saveOut (stopGroups c s) part ∧ (∃ k, (t.ctx c).image = some (k, 4096 * (s.part part).savePages.toNat)) ∧ (∀ i g, t.group? i = some g → g.ctx = c → g.resident = false) ∧ (∀ i g, s.group? i = some g → g.ctx ≠ c → t.group? i = some g)) ∧
    (x.st = .saving → ¬ still → exec (.saveComplete c) s = .next s) ∧ (x.st ≠ .saving → exec (.saveComplete c) s = .next s) ∧
    (x.st = .killing → answers → (s.part part).heldIn = [] → ∃ t, exec (.contextKilled c) s = .next t ∧ (t.ctx c).st = .killed ∧ (t.ctx c).killed = true ∧ (t.ctx c).kts = s.tsc &&& 0x7FFFFFFFFFFFFFFF ∧ (t.ctx c).comms = [] ∧ (t.ctx c).saved = [] ∧
      (x.haltBy ≠ 3 → (t.ctx c).stopseq = x.stopseq + 1 ∧ told t x.stopseq 0 0) ∧ (x.haltBy = 3 → (t.ctx c).stopseq = x.stopseq + 2 ∧ told t (x.stopseq + 1) 0 0 ∧ (1 ≤ lg → told t x.stopseq 0x50 2)) ∧
      (∀ p ∈ t.groups, p.2.ctx ≠ c) ∧ (∀ p ∈ t.launches, p.2.ctx ≠ c) ∧ (∀ p ∈ t.copies, p.2.ctx ≠ c) ∧ (∀ p ∈ t.conts, p.2.ctx ≠ c) ∧ (∀ i g, s.group? i = some g → g.ctx ≠ c → t.group? i = some g)) ∧
    (x.st ≠ .killing ∨ ¬ answers → exec (.contextKilled c) s = .next s)

/-- 25 R428, 27 R442, 28 R455, R457: at SLICEEND a RUNNING context is switched out, once; at SLICEAT a SAVED one is switched in when its partition is free; a context that has run TSLICE µs is switched out, and while TSLICE is 0 none; HOLD is MOVECTL.HOLD; a held RUNNING context with nothing resident and no engine holding its work writes its carry area and sets DONE, and no other does (that it waits for the launches of devices too is DEDUCED, log 12, and that RUNNING alone writes it, log 45); ADOPT acts on a SAVED context alone, and of an area that is marked or counts too much it adopts nothing and sets BADCARRY; of one that carries none every accepted record has completed, whatever CPL it holds (DEDUCED, log 12). That SLICEAT and SLICEEND act once is DEDUCED (log 32), and so are HOLD clearing DONE and the conditions of BADCARRY (log 45). -/
def Obligations.SlicesAndMoves : Prop :=
  ∀ (s : State) (c : Nat), let x := s.ctx c
    let settled : Prop := (∀ p ∈ s.groups, p.2.ctx = c → p.2.late = []) ∧ (∀ p ∈ s.copies, p.2.ctx = c → p.2.pend = []) ∧ (∀ p ∈ s.seqs, ∀ o ∈ p.2, o.ctx = c → o.pend = []) ∧ ∀ p ∈ x.comms, ∀ i ∈ p.2.insts, i.pend = []
    let idle : Prop := (∀ p ∈ s.groups, p.2.ctx ≠ c) ∧ (∀ p ∈ s.conts, p.2.ctx ≠ c) ∧ (∀ p ∈ s.seqs, ∀ o ∈ p.2, o.ctx ≠ c) ∧ (∀ p ∈ s.copies, p.2.ctx ≠ c) ∧ (∀ p ∈ x.comms, p.2.insts = []) ∧ x.devq = [] ∧
      (∀ w ∈ s.waits, w.ctx = c → w.resp ≠ none) ∧ (∀ p ∈ s.msgs, p.2.part ≠ partOf c) ∧ (∀ p ∈ s.tasks, p.2.ctx = c → p.2.st ≠ .spawning) ∧ ∀ p ∈ s.launches, p.2.ctx = c → p.2.dev = none
    (x.sliceend ≠ 0 → x.endDone = false → x.sliceend.toNat ≤ s.tsc.toNat → x.st = .running → ∃ t, exec (.sliceendReached c) s = .next t ∧ (t.ctx c).st = .saving ∧ (t.ctx c).endDone = true ∧ (settled → t.ctx c = { x with st := .saving, endDone := true } ∧ ∀ b, readByte t b = readByte s b)) ∧
    (x.sliceend = 0 ∨ x.endDone = true ∨ s.tsc.toNat < x.sliceend.toNat → exec (.sliceendReached c) s = .next s) ∧
    (x.sliceat ≠ 0 → x.atDone = false → x.sliceat.toNat ≤ s.tsc.toNat → x.st = .saved → (∀ k, k < 16 → (s.ctx (partOf c * 16 + k)).st.occupies = false) → (∀ a ∈ mappedCores s c, a ∉ s.dev.fenced) →
      (∀ k n, x.image = some (k, n) → markedMem s (saveArea x) n = false ∧ readByteList s (saveArea x) n = (List.range n).map (Config.saveByte k)) →
      ∃ t, exec (.sliceatReached c) s = .next t ∧ (t.ctx c).st = (if x.haltpend then .halted else .running) ∧ (t.ctx c).atDone = true ∧ (x.lateFrom = none → (t.ctx c).latens = x.latens)) ∧
    (x.sliceat = 0 ∨ x.atDone = true ∨ s.tsc.toNat < x.sliceat.toNat → exec (.sliceatReached c) s = .next s) ∧
    (∀ p, (s.part p).tslice = 0 → exec (.tsliceExpiry p) s = .next s) ∧
    (x.st = .running → (s.part (partOf c)).tslice ≠ 0 → (∀ k, k < 16 → partOf c * 16 + k ≠ c → (s.ctx (partOf c * 16 + k)).st ≠ .running) →
      ((s.part (partOf c)).tslice * 1000 ≤ (s.tsc - x.runSince).toNat → ∃ t, exec (.tsliceExpiry (partOf c)) s = .next t ∧ (t.ctx c).st = .saving ∧ (t.ctx c).rotate = true ∧ (settled → t.ctx c = { x with st := .saving, rotate := true })) ∧
      ((s.tsc - x.runSince).toNat < (s.part (partOf c)).tslice * 1000 → exec (.tsliceExpiry (partOf c)) s = .next s)) ∧
    (∀ on, ∃ t, exec (.holdCtx c on) s = .next t ∧ t.ctx c = { x with hold := on, done := x.done && (!on || x.hold) } ∧ t = { s with ctxs := t.ctxs }) ∧
    (x.st = .running → x.hold = true → x.done = false → idle → let base := (x.carrybase.extractLsb' 12 40).toNat * 4096
      ∃ t, exec (.carryWritten c) s = .next t ∧ t.ctx c = { x with done := true } ∧ t.groups = s.groups ∧ readMem t base 4 = (carried s c).length % 2 ^ 32 ∧
        ∀ b, b < base ∨ base + (carryBytes s c).length ≤ b → readByte t b = readByte s b) ∧
    (x.st ≠ .running ∨ x.hold = false ∨ x.done = true ∨ ¬ idle → exec (.carryWritten c) s = .next s) ∧
    (x.st ≠ .saved → exec (.adoptCarry c) s = .next s) ∧
    (let base := (x.carrybase.extractLsb' 12 40).toNat * 4096
     (x.st = .saved → (markedMem s base 128 = true ∨ 262144 < readMem s base 4) → ∃ t, exec (.adoptCarry c) s = .next t ∧ t.ctx c = { x with badcarry := true } ∧ t.launches = s.launches ∧ t.groups = s.groups ∧ ∀ b, readByte t b = readByte s b) ∧
     (x.st = .saved → markedMem s base 128 = false → readMem s base 4 = 0 → ∃ t, exec (.adoptCarry c) s = .next t ∧ t.launches = s.launches ∧ t.groups = s.groups ∧ (∀ b, readByte t b = readByte s b) ∧ (t.ctx c).st = .saved ∧ (t.ctx c).badcarry = x.badcarry ∧
       ∀ k q, (t.ctx c).lq[k]? = some q → q.acc = BitVec.ofNat 16 (readMem s (base + 64 + 16 * k + 10) 2) ∧ q.cpl = q.acc ∧ q.tail = BitVec.ofNat 16 (readMem s (base + 64 + 16 * k + 8) 2)))

/-! ## The host (27 R437 to R445; 23 R400, R402; 25 R424; 29 R461) -/

/-- Registers as the host writes them. LQTAIL and LQBASE act at once, and are latched in the window of a switch-out (23 R402); while EN = 1 only EN of LQBASE changes, and EN with LG above 12 is refused. EQHEAD never passes TAIL, and the first entry freed after a drop brings the LOST event. An event waits, in ascending TS and SRC, until $tsc moves (log entry 65: the model's choice); then it is written at its place and TAIL advances, with the interrupt the host asked for, or a full queue drops and counts it. A grant takes only what no other partition holds, a range or a window whole or not at all (DESIGN CHOICE for windows, log 40), and none while a context of the partition is neither IDLE nor KILLED; SHARES never sum above 256; PLIMIT lies in 1,000 to 3,400. A write that is misaligned or of another width, a 32-bit write of a command register, and every write to a part that refused its image (the model's reading of 29 R458, log 40) do nothing; a whole write of a context register leaves its fields as written and its reserved bits zero. -/
def Obligations.HostRegisters : Prop :=
  (∀ (s : State) (c q : Nat) (v : DWord), q < (s.ctx c).lq.length → let x := s.ctx c; let win := x.st = .saving ∨ x.st = .saved
    (∃ t, exec (.lqtailWrite c q v) s = .next t ∧ t = { s with ctxs := t.ctxs } ∧ (∀ k, k ≠ q → (t.ctx c).queue k = x.queue k) ∧
      (¬ win → (t.ctx c).queue q = { x.queue q with tail := v.extractLsb' 0 16 }) ∧ (win → (t.ctx c).queue q = { x.queue q with latTail := some (v.extractLsb' 0 16) })) ∧
    (∃ t, exec (.lqbaseWrite c q v) s = .next t ∧ t = { s with ctxs := t.ctxs } ∧ (∀ k, k ≠ q → (t.ctx c).queue k = x.queue k) ∧
      let old := (x.queue q).latBase.getD (x.queue q).base; let new := (t.ctx c).queue q; let seen := new.latBase.getD new.base
      (old.getLsbD 4 = true → seen = (if v.getLsbD 4 then old else old &&& ~~~0x10#64)) ∧
      (old.getLsbD 4 = false → v.getLsbD 4 = true → 12 < (v.extractLsb' 0 4).toNat → new = x.queue q) ∧
      (old.getLsbD 4 = false → (v.getLsbD 4 = false ∨ (v.extractLsb' 0 4).toNat ≤ 12) → seen = v &&& 0x01FFFFFFFFFFFF1F#64) ∧ (win → new.base = (x.queue q).base) ∧ (x.queue q).tail = new.tail)) ∧
  (∀ (s : State) (part : Nat) (v : DWord), let p := s.part part; let h := v.extractLsb' 0 16
    ((p.eqtail - p.eqhead).toNat < (h - p.eqhead).toNat → exec (.eqheadWrite part v) s = .next s) ∧
    ((h - p.eqhead).toNat ≤ (p.eqtail - p.eqhead).toNat → ∃ t, exec (.eqheadWrite part v) s = .next t ∧ (t.part part).eqhead = h ∧
      (t.part part).signalled = false ∧ (t.part part).eqtail = p.eqtail ∧ (∀ b, readByte t b = readByte s b) ∧
      (p.dropped = 0 ∨ h = p.eqhead → (t.part part).dropped = p.dropped ∧ (t.part part).evq = p.evq) ∧
      (p.dropped ≠ 0 → h ≠ p.eqhead → (t.part part).dropped = 0 ∧ ∃ e, (∀ x, x ∈ (t.part part).evq ↔ x = e ∨ x ∈ p.evq) ∧ e.ts = s.tsc ∧ e.kind = 8 ∧ e.data = p.dropped))) ∧
  (∀ (s : State) (part : Nat) (e : Event), let p := s.part part; let t := writeEvent part e s; let at_ := (p.eqbase.extractLsb' 12 40).toNat * 4096 + 32 * (p.eqtail.toNat % p.eqSize)
    ((p.eqtail - p.eqhead).toNat = p.eqSize → (t.part part).eqtail = p.eqtail ∧ (e.kind ≠ 8 → (t.part part).dropped = p.dropped + 1) ∧ (∀ b, readByte t b = readByte s b) ∧ t.out = s.out) ∧
    ((p.eqtail - p.eqhead).toNat ≠ p.eqSize → (t.part part).eqtail = p.eqtail + 1 ∧ (t.part part).eqhead = p.eqhead ∧ (t.part part).dropped = p.dropped ∧ (∀ b, b < at_ ∨ at_ + 32 ≤ b → readByte t b = readByte s b) ∧
      readMem t at_ 8 = e.ts.toNat ∧ readMem t (at_ + 8) 4 = e.src % 2 ^ 32 ∧ readMem t (at_ + 12) 4 = e.seq % 2 ^ 32 ∧ readMem t (at_ + 16) 1 = e.kind % 256 ∧ readMem t (at_ + 17) 1 = e.cause % 256 ∧
      readMem t (at_ + 18) 1 = e.ctx % 16 ∧ readMem t (at_ + 20) 4 = e.data % 2 ^ 32 ∧ t.out.msix = s.out.msix ++ (if p.ien && !p.signalled then [part] else []) ∧ (t.part part).signalled = (p.signalled || p.ien))) ∧
  (∀ (s : State) (part src seq kind cause ctx data : Nat), let t := pushEvent part src seq kind cause ctx data s
    (∀ x, x ∈ (t.part part).evq ↔ x = ⟨s.tsc, src, seq, kind, cause, ctx, data⟩ ∨ x ∈ (s.part part).evq) ∧
    (((s.part part).evq.Pairwise fun a b => b.before a = false) → (t.part part).evq.Pairwise fun a b => b.before a = false)) ∧
  (∀ (s : State) (ns : Nat), (∀ q ∈ s.parts, q.2.evq = []) → ∀ b, readByte (s.flushEvents ns) b = readByte s b) ∧
  (∀ (s : State) (ns : Nat) (part : Nat) (p : Part), s.parts = [(part, p)] → 0 < ns → s.flushEvents ns = p.evq.foldl (fun s e => writeEvent part e s) (s.updPart part fun p => { p with evq := [] })) ∧
  (∀ (s : State) (part off : Nat) (v : DWord),
    (grantLocked s part = true → exec (.grantWrite part off v) s = .next s) ∧
    (grantLocked s part = false → part < 256 → ∃ t, exec (.grantWrite part off v) s = .next t ∧ t = { s with parts := t.parts } ∧ (∀ j, j ≠ part → t.part j = s.part j) ∧
      (∀ k q, off = 8 * k → k < 4 → q / 64 = k → (t.part part).hasQuad q = (v.getLsbD (q % 64) && (otherParts s part).all fun o => !o.hasQuad q)) ∧
      (∀ k q, off = 8 * k → k < 4 → q / 64 ≠ k → (t.part part).hasQuad q = (s.part part).hasQuad q) ∧
      (∀ k b, off = 0x80 + 8 * k → k < 8 → b / 64 = k → (t.part part).spsets.getLsbD b = (v.getLsbD (b % 64) && (otherParts s part).all fun o => !o.spsets.getLsbD b)) ∧
      (let lo := (v.extractLsb' 16 8).toNat; let n := (v.extractLsb' 0 9).toNat; off = 0x20 →
        let ok := n ≤ 256 ∧ lo + n ≤ 256 ∧ ∀ o ∈ otherParts s part, ∀ k, ¬ (lo ≤ k ∧ k < lo + n ∧ o.slotlo ≤ k ∧ k < o.slotlo + o.slotn)
        (ok → (t.part part).slotlo = lo ∧ (t.part part).slotn = n) ∧ (¬ ok → (t.part part).slotlo = (s.part part).slotlo ∧ (t.part part).slotn = (s.part part).slotn)) ∧
      (let lo := (v.extractLsb' 0 10).toNat; let n := (v.extractLsb' 16 11).toNat; off = 0x28 →
        let ok := n ≤ 1024 ∧ lo + n ≤ 1024 ∧ ∀ o ∈ otherParts s part, ∀ k, ¬ (lo ≤ k ∧ k < lo + n ∧ o.tasklo ≤ k ∧ k < o.tasklo + o.taskn)
        (ok → (t.part part).tasklo = lo ∧ (t.part part).taskn = n) ∧ (¬ ok → (t.part part).tasklo = (s.part part).tasklo ∧ (t.part part).taskn = (s.part part).taskn)) ∧
      (otherParts s part = [] → off = 0xC0 → (t.part part).pwinb = (s.part part).pwinb.set 0 (v &&& 0x000FFFFFFFFFF000#64)))) ∧
  (∀ (s : State) (part : Nat) (v : DWord), let p := s.part part; let sum (f : Part → Nat) : Nat := ((otherParts s part).map f).foldl (· + ·) 0
    exec (.sharesWrite part v) s = .next (s.setPart part { p with
      memsh := if sum (·.memsh) + (v.extractLsb' 0 8).toNat ≤ 256 then (v.extractLsb' 0 8).toNat else p.memsh
      fabsh := if sum (·.fabsh) + (v.extractLsb' 8 8).toNat ≤ 256 then (v.extractLsb' 8 8).toNat else p.fabsh
      hostsh := if sum (·.hostsh) + (v.extractLsb' 16 8).toNat ≤ 256 then (v.extractLsb' 16 8).toNat else p.hostsh })) ∧
  (∀ (s : State) (v : DWord), ∃ t, exec (.plimitWrite v) s = .next t ∧ t = { s with dev := { s.dev with plimit := t.dev.plimit } } ∧ 1000 ≤ t.dev.plimit ∧ t.dev.plimit ≤ 3400 ∧
    (1000 ≤ (v.extractLsb' 0 12).toNat → (v.extractLsb' 0 12).toNat ≤ 3400 → t.dev.plimit = (v.extractLsb' 0 12).toNat)) ∧
  (∀ (s : State) (fn off size : Nat) (v : DWord),
    (s.dev.bootState = 3 ∨ (size ≠ 4 ∧ size ≠ 8) ∨ off % size ≠ 0 → exec (.registerWrite fn off size v) s = .next s) ∧
    (∀ c, size = 4 → off % 4 = 0 → regAt fn (off / 8 * 8) ∈ [.ctx c 0x108, .ctx c 0x300, .ctx c 0x348] → exec (.registerWrite fn off size v) s = .next s) ∧
    (∀ c a mask, size = 8 → off % 8 = 0 → s.dev.bootState ≠ 3 → regAt fn off = .ctx c a → (s.ctx c).st = .idle → (a, mask) ∈ [(0x100, 0x01FFFFFFFFFFF000#64), (0x310, 0x000FFFFFFFFFF01F#64), (0x320, 0x000FFFFFFFFFF000#64), (0x338, 0xFFFFFFFFFFFFFFFF#64), (0x358, 0x000FFFFFFFFFF000#64)] →
      ∃ t, exec (.registerWrite fn off size v) s = .next t ∧ regRead t fn off 8 = v &&& mask ∧ (∀ b, readByte t b = readByte s b) ∧ t.groups = s.groups) ∧
    (∀ p, size = 4 → off % 8 = 4 → regAt fn (off / 8 * 8) = .part p 0x148 → exec (.registerWrite fn off size v) s = .next s) ∧
    (∀ p a, 0 < fn → regAt fn (off / 8 * 8) = .part p a → a ≠ 0x148 → a ≠ 0x158 → exec (.registerWrite fn off size v) s = .next s))

/-- 27 R437, R438; 02 R20; 03 R76: the host reads and writes device memory whole, whatever windows are set; the register range answers as function 0 does; a host agent's accesses reach host memory. A fence of the host changes nothing, for the model has one order (DESIGN CHOICE, log 4). -/
def Obligations.HostMemory : Prop :=
  (∀ (s : State) (a size : Nat), regionOf a ≠ .devreg →
    (size ≠ 0 → isDevMem a = true → isDevMem (a + size - 1) = true → exec (.hostMemRead a size) s = .next { s with cache := (cachePass a size false s).cache, out := { s.out with reads := s.out.reads ++ [(a, (wordsOf a size).map fun w => readPWord s (4 * w))] } }) ∧
    (∀ data, data ≠ [] → isDevMem a = true → isDevMem (a + data.length - 1) = true →
      ∃ t, exec (.hostMemWrite a data) s = .next t ∧ t = { s with mem := t.mem, memPoison := t.memPoison, cache := t.cache } ∧ (∀ k b, data[k]? = some b → readByte t (a + k) = b) ∧ (∀ b, b < a ∨ a + data.length ≤ b → readByte t b = readByte s b) ∧
        ∀ k, k < data.length → markAt t (a + k) = false)) ∧
  (∀ (s : State) (off : Nat) (data : List Byte), regionOf (0xF000000000000 + off) = .devreg →
    (∃ t, exec (.hostMemRead (0xF000000000000 + off) 8) s = .next t ∧ t.out.reads = s.out.reads ++ [(0xF000000000000 + off, [⟨(regRead s 0 off 8).setWidth 32, false⟩, ⟨(regRead s 0 off 8).extractLsb' 32 32, false⟩])] ∧ t.mem = s.mem) ∧
    exec (.hostMemWrite (0xF000000000000 + off) data) s = exec (.registerWrite 0 off data.length (BitVec.ofNat 64 (bytesWord data))) s) ∧
  (∀ (s : State) (a size : Nat) (data : List Byte), regionOf a = .host → data ≠ [] →
    exec (.hostCoherentAgentAccess a size none) s = .next { s with cache := (cachePass a size false s).cache, out := { s.out with reads := s.out.reads ++ [(a, (wordsOf a size).map fun w => readPWord s (4 * w))] } } ∧
    ∃ t, exec (.hostCoherentAgentAccess a size (some data)) s = .next t ∧ t = { s with mem := t.mem, memPoison := t.memPoison, cache := t.cache } ∧ (∀ k b, data[k]? = some b → readByte t (a + k) = b) ∧ ∀ b, b < a ∨ a + data.length ≤ b → readByte t b = readByte s b) ∧
  (∀ (s : State) (r : Bool), exec (.hostFence r) s = .next s)

/-! ## The fabric and time (19 R328, R329; 27 R441; 12 R266; 02 R46) -/

/-- A flit whose CRC fails is sent again until its sixteenth retransmission has failed, then the link goes down; a good flit clears the count. Training adopts a version of 1 to 3 and, on a part not yet synchronised, sets $tsc once; no later synchronisation steps $tsc. A time flit leaves each trained port at most once in 10 µs (log 43). After 1 s with no link trained contexts may be created. As time passes, $tsc of a device that is not the master slews towards the offset last told (log 64) by at most a thousandth of it, what does not make up 1,000 ns being kept for the next time; the master does not slew (log 64). When the master leaves, its links are down, the lowest node of those that are left is master and no device steps $tsc. -/
def Obligations.LinksAndTime : Prop :=
  ∀ (s : State) (p : Nat), p < s.dev.ports.length → let x := s.port p
    (x.up = true → exec (.flitReceive p true) s = .next (s.updPort p fun x => { x with tries := 0 })) ∧
    (x.up = true → x.tries < 16 → exec (.flitReceive p false) s = .next (s.updPort p fun x => { x with tries := x.tries + 1 })) ∧
    (x.up = true → 16 ≤ x.tries → ∃ t, exec (.flitReceive p false) s = .next t ∧ (t.port p).up = false ∧ (t.port p).tries = 0 ∧ (∀ j, j ≠ p → t.port j = s.port j) ∧ t = { s with dev := { s.dev with ports := t.dev.ports, master := t.dev.master } }) ∧
    (∀ v node mt, (v = 1 ∨ v = 2 ∨ v = 3) → ∃ t, exec (.linkTrained p v node mt) s = .next t ∧ (t.port p).up = true ∧ (t.port p).version = v ∧ (t.port p).node = node ∧ (∀ j, j ≠ p → t.port j = s.port j) ∧
      t.dev.synced = true ∧ (s.dev.synced = false → t.tsc = mt ∧ t.dev.mayCreate = true) ∧ (s.dev.synced = true → t.tsc = s.tsc ∧ t.dev.mayCreate = s.dev.mayCreate) ∧
      t.dev.master ≤ node ∧ t.dev.master ≤ Config.nodeId.toNat ∧ t.groups = s.groups ∧ ∀ b, readByte t b = readByte s b) ∧
    (x.up = true → (x.lastSync = 0 ∨ 10000 ≤ (s.tsc - x.lastSync).toNat) → ∃ t, exec (.timeSyncSend p) s = .next t ∧ t.out.sync = s.out.sync ++ [(p, s.tsc)] ∧ (t.port p).lastSync = s.tsc ∧ t.tsc = s.tsc) ∧
    (x.up = false ∨ (x.lastSync ≠ 0 ∧ (s.tsc - x.lastSync).toNat < 10000) → exec (.timeSyncSend p) s = .next s) ∧
    (∀ mt, x.up = true → ∃ t, exec (.timeSyncReceive p mt) s = .next t ∧ t.dev.synced = true ∧ (s.dev.synced = true → t.tsc = s.tsc ∧ (t.port p).offset = (mt.toNat : Int) - s.tsc.toNat) ∧ (s.dev.synced = false → t.tsc = mt ∧ (t.port p).offset = 0)) ∧
    ((∀ y ∈ s.dev.ports, y.up = false) → s.dev.synced = false → 1000000000 ≤ s.tsc.toNat → exec .syncWaitExpiry s = .next { s with dev := { s.dev with mayCreate := true } }) ∧
    (∀ n, let m : Int := ((s.dev.slewNs + n) / 1000 : Nat)
      ∃ d : Int, -m ≤ d ∧ d ≤ m ∧ (s.slewed n).tsc = s.tsc + BitVec.ofInt 64 d ∧ s.slewed n = { s with tsc := (s.slewed n).tsc, dev := { s.dev with slewNs := (s.dev.slewNs + n) % 1000, ports := s.dev.ports.map fun x => { x with offset := x.offset - d } } } ∧
      (s.dev.master = Config.nodeId.toNat → d = 0) ∧ (∀ o : Int, s.dev.master ≠ Config.nodeId.toNat → (∀ y ∈ s.dev.ports, y.up = true → y.offset = o) → (∃ y ∈ s.dev.ports, y.up = true) → d = max (-m) (min m o))) ∧
    (∀ node, s.dev.master = node → ∃ t, exec (.masterLeaves node) s = .next t ∧ t.tsc = s.tsc ∧ t = { s with free := t.free, dev := { s.dev with master := t.dev.master, ports := t.dev.ports } } ∧ (∀ y ∈ t.dev.ports, y.node = node → y.up = false) ∧ (node ≠ Config.nodeId.toNat → t.dev.master ≠ node) ∧
      t.dev.master ≤ Config.nodeId.toNat ∧ (∀ y ∈ t.dev.ports, y.up = true → t.dev.master ≤ y.node ∧ t.dev.master ≤ y.far) ∧ (t.dev.master = Config.nodeId.toNat ∨ ∃ y ∈ t.dev.ports, y.up = true ∧ (t.dev.master = y.node ∨ t.dev.master = y.far)))

/-- 27 R441, 02 R46: an access of another device is checked against this device's windows of its partition: outside them it is refused and touches nothing; while the context whose memory it reaches is being killed it is discarded; else it reads, writes or updates memory, and its response leaves. That the window is looked at before the place and the kill is the model's order (log 39), and the request that only asks whether an access may be made touches nothing (log 61). The bytes it moves and its response are counted for its partition. A response that comes in reaches whatever waits for its identifier and has none yet, and nothing else; where nobody asks for it any more, the wait ends with it. The answer of a store or an atomic that was made ends it, the old value going to the result that waits for it; one that is refused goes out again, for it had leave (DESIGN CHOICE, log 61). -/
def Obligations.FabricAccesses : Prop :=
  (∀ (s : State) (r : FabReq), ∃ t, exec (.fabricAccess r) s = .next t ∧ t.groups = s.groups ∧ t.ctxs = s.ctxs ∧ (∀ p, t.part p = { s.part p with hbmb := (t.part p).hbmb, fabb := (t.part p).fabb }) ∧ (∀ p, p ≠ r.part → t.part p = s.part p) ∧ t.spad = s.spad ∧ (∃ a, t.out.resps = s.out.resps ++ [(r.id, a)] ∧
      (inWindow (s.part r.part) r.addr = false → a = .refused) ∧ (inWindow (s.part r.part) r.addr = true → isDevMem r.addr = true → r.op ≠ 3 → killedMem s r.addr = true → a = .discarded) ∧ (inWindow (s.part r.part) r.addr = true → isDevMem r.addr = false → a = .undeliverable) ∧
      (inWindow (s.part r.part) r.addr = true → isDevMem r.addr = true → r.op = 3 → a = .done []) ∧
      (inWindow (s.part r.part) r.addr = true → isDevMem r.addr = true → killedMem s r.addr = false → r.op = 0 → a = .done (fabWords s r.addr r.size)) ∧
      (inWindow (s.part r.part) r.addr = true → isDevMem r.addr = true → killedMem s r.addr = false → r.op = 1 → r.addr % 4 = 0 → r.size = 4 * r.data.length → (∀ d ∈ r.data, d.poison = false) →
        a = .done [] ∧ ∀ k d, r.data[k]? = some d → readMem t (r.addr + 4 * k) 4 = d.val.toNat ∧ markAt t (r.addr + 4 * k) = false) ∧
      (inWindow (s.part r.part) r.addr = true → isDevMem r.addr = true → killedMem s r.addr = false → r.op = 2 → (r.size = 4 ∨ r.size = 8) → r.addr % r.size = 0 →
        let old := readMem s r.addr r.size; let m := markedMem s r.addr r.size
        a = .done (pvWords (r.size / 4) ⟨BitVec.ofNat 64 old, m⟩) ∧ readMem t r.addr r.size = (aopVal r.aop (BitVec.ofNat 64 old) (fabVal r.data).val (fabVal r.cmp).val).toNat % 2 ^ (8 * r.size) ∧
        markedMem t r.addr r.size = (m || (fabVal r.data).poison || (fabVal r.cmp).poison))) ∧
      (inWindow (s.part r.part) r.addr = false ∨ isDevMem r.addr = false ∨ killedMem s r.addr = true ∨ r.op = 0 ∨ r.op = 3 → ∀ b, readByte t b = readByte s b) ∧
      (∀ b, b < r.addr ∨ r.addr + r.size ≤ b → readByte t b = readByte s b)) ∧
  (∀ (s : State) (id : Nat) (r : RemoteResp) (gid : Nat) (g : Group) (w : RemoteWait), s.group? gid = some g → g.remote.find? (fun v => v.id == id && v.made) = some w → (∀ p ∈ s.groups, p.1 ≠ gid → ∀ v ∈ p.2.remote, ¬ (v.id = id ∧ v.made = true)) →
    ∃ t g', exec (.remoteAccessResponse id r) s = .next t ∧ t.group? gid = some g' ∧ g' = { g with remote := g'.remote, vp := g'.vp } ∧ (∀ j, j ≠ gid → t.group? j = s.group? j) ∧ (∀ b, readByte t b = readByte s b) ∧ t.ctxs = s.ctxs ∧
      ((r = .discarded ∨ ∃ ws, r = .done ws) → t = { s with groups := t.groups } ∧ g'.remote = g.remote.filter (fun v => v.id != id) ∧ g'.vp.length = g.vp.length ∧ ∀ (k : Nat) v, g.vp[k]? = some v → ∃ v', g'.vp[k]? = some v' ∧ (v.id ≠ w.vp → v' = v) ∧
        v'.id = v.id ∧ v'.keys = v.keys ∧ v'.gone = v.gone ∧ v'.writes.map (·.1) = v.writes.map (·.1) ∧ (∀ key c, key ∉ w.keys → ((key, c) ∈ v'.writes ↔ (key, c) ∈ v.writes)) ∧
        (v.id = w.vp → (v'.known = true ↔ v.known = true ∨ ((∀ x ∈ g.late, x.vp ≠ w.vp) ∧ ∀ x ∈ g'.remote, x.made = true → x.vp ≠ w.vp)) ∧
          ∀ key d, w.keys = [key] → w.req.size = 4 → r = .done [d] → ∀ c, (key, c) ∈ v'.writes → c = ⟨pwGet d, d.poison, 0⟩)) ∧
      (r = .refused ∨ r = .undeliverable → g'.vp = g.vp ∧ g'.remote = { w with id := s.nextId } :: g.remote.filter (fun v => v.id != id) ∧ t.out.fab = s.out.fab ++ [{ w.req with id := s.nextId }])) ∧
  (∀ (s : State) (id : Nat) (r : RemoteResp), (∀ p ∈ s.groups, ∀ v ∈ p.2.remote, ¬ (v.id = id ∧ v.made = true)) → ∃ t, exec (.remoteAccessResponse id r) s = .next t ∧ (∀ b, readByte t b = readByte s b) ∧
    t = { s with groups := t.groups, waits := t.waits } ∧
    (∀ gid g, s.group? gid = some g → ∃ g', t.group? gid = some g' ∧ g' = { g with remote := g'.remote } ∧
      g'.remote = (g.remote.filter fun w => !(w.id == id && w.resp.isNone && w.slice == 65)).map fun w => if w.id = id ∧ w.resp = none then { w with resp := some r } else w) ∧
    t.waits = (s.waits.filter fun w => !(w.id == id && w.resp.isNone && w.k == noAccess)).map fun w => if w.id = id ∧ w.resp = none then { w with resp := some r } else w)

/-! ## Boot, power, heat, errors (29 R458 to R462; 23 R410, R411; 25 R429) -/

/-- 29 R458 to R460, R462: RESET puts everything but memory (kept: log 41) at its reset value and starts the firmware only when both signatures over the SHA-512 digest verify and the security version is at least the fused minimum, else the part is refused (the algorithms are taken from their standards: PRESUMED, log 72). A report is made by a part that runs its firmware, over the nonce, the identity and $tsc, signed by both keys (its layout, the nonce first and $tsc last, is the model's: log 42). While the power passes PLIMIT or a die is at 105 °C, each decision lowers the clock by 100 MHz, to 1,000 MHz at the least, and sets PTHR or TTHR; with no cause it stays or rises by 100 MHz (the model's, no rule gives a rise: logs 31, 1); at 125 °C, in a decision or a trip, every running context halts with UNCORRECTABLE and TRIP is set; once no context is left to come to its stop the clocks are off, the events that wait having been written (log 66). -/
def Obligations.BootAndHeat : Prop :=
  (∀ (s : State) (img : BootImage), let d := sha512 img.body; let ok := verifyEd Config.rootEd d img.edSig = true ∧ verifyMl Config.rootMl d img.mlSig = true ∧ Config.minSvn.toNat ≤ img.svn.toNat
    ∃ t, exec (.resetPart img) s = .next t ∧ t.mem = s.mem ∧ t = { State.reset with mem := s.mem, memPoison := s.memPoison, agenda := s.agenda, turn := s.turn, free := t.free, nextId := s.nextId, dev := t.dev } ∧
      t.dev = { Dev.reset with bootState := t.dev.bootState, edFail := t.dev.edFail, mlFail := t.dev.mlFail, svn := t.dev.svn, digest := t.dev.digest } ∧
      t.dev.edFail = !verifyEd Config.rootEd d img.edSig ∧ t.dev.mlFail = !verifyMl Config.rootMl d img.mlSig ∧ (ok → t.dev.bootState = 2 ∧ t.dev.svn = img.svn ∧ ∀ k, k < 64 → ∃ b, d[k]? = some b ∧ t.dev.digest.extractLsb' (8 * k) 8 = b) ∧ (¬ ok → t.dev.bootState = 3)) ∧
  (∀ (s : State) (nonce : BitVec 256), (s.dev.bootState ≠ 2 → exec (.attestationReport nonce) s = .next s) ∧
    (s.dev.bootState = 2 → ∃ t b, exec (.attestationReport nonce) s = .next t ∧ t = { s with out := { s.out with reports := s.out.reports ++ [(b, Config.signEd b, Config.signMl b)] } } ∧
      b.length = 116 ∧ b.take 32 = (List.range 32).map (fun k => nonce.extractLsb' (8 * k) 8) ∧ b.drop 108 = (List.range 8).map fun k => s.tsc.extractLsb' (8 * k) 8)) ∧
  (∀ (s : State) (p m : Nat), let hot := 105 ≤ m; let much := s.dev.plimit * 1000 < p
    let busy (t : State) : Prop := ∃ q ∈ t.ctxs, q.2.st ∈ [.running, .halting, .saving, .killing]
    let trips (t : State) : Prop := t.dev.trip = true ∧ t.dev.stopped = true ∧ t.groups = s.groups ∧ (t.dev.clockOff = true ↔ s.dev.clockOff = true ∨ ¬ busy t) ∧
      (busy t → s.dev.clockOff = false → ∀ b, readByte t b = readByte s b) ∧ ((∀ q ∈ s.parts, q.2.evq = []) → ∀ b, readByte t b = readByte s b) ∧ (t.dev.clockOff = true → ∀ q, (t.part q).evq = []) ∧
      ((s.ctxs.map (·.1)).Nodup → ∀ c, (s.ctx c).st = .running → (t.ctx c).st = .halting ∧ ∃ r, (t.ctx c).recs = (s.ctx c).recs ++ [r] ∧ r.cause = 0x50) ∧
      ((∀ q ∈ s.ctxs, q.2.st ∉ [.running, .halting, .saving, .killing]) → t.ctxs = s.ctxs ∧ ∀ c n r, s.agenda = .time c n :: r → step t = .fault .clocksStopped)
    (∃ t, exec (.clockStepDecision p m) s = .next t ∧ t.dev.powerMw = p ∧ t.dev.maxC = m ∧ t.dev.plimit = s.dev.plimit ∧ t.dev.pthr = (s.dev.pthr || decide much) ∧ t.dev.tthr = (s.dev.tthr || decide hot) ∧
      (hot ∨ much → t.dev.mhz = max 1000 (s.dev.mhz - 100)) ∧ (¬ hot → ¬ much → t.dev.mhz = s.dev.mhz ∨ t.dev.mhz = min 2100 (s.dev.mhz + 100)) ∧
      (m < 125 ∨ s.dev.stopped = true → t = { s with free := t.free, dev := { s.dev with powerMw := p, maxC := m, mhz := t.dev.mhz, pthr := t.dev.pthr, tthr := t.dev.tthr } }) ∧
      (125 ≤ m → s.dev.stopped = false → trips t)) ∧
    (m < 125 → exec (.thermalTrip m) s = .next s) ∧
    (125 ≤ m → ∃ t, exec (.thermalTrip m) s = .next t ∧ trips t))

/-- 23 R410, R411: a migration happens only when nothing on the core keeps its context there; then every group of the context on the core stands on the other, with its registers, and the core map names the other core; a SLEEP ends there, as R385 has it, or its end moves along in $tsc, as R411 has it (DEDUCED, log 31). That a migration also waits for messages of the partition and for remote accesses is DEDUCED (log 31), and so is what counts as work on a core (log 30). 25 R429: an uncorrectable error fences its core, poisons the register it struck and nothing else of the registers, tells of it in an event for each context with work on the core (log 69), and halts the running ones, a context whose control state is unreadable being killed. -/
def Obligations.CoresLeaveService : Prop :=
  (∀ (s : State) (lid v b : Nat) (l : Launch), sget lid s.launches = some l → ∀ a, l.map[v]? = some a →
    let c := l.ctx; let part := partOf c
    let sleeps (x : Gang) : Prop := ∃ n, x.hold = .sleep n ∨ x.hold = .sleepTsc n
    let blocked (g : Group) (x : Gang) : Prop := (∃ k, x.hold = .bar k) ∨ x.hold = .launch ∨ (∃ m n k v, x.hold = .wait m n ∧ k < 2 ∧ m.getLsbD k = true ∧ g.oldest k = some v ∧ v.id ∈ g.far) ∨ (sleeps x ∧ ∀ q, q < 4 → (s.mq part a q).entries = 0)
    (mayMigrate s c a b = true ↔ (s.ctx c).st = .running ∧
      (b ∈ partCores s part ∧ b ≠ a ∧ sameGrants (s.part part) a b = true ∧ ∀ m ∈ s.launches, m.2.ctx = c → b ∉ m.2.map) ∧
      (∀ w ∈ s.wgs, w.2.core = a → (∃ m ∈ s.launches, m.1 = w.2.lid ∧ m.2.ctx = c) → w.2.placedAt + 2000000 ≤ s.tsc.toNat) ∧
      (∀ p ∈ s.groups, p.2.ctx = c → p.2.core = a → p.2.remote = [] ∧ ∀ x ∈ p.2.gangs, blocked p.2 x) ∧
      (∀ m ∈ s.launches, m.2.ctx = c → a ∈ m.2.map → m.2.rec_.pers = false) ∧
      (∀ p ∈ s.copies, p.2.ctx = c → p.2.core ≠ a) ∧ (∀ p ∈ s.seqs, ∀ o ∈ p.2, o.ctx = c → coreOf p.1 ≠ a) ∧ (∀ p ∈ (s.ctx c).comms, ∀ i ∈ p.2.insts, i.core ≠ a) ∧
      (∀ y ∈ s.lines part a, y.asked = false) ∧ (∀ q, q < 4 → (s.mq part a q).held = []) ∧ ∀ p ∈ s.msgs, p.2.part ≠ part) ∧
    (mayMigrate s l.ctx a b = false → exec (.thermalMigration lid v b) s = .next s) ∧
    (mayMigrate s l.ctx a b = true → ∃ t, exec (.thermalMigration lid v b) s = .next t ∧ (∃ l', sget lid t.launches = some l' ∧ l'.map = l.map.map fun k => if k = a then b else k) ∧
      (∀ i g, s.group? i = some g → ∃ g', t.group? i = some g' ∧ g'.rf = g.rf ∧ g'.tile = g.tile ∧ g'.pv = g.pv ∧ g'.sr = g.sr ∧ g'.out = g.out ∧ g'.quad = (if g.ctx = l.ctx ∧ g.core = a then 4 * b + g.quad % 4 else g.quad) ∧
        (g.ctx = c → g.core = a → g'.gangs.length = g.gangs.length ∧ ∀ (k : Nat) x, g.gangs[k]? = some x → ∃ y, g'.gangs[k]? = some y ∧ y.pc = x.pc ∧ y.idx = x.idx ∧ ((¬ sleeps x → y.hold = x.hold) ∧ (∀ n, x.hold = .sleep n → y.hold = .free ∨ y.hold = .sleepTsc (s.tsc.toNat + ((n - s.clk) * 1000 + s.dev.mhz - 1) / s.dev.mhz)) ∧ ∀ n, x.hold = .sleepTsc n → y.hold = .free ∨ y.hold = x.hold))) ∧
      (t.ctx l.ctx).st = .running ∧ (t.ctx l.ctx).stopseq = (s.ctx l.ctx).stopseq + 1)) ∧
  (∀ (s : State) (core : Nat) (site : ErrSite), (64 ≤ core ∨ core ∈ s.dev.fenced → exec (.uncorrectableError core site) s = .next s) ∧
    (core < 64 → core ∉ s.dev.fenced → ∃ t, exec (.uncorrectableError core site) s = .next t ∧ t.dev.fenced = core :: s.dev.fenced ∧
      (∀ c, c ∈ ctxsOn s core ↔ (∃ p ∈ s.groups, p.2.core = core ∧ p.2.resident = true ∧ p.2.ctx = c) ∨ (∃ p ∈ s.copies, p.2.core = core ∧ p.2.ctx = c) ∨ (∃ p ∈ s.conts, coreOf p.2.quad = core ∧ p.2.ctx = c) ∨
        (∃ p ∈ s.tasks, p.1 / 1024 = core ∧ p.2.ctx = c) ∨ (∃ p ∈ s.ctxs, p.1 = c ∧ ∃ q ∈ p.2.comms, ∃ i ∈ q.2.insts, i.core = core) ∨ (∃ p ∈ s.launches, core ∈ p.2.map ∧ p.2.ctx = c)) ∧
      (∀ c ∈ ctxsOn s core, ∃ e ∈ (t.part (partOf c)).evq, e.ts = s.tsc ∧ e.kind = 6 ∧ e.cause = 0x50 ∧ e.ctx = c) ∧
      (∀ c ∈ ctxsOn s core, (s.ctx c).st = .running → (∀ k, site = .control k → k ≠ c) → (t.ctx c).st = .halting ∧ (t.ctx c).redist = true ∧ (t.ctx c).recs = (s.ctx c).recs) ∧
      (∀ c, site = .control c → c ∈ ctxsOn s core → (s.ctx c).st = .running → (t.ctx c).st = .killing) ∧
      (∀ c, c ∉ ctxsOn s core → (t.ctx c).st = (s.ctx c).st) ∧
      (∀ gid key, site = .reg gid key → ∀ g, s.group? gid = some g → ∃ g', t.group? gid = some g' ∧ g'.cellAt key = poisoned ∧ ∀ j, j ≠ key → g'.cellAt j = g.cellAt j) ∧
      (∀ i g, s.group? i = some g → (∀ gid key, site = .reg gid key → i ≠ gid) → ∃ g', t.group? i = some g' ∧ g'.rf = g.rf ∧ g'.out = g.out)))

/-! ## The machine as a whole (08 R163 to R188; 23 R409; 29 R460, R461) -/

/-- One step takes the next turn, the agenda's or else the free schedule's (DESIGN CHOICE, log 2). Before it, stores and loads that wait are performed or not (log 60); after it, what it replaced in memory and scratchpads is kept for the reads that race with it (logs 4, 62). When a quadrant's turn comes and the word at its issuing gang's place decodes to i, the step is `exec i` of that state with the gang named, the fetch counted and passed through the die cache, and the group's late accesses performed that the instruction, if it acts, comes after (log 60); an instruction that has issued moves the round robin on, and its quadrant issues no other in that clk (23 R409); a word that decodes to nothing raises ILLEGAL_OPCODE; a quadrant with no gang due lets the turn pass; an event's turn is `exec` of the event, in a part that refused its image only a reset and accesses of its registers and of memory, the host's and its agents' (the reading of 29 R458 in log 66); a turn of time moves clk and $tsc, $tsc with its slew (19 R329; log 64), and writes the events that wait if $tsc has moved; a soft error, a turn of its own (log 44), of one symbol is counted and changes nothing else, one of two marks the words its check covers (02 R48, R49). After a thermal trip the contexts come to their halt and none runs again; then the clocks are off, and only what the host does makes a step (log 66). -/
def Obligations.StepRunsTheDecodedInstruction : Prop :=
  ∀ s : State,
    let turn := s.agenda.head?.getD (Config.schedule s.turn)
    let s0 : State := { s with turn := s.turn + 1, agenda := s.agenda.tail }
    let s1 := drift s0
    ((∀ p ∈ s.groups, p.2.late = []) → (∀ p ∈ s.copies, p.2.pend = []) → (∀ p ∈ s.seqs, ∀ o ∈ p.2, o.pend = []) → (∀ p ∈ s.ctxs, ∀ q ∈ p.2.comms, ∀ i ∈ q.2.insts, i.pend = []) → s1 = s0) ∧
    (∀ a b : State, kept a b = { b with past := (kept a b).past, seqs := (kept a b).seqs, copies := (kept a b).copies } ∧ (b.mem = a.mem → b.memPoison = a.memPoison → b.spad = a.spad → b.spadPoison = a.spadPoison → kept a b = b) ∧
      ∀ q, ((kept a b).queue q).map (fun o => { o with old := [] }) = (b.queue q).map fun o => { o with old := [] }) ∧ (
    let rom (i : Instr) : Prop := (∃ x, i = .resetPart x) ∨ (∃ fn off n v, i = .registerWrite fn off n v) ∨ (∃ x n, i = .hostMemRead x n) ∨ (∃ x d, i = .hostMemWrite x d) ∨ (∃ r, i = .hostFence r) ∨ ∃ x n d, i = .hostCoherentAgentAccess x n d
    let runs (i : Instr) : Prop := i.opcode = 256 ∧ (s.dev.bootState = 3 → rom i)
    (s.dev.stopped = true → s.dev.clockOff = true → hostTurn turn = false → step s = .fault .clocksStopped) ∧
    (∀ i t, s.dev.stopped = true → s.dev.clockOff = false ∨ hostTurn turn = true → turn = .event i → runs i → (∃ t0, exec i { s1 with cur := actorOf i } = .next t0 ∧ t = kept s1 t0) →
      ∃ u, step s = .next u ∧ u.groups = t.groups ∧ ((t.ctxs.map (·.1)).Nodup → ∀ c, (u.ctx c).st ≠ .running) ∧
        (t.dev.stopped = false → u = { t with ctxs := u.ctxs }) ∧
        (t.dev.stopped = true → (u.dev.clockOff = true ↔ t.dev.clockOff = true ∨ ∀ p ∈ u.ctxs, p.2.st ∉ [.running, .halting, .saving, .killing]) ∧
          (u.dev.clockOff = false → u = { t with ctxs := u.ctxs }) ∧ (u.dev.clockOff = true → ∀ p, (u.part p).evq = []))) ∧
    (s.dev.stopped = false →
      (∀ q k gid slice g a h w, turn = .issue q → issuer s1 q = some (k, gid, slice) →
        let s2 : State := { s1 with cur := some ⟨gid, slice⟩ }
        curGang s2 = some (gid, slice, g, a, h) → fetchInstr s2 gid g h (wordAddr a.pc a.idx) = .ok w →
        let s3 := fetchPass s2 g (wordAddr a.pc a.idx)
        (∀ i, decode w = some i → let s4 := readyLate (lateRule i) (decGuard w) gid slice s3
          (∀ t, exec i s4 = .next t → step s = .next (kept s1 (noteTurn q k g.part s2 t))) ∧ ((∀ t, exec i s4 ≠ .next t) → step s = exec i s4) ∧
          (g.late = [] → s4 = s3) ∧ s4 = { s3 with mem := s4.mem, memPoison := s4.memPoison, spad := s4.spad, spadPoison := s4.spadPoison, spadStamp := s4.spadStamp, groups := s4.groups } ∧
          (∀ j g', s3.group? j = some g' → ∃ g'', s4.group? j = some g'' ∧ g'' = { g' with late := g''.late, vp := g''.vp } ∧ (j ≠ gid → g'' = g'))) ∧
        (∀ t, let u := noteTurn q k g.part s2 t; u = { t with rr := u.rr, issuedAt := u.issuedAt, tried := u.tried } ∧
          ((t.part g.part).issue ≠ (s2.part g.part).issue → sgetD 3 q u.rr = k) ∧ ((t.part g.part).issue ≠ (s2.part g.part).issue → ∀ v : State, v.issuedAt = u.issuedAt → v.clk = s.clk → issuer v q = none)) ∧
        s3 = { s2 with cache := s3.cache, parts := s3.parts } ∧ (∀ p, s3.part p = { s2.part p with hbmb := (s3.part p).hbmb, hostb := (s3.part p).hostb }) ∧
        (decode w = none → (s1.ctx g.ctx).st = .running → ∃ t r, step s = .next t ∧ t.group? gid = some { g with resume := if passesBy s2 gid slice then none else g.resume } ∧ (t.ctx g.ctx).st = .halting ∧ (t.ctx g.ctx).recs = (s1.ctx g.ctx).recs ++ [r] ∧ r.cause = 0x01)) ∧
      (∀ q, turn = .issue q → issuer s1 q = none → step s = .next s1) ∧
      (∀ i, turn = .event i → runs i → (∀ t, exec i { s1 with cur := actorOf i } = .next t → step s = .next (kept s1 t)) ∧ ((∀ t, exec i { s1 with cur := actorOf i } ≠ .next t) → step s = exec i { s1 with cur := actorOf i })) ∧
      (∀ i, turn = .event i → ¬ runs i → step s = .next s1) ∧
      (∀ site, turn = .softError site 1 → softHeld s1 site = true → step s = .next { s1 with dev := { s1.dev with cecnt := s1.dev.cecnt + 1 } }) ∧
      (∀ pa, turn = .softError (.memory pa) 2 → softHeld s1 (.memory pa) = true → ∃ t, step s = .next (kept s1 t) ∧ t = { s1 with memPoison := t.memPoison } ∧ ∀ w, sgetD false w t.memPoison = (sgetD false w s1.memPoison || w / 8 == pa / 32)) ∧
      (∀ k, turn = .softError (.spad k) 2 → softHeld s1 (.spad k) = true → ∃ t, step s = .next (kept s1 t) ∧ t = { s1 with spadPoison := t.spadPoison } ∧ ∀ w, sgetD false w t.spadPoison = (sgetD false w s1.spadPoison || w == k / 4)) ∧
      (∀ c n, turn = .time c n → let t := (s1.slewed n).pass c n; step s = .next (kept s1 (t.flushEvents (if t.tsc = s1.tsc then 0 else 1))))))

/-- Words the spec writes out, with the fields its tables give them (08 R174 to R184, 09 and the programs' listings). -/
def Obligations.DecodeReadsTheEncodings : Prop :=
  let g (p : BitVec 4) (n : Bool) (st : BitVec 3) : Guard := ⟨n, p, st⟩
  decode 0x7829010071402200 = some (.isub ⟨g 15 false 1, .v 2, .v 1, .z, 1, false, false, 0x200⟩) ∧
  decode 0x7A1B05008060A480 = some (.ffma ⟨g 15 false 3, .v 10, .v 2, .v 3, .v 10, false, true, false, 0x80⟩) ∧
  decode 0x7950120100A75200 = some (.icmp ⟨g 15 false 0, 1, 2, false, 4, 5, 3, true, 1, false, true, 2, 0, 0⟩) ∧
  decode 0x98090381B1400000 = some (.mov ⟨g 3 true 1, .v 7, .v 6, .z, 0, false, false, 0⟩) ∧
  decode 0x440003C000280010 = some (.ld ⟨g 8 false 0, .v 7, .s 0, .v 1, 64, 0, 0, false, 1, 0, false, false⟩) ∧
  decode 0x7C2803423140A898 = some (.atom ⟨g 15 false 0, .v 6, .s 8, .z, .v 10, 2, 0, 9, true, false, false, false⟩) ∧
  decode 0x79C1030188000000 = some (.mfs ⟨g 15 false 1, .v 6, 0x31, 0⟩) ∧
  decode 0x7D00840000044004 = some (.mloop ⟨g 15 false 0, .s 8, 0, 0, 0, 0, 2, 2, false, 0, 4⟩) ∧
  decode 0x7D80880231400000 = some (.cpy ⟨g 15 false 0, .s 16, .v 8, .z, 0, 0, false, 0⟩) ∧
  decode 0x7E00FFFFFFFC0000 = some (.bra ⟨g 15 false 0, 0xFFFFFFFC, 0⟩) ∧
  decode 0x7E80000000000000 = some (.eret ⟨g 15 false 0, 0, 0⟩) ∧ decode 0x7E90000000000000 = some (.mtsp ⟨g 15 false 0, .v 0, 0, 0⟩) ∧
  decode 0x7EA0000000000000 = none ∧ decode 0xF920FFFFF8000000 = none

/-- Decoding an encoded instruction word gives it back with every operand at every value, and a word that decodes encodes to itself: no bit of an encoding is dropped. -/
def Obligations.EncodingsRoundTrip : Prop :=
  (∀ i : Instr, i.canonical = true → ∃ w, encode i = some w ∧ decode w = some i) ∧
  (∀ (w : DWord) (i : Instr), decode w = some i → i.canonical = true ∧ encode i = some w)

/-- What every step keeps: memory and its poison marks are in their one canonical form, PLIMIT lies in 1,000 to 3,400 W and the clock in 1,000 to 2,100 MHz (29 R460, R461). -/
def Obligations.EveryStepKeepsTheInvariant : Prop := ∀ s t : State, Safety.Inv s → step s = .next t → Safety.Inv t

/-- The state at reset has the invariant, and its registers read as the tables give them: the clock at 2,100 MHz, PLIMIT 3,400, the part in its ROM; AGEMAX 256, LQUOTA 16, every cache way granted and nothing else; every register of a context block 0. Nothing is resident. -/
def Obligations.ResetRegisters : Prop :=
  Safety.Inv State.reset ∧ State.reset.groups = [] ∧ (∀ a, readByte State.reset a = 0) ∧
  regRead State.reset 0 0x100 8 = 0 ∧ regRead State.reset 0 0x108 8 = 3400 ∧ regRead State.reset 0 0x110 8 = 0 ∧ regRead State.reset 0 0x118 8 = 0 ∧ regRead State.reset 0 0x120 8 = 0x08340000 ∧ regRead State.reset 0 0x128 8 = 0 ∧
  (∀ p off, p < 256 → off < 0x1000 → off % 8 = 0 → regRead State.reset 0 (0x1000000 + 0x20000 * p + off) 8 = if off = 0x38 then 0x00100100 else if off = 0x40 then 0xFFFFFF else 0) ∧
  (∀ p c off, p < 256 → c < 16 → off < 0x1000 → off % 8 = 0 → regRead State.reset 0 (0x1000000 + 0x20000 * p + 0x1000 * (c + 1) + off) 8 = 0)
end

