-- ==== Sys2Proof/Laws/Sparse.lean ====
section
/-! SUPPORT. Laws of data by key: a read after a write, other keys untouched, the canonical form kept. -/

namespace Sys2Proof.Machine

/-! ## Reads after writes -/

theorem sget_sset_same {α : Type} (k : Nat) (v : α) (m : Sparse α) : sget k (sset k v m) = some v := by
  induction m with
  | nil => simp [sset, sget]
  | cons p t ih =>
    obtain ⟨a, w⟩ := p
    simp only [sset]
    split
    · simp [sget]
    · split
      · simp [sget]
      · rename_i h; simp [sget, h, ih]

theorem sget_sset_other {α : Type} {j k : Nat} (h : j ≠ k) (v : α) (m : Sparse α) : sget j (sset k v m) = sget j m := by
  induction m with
  | nil => simp [sset, sget, Ne.symm h]
  | cons p t ih =>
    obtain ⟨a, w⟩ := p
    simp only [sset]
    split
    · simp [sget, Ne.symm h]
    · split
      · rename_i e; subst e; simp [sget, Ne.symm h]
      · simp [sget, ih]

theorem sget_serase_same {α : Type} (k : Nat) (m : Sparse α) : sget k (serase k m) = none := by
  induction m with
  | nil => simp [serase, sget]
  | cons p t ih =>
    obtain ⟨a, w⟩ := p
    by_cases e : a = k
    · subst e; simpa [serase, sget] using ih
    · simpa [serase, sget, e] using ih

theorem sget_serase_other {α : Type} {j k : Nat} (h : j ≠ k) (m : Sparse α) : sget j (serase k m) = sget j m := by
  induction m with
  | nil => simp [serase, sget]
  | cons p t ih =>
    obtain ⟨a, w⟩ := p
    by_cases e : a = k
    · subst e; simpa [serase, sget, Ne.symm h] using ih
    · by_cases f : a = j
      · subst f; simp [serase, sget, e]
      · simpa [serase, sget, e, f] using ih

theorem sgetD_sput_same {α : Type} [BEq α] [LawfulBEq α] (d : α) (k : Nat) (v : α) (m : Sparse α) : sgetD d k (sput d k v m) = v := by
  unfold sgetD sput
  split
  · rename_i e; simp [sget_serase_same, (eq_of_beq e)]
  · simp [sget_sset_same]

theorem sgetD_sput_other {α : Type} [BEq α] (d : α) {j k : Nat} (h : j ≠ k) (v : α) (m : Sparse α) : sgetD d j (sput d k v m) = sgetD d j m := by
  unfold sgetD sput
  split
  · rw [sget_serase_other h]
  · rw [sget_sset_other h]

theorem sget_none_of_canonFrom {α : Type} [BEq α] (d : α) {lo k : Nat} {m : Sparse α} (h : canonFrom d lo m = true) (hk : k < lo) : sget k m = none := by
  induction m generalizing lo with
  | nil => rfl
  | cons p t ih =>
    obtain ⟨a, w⟩ := p
    simp only [canonFrom, Bool.and_eq_true, decide_eq_true_eq] at h
    rw [sget, if_neg (by omega)]
    exact ih h.2 (by omega)

/-! ## The canonical form -/

theorem canonFrom_mono {α : Type} [BEq α] (d : α) {lo hi : Nat} {m : Sparse α} (h : canonFrom d hi m = true) (hl : lo ≤ hi) : canonFrom d lo m = true := by
  cases m with
  | nil => rfl
  | cons p t =>
    obtain ⟨a, w⟩ := p
    simp only [canonFrom, Bool.and_eq_true, decide_eq_true_eq] at h ⊢
    exact ⟨⟨by omega, h.1.2⟩, h.2⟩

theorem canonFrom_sset {α : Type} [BEq α] (d : α) {lo k : Nat} {v : α} {m : Sparse α} (h : canonFrom d lo m = true) (hk : lo ≤ k) (hv : (v == d) = false) :
    canonFrom d lo (sset k v m) = true := by
  induction m generalizing lo with
  | nil => simp [sset, canonFrom, hk, hv]
  | cons p t ih =>
    obtain ⟨a, w⟩ := p
    simp only [canonFrom, Bool.and_eq_true, decide_eq_true_eq] at h
    simp only [sset]
    split
    · rename_i lt
      simp only [canonFrom, Bool.and_eq_true, decide_eq_true_eq, hv, Bool.not_false]
      exact ⟨⟨hk, trivial⟩, ⟨⟨by omega, h.1.2⟩, h.2⟩⟩
    · split
      · rename_i e; subst e
        simp only [canonFrom, Bool.and_eq_true, decide_eq_true_eq, hv, Bool.not_false]
        exact ⟨⟨hk, trivial⟩, h.2⟩
      · simp only [canonFrom, Bool.and_eq_true, decide_eq_true_eq]
        exact ⟨h.1, ih h.2 (by omega)⟩

theorem canonFrom_serase {α : Type} [BEq α] (d : α) {lo k : Nat} {m : Sparse α} (h : canonFrom d lo m = true) : canonFrom d lo (serase k m) = true := by
  induction m generalizing lo with
  | nil => rfl
  | cons p t ih =>
    obtain ⟨a, w⟩ := p
    simp only [canonFrom, Bool.and_eq_true, decide_eq_true_eq] at h
    by_cases e : a = k
    · subst e
      have := ih (canonFrom_mono d h.2 (lo := lo) (by omega))
      simpa [serase] using this
    · have := ih h.2
      simp only [serase] at this ⊢
      rw [List.filter_cons_of_pos (by simpa using e)]
      simp only [canonFrom, Bool.and_eq_true, decide_eq_true_eq]
      exact ⟨h.1, this⟩

theorem canon_sput {α : Type} [BEq α] (d : α) (k : Nat) (v : α) {m : Sparse α} (h : canon d m = true) : canon d (sput d k v m) = true := by
  unfold sput
  split
  · exact canonFrom_serase d h
  · rename_i n; exact canonFrom_sset d h (Nat.zero_le k) (by simpa using n)

theorem canon_foldl_sput {α β : Type} [BEq α] (d : α) (f : β → Nat) (v : β → α) (l : List β) {m : Sparse α} (h : canon d m = true) :
    canon d (l.foldl (fun m b => sput d (f b) (v b) m) m) = true := by
  induction l generalizing m with
  | nil => exact h
  | cons b t ih => exact ih (canon_sput d (f b) (v b) h)

end Sys2Proof.Machine
end

