-- ==== Sys2Proof/Laws/State.lean ====
section
/-! SUPPORT. The state: what each update leaves in each field, and reads of groups, contexts and partitions after their writes. -/

namespace Sys2Proof.Machine

@[simp] theorem State.setGroup_clk (gid : Nat) (g : Group) (s : State) : (s.setGroup gid g).clk = s.clk := rfl
@[simp] theorem State.setGroup_tsc (gid : Nat) (g : Group) (s : State) : (s.setGroup gid g).tsc = s.tsc := rfl
@[simp] theorem State.setGroup_agenda (gid : Nat) (g : Group) (s : State) : (s.setGroup gid g).agenda = s.agenda := rfl
@[simp] theorem State.setGroup_turn (gid : Nat) (g : Group) (s : State) : (s.setGroup gid g).turn = s.turn := rfl
@[simp] theorem State.setGroup_free (gid : Nat) (g : Group) (s : State) : (s.setGroup gid g).free = s.free := rfl
@[simp] theorem State.setGroup_cur (gid : Nat) (g : Group) (s : State) : (s.setGroup gid g).cur = s.cur := rfl
@[simp] theorem State.setGroup_nextId (gid : Nat) (g : Group) (s : State) : (s.setGroup gid g).nextId = s.nextId := rfl
@[simp] theorem State.setGroup_mem (gid : Nat) (g : Group) (s : State) : (s.setGroup gid g).mem = s.mem := rfl
@[simp] theorem State.setGroup_memPoison (gid : Nat) (g : Group) (s : State) : (s.setGroup gid g).memPoison = s.memPoison := rfl
@[simp] theorem State.setGroup_spad (gid : Nat) (g : Group) (s : State) : (s.setGroup gid g).spad = s.spad := rfl
@[simp] theorem State.setGroup_spadPoison (gid : Nat) (g : Group) (s : State) : (s.setGroup gid g).spadPoison = s.spadPoison := rfl
@[simp] theorem State.setGroup_spadStamp (gid : Nat) (g : Group) (s : State) : (s.setGroup gid g).spadStamp = s.spadStamp := rfl
@[simp] theorem State.setGroup_slots (gid : Nat) (g : Group) (s : State) : (s.setGroup gid g).slots = s.slots := rfl
@[simp] theorem State.setGroup_slotOld (gid : Nat) (g : Group) (s : State) : (s.setGroup gid g).slotOld = s.slotOld := rfl
@[simp] theorem State.setGroup_groups (gid : Nat) (g : Group) (s : State) : (s.setGroup gid g).groups = sset gid g s.groups := rfl
@[simp] theorem State.setGroup_wgs (gid : Nat) (g : Group) (s : State) : (s.setGroup gid g).wgs = s.wgs := rfl
@[simp] theorem State.setGroup_launches (gid : Nat) (g : Group) (s : State) : (s.setGroup gid g).launches = s.launches := rfl
@[simp] theorem State.setGroup_conts (gid : Nat) (g : Group) (s : State) : (s.setGroup gid g).conts = s.conts := rfl
@[simp] theorem State.setGroup_bars (gid : Nat) (g : Group) (s : State) : (s.setGroup gid g).bars = s.bars := rfl
@[simp] theorem State.setGroup_tasks (gid : Nat) (g : Group) (s : State) : (s.setGroup gid g).tasks = s.tasks := rfl
@[simp] theorem State.setGroup_mqs (gid : Nat) (g : Group) (s : State) : (s.setGroup gid g).mqs = s.mqs := rfl
@[simp] theorem State.setGroup_credits (gid : Nat) (g : Group) (s : State) : (s.setGroup gid g).credits = s.credits := rfl
@[simp] theorem State.setGroup_msgs (gid : Nat) (g : Group) (s : State) : (s.setGroup gid g).msgs = s.msgs := rfl
@[simp] theorem State.setGroup_copies (gid : Nat) (g : Group) (s : State) : (s.setGroup gid g).copies = s.copies := rfl
@[simp] theorem State.setGroup_seqs (gid : Nat) (g : Group) (s : State) : (s.setGroup gid g).seqs = s.seqs := rfl
@[simp] theorem State.setGroup_looks (gid : Nat) (g : Group) (s : State) : (s.setGroup gid g).looks = s.looks := rfl
@[simp] theorem State.setGroup_lookups (gid : Nat) (g : Group) (s : State) : (s.setGroup gid g).lookups = s.lookups := rfl
@[simp] theorem State.setGroup_cache (gid : Nat) (g : Group) (s : State) : (s.setGroup gid g).cache = s.cache := rfl
@[simp] theorem State.setGroup_past (gid : Nat) (g : Group) (s : State) : (s.setGroup gid g).past = s.past := rfl
@[simp] theorem State.setGroup_dropped (gid : Nat) (g : Group) (s : State) : (s.setGroup gid g).dropped = s.dropped := rfl
@[simp] theorem State.setGroup_waits (gid : Nat) (g : Group) (s : State) : (s.setGroup gid g).waits = s.waits := rfl
@[simp] theorem State.setGroup_rr (gid : Nat) (g : Group) (s : State) : (s.setGroup gid g).rr = s.rr := rfl
@[simp] theorem State.setGroup_issuedAt (gid : Nat) (g : Group) (s : State) : (s.setGroup gid g).issuedAt = s.issuedAt := rfl
@[simp] theorem State.setGroup_tried (gid : Nat) (g : Group) (s : State) : (s.setGroup gid g).tried = s.tried := rfl
@[simp] theorem State.setGroup_ctxs (gid : Nat) (g : Group) (s : State) : (s.setGroup gid g).ctxs = s.ctxs := rfl
@[simp] theorem State.setGroup_parts (gid : Nat) (g : Group) (s : State) : (s.setGroup gid g).parts = s.parts := rfl
@[simp] theorem State.setGroup_switches (gid : Nat) (g : Group) (s : State) : (s.setGroup gid g).switches = s.switches := rfl
@[simp] theorem State.setGroup_dev (gid : Nat) (g : Group) (s : State) : (s.setGroup gid g).dev = s.dev := rfl
@[simp] theorem State.setGroup_out (gid : Nat) (g : Group) (s : State) : (s.setGroup gid g).out = s.out := rfl

@[simp] theorem State.dropGroup_clk (gid : Nat) (s : State) : (s.dropGroup gid).clk = s.clk := rfl
@[simp] theorem State.dropGroup_tsc (gid : Nat) (s : State) : (s.dropGroup gid).tsc = s.tsc := rfl
@[simp] theorem State.dropGroup_agenda (gid : Nat) (s : State) : (s.dropGroup gid).agenda = s.agenda := rfl
@[simp] theorem State.dropGroup_turn (gid : Nat) (s : State) : (s.dropGroup gid).turn = s.turn := rfl
@[simp] theorem State.dropGroup_free (gid : Nat) (s : State) : (s.dropGroup gid).free = s.free := rfl
@[simp] theorem State.dropGroup_cur (gid : Nat) (s : State) : (s.dropGroup gid).cur = s.cur := rfl
@[simp] theorem State.dropGroup_nextId (gid : Nat) (s : State) : (s.dropGroup gid).nextId = s.nextId := rfl
@[simp] theorem State.dropGroup_mem (gid : Nat) (s : State) : (s.dropGroup gid).mem = s.mem := rfl
@[simp] theorem State.dropGroup_memPoison (gid : Nat) (s : State) : (s.dropGroup gid).memPoison = s.memPoison := rfl
@[simp] theorem State.dropGroup_spad (gid : Nat) (s : State) : (s.dropGroup gid).spad = s.spad := rfl
@[simp] theorem State.dropGroup_spadPoison (gid : Nat) (s : State) : (s.dropGroup gid).spadPoison = s.spadPoison := rfl
@[simp] theorem State.dropGroup_spadStamp (gid : Nat) (s : State) : (s.dropGroup gid).spadStamp = s.spadStamp := rfl
@[simp] theorem State.dropGroup_slots (gid : Nat) (s : State) : (s.dropGroup gid).slots = s.slots := rfl
@[simp] theorem State.dropGroup_slotOld (gid : Nat) (s : State) : (s.dropGroup gid).slotOld = s.slotOld := rfl
@[simp] theorem State.dropGroup_groups (gid : Nat) (s : State) : (s.dropGroup gid).groups = serase gid s.groups := rfl
@[simp] theorem State.dropGroup_wgs (gid : Nat) (s : State) : (s.dropGroup gid).wgs = s.wgs := rfl
@[simp] theorem State.dropGroup_launches (gid : Nat) (s : State) : (s.dropGroup gid).launches = s.launches := rfl
@[simp] theorem State.dropGroup_conts (gid : Nat) (s : State) : (s.dropGroup gid).conts = s.conts := rfl
@[simp] theorem State.dropGroup_bars (gid : Nat) (s : State) : (s.dropGroup gid).bars = s.bars := rfl
@[simp] theorem State.dropGroup_tasks (gid : Nat) (s : State) : (s.dropGroup gid).tasks = s.tasks := rfl
@[simp] theorem State.dropGroup_mqs (gid : Nat) (s : State) : (s.dropGroup gid).mqs = s.mqs := rfl
@[simp] theorem State.dropGroup_credits (gid : Nat) (s : State) : (s.dropGroup gid).credits = s.credits := rfl
@[simp] theorem State.dropGroup_msgs (gid : Nat) (s : State) : (s.dropGroup gid).msgs = s.msgs := rfl
@[simp] theorem State.dropGroup_copies (gid : Nat) (s : State) : (s.dropGroup gid).copies = s.copies := rfl
@[simp] theorem State.dropGroup_seqs (gid : Nat) (s : State) : (s.dropGroup gid).seqs = s.seqs := rfl
@[simp] theorem State.dropGroup_looks (gid : Nat) (s : State) : (s.dropGroup gid).looks = s.looks := rfl
@[simp] theorem State.dropGroup_lookups (gid : Nat) (s : State) : (s.dropGroup gid).lookups = s.lookups := rfl
@[simp] theorem State.dropGroup_cache (gid : Nat) (s : State) : (s.dropGroup gid).cache = s.cache := rfl
@[simp] theorem State.dropGroup_past (gid : Nat) (s : State) : (s.dropGroup gid).past = s.past := rfl
@[simp] theorem State.dropGroup_dropped (gid : Nat) (s : State) : (s.dropGroup gid).dropped = s.dropped := rfl
@[simp] theorem State.dropGroup_waits (gid : Nat) (s : State) : (s.dropGroup gid).waits = s.waits := rfl
@[simp] theorem State.dropGroup_rr (gid : Nat) (s : State) : (s.dropGroup gid).rr = s.rr := rfl
@[simp] theorem State.dropGroup_issuedAt (gid : Nat) (s : State) : (s.dropGroup gid).issuedAt = s.issuedAt := rfl
@[simp] theorem State.dropGroup_tried (gid : Nat) (s : State) : (s.dropGroup gid).tried = s.tried := rfl
@[simp] theorem State.dropGroup_ctxs (gid : Nat) (s : State) : (s.dropGroup gid).ctxs = s.ctxs := rfl
@[simp] theorem State.dropGroup_parts (gid : Nat) (s : State) : (s.dropGroup gid).parts = s.parts := rfl
@[simp] theorem State.dropGroup_switches (gid : Nat) (s : State) : (s.dropGroup gid).switches = s.switches := rfl
@[simp] theorem State.dropGroup_dev (gid : Nat) (s : State) : (s.dropGroup gid).dev = s.dev := rfl
@[simp] theorem State.dropGroup_out (gid : Nat) (s : State) : (s.dropGroup gid).out = s.out := rfl

@[simp] theorem State.setCtx_clk (c : Nat) (x : Ctx) (s : State) : (s.setCtx c x).clk = s.clk := rfl
@[simp] theorem State.setCtx_tsc (c : Nat) (x : Ctx) (s : State) : (s.setCtx c x).tsc = s.tsc := rfl
@[simp] theorem State.setCtx_agenda (c : Nat) (x : Ctx) (s : State) : (s.setCtx c x).agenda = s.agenda := rfl
@[simp] theorem State.setCtx_turn (c : Nat) (x : Ctx) (s : State) : (s.setCtx c x).turn = s.turn := rfl
@[simp] theorem State.setCtx_free (c : Nat) (x : Ctx) (s : State) : (s.setCtx c x).free = s.free := rfl
@[simp] theorem State.setCtx_cur (c : Nat) (x : Ctx) (s : State) : (s.setCtx c x).cur = s.cur := rfl
@[simp] theorem State.setCtx_nextId (c : Nat) (x : Ctx) (s : State) : (s.setCtx c x).nextId = s.nextId := rfl
@[simp] theorem State.setCtx_mem (c : Nat) (x : Ctx) (s : State) : (s.setCtx c x).mem = s.mem := rfl
@[simp] theorem State.setCtx_memPoison (c : Nat) (x : Ctx) (s : State) : (s.setCtx c x).memPoison = s.memPoison := rfl
@[simp] theorem State.setCtx_spad (c : Nat) (x : Ctx) (s : State) : (s.setCtx c x).spad = s.spad := rfl
@[simp] theorem State.setCtx_spadPoison (c : Nat) (x : Ctx) (s : State) : (s.setCtx c x).spadPoison = s.spadPoison := rfl
@[simp] theorem State.setCtx_spadStamp (c : Nat) (x : Ctx) (s : State) : (s.setCtx c x).spadStamp = s.spadStamp := rfl
@[simp] theorem State.setCtx_slots (c : Nat) (x : Ctx) (s : State) : (s.setCtx c x).slots = s.slots := rfl
@[simp] theorem State.setCtx_slotOld (c : Nat) (x : Ctx) (s : State) : (s.setCtx c x).slotOld = s.slotOld := rfl
@[simp] theorem State.setCtx_groups (c : Nat) (x : Ctx) (s : State) : (s.setCtx c x).groups = s.groups := rfl
@[simp] theorem State.setCtx_wgs (c : Nat) (x : Ctx) (s : State) : (s.setCtx c x).wgs = s.wgs := rfl
@[simp] theorem State.setCtx_launches (c : Nat) (x : Ctx) (s : State) : (s.setCtx c x).launches = s.launches := rfl
@[simp] theorem State.setCtx_conts (c : Nat) (x : Ctx) (s : State) : (s.setCtx c x).conts = s.conts := rfl
@[simp] theorem State.setCtx_bars (c : Nat) (x : Ctx) (s : State) : (s.setCtx c x).bars = s.bars := rfl
@[simp] theorem State.setCtx_tasks (c : Nat) (x : Ctx) (s : State) : (s.setCtx c x).tasks = s.tasks := rfl
@[simp] theorem State.setCtx_mqs (c : Nat) (x : Ctx) (s : State) : (s.setCtx c x).mqs = s.mqs := rfl
@[simp] theorem State.setCtx_credits (c : Nat) (x : Ctx) (s : State) : (s.setCtx c x).credits = s.credits := rfl
@[simp] theorem State.setCtx_msgs (c : Nat) (x : Ctx) (s : State) : (s.setCtx c x).msgs = s.msgs := rfl
@[simp] theorem State.setCtx_copies (c : Nat) (x : Ctx) (s : State) : (s.setCtx c x).copies = s.copies := rfl
@[simp] theorem State.setCtx_seqs (c : Nat) (x : Ctx) (s : State) : (s.setCtx c x).seqs = s.seqs := rfl
@[simp] theorem State.setCtx_looks (c : Nat) (x : Ctx) (s : State) : (s.setCtx c x).looks = s.looks := rfl
@[simp] theorem State.setCtx_lookups (c : Nat) (x : Ctx) (s : State) : (s.setCtx c x).lookups = s.lookups := rfl
@[simp] theorem State.setCtx_cache (c : Nat) (x : Ctx) (s : State) : (s.setCtx c x).cache = s.cache := rfl
@[simp] theorem State.setCtx_past (c : Nat) (x : Ctx) (s : State) : (s.setCtx c x).past = s.past := rfl
@[simp] theorem State.setCtx_dropped (c : Nat) (x : Ctx) (s : State) : (s.setCtx c x).dropped = s.dropped := rfl
@[simp] theorem State.setCtx_waits (c : Nat) (x : Ctx) (s : State) : (s.setCtx c x).waits = s.waits := rfl
@[simp] theorem State.setCtx_rr (c : Nat) (x : Ctx) (s : State) : (s.setCtx c x).rr = s.rr := rfl
@[simp] theorem State.setCtx_issuedAt (c : Nat) (x : Ctx) (s : State) : (s.setCtx c x).issuedAt = s.issuedAt := rfl
@[simp] theorem State.setCtx_tried (c : Nat) (x : Ctx) (s : State) : (s.setCtx c x).tried = s.tried := rfl
@[simp] theorem State.setCtx_ctxs (c : Nat) (x : Ctx) (s : State) : (s.setCtx c x).ctxs = sput Ctx.reset c x s.ctxs := rfl
@[simp] theorem State.setCtx_parts (c : Nat) (x : Ctx) (s : State) : (s.setCtx c x).parts = s.parts := rfl
@[simp] theorem State.setCtx_switches (c : Nat) (x : Ctx) (s : State) : (s.setCtx c x).switches = s.switches := rfl
@[simp] theorem State.setCtx_dev (c : Nat) (x : Ctx) (s : State) : (s.setCtx c x).dev = s.dev := rfl
@[simp] theorem State.setCtx_out (c : Nat) (x : Ctx) (s : State) : (s.setCtx c x).out = s.out := rfl

@[simp] theorem State.setPart_clk (p : Nat) (x : Part) (s : State) : (s.setPart p x).clk = s.clk := rfl
@[simp] theorem State.setPart_tsc (p : Nat) (x : Part) (s : State) : (s.setPart p x).tsc = s.tsc := rfl
@[simp] theorem State.setPart_agenda (p : Nat) (x : Part) (s : State) : (s.setPart p x).agenda = s.agenda := rfl
@[simp] theorem State.setPart_turn (p : Nat) (x : Part) (s : State) : (s.setPart p x).turn = s.turn := rfl
@[simp] theorem State.setPart_free (p : Nat) (x : Part) (s : State) : (s.setPart p x).free = s.free := rfl
@[simp] theorem State.setPart_cur (p : Nat) (x : Part) (s : State) : (s.setPart p x).cur = s.cur := rfl
@[simp] theorem State.setPart_nextId (p : Nat) (x : Part) (s : State) : (s.setPart p x).nextId = s.nextId := rfl
@[simp] theorem State.setPart_mem (p : Nat) (x : Part) (s : State) : (s.setPart p x).mem = s.mem := rfl
@[simp] theorem State.setPart_memPoison (p : Nat) (x : Part) (s : State) : (s.setPart p x).memPoison = s.memPoison := rfl
@[simp] theorem State.setPart_spad (p : Nat) (x : Part) (s : State) : (s.setPart p x).spad = s.spad := rfl
@[simp] theorem State.setPart_spadPoison (p : Nat) (x : Part) (s : State) : (s.setPart p x).spadPoison = s.spadPoison := rfl
@[simp] theorem State.setPart_spadStamp (p : Nat) (x : Part) (s : State) : (s.setPart p x).spadStamp = s.spadStamp := rfl
@[simp] theorem State.setPart_slots (p : Nat) (x : Part) (s : State) : (s.setPart p x).slots = s.slots := rfl
@[simp] theorem State.setPart_slotOld (p : Nat) (x : Part) (s : State) : (s.setPart p x).slotOld = s.slotOld := rfl
@[simp] theorem State.setPart_groups (p : Nat) (x : Part) (s : State) : (s.setPart p x).groups = s.groups := rfl
@[simp] theorem State.setPart_wgs (p : Nat) (x : Part) (s : State) : (s.setPart p x).wgs = s.wgs := rfl
@[simp] theorem State.setPart_launches (p : Nat) (x : Part) (s : State) : (s.setPart p x).launches = s.launches := rfl
@[simp] theorem State.setPart_conts (p : Nat) (x : Part) (s : State) : (s.setPart p x).conts = s.conts := rfl
@[simp] theorem State.setPart_bars (p : Nat) (x : Part) (s : State) : (s.setPart p x).bars = s.bars := rfl
@[simp] theorem State.setPart_tasks (p : Nat) (x : Part) (s : State) : (s.setPart p x).tasks = s.tasks := rfl
@[simp] theorem State.setPart_mqs (p : Nat) (x : Part) (s : State) : (s.setPart p x).mqs = s.mqs := rfl
@[simp] theorem State.setPart_credits (p : Nat) (x : Part) (s : State) : (s.setPart p x).credits = s.credits := rfl
@[simp] theorem State.setPart_msgs (p : Nat) (x : Part) (s : State) : (s.setPart p x).msgs = s.msgs := rfl
@[simp] theorem State.setPart_copies (p : Nat) (x : Part) (s : State) : (s.setPart p x).copies = s.copies := rfl
@[simp] theorem State.setPart_seqs (p : Nat) (x : Part) (s : State) : (s.setPart p x).seqs = s.seqs := rfl
@[simp] theorem State.setPart_looks (p : Nat) (x : Part) (s : State) : (s.setPart p x).looks = s.looks := rfl
@[simp] theorem State.setPart_lookups (p : Nat) (x : Part) (s : State) : (s.setPart p x).lookups = s.lookups := rfl
@[simp] theorem State.setPart_cache (p : Nat) (x : Part) (s : State) : (s.setPart p x).cache = s.cache := rfl
@[simp] theorem State.setPart_past (p : Nat) (x : Part) (s : State) : (s.setPart p x).past = s.past := rfl
@[simp] theorem State.setPart_dropped (p : Nat) (x : Part) (s : State) : (s.setPart p x).dropped = s.dropped := rfl
@[simp] theorem State.setPart_waits (p : Nat) (x : Part) (s : State) : (s.setPart p x).waits = s.waits := rfl
@[simp] theorem State.setPart_rr (p : Nat) (x : Part) (s : State) : (s.setPart p x).rr = s.rr := rfl
@[simp] theorem State.setPart_issuedAt (p : Nat) (x : Part) (s : State) : (s.setPart p x).issuedAt = s.issuedAt := rfl
@[simp] theorem State.setPart_tried (p : Nat) (x : Part) (s : State) : (s.setPart p x).tried = s.tried := rfl
@[simp] theorem State.setPart_ctxs (p : Nat) (x : Part) (s : State) : (s.setPart p x).ctxs = s.ctxs := rfl
@[simp] theorem State.setPart_parts (p : Nat) (x : Part) (s : State) : (s.setPart p x).parts = sput Part.reset p x s.parts := rfl
@[simp] theorem State.setPart_switches (p : Nat) (x : Part) (s : State) : (s.setPart p x).switches = s.switches := rfl
@[simp] theorem State.setPart_dev (p : Nat) (x : Part) (s : State) : (s.setPart p x).dev = s.dev := rfl
@[simp] theorem State.setPart_out (p : Nat) (x : Part) (s : State) : (s.setPart p x).out = s.out := rfl

@[simp] theorem State.updCtx_clk (c : Nat) (f : Ctx → Ctx) (s : State) : (s.updCtx c f).clk = s.clk := rfl
@[simp] theorem State.updCtx_tsc (c : Nat) (f : Ctx → Ctx) (s : State) : (s.updCtx c f).tsc = s.tsc := rfl
@[simp] theorem State.updCtx_agenda (c : Nat) (f : Ctx → Ctx) (s : State) : (s.updCtx c f).agenda = s.agenda := rfl
@[simp] theorem State.updCtx_turn (c : Nat) (f : Ctx → Ctx) (s : State) : (s.updCtx c f).turn = s.turn := rfl
@[simp] theorem State.updCtx_free (c : Nat) (f : Ctx → Ctx) (s : State) : (s.updCtx c f).free = s.free := rfl
@[simp] theorem State.updCtx_cur (c : Nat) (f : Ctx → Ctx) (s : State) : (s.updCtx c f).cur = s.cur := rfl
@[simp] theorem State.updCtx_nextId (c : Nat) (f : Ctx → Ctx) (s : State) : (s.updCtx c f).nextId = s.nextId := rfl
@[simp] theorem State.updCtx_mem (c : Nat) (f : Ctx → Ctx) (s : State) : (s.updCtx c f).mem = s.mem := rfl
@[simp] theorem State.updCtx_memPoison (c : Nat) (f : Ctx → Ctx) (s : State) : (s.updCtx c f).memPoison = s.memPoison := rfl
@[simp] theorem State.updCtx_spad (c : Nat) (f : Ctx → Ctx) (s : State) : (s.updCtx c f).spad = s.spad := rfl
@[simp] theorem State.updCtx_spadPoison (c : Nat) (f : Ctx → Ctx) (s : State) : (s.updCtx c f).spadPoison = s.spadPoison := rfl
@[simp] theorem State.updCtx_spadStamp (c : Nat) (f : Ctx → Ctx) (s : State) : (s.updCtx c f).spadStamp = s.spadStamp := rfl
@[simp] theorem State.updCtx_slots (c : Nat) (f : Ctx → Ctx) (s : State) : (s.updCtx c f).slots = s.slots := rfl
@[simp] theorem State.updCtx_slotOld (c : Nat) (f : Ctx → Ctx) (s : State) : (s.updCtx c f).slotOld = s.slotOld := rfl
@[simp] theorem State.updCtx_groups (c : Nat) (f : Ctx → Ctx) (s : State) : (s.updCtx c f).groups = s.groups := rfl
@[simp] theorem State.updCtx_wgs (c : Nat) (f : Ctx → Ctx) (s : State) : (s.updCtx c f).wgs = s.wgs := rfl
@[simp] theorem State.updCtx_launches (c : Nat) (f : Ctx → Ctx) (s : State) : (s.updCtx c f).launches = s.launches := rfl
@[simp] theorem State.updCtx_conts (c : Nat) (f : Ctx → Ctx) (s : State) : (s.updCtx c f).conts = s.conts := rfl
@[simp] theorem State.updCtx_bars (c : Nat) (f : Ctx → Ctx) (s : State) : (s.updCtx c f).bars = s.bars := rfl
@[simp] theorem State.updCtx_tasks (c : Nat) (f : Ctx → Ctx) (s : State) : (s.updCtx c f).tasks = s.tasks := rfl
@[simp] theorem State.updCtx_mqs (c : Nat) (f : Ctx → Ctx) (s : State) : (s.updCtx c f).mqs = s.mqs := rfl
@[simp] theorem State.updCtx_credits (c : Nat) (f : Ctx → Ctx) (s : State) : (s.updCtx c f).credits = s.credits := rfl
@[simp] theorem State.updCtx_msgs (c : Nat) (f : Ctx → Ctx) (s : State) : (s.updCtx c f).msgs = s.msgs := rfl
@[simp] theorem State.updCtx_copies (c : Nat) (f : Ctx → Ctx) (s : State) : (s.updCtx c f).copies = s.copies := rfl
@[simp] theorem State.updCtx_seqs (c : Nat) (f : Ctx → Ctx) (s : State) : (s.updCtx c f).seqs = s.seqs := rfl
@[simp] theorem State.updCtx_looks (c : Nat) (f : Ctx → Ctx) (s : State) : (s.updCtx c f).looks = s.looks := rfl
@[simp] theorem State.updCtx_lookups (c : Nat) (f : Ctx → Ctx) (s : State) : (s.updCtx c f).lookups = s.lookups := rfl
@[simp] theorem State.updCtx_cache (c : Nat) (f : Ctx → Ctx) (s : State) : (s.updCtx c f).cache = s.cache := rfl
@[simp] theorem State.updCtx_past (c : Nat) (f : Ctx → Ctx) (s : State) : (s.updCtx c f).past = s.past := rfl
@[simp] theorem State.updCtx_dropped (c : Nat) (f : Ctx → Ctx) (s : State) : (s.updCtx c f).dropped = s.dropped := rfl
@[simp] theorem State.updCtx_waits (c : Nat) (f : Ctx → Ctx) (s : State) : (s.updCtx c f).waits = s.waits := rfl
@[simp] theorem State.updCtx_rr (c : Nat) (f : Ctx → Ctx) (s : State) : (s.updCtx c f).rr = s.rr := rfl
@[simp] theorem State.updCtx_issuedAt (c : Nat) (f : Ctx → Ctx) (s : State) : (s.updCtx c f).issuedAt = s.issuedAt := rfl
@[simp] theorem State.updCtx_tried (c : Nat) (f : Ctx → Ctx) (s : State) : (s.updCtx c f).tried = s.tried := rfl
@[simp] theorem State.updCtx_ctxs (c : Nat) (f : Ctx → Ctx) (s : State) : (s.updCtx c f).ctxs = sput Ctx.reset c (f (s.ctx c)) s.ctxs := rfl
@[simp] theorem State.updCtx_parts (c : Nat) (f : Ctx → Ctx) (s : State) : (s.updCtx c f).parts = s.parts := rfl
@[simp] theorem State.updCtx_switches (c : Nat) (f : Ctx → Ctx) (s : State) : (s.updCtx c f).switches = s.switches := rfl
@[simp] theorem State.updCtx_dev (c : Nat) (f : Ctx → Ctx) (s : State) : (s.updCtx c f).dev = s.dev := rfl
@[simp] theorem State.updCtx_out (c : Nat) (f : Ctx → Ctx) (s : State) : (s.updCtx c f).out = s.out := rfl

@[simp] theorem State.updPart_clk (p : Nat) (f : Part → Part) (s : State) : (s.updPart p f).clk = s.clk := rfl
@[simp] theorem State.updPart_tsc (p : Nat) (f : Part → Part) (s : State) : (s.updPart p f).tsc = s.tsc := rfl
@[simp] theorem State.updPart_agenda (p : Nat) (f : Part → Part) (s : State) : (s.updPart p f).agenda = s.agenda := rfl
@[simp] theorem State.updPart_turn (p : Nat) (f : Part → Part) (s : State) : (s.updPart p f).turn = s.turn := rfl
@[simp] theorem State.updPart_free (p : Nat) (f : Part → Part) (s : State) : (s.updPart p f).free = s.free := rfl
@[simp] theorem State.updPart_cur (p : Nat) (f : Part → Part) (s : State) : (s.updPart p f).cur = s.cur := rfl
@[simp] theorem State.updPart_nextId (p : Nat) (f : Part → Part) (s : State) : (s.updPart p f).nextId = s.nextId := rfl
@[simp] theorem State.updPart_mem (p : Nat) (f : Part → Part) (s : State) : (s.updPart p f).mem = s.mem := rfl
@[simp] theorem State.updPart_memPoison (p : Nat) (f : Part → Part) (s : State) : (s.updPart p f).memPoison = s.memPoison := rfl
@[simp] theorem State.updPart_spad (p : Nat) (f : Part → Part) (s : State) : (s.updPart p f).spad = s.spad := rfl
@[simp] theorem State.updPart_spadPoison (p : Nat) (f : Part → Part) (s : State) : (s.updPart p f).spadPoison = s.spadPoison := rfl
@[simp] theorem State.updPart_spadStamp (p : Nat) (f : Part → Part) (s : State) : (s.updPart p f).spadStamp = s.spadStamp := rfl
@[simp] theorem State.updPart_slots (p : Nat) (f : Part → Part) (s : State) : (s.updPart p f).slots = s.slots := rfl
@[simp] theorem State.updPart_slotOld (p : Nat) (f : Part → Part) (s : State) : (s.updPart p f).slotOld = s.slotOld := rfl
@[simp] theorem State.updPart_groups (p : Nat) (f : Part → Part) (s : State) : (s.updPart p f).groups = s.groups := rfl
@[simp] theorem State.updPart_wgs (p : Nat) (f : Part → Part) (s : State) : (s.updPart p f).wgs = s.wgs := rfl
@[simp] theorem State.updPart_launches (p : Nat) (f : Part → Part) (s : State) : (s.updPart p f).launches = s.launches := rfl
@[simp] theorem State.updPart_conts (p : Nat) (f : Part → Part) (s : State) : (s.updPart p f).conts = s.conts := rfl
@[simp] theorem State.updPart_bars (p : Nat) (f : Part → Part) (s : State) : (s.updPart p f).bars = s.bars := rfl
@[simp] theorem State.updPart_tasks (p : Nat) (f : Part → Part) (s : State) : (s.updPart p f).tasks = s.tasks := rfl
@[simp] theorem State.updPart_mqs (p : Nat) (f : Part → Part) (s : State) : (s.updPart p f).mqs = s.mqs := rfl
@[simp] theorem State.updPart_credits (p : Nat) (f : Part → Part) (s : State) : (s.updPart p f).credits = s.credits := rfl
@[simp] theorem State.updPart_msgs (p : Nat) (f : Part → Part) (s : State) : (s.updPart p f).msgs = s.msgs := rfl
@[simp] theorem State.updPart_copies (p : Nat) (f : Part → Part) (s : State) : (s.updPart p f).copies = s.copies := rfl
@[simp] theorem State.updPart_seqs (p : Nat) (f : Part → Part) (s : State) : (s.updPart p f).seqs = s.seqs := rfl
@[simp] theorem State.updPart_looks (p : Nat) (f : Part → Part) (s : State) : (s.updPart p f).looks = s.looks := rfl
@[simp] theorem State.updPart_lookups (p : Nat) (f : Part → Part) (s : State) : (s.updPart p f).lookups = s.lookups := rfl
@[simp] theorem State.updPart_cache (p : Nat) (f : Part → Part) (s : State) : (s.updPart p f).cache = s.cache := rfl
@[simp] theorem State.updPart_past (p : Nat) (f : Part → Part) (s : State) : (s.updPart p f).past = s.past := rfl
@[simp] theorem State.updPart_dropped (p : Nat) (f : Part → Part) (s : State) : (s.updPart p f).dropped = s.dropped := rfl
@[simp] theorem State.updPart_waits (p : Nat) (f : Part → Part) (s : State) : (s.updPart p f).waits = s.waits := rfl
@[simp] theorem State.updPart_rr (p : Nat) (f : Part → Part) (s : State) : (s.updPart p f).rr = s.rr := rfl
@[simp] theorem State.updPart_issuedAt (p : Nat) (f : Part → Part) (s : State) : (s.updPart p f).issuedAt = s.issuedAt := rfl
@[simp] theorem State.updPart_tried (p : Nat) (f : Part → Part) (s : State) : (s.updPart p f).tried = s.tried := rfl
@[simp] theorem State.updPart_ctxs (p : Nat) (f : Part → Part) (s : State) : (s.updPart p f).ctxs = s.ctxs := rfl
@[simp] theorem State.updPart_parts (p : Nat) (f : Part → Part) (s : State) : (s.updPart p f).parts = sput Part.reset p (f (s.part p)) s.parts := rfl
@[simp] theorem State.updPart_switches (p : Nat) (f : Part → Part) (s : State) : (s.updPart p f).switches = s.switches := rfl
@[simp] theorem State.updPart_dev (p : Nat) (f : Part → Part) (s : State) : (s.updPart p f).dev = s.dev := rfl
@[simp] theorem State.updPart_out (p : Nat) (f : Part → Part) (s : State) : (s.updPart p f).out = s.out := rfl

@[simp] theorem State.bump_clk (s : State) : (s.bump).clk = s.clk := rfl
@[simp] theorem State.bump_tsc (s : State) : (s.bump).tsc = s.tsc := rfl
@[simp] theorem State.bump_agenda (s : State) : (s.bump).agenda = s.agenda := rfl
@[simp] theorem State.bump_turn (s : State) : (s.bump).turn = s.turn := rfl
@[simp] theorem State.bump_free (s : State) : (s.bump).free = s.free + 1 := rfl
@[simp] theorem State.bump_cur (s : State) : (s.bump).cur = s.cur := rfl
@[simp] theorem State.bump_nextId (s : State) : (s.bump).nextId = s.nextId := rfl
@[simp] theorem State.bump_mem (s : State) : (s.bump).mem = s.mem := rfl
@[simp] theorem State.bump_memPoison (s : State) : (s.bump).memPoison = s.memPoison := rfl
@[simp] theorem State.bump_spad (s : State) : (s.bump).spad = s.spad := rfl
@[simp] theorem State.bump_spadPoison (s : State) : (s.bump).spadPoison = s.spadPoison := rfl
@[simp] theorem State.bump_spadStamp (s : State) : (s.bump).spadStamp = s.spadStamp := rfl
@[simp] theorem State.bump_slots (s : State) : (s.bump).slots = s.slots := rfl
@[simp] theorem State.bump_slotOld (s : State) : (s.bump).slotOld = s.slotOld := rfl
@[simp] theorem State.bump_groups (s : State) : (s.bump).groups = s.groups := rfl
@[simp] theorem State.bump_wgs (s : State) : (s.bump).wgs = s.wgs := rfl
@[simp] theorem State.bump_launches (s : State) : (s.bump).launches = s.launches := rfl
@[simp] theorem State.bump_conts (s : State) : (s.bump).conts = s.conts := rfl
@[simp] theorem State.bump_bars (s : State) : (s.bump).bars = s.bars := rfl
@[simp] theorem State.bump_tasks (s : State) : (s.bump).tasks = s.tasks := rfl
@[simp] theorem State.bump_mqs (s : State) : (s.bump).mqs = s.mqs := rfl
@[simp] theorem State.bump_credits (s : State) : (s.bump).credits = s.credits := rfl
@[simp] theorem State.bump_msgs (s : State) : (s.bump).msgs = s.msgs := rfl
@[simp] theorem State.bump_copies (s : State) : (s.bump).copies = s.copies := rfl
@[simp] theorem State.bump_seqs (s : State) : (s.bump).seqs = s.seqs := rfl
@[simp] theorem State.bump_looks (s : State) : (s.bump).looks = s.looks := rfl
@[simp] theorem State.bump_lookups (s : State) : (s.bump).lookups = s.lookups := rfl
@[simp] theorem State.bump_cache (s : State) : (s.bump).cache = s.cache := rfl
@[simp] theorem State.bump_past (s : State) : (s.bump).past = s.past := rfl
@[simp] theorem State.bump_dropped (s : State) : (s.bump).dropped = s.dropped := rfl
@[simp] theorem State.bump_waits (s : State) : (s.bump).waits = s.waits := rfl
@[simp] theorem State.bump_rr (s : State) : (s.bump).rr = s.rr := rfl
@[simp] theorem State.bump_issuedAt (s : State) : (s.bump).issuedAt = s.issuedAt := rfl
@[simp] theorem State.bump_tried (s : State) : (s.bump).tried = s.tried := rfl
@[simp] theorem State.bump_ctxs (s : State) : (s.bump).ctxs = s.ctxs := rfl
@[simp] theorem State.bump_parts (s : State) : (s.bump).parts = s.parts := rfl
@[simp] theorem State.bump_switches (s : State) : (s.bump).switches = s.switches := rfl
@[simp] theorem State.bump_dev (s : State) : (s.bump).dev = s.dev := rfl
@[simp] theorem State.bump_out (s : State) : (s.bump).out = s.out := rfl

@[simp] theorem State.takeId_clk (s : State) : (s.takeId).clk = s.clk := rfl
@[simp] theorem State.takeId_tsc (s : State) : (s.takeId).tsc = s.tsc := rfl
@[simp] theorem State.takeId_agenda (s : State) : (s.takeId).agenda = s.agenda := rfl
@[simp] theorem State.takeId_turn (s : State) : (s.takeId).turn = s.turn := rfl
@[simp] theorem State.takeId_free (s : State) : (s.takeId).free = s.free := rfl
@[simp] theorem State.takeId_cur (s : State) : (s.takeId).cur = s.cur := rfl
@[simp] theorem State.takeId_nextId (s : State) : (s.takeId).nextId = s.nextId + 1 := rfl
@[simp] theorem State.takeId_mem (s : State) : (s.takeId).mem = s.mem := rfl
@[simp] theorem State.takeId_memPoison (s : State) : (s.takeId).memPoison = s.memPoison := rfl
@[simp] theorem State.takeId_spad (s : State) : (s.takeId).spad = s.spad := rfl
@[simp] theorem State.takeId_spadPoison (s : State) : (s.takeId).spadPoison = s.spadPoison := rfl
@[simp] theorem State.takeId_spadStamp (s : State) : (s.takeId).spadStamp = s.spadStamp := rfl
@[simp] theorem State.takeId_slots (s : State) : (s.takeId).slots = s.slots := rfl
@[simp] theorem State.takeId_slotOld (s : State) : (s.takeId).slotOld = s.slotOld := rfl
@[simp] theorem State.takeId_groups (s : State) : (s.takeId).groups = s.groups := rfl
@[simp] theorem State.takeId_wgs (s : State) : (s.takeId).wgs = s.wgs := rfl
@[simp] theorem State.takeId_launches (s : State) : (s.takeId).launches = s.launches := rfl
@[simp] theorem State.takeId_conts (s : State) : (s.takeId).conts = s.conts := rfl
@[simp] theorem State.takeId_bars (s : State) : (s.takeId).bars = s.bars := rfl
@[simp] theorem State.takeId_tasks (s : State) : (s.takeId).tasks = s.tasks := rfl
@[simp] theorem State.takeId_mqs (s : State) : (s.takeId).mqs = s.mqs := rfl
@[simp] theorem State.takeId_credits (s : State) : (s.takeId).credits = s.credits := rfl
@[simp] theorem State.takeId_msgs (s : State) : (s.takeId).msgs = s.msgs := rfl
@[simp] theorem State.takeId_copies (s : State) : (s.takeId).copies = s.copies := rfl
@[simp] theorem State.takeId_seqs (s : State) : (s.takeId).seqs = s.seqs := rfl
@[simp] theorem State.takeId_looks (s : State) : (s.takeId).looks = s.looks := rfl
@[simp] theorem State.takeId_lookups (s : State) : (s.takeId).lookups = s.lookups := rfl
@[simp] theorem State.takeId_cache (s : State) : (s.takeId).cache = s.cache := rfl
@[simp] theorem State.takeId_past (s : State) : (s.takeId).past = s.past := rfl
@[simp] theorem State.takeId_dropped (s : State) : (s.takeId).dropped = s.dropped := rfl
@[simp] theorem State.takeId_waits (s : State) : (s.takeId).waits = s.waits := rfl
@[simp] theorem State.takeId_rr (s : State) : (s.takeId).rr = s.rr := rfl
@[simp] theorem State.takeId_issuedAt (s : State) : (s.takeId).issuedAt = s.issuedAt := rfl
@[simp] theorem State.takeId_tried (s : State) : (s.takeId).tried = s.tried := rfl
@[simp] theorem State.takeId_ctxs (s : State) : (s.takeId).ctxs = s.ctxs := rfl
@[simp] theorem State.takeId_parts (s : State) : (s.takeId).parts = s.parts := rfl
@[simp] theorem State.takeId_switches (s : State) : (s.takeId).switches = s.switches := rfl
@[simp] theorem State.takeId_dev (s : State) : (s.takeId).dev = s.dev := rfl
@[simp] theorem State.takeId_out (s : State) : (s.takeId).out = s.out := rfl

@[simp] theorem State.pass_clk (clks ns : Nat) (s : State) : (s.pass clks ns).clk = s.clk + clks := rfl
@[simp] theorem State.pass_tsc (clks ns : Nat) (s : State) : (s.pass clks ns).tsc = s.tsc + BitVec.ofNat 64 ns := rfl
@[simp] theorem State.pass_agenda (clks ns : Nat) (s : State) : (s.pass clks ns).agenda = s.agenda := rfl
@[simp] theorem State.pass_turn (clks ns : Nat) (s : State) : (s.pass clks ns).turn = s.turn := rfl
@[simp] theorem State.pass_free (clks ns : Nat) (s : State) : (s.pass clks ns).free = s.free := rfl
@[simp] theorem State.pass_cur (clks ns : Nat) (s : State) : (s.pass clks ns).cur = s.cur := rfl
@[simp] theorem State.pass_nextId (clks ns : Nat) (s : State) : (s.pass clks ns).nextId = s.nextId := rfl
@[simp] theorem State.pass_mem (clks ns : Nat) (s : State) : (s.pass clks ns).mem = s.mem := rfl
@[simp] theorem State.pass_memPoison (clks ns : Nat) (s : State) : (s.pass clks ns).memPoison = s.memPoison := rfl
@[simp] theorem State.pass_spad (clks ns : Nat) (s : State) : (s.pass clks ns).spad = s.spad := rfl
@[simp] theorem State.pass_spadPoison (clks ns : Nat) (s : State) : (s.pass clks ns).spadPoison = s.spadPoison := rfl
@[simp] theorem State.pass_spadStamp (clks ns : Nat) (s : State) : (s.pass clks ns).spadStamp = s.spadStamp := rfl
@[simp] theorem State.pass_slots (clks ns : Nat) (s : State) : (s.pass clks ns).slots = s.slots := rfl
@[simp] theorem State.pass_slotOld (clks ns : Nat) (s : State) : (s.pass clks ns).slotOld = s.slotOld := rfl
@[simp] theorem State.pass_groups (clks ns : Nat) (s : State) : (s.pass clks ns).groups = s.groups := rfl
@[simp] theorem State.pass_wgs (clks ns : Nat) (s : State) : (s.pass clks ns).wgs = s.wgs := rfl
@[simp] theorem State.pass_launches (clks ns : Nat) (s : State) : (s.pass clks ns).launches = s.launches := rfl
@[simp] theorem State.pass_conts (clks ns : Nat) (s : State) : (s.pass clks ns).conts = s.conts := rfl
@[simp] theorem State.pass_bars (clks ns : Nat) (s : State) : (s.pass clks ns).bars = s.bars := rfl
@[simp] theorem State.pass_tasks (clks ns : Nat) (s : State) : (s.pass clks ns).tasks = s.tasks := rfl
@[simp] theorem State.pass_mqs (clks ns : Nat) (s : State) : (s.pass clks ns).mqs = s.mqs := rfl
@[simp] theorem State.pass_credits (clks ns : Nat) (s : State) : (s.pass clks ns).credits = s.credits := rfl
@[simp] theorem State.pass_msgs (clks ns : Nat) (s : State) : (s.pass clks ns).msgs = s.msgs := rfl
@[simp] theorem State.pass_copies (clks ns : Nat) (s : State) : (s.pass clks ns).copies = s.copies := rfl
@[simp] theorem State.pass_seqs (clks ns : Nat) (s : State) : (s.pass clks ns).seqs = s.seqs := rfl
@[simp] theorem State.pass_looks (clks ns : Nat) (s : State) : (s.pass clks ns).looks = s.looks := rfl
@[simp] theorem State.pass_lookups (clks ns : Nat) (s : State) : (s.pass clks ns).lookups = s.lookups := rfl
@[simp] theorem State.pass_cache (clks ns : Nat) (s : State) : (s.pass clks ns).cache = s.cache := rfl
@[simp] theorem State.pass_past (clks ns : Nat) (s : State) : (s.pass clks ns).past = s.past := rfl
@[simp] theorem State.pass_dropped (clks ns : Nat) (s : State) : (s.pass clks ns).dropped = s.dropped := rfl
@[simp] theorem State.pass_waits (clks ns : Nat) (s : State) : (s.pass clks ns).waits = s.waits := rfl
@[simp] theorem State.pass_rr (clks ns : Nat) (s : State) : (s.pass clks ns).rr = s.rr := rfl
@[simp] theorem State.pass_issuedAt (clks ns : Nat) (s : State) : (s.pass clks ns).issuedAt = s.issuedAt := rfl
@[simp] theorem State.pass_tried (clks ns : Nat) (s : State) : (s.pass clks ns).tried = if clks == 0 then s.tried else [] := rfl
@[simp] theorem State.pass_ctxs (clks ns : Nat) (s : State) : (s.pass clks ns).ctxs = s.ctxs := rfl
@[simp] theorem State.pass_parts (clks ns : Nat) (s : State) : (s.pass clks ns).parts = s.parts := rfl
@[simp] theorem State.pass_switches (clks ns : Nat) (s : State) : (s.pass clks ns).switches = s.switches := rfl
@[simp] theorem State.pass_dev (clks ns : Nat) (s : State) : (s.pass clks ns).dev = s.dev := rfl
@[simp] theorem State.pass_out (clks ns : Nat) (s : State) : (s.pass clks ns).out = s.out := rfl

@[simp] theorem writeByte_clk (a : Nat) (b : Byte) (s : State) : (writeByte a b s).clk = s.clk := rfl
@[simp] theorem writeByte_tsc (a : Nat) (b : Byte) (s : State) : (writeByte a b s).tsc = s.tsc := rfl
@[simp] theorem writeByte_agenda (a : Nat) (b : Byte) (s : State) : (writeByte a b s).agenda = s.agenda := rfl
@[simp] theorem writeByte_turn (a : Nat) (b : Byte) (s : State) : (writeByte a b s).turn = s.turn := rfl
@[simp] theorem writeByte_free (a : Nat) (b : Byte) (s : State) : (writeByte a b s).free = s.free := rfl
@[simp] theorem writeByte_cur (a : Nat) (b : Byte) (s : State) : (writeByte a b s).cur = s.cur := rfl
@[simp] theorem writeByte_nextId (a : Nat) (b : Byte) (s : State) : (writeByte a b s).nextId = s.nextId := rfl
@[simp] theorem writeByte_memPoison (a : Nat) (b : Byte) (s : State) : (writeByte a b s).memPoison = s.memPoison := rfl
@[simp] theorem writeByte_spad (a : Nat) (b : Byte) (s : State) : (writeByte a b s).spad = s.spad := rfl
@[simp] theorem writeByte_spadPoison (a : Nat) (b : Byte) (s : State) : (writeByte a b s).spadPoison = s.spadPoison := rfl
@[simp] theorem writeByte_spadStamp (a : Nat) (b : Byte) (s : State) : (writeByte a b s).spadStamp = s.spadStamp := rfl
@[simp] theorem writeByte_slots (a : Nat) (b : Byte) (s : State) : (writeByte a b s).slots = s.slots := rfl
@[simp] theorem writeByte_slotOld (a : Nat) (b : Byte) (s : State) : (writeByte a b s).slotOld = s.slotOld := rfl
@[simp] theorem writeByte_groups (a : Nat) (b : Byte) (s : State) : (writeByte a b s).groups = s.groups := rfl
@[simp] theorem writeByte_wgs (a : Nat) (b : Byte) (s : State) : (writeByte a b s).wgs = s.wgs := rfl
@[simp] theorem writeByte_launches (a : Nat) (b : Byte) (s : State) : (writeByte a b s).launches = s.launches := rfl
@[simp] theorem writeByte_conts (a : Nat) (b : Byte) (s : State) : (writeByte a b s).conts = s.conts := rfl
@[simp] theorem writeByte_bars (a : Nat) (b : Byte) (s : State) : (writeByte a b s).bars = s.bars := rfl
@[simp] theorem writeByte_tasks (a : Nat) (b : Byte) (s : State) : (writeByte a b s).tasks = s.tasks := rfl
@[simp] theorem writeByte_mqs (a : Nat) (b : Byte) (s : State) : (writeByte a b s).mqs = s.mqs := rfl
@[simp] theorem writeByte_credits (a : Nat) (b : Byte) (s : State) : (writeByte a b s).credits = s.credits := rfl
@[simp] theorem writeByte_msgs (a : Nat) (b : Byte) (s : State) : (writeByte a b s).msgs = s.msgs := rfl
@[simp] theorem writeByte_copies (a : Nat) (b : Byte) (s : State) : (writeByte a b s).copies = s.copies := rfl
@[simp] theorem writeByte_seqs (a : Nat) (b : Byte) (s : State) : (writeByte a b s).seqs = s.seqs := rfl
@[simp] theorem writeByte_looks (a : Nat) (b : Byte) (s : State) : (writeByte a b s).looks = s.looks := rfl
@[simp] theorem writeByte_lookups (a : Nat) (b : Byte) (s : State) : (writeByte a b s).lookups = s.lookups := rfl
@[simp] theorem writeByte_cache (a : Nat) (b : Byte) (s : State) : (writeByte a b s).cache = s.cache := rfl
@[simp] theorem writeByte_waits (a : Nat) (b : Byte) (s : State) : (writeByte a b s).waits = s.waits := rfl
@[simp] theorem writeByte_rr (a : Nat) (b : Byte) (s : State) : (writeByte a b s).rr = s.rr := rfl
@[simp] theorem writeByte_ctxs (a : Nat) (b : Byte) (s : State) : (writeByte a b s).ctxs = s.ctxs := rfl
@[simp] theorem writeByte_parts (a : Nat) (b : Byte) (s : State) : (writeByte a b s).parts = s.parts := rfl
@[simp] theorem writeByte_switches (a : Nat) (b : Byte) (s : State) : (writeByte a b s).switches = s.switches := rfl
@[simp] theorem writeByte_dev (a : Nat) (b : Byte) (s : State) : (writeByte a b s).dev = s.dev := rfl
@[simp] theorem writeByte_out (a : Nat) (b : Byte) (s : State) : (writeByte a b s).out = s.out := rfl
@[simp] theorem writeByte_mem (a : Nat) (b : Byte) (s : State) : (writeByte a b s).mem = sput Memory.blank a b s.mem := rfl

@[simp] theorem State.updGroup_clk (gid : Nat) (h : Group → Group) (s : State) : (s.updGroup gid h).clk = s.clk := by unfold State.updGroup; split <;> rfl
@[simp] theorem State.updGroup_tsc (gid : Nat) (h : Group → Group) (s : State) : (s.updGroup gid h).tsc = s.tsc := by unfold State.updGroup; split <;> rfl
@[simp] theorem State.updGroup_agenda (gid : Nat) (h : Group → Group) (s : State) : (s.updGroup gid h).agenda = s.agenda := by unfold State.updGroup; split <;> rfl
@[simp] theorem State.updGroup_turn (gid : Nat) (h : Group → Group) (s : State) : (s.updGroup gid h).turn = s.turn := by unfold State.updGroup; split <;> rfl
@[simp] theorem State.updGroup_free (gid : Nat) (h : Group → Group) (s : State) : (s.updGroup gid h).free = s.free := by unfold State.updGroup; split <;> rfl
@[simp] theorem State.updGroup_cur (gid : Nat) (h : Group → Group) (s : State) : (s.updGroup gid h).cur = s.cur := by unfold State.updGroup; split <;> rfl
@[simp] theorem State.updGroup_nextId (gid : Nat) (h : Group → Group) (s : State) : (s.updGroup gid h).nextId = s.nextId := by unfold State.updGroup; split <;> rfl
@[simp] theorem State.updGroup_mem (gid : Nat) (h : Group → Group) (s : State) : (s.updGroup gid h).mem = s.mem := by unfold State.updGroup; split <;> rfl
@[simp] theorem State.updGroup_memPoison (gid : Nat) (h : Group → Group) (s : State) : (s.updGroup gid h).memPoison = s.memPoison := by unfold State.updGroup; split <;> rfl
@[simp] theorem State.updGroup_spad (gid : Nat) (h : Group → Group) (s : State) : (s.updGroup gid h).spad = s.spad := by unfold State.updGroup; split <;> rfl
@[simp] theorem State.updGroup_spadPoison (gid : Nat) (h : Group → Group) (s : State) : (s.updGroup gid h).spadPoison = s.spadPoison := by unfold State.updGroup; split <;> rfl
@[simp] theorem State.updGroup_spadStamp (gid : Nat) (h : Group → Group) (s : State) : (s.updGroup gid h).spadStamp = s.spadStamp := by unfold State.updGroup; split <;> rfl
@[simp] theorem State.updGroup_slots (gid : Nat) (h : Group → Group) (s : State) : (s.updGroup gid h).slots = s.slots := by unfold State.updGroup; split <;> rfl
@[simp] theorem State.updGroup_slotOld (gid : Nat) (h : Group → Group) (s : State) : (s.updGroup gid h).slotOld = s.slotOld := by unfold State.updGroup; split <;> rfl
@[simp] theorem State.updGroup_wgs (gid : Nat) (h : Group → Group) (s : State) : (s.updGroup gid h).wgs = s.wgs := by unfold State.updGroup; split <;> rfl
@[simp] theorem State.updGroup_launches (gid : Nat) (h : Group → Group) (s : State) : (s.updGroup gid h).launches = s.launches := by unfold State.updGroup; split <;> rfl
@[simp] theorem State.updGroup_conts (gid : Nat) (h : Group → Group) (s : State) : (s.updGroup gid h).conts = s.conts := by unfold State.updGroup; split <;> rfl
@[simp] theorem State.updGroup_bars (gid : Nat) (h : Group → Group) (s : State) : (s.updGroup gid h).bars = s.bars := by unfold State.updGroup; split <;> rfl
@[simp] theorem State.updGroup_tasks (gid : Nat) (h : Group → Group) (s : State) : (s.updGroup gid h).tasks = s.tasks := by unfold State.updGroup; split <;> rfl
@[simp] theorem State.updGroup_mqs (gid : Nat) (h : Group → Group) (s : State) : (s.updGroup gid h).mqs = s.mqs := by unfold State.updGroup; split <;> rfl
@[simp] theorem State.updGroup_credits (gid : Nat) (h : Group → Group) (s : State) : (s.updGroup gid h).credits = s.credits := by unfold State.updGroup; split <;> rfl
@[simp] theorem State.updGroup_msgs (gid : Nat) (h : Group → Group) (s : State) : (s.updGroup gid h).msgs = s.msgs := by unfold State.updGroup; split <;> rfl
@[simp] theorem State.updGroup_copies (gid : Nat) (h : Group → Group) (s : State) : (s.updGroup gid h).copies = s.copies := by unfold State.updGroup; split <;> rfl
@[simp] theorem State.updGroup_seqs (gid : Nat) (h : Group → Group) (s : State) : (s.updGroup gid h).seqs = s.seqs := by unfold State.updGroup; split <;> rfl
@[simp] theorem State.updGroup_looks (gid : Nat) (h : Group → Group) (s : State) : (s.updGroup gid h).looks = s.looks := by unfold State.updGroup; split <;> rfl
@[simp] theorem State.updGroup_lookups (gid : Nat) (h : Group → Group) (s : State) : (s.updGroup gid h).lookups = s.lookups := by unfold State.updGroup; split <;> rfl
@[simp] theorem State.updGroup_cache (gid : Nat) (h : Group → Group) (s : State) : (s.updGroup gid h).cache = s.cache := by unfold State.updGroup; split <;> rfl
@[simp] theorem State.updGroup_past (gid : Nat) (h : Group → Group) (s : State) : (s.updGroup gid h).past = s.past := by unfold State.updGroup; split <;> rfl
@[simp] theorem State.updGroup_dropped (gid : Nat) (h : Group → Group) (s : State) : (s.updGroup gid h).dropped = s.dropped := by unfold State.updGroup; split <;> rfl
@[simp] theorem State.updGroup_waits (gid : Nat) (h : Group → Group) (s : State) : (s.updGroup gid h).waits = s.waits := by unfold State.updGroup; split <;> rfl
@[simp] theorem State.updGroup_rr (gid : Nat) (h : Group → Group) (s : State) : (s.updGroup gid h).rr = s.rr := by unfold State.updGroup; split <;> rfl
@[simp] theorem State.updGroup_issuedAt (gid : Nat) (h : Group → Group) (s : State) : (s.updGroup gid h).issuedAt = s.issuedAt := by unfold State.updGroup; split <;> rfl
@[simp] theorem State.updGroup_tried (gid : Nat) (h : Group → Group) (s : State) : (s.updGroup gid h).tried = s.tried := by unfold State.updGroup; split <;> rfl
@[simp] theorem State.updGroup_ctxs (gid : Nat) (h : Group → Group) (s : State) : (s.updGroup gid h).ctxs = s.ctxs := by unfold State.updGroup; split <;> rfl
@[simp] theorem State.updGroup_parts (gid : Nat) (h : Group → Group) (s : State) : (s.updGroup gid h).parts = s.parts := by unfold State.updGroup; split <;> rfl
@[simp] theorem State.updGroup_switches (gid : Nat) (h : Group → Group) (s : State) : (s.updGroup gid h).switches = s.switches := by unfold State.updGroup; split <;> rfl
@[simp] theorem State.updGroup_dev (gid : Nat) (h : Group → Group) (s : State) : (s.updGroup gid h).dev = s.dev := by unfold State.updGroup; split <;> rfl
@[simp] theorem State.updGroup_out (gid : Nat) (h : Group → Group) (s : State) : (s.updGroup gid h).out = s.out := by unfold State.updGroup; split <;> rfl

/-! ## Reads after writes -/

@[simp] theorem group_setGroup_same (gid : Nat) (g : Group) (s : State) : (s.setGroup gid g).group? gid = some g := sget_sset_same gid g s.groups
theorem group_setGroup_other {j gid : Nat} (h : j ≠ gid) (g : Group) (s : State) : (s.setGroup gid g).group? j = s.group? j := sget_sset_other h g s.groups
@[simp] theorem group_setCtx (j c : Nat) (x : Ctx) (s : State) : (s.setCtx c x).group? j = s.group? j := rfl
@[simp] theorem group_setPart (j p : Nat) (x : Part) (s : State) : (s.setPart p x).group? j = s.group? j := rfl
@[simp] theorem group_updCtx (j c : Nat) (f : Ctx → Ctx) (s : State) : (s.updCtx c f).group? j = s.group? j := rfl
@[simp] theorem group_updPart (j p : Nat) (f : Part → Part) (s : State) : (s.updPart p f).group? j = s.group? j := rfl
@[simp] theorem group_bump (j : Nat) (s : State) : s.bump.group? j = s.group? j := rfl
@[simp] theorem group_takeId (j : Nat) (s : State) : s.takeId.group? j = s.group? j := rfl
@[simp] theorem ctx_setCtx_same (c : Nat) (x : Ctx) (s : State) : (s.setCtx c x).ctx c = x := sgetD_sput_same Ctx.reset c x s.ctxs
theorem ctx_setCtx_other {j c : Nat} (h : j ≠ c) (x : Ctx) (s : State) : (s.setCtx c x).ctx j = s.ctx j := sgetD_sput_other Ctx.reset h x s.ctxs
@[simp] theorem ctx_updCtx_same (c : Nat) (f : Ctx → Ctx) (s : State) : (s.updCtx c f).ctx c = f (s.ctx c) := ctx_setCtx_same c _ s
theorem ctx_updCtx_other {j c : Nat} (h : j ≠ c) (f : Ctx → Ctx) (s : State) : (s.updCtx c f).ctx j = s.ctx j := ctx_setCtx_other h _ s
@[simp] theorem ctx_setGroup (j gid : Nat) (g : Group) (s : State) : (s.setGroup gid g).ctx j = s.ctx j := rfl
@[simp] theorem ctx_setPart (j p : Nat) (x : Part) (s : State) : (s.setPart p x).ctx j = s.ctx j := rfl
@[simp] theorem ctx_updPart (j p : Nat) (f : Part → Part) (s : State) : (s.updPart p f).ctx j = s.ctx j := rfl
@[simp] theorem ctx_bump (j : Nat) (s : State) : s.bump.ctx j = s.ctx j := rfl
@[simp] theorem ctx_takeId (j : Nat) (s : State) : s.takeId.ctx j = s.ctx j := rfl
@[simp] theorem part_setPart_same (p : Nat) (x : Part) (s : State) : (s.setPart p x).part p = x := sgetD_sput_same Part.reset p x s.parts
theorem part_setPart_other {j p : Nat} (h : j ≠ p) (x : Part) (s : State) : (s.setPart p x).part j = s.part j := sgetD_sput_other Part.reset h x s.parts
@[simp] theorem part_updPart_same (p : Nat) (f : Part → Part) (s : State) : (s.updPart p f).part p = f (s.part p) := part_setPart_same p _ s
theorem part_updPart_other {j p : Nat} (h : j ≠ p) (f : Part → Part) (s : State) : (s.updPart p f).part j = s.part j := part_setPart_other h _ s
@[simp] theorem part_setGroup (j gid : Nat) (g : Group) (s : State) : (s.setGroup gid g).part j = s.part j := rfl
@[simp] theorem part_setCtx (j c : Nat) (x : Ctx) (s : State) : (s.setCtx c x).part j = s.part j := rfl
@[simp] theorem part_updCtx (j c : Nat) (f : Ctx → Ctx) (s : State) : (s.updCtx c f).part j = s.part j := rfl
@[simp] theorem part_bump (j : Nat) (s : State) : s.bump.part j = s.part j := rfl
@[simp] theorem part_takeId (j : Nat) (s : State) : s.takeId.part j = s.part j := rfl
theorem part_updPart (p q : Nat) (f : Part → Part) (s : State) : (s.updPart q f).part p = if p = q then f (s.part q) else s.part p := by
  split
  · rename_i e; rw [e, part_updPart_same]
  · rename_i e; exact part_updPart_other e f s
theorem ctx_updCtx (p q : Nat) (f : Ctx → Ctx) (s : State) : (s.updCtx q f).ctx p = if p = q then f (s.ctx q) else s.ctx p := by
  split
  · rename_i e; rw [e, ctx_updCtx_same]
  · rename_i e; exact ctx_updCtx_other e f s
theorem group_setGroup (j gid : Nat) (g : Group) (s : State) : (s.setGroup gid g).group? j = if j = gid then some g else s.group? j := by
  split
  · rename_i e; rw [e, group_setGroup_same]
  · rename_i e; exact group_setGroup_other e g s
/-- A change in place of a group that is there. -/
theorem updGroup_some {gid : Nat} {g : Group} {s : State} (h : s.group? gid = some g) (f : Group → Group) : s.updGroup gid f = s.setGroup gid (f g) := by simp [State.updGroup, h]
/-- Setting a group twice leaves the second. -/
theorem sset_sset {α : Type} (k : Nat) (v w : α) (m : Sparse α) : sset k w (sset k v m) = sset k w m := by
  induction m with
  | nil => simp [sset]
  | cons p t ih =>
    obtain ⟨a, u⟩ := p
    by_cases h1 : k < a
    · simp [sset, h1]
    · by_cases h2 : a = k
      · simp [sset, h2]
      · simp [sset, h1, h2, ih]

end Sys2Proof.Machine
end

