-- ==== Sys2Proof/Laws/Control.lean ====
section
/-! SUPPORT. Moving gangs touches slices, gangs and partings of their group, and the order of its late accesses, and nothing else of it. -/

namespace Sys2Proof.Machine

open Sys2Proof.Claims

/-- h is g but for its slices, gangs and partings, and the order of what it has not performed yet (03 R56). -/
def ControlOnly (g h : Group) : Prop :=
  h = { g with slices := h.slices, gangs := h.gangs, partings := h.partings, late := h.late } ∧ h.late.map Late.unordered = g.late.map Late.unordered

theorem ControlOnly.refl (g : Group) : ControlOnly g g := ⟨rfl, rfl⟩
theorem ControlOnly.trans {a b c : Group} (h : ControlOnly a b) (k : ControlOnly b c) : ControlOnly a c :=
  ⟨by have h := h.1; have k := k.1; rw [k, h], k.2.trans h.2⟩

theorem controlOnly_updGang (n : Nat) (f : Gang → Gang) (g : Group) : ControlOnly g (g.updGang n f) := ⟨rfl, rfl⟩
theorem controlOnly_putGangs (n : Nat) (l : List Gang) (g : Group) : ControlOnly g (g.putGangs n l) := ⟨rfl, rfl⟩
theorem controlOnly_updSlice (i : Nat) (f : Slice → Slice) (g : Group) : ControlOnly g (g.updSlice i f) := ⟨rfl, rfl⟩

/-- Putting late accesses in order changes nothing else of a group, and nothing else of them. -/
theorem controlOnly_join (m : Nat) (g : Group) : ControlOnly g (g.join m) := by
  unfold Group.join
  split
  · exact .refl g
  · refine ⟨rfl, ?_⟩
    simp only [List.map_map]
    refine List.map_congr_left fun x _ => ?_
    simp only [Function.comp_apply]
    split <;> rfl

theorem controlOnly_rejoin (old : Group) (l : List Nat) (g : Group) : ControlOnly g (old.rejoin l g) := by
  unfold Group.rejoin
  dsimp only
  split
  · exact .refl g
  · exact controlOnly_join _ _

theorem controlOnly_foldl {β : Type} (f : Group → β → Group) (h : ∀ g b, ControlOnly g (f g b)) (l : List β) (g : Group) : ControlOnly g (l.foldl f g) := by
  induction l generalizing g with
  | nil => exact .refl g
  | cons b t ih => exact (h g b).trans (ih _)

theorem controlOnly_fuse (clk n : Nat) (g : Group) : ControlOnly g (fuse clk n g) := by
  induction n generalizing g with
  | zero => exact .refl g
  | succ n ih =>
    rw [fuse]
    split
    · exact ⟨rfl, rfl⟩
    · refine ControlOnly.trans ?_ (ih _)
      exact ControlOnly.trans (b := { g with gangs := _, partings := _ }) ⟨rfl, rfl⟩ (controlOnly_join _ _)

theorem controlOnly_arrive (clk : Nat) (a : Gang) (pcs : List (Nat × DWord)) (g : Group) : ControlOnly g (arrive clk a pcs g) := by
  unfold arrive
  refine ControlOnly.trans ?_ (controlOnly_fuse _ _ _)
  refine ControlOnly.trans ?_ (controlOnly_putGangs _ _ _)
  have h := controlOnly_foldl (fun (g : Group) (p : Nat × DWord × Slice × DWord) => g.updSlice p.1 fun _ => p.2.2.1) (fun _ _ => ⟨rfl, rfl⟩)
  have k := controlOnly_foldl (fun (h : Group) (p : DWord × List Nat) => g.rejoin p.2 h) (fun h p => controlOnly_rejoin g p.2 h)
  dsimp only
  split
  · exact ((h _ g).trans (k _ _)).trans ⟨rfl, rfl⟩
  · exact (h _ g).trans (k _ _)

theorem controlOnly_stepOn (clk st slice : Nat) (g : Group) : ControlOnly g (stepOn clk st slice g) := by
  unfold stepOn
  split
  · exact .refl g
  · dsimp only
    split
    · exact .refl g
    · split
      · exact controlOnly_updGang _ _ _
      · exact controlOnly_arrive _ _ _ _

theorem controlOnly_arriveEach (clk : Nat) (a : Gang) (gs : List (DWord × List Nat)) (g : Group) : ControlOnly g (branch.arriveEach clk a gs g) := by
  unfold branch.arriveEach
  exact (controlOnly_putGangs _ _ g).trans (controlOnly_foldl _ (fun _ _ => controlOnly_arrive _ _ _ _) _ _)

theorem controlOnly_branch {clk st slice : Nat} {tgt fall : DWord} {r : Option DWord} {takes : Nat} {g h : Group}
    (e : branch clk st slice tgt fall r takes g = some h) : ControlOnly g h := by
  unfold branch at e
  split at e
  · cases e; exact .refl g
  · dsimp only at e
    split at e
    · exact absurd e (by simp)
    · injection e with e
      rw [← e]
      refine ControlOnly.trans ?_ (controlOnly_arriveEach _ _ _ _)
      have h := controlOnly_foldl (fun (g : Group) (p : Nat × Slice × DWord) => g.updSlice p.1 fun _ => p.2.1) (fun _ _ => ⟨rfl, rfl⟩)
      have k (l : List (Nat × Slice × DWord)) (b : Bool) (m : Nat) : ControlOnly g (if b then (l.foldl (fun g p => g.updSlice p.1 fun _ => p.2.1) g).join m else l.foldl (fun g p => g.updSlice p.1 fun _ => p.2.1) g) := by
        split
        · exact (h _ g).trans (controlOnly_join _ _)
        · exact h _ g
      split
      · exact (k _ _ _).trans ⟨rfl, rfl⟩
      · exact k _ _ _

/-- What a group holds in every register, tile and counter is as it was. -/
theorem ControlOnly.cellAt {g h : Group} (c : ControlOnly g h) (k : Nat) : h.cellAt k = g.cellAt k := by rw [c.1]; rfl

end Sys2Proof.Machine
end

