-- ==== Sys2Proof/Laws/Registers.lean ====
section
/-! SUPPORT. The register file: what a write leaves in a register, and what each operation on a group leaves of the rest of it. -/

namespace Sys2Proof.Claims

open Sys2Proof.Machine

theorem RegistersOnly.refl (g : Group) : RegistersOnly g g := ⟨rfl, rfl⟩
theorem RegistersOnly.trans {a b c : Group} (h : RegistersOnly a b) (k : RegistersOnly b c) : RegistersOnly a c := by
  obtain ⟨h1, h2⟩ := h; obtain ⟨k1, k2⟩ := k
  refine ⟨?_, k2.trans h2⟩
  rw [k1, h1]

end Sys2Proof.Claims

namespace Sys2Proof.Machine

open Sys2Proof.Claims

/-! ## One cell -/

@[simp] theorem cellAt_putCell_same (k : Nat) (c : RegCell) (g : Group) : (g.putCell k c).cellAt k = c := by
  unfold Group.cellAt Group.putCell
  dsimp only
  split
  · rename_i h; rw [sget_serase_same]; exact (eq_of_beq h).symm
  · rw [sget_sset_same]; rfl

theorem cellAt_putCell_other {j k : Nat} (h : j ≠ k) (c : RegCell) (g : Group) : (g.putCell k c).cellAt j = g.cellAt j := by
  unfold Group.cellAt Group.putCell
  dsimp only
  split
  · rw [sget_serase_other h]
  · rw [sget_sset_other h]

@[simp] theorem cellAt_writeFixed_same (s : State) (lat k : Nat) (c : RegCell) (g : Group) : (g.writeFixed s lat k c).cellAt k = c := cellAt_putCell_same k c g
theorem cellAt_writeFixed_other {j k : Nat} (h : j ≠ k) (s : State) (lat : Nat) (c : RegCell) (g : Group) : (g.writeFixed s lat k c).cellAt j = g.cellAt j :=
  cellAt_putCell_other h c g

/-- What a write that is readable from some clk on leaves in the register, whatever the clk. -/
@[simp] theorem cellAt_writeAt_same (s : State) (r k : Nat) (c : RegCell) (g : Group) : (g.writeAt s r k c).cellAt k = c := cellAt_putCell_same k c g
theorem cellAt_writeAt_other {j k : Nat} (h : j ≠ k) (s : State) (r : Nat) (c : RegCell) (g : Group) : (g.writeAt s r k c).cellAt j = g.cellAt j :=
  cellAt_putCell_other h c g

/-! ## Lists of writes -/

theorem cellAt_writeEach_other (s : State) (ws : List (Nat × Nat × RegCell)) (g : Group) {j : Nat} (h : ∀ w ∈ ws, w.1 ≠ j) :
    (g.writeEach s ws).cellAt j = g.cellAt j := by
  unfold Group.writeEach
  induction ws generalizing g with
  | nil => rfl
  | cons w t ih =>
    rw [List.foldl_cons, ih _ fun x hx => h x (List.mem_cons_of_mem _ hx)]
    exact cellAt_writeAt_other (Ne.symm (h w List.mem_cons_self)) s w.2.1 w.2.2 g

theorem cellAt_writeEach_mem (s : State) (ws : List (Nat × Nat × RegCell)) (g : Group) {j r : Nat} {c : RegCell} (hm : (j, r, c) ∈ ws)
    (hu : ∀ w ∈ ws, w.1 = j → w.2.2 = c) : (g.writeEach s ws).cellAt j = c := by
  induction ws generalizing g r with
  | nil => cases hm
  | cons w t ih =>
    have e : g.writeEach s (w :: t) = (g.writeAt s w.2.1 w.1 w.2.2).writeEach s t := rfl
    rw [e]
    by_cases hj : ∃ x ∈ t, x.1 = j
    · obtain ⟨⟨x, q, d⟩, hx, hxj⟩ := hj
      have hd : d = c := hu _ (List.mem_cons_of_mem _ hx) hxj
      dsimp only at hxj
      subst hxj hd
      exact ih _ hx fun y hy => hu y (List.mem_cons_of_mem _ hy)
    · have hn : ∀ x ∈ t, x.1 ≠ j := fun x hx hxj => hj ⟨x, hx, hxj⟩
      rw [cellAt_writeEach_other s t _ hn]
      have hw : w = (j, r, c) := by
        rcases List.mem_cons.1 hm with h | h
        · exact h.symm
        · exact absurd rfl (hn _ h)
      rw [hw]; exact cellAt_writeAt_same s r j c g

theorem writeAll_eq (s : State) (lat : Nat) (ws : List (Nat × RegCell)) (g : Group) : g.writeAll s lat ws = g.writeEach s (ws.map fun w => (w.1, s.clk + lat, w.2)) := by
  unfold Group.writeAll Group.writeEach; rw [List.foldl_map]; rfl

theorem cellAt_writeAll_other (s : State) (lat : Nat) (ws : List (Nat × RegCell)) (g : Group) {j : Nat} (h : ∀ w ∈ ws, w.1 ≠ j) :
    (g.writeAll s lat ws).cellAt j = g.cellAt j := by
  rw [writeAll_eq]
  refine cellAt_writeEach_other s _ g fun w hw => ?_
  obtain ⟨x, hx, rfl⟩ := List.mem_map.1 hw
  exact h x hx

theorem cellAt_writeAll_mem (s : State) (lat : Nat) (ws : List (Nat × RegCell)) (g : Group) {j : Nat} {c : RegCell} (hm : (j, c) ∈ ws)
    (hu : ∀ w ∈ ws, w.1 = j → w.2 = c) : (g.writeAll s lat ws).cellAt j = c := by
  rw [writeAll_eq]
  refine cellAt_writeEach_mem s _ g (r := s.clk + lat) (List.mem_map.2 ⟨_, hm, rfl⟩) fun w hw hj => ?_
  obtain ⟨x, hx, rfl⟩ := List.mem_map.1 hw
  exact hu x hx hj

/-! ## What is left of the rest of a group -/

theorem ControlOnly.registersOnly {g h : Group} (c : ControlOnly g h) : RegistersOnly g h := by
  exact ⟨by have e := c.1; rw [e], c.2⟩

theorem registersOnly_putCell (k : Nat) (c : RegCell) (g : Group) : RegistersOnly g (g.putCell k c) := ⟨rfl, rfl⟩
theorem registersOnly_writeFixed (s : State) (lat k : Nat) (c : RegCell) (g : Group) : RegistersOnly g (g.writeFixed s lat k c) := ⟨rfl, rfl⟩
theorem registersOnly_foldl {β : Type} (f : Group → β → Group) (h : ∀ g b, RegistersOnly g (f g b)) (l : List β) (g : Group) : RegistersOnly g (l.foldl f g) := by
  induction l generalizing g with
  | nil => exact .refl g
  | cons b t ih => exact (h g b).trans (ih _)
theorem registersOnly_writeAll (s : State) (lat : Nat) (ws : List (Nat × RegCell)) (g : Group) : RegistersOnly g (g.writeAll s lat ws) :=
  registersOnly_foldl _ (fun _ _ => registersOnly_writeFixed _ _ _ _ _) ws g
theorem registersOnly_writeAt (s : State) (r k : Nat) (c : RegCell) (g : Group) : RegistersOnly g (g.writeAt s r k c) := ⟨rfl, rfl⟩
theorem registersOnly_writeEach (s : State) (ws : List (Nat × Nat × RegCell)) (g : Group) : RegistersOnly g (g.writeEach s ws) :=
  registersOnly_foldl _ (fun _ _ => registersOnly_writeAt _ _ _ _ _) ws g
theorem registersOnly_writeDst (s : State) (lat : Nat) (o : Opd) (rs : List LaneRes) (g : Group) : RegistersOnly g (g.writeDst s lat o rs) :=
  (registersOnly_writeAll _ _ _ _).trans (registersOnly_writeEach _ _ _)
theorem registersOnly_orFlags (s : State) (lat L : Nat) (b : Word) (g : Group) : RegistersOnly g (g.orFlags s lat L b) := by
  unfold Group.orFlags; split <;> exact ⟨rfl, rfl⟩
theorem registersOnly_writePred (s : State) (lat p L : Nat) (v q : Bool) (g : Group) : RegistersOnly g (g.writePred s lat p L v q) := by
  unfold Group.writePred; split
  · exact .refl g
  · exact registersOnly_writeFixed _ _ _ _ _
theorem registersOnly_addTok (c id : Nat) (v : Bool) (g : Group) : RegistersOnly g (g.addTok c id v) := ⟨rfl, rfl⟩

theorem lastUse_eq (lanes : List Nat) (us : List (Opd × Nat × Bool)) (g : Group) : lastUse lanes us g = { g with rf := (lastUse lanes us g).rf } := by
  unfold lastUse
  induction us generalizing g with
  | nil => rfl
  | cons u t ih =>
    rw [List.foldl_cons]
    have inner : ∀ (l : List Nat) (h : Group), (l.foldl (fun (g : Group) k => g.putCell k ⟨0, true, (g.cellAt k).stamp⟩) h) =
        { h with rf := (l.foldl (fun (g : Group) k => g.putCell k ⟨0, true, (g.cellAt k).stamp⟩) h).rf } := by
      intro l
      induction l with
      | nil => intro h; rfl
      | cons k t ih => intro h; rw [List.foldl_cons, ih]; rfl
    have outer : ∀ (l : List Nat) (h : Group), (l.foldl (fun (g : Group) L => (opdKeys u.1 u.2.1 L).foldl (fun g k => g.putCell k ⟨0, true, (g.cellAt k).stamp⟩) g) h) =
        { h with rf := (l.foldl (fun (g : Group) L => (opdKeys u.1 u.2.1 L).foldl (fun g k => g.putCell k ⟨0, true, (g.cellAt k).stamp⟩) g) h).rf } := by
      intro l
      induction l with
      | nil => intro h; rfl
      | cons k t ih => intro h; rw [List.foldl_cons, ih]; rw [inner]
    rw [ih]
    split
    · split
      · rw [outer]
      · rw [outer]
      · rfl
    · rfl

theorem registersOnly_lastUse (lanes : List Nat) (us : List (Opd × Nat × Bool)) (g : Group) : RegistersOnly g (lastUse lanes us g) := by
  have e := lastUse_eq lanes us g
  exact ⟨by rw [e], by rw [e]⟩

/-- Last use changes no register but those it marks in the acting lanes (08 R158). -/
theorem cellAt_lastUse_other (lanes : List Nat) (us : List (Opd × Nat × Bool)) (g : Group) {j : Nat}
    (h : ∀ u ∈ us, u.2.2 = true → (∀ L ∈ lanes, j ∉ opdKeys u.1 u.2.1 L) ∨ (match u.1 with | .v _ | .o _ => False | _ => True)) :
    (lastUse lanes us g).cellAt j = g.cellAt j := by
  unfold lastUse
  induction us generalizing g with
  | nil => rfl
  | cons u t ih =>
    rw [List.foldl_cons, ih _ fun x hx => h x (List.mem_cons_of_mem _ hx)]
    have hu := h u List.mem_cons_self
    have inner : ∀ (l : List Nat) (g : Group), j ∉ l → (l.foldl (fun (g : Group) k => g.putCell k ⟨0, true, (g.cellAt k).stamp⟩) g).cellAt j = g.cellAt j := by
      intro l
      induction l with
      | nil => intro g _; rfl
      | cons k t ih =>
        intro g hj
        rw [List.foldl_cons, ih _ fun hx => hj (List.mem_cons_of_mem _ hx)]
        exact cellAt_putCell_other (fun e => hj (by rw [e]; exact List.mem_cons_self)) _ g
    have outer : ∀ (l : List Nat) (g : Group), (∀ L ∈ l, j ∉ opdKeys u.1 u.2.1 L) →
        (l.foldl (fun (g : Group) L => (opdKeys u.1 u.2.1 L).foldl (fun g k => g.putCell k ⟨0, true, (g.cellAt k).stamp⟩) g) g).cellAt j = g.cellAt j := by
      intro l
      induction l with
      | nil => intro g _; rfl
      | cons k t ih =>
        intro g hj
        rw [List.foldl_cons, ih _ fun L hL => hj L (List.mem_cons_of_mem _ hL)]
        exact inner _ g (hj k List.mem_cons_self)
    split
    · rename_i hb
      rcases hu hb with h1 | h1
      · split
        · exact outer _ g h1
        · exact outer _ g h1
        · rfl
      · split
        · rename_i hv; rw [hv] at h1; exact h1.elim
        · rename_i hv; rw [hv] at h1; exact h1.elim
        · rfl
    · rfl

/-! ## Flags and predicates -/

theorem cellAt_orFlags_other {j L : Nat} (h : j ≠ keyF L) (s : State) (lat : Nat) (b : Word) (g : Group) : (g.orFlags s lat L b).cellAt j = g.cellAt j := by
  unfold Group.orFlags; split
  · rfl
  · exact cellAt_putCell_other h _ _

theorem flags_orFlags_same (s : State) (lat L : Nat) (b : Word) (g : Group) : ((g.orFlags s lat L b).cellAt (keyF L)).val = (g.cellAt (keyF L)).val ||| b := by
  unfold Group.orFlags; split
  · rename_i h; have := eq_of_beq h; subst this; simp
  · exact congrArg RegCell.val (cellAt_putCell_same _ _ _)

theorem keyF_inj {a b : Nat} (h : keyF a = keyF b) : a = b := by unfold keyF at h; omega

theorem cellAt_foldl_orFlags_other (s : State) (lat : Nat) (f : Nat → Word) (l : List Nat) (g : Group) {j : Nat} (h : ∀ L ∈ l, j ≠ keyF L) :
    (l.foldl (fun g L => g.orFlags s lat L (f L)) g).cellAt j = g.cellAt j := by
  induction l generalizing g with
  | nil => rfl
  | cons L t ih => rw [List.foldl_cons, ih _ fun x hx => h x (List.mem_cons_of_mem _ hx)]; exact cellAt_orFlags_other (h L List.mem_cons_self) _ _ _ _

theorem flags_foldl_orFlags (s : State) (lat : Nat) (f : Nat → Word) (l : List Nat) (hn : l.Nodup) (g : Group) {L : Nat} (h : L ∈ l) :
    ((l.foldl (fun g L => g.orFlags s lat L (f L)) g).cellAt (keyF L)).val = (g.cellAt (keyF L)).val ||| f L := by
  induction l generalizing g with
  | nil => cases h
  | cons M t ih =>
    rw [List.foldl_cons]
    obtain ⟨hm, ht⟩ := List.nodup_cons.1 hn
    rcases List.mem_cons.1 h with e | e
    · subst e
      rw [cellAt_foldl_orFlags_other s lat f t _ fun x hx e => hm (by rw [keyF_inj e]; exact hx)]
      exact flags_orFlags_same _ _ _ _ _
    · rw [ih ht _ e, cellAt_orFlags_other (fun q => hm (by rw [← keyF_inj q]; exact e))]

end Sys2Proof.Machine
end

