-- ==== Sys2Proof/Laws/Course.lean ====
section
/-! SUPPORT. The course of one instruction: what issuing comes to, and one lemma for each shape of result. -/

namespace Sys2Proof.Machine

open Sys2Proof.Claims

/-! ## Issuing -/

/-- An instruction that issues comes to what its own meaning says. -/
theorem runInstr_issues {i : Instr} {gd : Guard} {u : Uses} {s : State} {gid slice : Nat} {g : Group} {a : Gang} {h : Header}
    (hi : Issues i gd u s gid slice g a h) (body : Env → Act) :
    runInstr i gd u body s = .next (finish gid slice gd.stall.toNat s (body (mkEnv s gid g a h gd u))) := by
  unfold runInstr
  rw [hi.cur]
  dsimp only
  rw [hi.decoded]
  dsimp only
  have ht := hi.timely
  have hb := hi.guarded
  have e1 : (mkEnv s gid g a h gd u).sr = g.effSr s := rfl
  have e2 : (mkEnv s gid g a h gd u).lanes = (actingLanes s g a gd).1 := rfl
  rw [e1, e2, ht, hb]
  rfl

theorem curGang_group {s : State} {gid slice : Nat} {g : Group} {a : Gang} {h : Header} (e : curGang s = some (gid, slice, g, a, h)) :
    s.group? gid = some g ∧ g.gang? slice = some a ∧ a.hdr = some h := by
  unfold curGang at e
  split at e
  · exact absurd e (by simp)
  · split at e
    · exact absurd e (by simp)
    · rename_i g' hg
      split at e
      · exact absurd e (by simp)
      · rename_i a' ha
        cases hh : a'.hdr with
        | none => rw [hh] at e; exact absurd e (by simp)
        | some h' =>
          rw [hh] at e
          simp only [Option.map_some, Option.some.injEq, Prod.mk.injEq] at e
          obtain ⟨h1, h2, h3, h4, h5⟩ := e
          subst h1; subst h2; subst h3; subst h4; subst h5
          exact ⟨hg, ha, hh⟩

/-- The checks on its own fields have passed for an instruction that issues (08 R186). -/
theorem issues_formatOk {i : Instr} {gd : Guard} {u : Uses} {s : State} {gid slice : Nat} {g : Group} {a : Gang} {h : Header}
    (hi : Issues i gd u s gid slice g a h) (ho : i.opcode < 0xF8) : i.formatOk = true := by
  have := hi.decoded
  unfold decodeCheck at this
  cases hf : i.formatOk with
  | true => rfl
  | false =>
    rw [hf, decide_eq_true ho] at this
    simp only [Bool.false_and, Bool.not_false, Bool.and_self, if_true] at this
    split at this
    · exact absurd this (by split <;> simp)
    · exact absurd this (by simp)

/-! ## Acting lanes -/

theorem actingLanes_lt {s : State} {g : Group} {a : Gang} {gd : Guard} {L : Nat} (h : L ∈ (actingLanes s g a gd).1) : L < 32 := by
  have h1 := (List.mem_filter.1 h).1
  exact List.mem_range.1 (List.mem_filter.1 h1).1

theorem actingLanes_nodup (s : State) (g : Group) (a : Gang) (gd : Guard) : (actingLanes s g a gd).1.Nodup :=
  (List.nodup_range.filter _).filter _

/-! ## Committing -/

/-- What a commit leaves: the group with its registers as given, the issue counted, the draw advanced, nothing else. -/
theorem commit_spec {s s1 : State} {gid : Nat} {g g1 : Group} (slices : List Nat) (armed : Bool) (hr : RegistersOnly g g1) (hs : s1 = { s with nextId := s1.nextId }) :
    ∃ g', (commit gid slices armed g1 s1).group? gid = some g' ∧ GroupOnly gid g s (commit gid slices armed g1 s1) ∧ RegistersOnly g g' ∧
      (∀ k, g'.cellAt k = g1.cellAt k) ∧ g'.vp = g1.vp ∧ g'.out = g1.out := by
  generalize hG : ({ g1.prune s1.clk with remote := restRemote slices g1.remote, resume := if armed then none else g1.resume } : Group) = G
  have hro : RegistersOnly g1 G := by subst hG; exact ⟨rfl, rfl⟩
  have hc : commit gid slices armed g1 s1 = ((s1.setGroup gid G).updPart G.part fun p => { p with issue := p.issue + 1 }).bump := by subst hG; rfl
  have hp : G.part = g.part := by unfold Group.part; rw [(hr.trans hro).1]
  rw [hc, hp]
  refine ⟨G, ?_, ?_, hr.trans hro, fun _ => ?_, ?_, ?_⟩
  · simp
  · constructor
    · rw [hs]; rfl
    · intro j hj
      simp only [group_bump, group_updPart]
      rw [group_setGroup_other hj, hs]; rfl
    · intro p
      have hq : ∀ q, s1.part q = s.part q := fun q => by rw [hs]; rfl
      have key : (((s1.setGroup gid G).updPart g.part fun p => { p with issue := p.issue + 1 }).bump).part p =
          if p = g.part then { s1.part g.part with issue := (s1.part g.part).issue + 1 } else s1.part p :=
        part_updPart p g.part (fun x => { x with issue := x.issue + 1 }) (s1.setGroup gid G)
      rw [key]
      split
      · rename_i e; rw [e, hq]
      · exact hq p
    · intro p; unfold readByte; simp; rw [hs]
  · subst hG; rfl
  · subst hG; rfl
  · subst hG; rfl

end Sys2Proof.Machine
end

