-- ==== Sys2Proof/Laws/Exec.lean ====
section
/-! SUPPORT. Each arm of `exec`: the meaning an instruction has. -/

namespace Sys2Proof.Machine

theorem exec_nop (w : WI) (s : State) : exec (.nop w) s = execNop w s := rfl
theorem exec_mov (w : WI) (s : State) : exec (.mov w) s = execMov w s := rfl
theorem exec_movi (w : WI) (s : State) : exec (.movi w) s = execMovi w s := rfl
theorem exec_sel (w : WV) (s : State) : exec (.sel w) s = execSel w s := rfl
theorem exec_iadd (w : WI) (s : State) : exec (.iadd w) s = execIadd w s := rfl
theorem exec_isub (w : WI) (s : State) : exec (.isub w) s = execIsub w s := rfl
theorem exec_iaddc (w : WV) (s : State) : exec (.iaddc w) s = execIaddc w s := rfl
theorem exec_add64 (w : WI) (s : State) : exec (.add64 w) s = execAdd64 w s := rfl
theorem exec_sub64 (w : WI) (s : State) : exec (.sub64 w) s = execSub64 w s := rfl
theorem exec_lea (w : WI) (s : State) : exec (.lea w) s = execLea w s := rfl
theorem exec_imul (w : WI) (s : State) : exec (.imul w) s = execImul w s := rfl
theorem exec_imulhi (w : WI) (s : State) : exec (.imulhi w) s = execImulhi w s := rfl
theorem exec_umulhi (w : WI) (s : State) : exec (.umulhi w) s = execUmulhi w s := rfl
theorem exec_imad (w : WV) (s : State) : exec (.imad w) s = execImad w s := rfl
theorem exec_imadw (w : WV) (s : State) : exec (.imadw w) s = execImadw w s := rfl
theorem exec_idiv (w : WI) (s : State) : exec (.idiv w) s = execIdiv w s := rfl
theorem exec_udiv (w : WI) (s : State) : exec (.udiv w) s = execUdiv w s := rfl
theorem exec_irem (w : WI) (s : State) : exec (.irem w) s = execIrem w s := rfl
theorem exec_urem (w : WI) (s : State) : exec (.urem w) s = execUrem w s := rfl
theorem exec_imin (w : WI) (s : State) : exec (.imin w) s = execImin w s := rfl
theorem exec_imax (w : WI) (s : State) : exec (.imax w) s = execImax w s := rfl
theorem exec_umin (w : WI) (s : State) : exec (.umin w) s = execUmin w s := rfl
theorem exec_umax (w : WI) (s : State) : exec (.umax w) s = execUmax w s := rfl
theorem exec_iabs (w : WI) (s : State) : exec (.iabs w) s = execIabs w s := rfl
theorem exec_ineg (w : WI) (s : State) : exec (.ineg w) s = execIneg w s := rfl
theorem exec_iand (w : WI) (s : State) : exec (.iand w) s = execIand w s := rfl
theorem exec_ior (w : WI) (s : State) : exec (.ior w) s = execIor w s := rfl
theorem exec_ixor (w : WI) (s : State) : exec (.ixor w) s = execIxor w s := rfl
theorem exec_andn (w : WI) (s : State) : exec (.andn w) s = execAndn w s := rfl
theorem exec_inot (w : WI) (s : State) : exec (.inot w) s = execInot w s := rfl
theorem exec_shl (w : WI) (s : State) : exec (.shl w) s = execShl w s := rfl
theorem exec_shr (w : WI) (s : State) : exec (.shr w) s = execShr w s := rfl
theorem exec_sar (w : WI) (s : State) : exec (.sar w) s = execSar w s := rfl
theorem exec_rotl (w : WI) (s : State) : exec (.rotl w) s = execRotl w s := rfl
theorem exec_funnel (w : WV) (s : State) : exec (.funnel w) s = execFunnel w s := rfl
theorem exec_bfx (w : WI) (s : State) : exec (.bfx w) s = execBfx w s := rfl
theorem exec_bfi (w : WV) (s : State) : exec (.bfi w) s = execBfi w s := rfl
theorem exec_popc (w : WI) (s : State) : exec (.popc w) s = execPopc w s := rfl
theorem exec_clz (w : WI) (s : State) : exec (.clz w) s = execClz w s := rfl
theorem exec_ctz (w : WI) (s : State) : exec (.ctz w) s = execCtz w s := rfl
theorem exec_brev (w : WI) (s : State) : exec (.brev w) s = execBrev w s := rfl
theorem exec_prmt (w : WV) (s : State) : exec (.prmt w) s = execPrmt w s := rfl
theorem exec_icmp (w : WC) (s : State) : exec (.icmp w) s = execIcmp w s := rfl
theorem exec_ucmp (w : WC) (s : State) : exec (.ucmp w) s = execUcmp w s := rfl
theorem exec_plop (w : WC) (s : State) : exec (.plop w) s = execPlop w s := rfl
theorem exec_pstore (w : WI) (s : State) : exec (.pstore w) s = execPstore w s := rfl
theorem exec_pload (w : WI) (s : State) : exec (.pload w) s = execPload w s := rfl
theorem exec_pmov (w : WC) (s : State) : exec (.pmov w) s = execPmov w s := rfl
theorem exec_shfl (w : WI) (s : State) : exec (.shfl w) s = execShfl w s := rfl
theorem exec_vote (w : WI) (s : State) : exec (.vote w) s = execVote w s := rfl
theorem exec_redux (w : WI) (s : State) : exec (.redux w) s = execRedux w s := rfl
theorem exec_firstl (w : WI) (s : State) : exec (.firstl w) s = execFirstl w s := rfl
theorem exec_mfs (w : WS) (s : State) : exec (.mfs w) s = execMfs w s := rfl
theorem exec_mts (w : WS) (s : State) : exec (.mts w) s = execMts w s := rfl
theorem exec_fadd (w : WV) (s : State) : exec (.fadd w) s = execFadd w s := rfl
theorem exec_fsub (w : WV) (s : State) : exec (.fsub w) s = execFsub w s := rfl
theorem exec_fmul (w : WV) (s : State) : exec (.fmul w) s = execFmul w s := rfl
theorem exec_ffma (w : WV) (s : State) : exec (.ffma w) s = execFfma w s := rfl
theorem exec_fdiv (w : WV) (s : State) : exec (.fdiv w) s = execFdiv w s := rfl
theorem exec_fsqrt (w : WV) (s : State) : exec (.fsqrt w) s = execFsqrt w s := rfl
theorem exec_fmin (w : WV) (s : State) : exec (.fmin w) s = execFmin w s := rfl
theorem exec_fmax (w : WV) (s : State) : exec (.fmax w) s = execFmax w s := rfl
theorem exec_fminnum (w : WV) (s : State) : exec (.fminnum w) s = execFminnum w s := rfl
theorem exec_fmaxnum (w : WV) (s : State) : exec (.fmaxnum w) s = execFmaxnum w s := rfl
theorem exec_fabs (w : WV) (s : State) : exec (.fabs w) s = execFabs w s := rfl
theorem exec_fneg (w : WV) (s : State) : exec (.fneg w) s = execFneg w s := rfl
theorem exec_fcopysign (w : WV) (s : State) : exec (.fcopysign w) s = execFcopysign w s := rfl
theorem exec_fcmp (w : WC) (s : State) : exec (.fcmp w) s = execFcmp w s := rfl
theorem exec_fclass (w : WC) (s : State) : exec (.fclass w) s = execFclass w s := rfl
theorem exec_frint (w : WV) (s : State) : exec (.frint w) s = execFrint w s := rfl
theorem exec_fscaleb (w : WV) (s : State) : exec (.fscaleb w) s = execFscaleb w s := rfl
theorem exec_flogb (w : WV) (s : State) : exec (.flogb w) s = execFlogb w s := rfl
theorem exec_cvt (w : WV) (s : State) : exec (.cvt w) s = execCvt w s := rfl
theorem exec_cvti (w : WV) (s : State) : exec (.cvti w) s = execCvti w s := rfl
theorem exec_icvtf (w : WV) (s : State) : exec (.icvtf w) s = execIcvtf w s := rfl
theorem exec_frcp (w : WV) (s : State) : exec (.frcp w) s = execFrcp w s := rfl
theorem exec_frsq (w : WV) (s : State) : exec (.frsq w) s = execFrsq w s := rfl
theorem exec_fexp2 (w : WV) (s : State) : exec (.fexp2 w) s = execFexp2 w s := rfl
theorem exec_flog2 (w : WV) (s : State) : exec (.flog2 w) s = execFlog2 w s := rfl
theorem exec_fsin (w : WV) (s : State) : exec (.fsin w) s = execFsin w s := rfl
theorem exec_fcos (w : WV) (s : State) : exec (.fcos w) s = execFcos w s := rfl
theorem exec_ftanh (w : WV) (s : State) : exec (.ftanh w) s = execFtanh w s := rfl
theorem exec_dot (w : WV) (s : State) : exec (.dot w) s = execDot w s := rfl
theorem exec_expr (w : WI) (s : State) : exec (.expr w) s = execExpr w s := rfl
theorem exec_rng (w : WV) (s : State) : exec (.rng w) s = execRng w s := rfl
theorem exec_qmx (w : WV) (s : State) : exec (.qmx w) s = execQmx w s := rfl
theorem exec_ld (w : WM) (s : State) : exec (.ld w) s = execLd w s := rfl
theorem exec_st (w : WM) (s : State) : exec (.st w) s = execSt w s := rfl
theorem exec_lds (w : WM) (s : State) : exec (.lds w) s = execLds w s := rfl
theorem exec_sts (w : WM) (s : State) : exec (.sts w) s = execSts w s := rfl
theorem exec_ldu (w : WM) (s : State) : exec (.ldu w) s = execLdu w s := rfl
theorem exec_atom (w : WT) (s : State) : exec (.atom w) s = execAtom w s := rfl
theorem exec_atoms (w : WT) (s : State) : exec (.atoms w) s = execAtoms w s := rfl
theorem exec_red (w : WM) (s : State) : exec (.red w) s = execRed w s := rfl
theorem exec_stmc (w : WM) (s : State) : exec (.stmc w) s = execStmc w s := rfl
theorem exec_fence (w : WM) (s : State) : exec (.fence w) s = execFence w s := rfl
theorem exec_cctl (w : WM) (s : State) : exec (.cctl w) s = execCctl w s := rfl
theorem exec_msgput (w : WA) (s : State) : exec (.msgput w) s = execMsgput w s := rfl
theorem exec_msgtake (w : WA) (s : State) : exec (.msgtake w) s = execMsgtake w s := rfl
theorem exec_mloop (w : WX) (s : State) : exec (.mloop w) s = execMloop w s := rfl
theorem exec_mconv (w : WX) (s : State) : exec (.mconv w) s = execMconv w s := rfl
theorem exec_mzero (w : WX) (s : State) : exec (.mzero w) s = execMzero w s := rfl
theorem exec_mlda (w : WX) (s : State) : exec (.mlda w) s = execMlda w s := rfl
theorem exec_msta (w : WX) (s : State) : exec (.msta w) s = execMsta w s := rfl
theorem exec_accrd (w : WX) (s : State) : exec (.accrd w) s = execAccrd w s := rfl
theorem exec_accwr (w : WX) (s : State) : exec (.accwr w) s = execAccwr w s := rfl
theorem exec_drain (w : WX) (s : State) : exec (.drain w) s = execDrain w s := rfl
theorem exec_epload (w : WA) (s : State) : exec (.epload w) s = execEpload w s := rfl
theorem exec_faclu (w : WX) (s : State) : exec (.faclu w) s = execFaclu w s := rfl
theorem exec_facch (w : WX) (s : State) : exec (.facch w) s = execFacch w s := rfl
theorem exec_facqr (w : WX) (s : State) : exec (.facqr w) s = execFacqr w s := rfl
theorem exec_trsm (w : WX) (s : State) : exec (.trsm w) s = execTrsm w s := rfl
theorem exec_pvapply (w : WX) (s : State) : exec (.pvapply w) s = execPvapply w s := rfl
theorem exec_pvmov (w : WX) (s : State) : exec (.pvmov w) s = execPvmov w s := rfl
theorem exec_cpy (w : WA) (s : State) : exec (.cpy w) s = execCpy w s := rfl
theorem exec_gather (w : WA) (s : State) : exec (.gather w) s = execGather w s := rfl
theorem exec_scatter (w : WA) (s : State) : exec (.scatter w) s = execScatter w s := rfl
theorem exec_cinit (w : WA) (s : State) : exec (.cinit w) s = execCinit w s := rfl
theorem exec_cstart (w : WA) (s : State) : exec (.cstart w) s = execCstart w s := rfl
theorem exec_cquery (w : WA) (s : State) : exec (.cquery w) s = execCquery w s := rfl
theorem exec_cfree (w : WA) (s : State) : exec (.cfree w) s = execCfree w s := rfl
theorem exec_tdef (w : WA) (s : State) : exec (.tdef w) s = execTdef w s := rfl
theorem exec_tsig (w : WA) (s : State) : exec (.tsig w) s = execTsig w s := rfl
theorem exec_bar (w : WA) (s : State) : exec (.bar w) s = execBar w s := rfl
theorem exec_barc (w : WA) (s : State) : exec (.barc w) s = execBarc w s := rfl
theorem exec_launch (w : WA) (s : State) : exec (.launch w) s = execLaunch w s := rfl
theorem exec_selsched (w : WA) (s : State) : exec (.selsched w) s = execSelsched w s := rfl
theorem exec_bra (w : WB) (s : State) : exec (.bra w) s = execBra w s := rfl
theorem exec_brx (w : WB) (s : State) : exec (.brx w) s = execBrx w s := rfl
theorem exec_call (w : WB) (s : State) : exec (.call w) s = execCall w s := rfl
theorem exec_callx (w : WB) (s : State) : exec (.callx w) s = execCallx w s := rfl
theorem exec_ret (w : WB) (s : State) : exec (.ret w) s = execRet w s := rfl
theorem exec_exitLanes (w : WB) (s : State) : exec (.exitLanes w) s = execExitLanes w s := rfl
theorem exec_regang (w : WB) (s : State) : exec (.regang w) s = execRegang w s := rfl
theorem exec_waitCtr (w : WI) (s : State) : exec (.waitCtr w) s = execWaitCtr w s := rfl
theorem exec_yield (w : WI) (s : State) : exec (.yield w) s = execYield w s := rfl
theorem exec_sleep (w : WI) (s : State) : exec (.sleep w) s = execSleep w s := rfl
theorem exec_xlate (w : WI) (s : State) : exec (.xlate w) s = execXlate w s := rfl
theorem exec_trapCode (w : WI) (s : State) : exec (.trapCode w) s = execTrapCode w s := rfl
theorem exec_bkpt (w : WI) (s : State) : exec (.bkpt w) s = execBkpt w s := rfl
theorem exec_ifence (w : WM) (s : State) : exec (.ifence w) s = execIfence w s := rfl
theorem exec_eret (w : WB) (s : State) : exec (.eret w) s = execEret w s := rfl
theorem exec_mfsp (w : WS) (s : State) : exec (.mfsp w) s = execMfsp w s := rfl
theorem exec_mtsp (w : WS) (s : State) : exec (.mtsp w) s = execMtsp w s := rfl
theorem exec_haltctx (w : WI) (s : State) : exec (.haltctx w) s = execHaltctx w s := rfl
theorem exec_pref (w : WM) (s : State) : exec (.pref w) s = execPref w s := rfl
theorem exec_evict (w : WM) (s : State) : exec (.evict w) s = execEvict w s := rfl
theorem exec_prio (w : WI) (s : State) : exec (.prio w) s = execPrio w s := rfl
theorem exec_unassignedHint (w : WH) (s : State) : exec (.unassignedHint w) s = execUnassignedHint w s := rfl
theorem exec_clauseStart (gid slice : Nat) (s : State) : exec (.clauseStart gid slice) s = execClauseStart gid slice s := rfl
theorem exec_variableResultComplete (gid : Nat) (w1 : Bool) (s : State) : exec (.variableResultComplete gid w1) s = execVariableResultComplete gid w1 s := rfl
theorem exec_walkStart (lookup : Nat) (s : State) : exec (.walkStart lookup) s = execWalkStart lookup s := rfl
theorem exec_walkComplete (lookup : Nat) (s : State) : exec (.walkComplete lookup) s = execWalkComplete lookup s := rfl
theorem exec_invalidateContext (ctx : Nat) (seq : BitVec 16) (s : State) : exec (.invalidateContext ctx seq) s = execInvalidateContext ctx seq s := rfl
theorem exec_invalidatePages (ctx : Nat) (seq : BitVec 16) (pages : BitVec 32) (s : State) : exec (.invalidatePages ctx seq pages) s = execInvalidatePages ctx seq pages s := rfl
theorem exec_invalidateRanges (ctx : Nat) (seq : BitVec 16) (s : State) : exec (.invalidateRanges ctx seq) s = execInvalidateRanges ctx seq s := rfl
theorem exec_invalidateNodes (ctx : Nat) (seq : BitVec 16) (s : State) : exec (.invalidateNodes ctx seq) s = execInvalidateNodes ctx seq s := rfl
theorem exec_invalidateReserved (ctx : Nat) (seq : BitVec 16) (kind : BitVec 4) (s : State) : exec (.invalidateReserved ctx seq kind) s = execInvalidateReserved ctx seq kind s := rfl
theorem exec_invalidationComplete (ctx : Nat) (s : State) : exec (.invalidationComplete ctx) s = execInvalidationComplete ctx s := rfl
theorem exec_copyEngineRow (op : Nat) (s : State) : exec (.copyEngineRow op) s = execCopyEngineRow op s := rfl
theorem exec_copyEngineComplete (op : Nat) (s : State) : exec (.copyEngineComplete op) s = execCopyEngineComplete op s := rfl
theorem exec_sequencerOpStart (quad : Nat) (s : State) : exec (.sequencerOpStart quad) s = execSequencerOpStart quad s := rfl
theorem exec_kStep (quad : Nat) (s : State) : exec (.kStep quad) s = execKStep quad s := rfl
theorem exec_drainRow (quad : Nat) (s : State) : exec (.drainRow quad) s = execDrainRow quad s := rfl
theorem exec_matrixOpComplete (gid : Nat) (s : State) : exec (.matrixOpComplete gid) s = execMatrixOpComplete gid s := rfl
theorem exec_factorColumn (quad : Nat) (s : State) : exec (.factorColumn quad) s = execFactorColumn quad s := rfl
theorem exec_factorGrowth (quad : Nat) (s : State) : exec (.factorGrowth quad) s = execFactorGrowth quad s := rfl
theorem exec_msgputAppend (msg : Nat) (s : State) : exec (.msgputAppend msg) s = execMsgputAppend msg s := rfl
theorem exec_creditRequest (msg : Nat) (s : State) : exec (.creditRequest msg) s = execCreditRequest msg s := rfl
theorem exec_creditGrant (msg : Nat) (s : State) : exec (.creditGrant msg) s = execCreditGrant msg s := rfl
theorem exec_creditReturn (part core : Nat) (s : State) : exec (.creditReturn part core) s = execCreditReturn part core s := rfl
theorem exec_taskSpawn (core entry quad : Nat) (s : State) : exec (.taskSpawn core entry quad) s = execTaskSpawn core entry quad s := rfl
theorem exec_sleepExpiry (gid slice : Nat) (s : State) : exec (.sleepExpiry gid slice) s = execSleepExpiry gid slice s := rfl
theorem exec_groupEnd (gid : Nat) (s : State) : exec (.groupEnd gid) s = execGroupEnd gid s := rfl
theorem exec_launchRecordAccept (ctx src : Nat) (s : State) : exec (.launchRecordAccept ctx src) s = execLaunchRecordAccept ctx src s := rfl
theorem exec_workgroupStart (lid vcore : Nat) (s : State) : exec (.workgroupStart lid vcore) s = execWorkgroupStart lid vcore s := rfl
theorem exec_launchComplete (lid : Nat) (s : State) : exec (.launchComplete lid) s = execLaunchComplete lid s := rfl
theorem exec_commNegotiate (ctx : Nat) (m : CommMsg) (s : State) : exec (.commNegotiate ctx m) s = execCommNegotiate ctx m s := rfl
theorem exec_commAbortNotice (ctx : Nat) (tag : BitVec 32) (mismatch : Bool) (s : State) : exec (.commAbortNotice ctx tag mismatch) s = execCommAbortNotice ctx tag mismatch s := rfl
theorem exec_commTimeout (ctx h : Nat) (s : State) : exec (.commTimeout ctx h) s = execCommTimeout ctx h s := rfl
theorem exec_slotRequest (sw : Nat) (r : SlotReq) (s : State) : exec (.slotRequest sw r) s = execSlotRequest sw r s := rfl
theorem exec_slotDecision (sw : Nat) (s : State) : exec (.slotDecision sw) s = execSlotDecision sw s := rfl
theorem exec_slotReclaim (sw owner : Nat) (s : State) : exec (.slotReclaim sw owner) s = execSlotReclaim sw owner s := rfl
theorem exec_chunkReceive (ctx : Nat) (c : Chunk) (s : State) : exec (.chunkReceive ctx c) s = execChunkReceive ctx c s := rfl
theorem exec_chunkResendRequest (ctx h inst chunk : Nat) (s : State) : exec (.chunkResendRequest ctx h inst chunk) s = execChunkResendRequest ctx h inst chunk s := rfl
theorem exec_chunkAck (ctx h inst chunk : Nat) (s : State) : exec (.chunkAck ctx h inst chunk) s = execChunkAck ctx h inst chunk s := rfl
theorem exec_instanceComplete (ctx h inst : Nat) (s : State) : exec (.instanceComplete ctx h inst) s = execInstanceComplete ctx h inst s := rfl
theorem exec_flitReceive (port : Nat) (crcOk : Bool) (s : State) : exec (.flitReceive port crcOk) s = execFlitReceive port crcOk s := rfl
theorem exec_linkTrained (port version node : Nat) (masterTime : BitVec 64) (s : State) : exec (.linkTrained port version node masterTime) s = execLinkTrained port version node masterTime s := rfl
theorem exec_timeSyncSend (port : Nat) (s : State) : exec (.timeSyncSend port) s = execTimeSyncSend port s := rfl
theorem exec_timeSyncReceive (port : Nat) (masterTime : BitVec 64) (s : State) : exec (.timeSyncReceive port masterTime) s = execTimeSyncReceive port masterTime s := rfl
theorem exec_syncWaitExpiry  (s : State) : exec (.syncWaitExpiry) s = execSyncWaitExpiry s := rfl
theorem exec_masterLeaves (node : Nat) (s : State) : exec (.masterLeaves node) s = execMasterLeaves node s := rfl
theorem exec_fabricAccess (r : FabReq) (s : State) : exec (.fabricAccess r) s = execFabricAccess r s := rfl
theorem exec_hostMemRead (addr size : Nat) (s : State) : exec (.hostMemRead addr size) s = execHostMemRead addr size s := rfl
theorem exec_hostMemWrite (addr : Nat) (data : List (BitVec 8)) (s : State) : exec (.hostMemWrite addr data) s = execHostMemWrite addr data s := rfl
theorem exec_haltCtxCmd (ctx : Nat) (s : State) : exec (.haltCtxCmd ctx) s = execHaltCtxCmd ctx s := rfl
theorem exec_resumeCtx (ctx : Nat) (s : State) : exec (.resumeCtx ctx) s = execResumeCtx ctx s := rfl
theorem exec_switchOut (ctx : Nat) (s : State) : exec (.switchOut ctx) s = execSwitchOut ctx s := rfl
theorem exec_switchIn (ctx : Nat) (s : State) : exec (.switchIn ctx) s = execSwitchIn ctx s := rfl
theorem exec_killCtx (ctx : Nat) (s : State) : exec (.killCtx ctx) s = execKillCtx ctx s := rfl
theorem exec_quiesceCtx (ctx : Nat) (s : State) : exec (.quiesceCtx ctx) s = execQuiesceCtx ctx s := rfl
theorem exec_createCtx (ctx : Nat) (s : State) : exec (.createCtx ctx) s = execCreateCtx ctx s := rfl
theorem exec_ctxcmdReserved (ctx : Nat) (cmd : BitVec 4) (s : State) : exec (.ctxcmdReserved ctx cmd) s = execCtxcmdReserved ctx cmd s := rfl
theorem exec_sliceatReached (ctx : Nat) (s : State) : exec (.sliceatReached ctx) s = execSliceatReached ctx s := rfl
theorem exec_sliceendReached (ctx : Nat) (s : State) : exec (.sliceendReached ctx) s = execSliceendReached ctx s := rfl
theorem exec_sliceatWrite (ctx : Nat) (v : BitVec 64) (s : State) : exec (.sliceatWrite ctx v) s = execSliceatWrite ctx v s := rfl
theorem exec_tsliceExpiry (part : Nat) (s : State) : exec (.tsliceExpiry part) s = execTsliceExpiry part s := rfl
theorem exec_contextHalted (ctx : Nat) (s : State) : exec (.contextHalted ctx) s = execContextHalted ctx s := rfl
theorem exec_saveComplete (ctx : Nat) (s : State) : exec (.saveComplete ctx) s = execSaveComplete ctx s := rfl
theorem exec_contextKilled (ctx : Nat) (s : State) : exec (.contextKilled ctx) s = execContextKilled ctx s := rfl
theorem exec_lqtailWrite (ctx q : Nat) (v : BitVec 64) (s : State) : exec (.lqtailWrite ctx q v) s = execLqtailWrite ctx q v s := rfl
theorem exec_lqbaseWrite (ctx q : Nat) (v : BitVec 64) (s : State) : exec (.lqbaseWrite ctx q v) s = execLqbaseWrite ctx q v s := rfl
theorem exec_eqheadWrite (part : Nat) (v : BitVec 64) (s : State) : exec (.eqheadWrite part v) s = execEqheadWrite part v s := rfl
theorem exec_grantWrite (part off : Nat) (v : BitVec 64) (s : State) : exec (.grantWrite part off v) s = execGrantWrite part off v s := rfl
theorem exec_sharesWrite (part : Nat) (v : BitVec 64) (s : State) : exec (.sharesWrite part v) s = execSharesWrite part v s := rfl
theorem exec_adoptCarry (ctx : Nat) (s : State) : exec (.adoptCarry ctx) s = execAdoptCarry ctx s := rfl
theorem exec_holdCtx (ctx : Nat) (on : Bool) (s : State) : exec (.holdCtx ctx on) s = execHoldCtx ctx on s := rfl
theorem exec_carryWritten (ctx : Nat) (s : State) : exec (.carryWritten ctx) s = execCarryWritten ctx s := rfl
theorem exec_plimitWrite (v : BitVec 64) (s : State) : exec (.plimitWrite v) s = execPlimitWrite v s := rfl
theorem exec_registerWrite (fn off size : Nat) (v : BitVec 64) (s : State) : exec (.registerWrite fn off size v) s = execRegisterWrite fn off size v s := rfl
theorem exec_clockStepDecision (powerMw maxC : Nat) (s : State) : exec (.clockStepDecision powerMw maxC) s = execClockStepDecision powerMw maxC s := rfl
theorem exec_thermalTrip (maxC : Nat) (s : State) : exec (.thermalTrip maxC) s = execThermalTrip maxC s := rfl
theorem exec_thermalMigration (lid vcore core : Nat) (s : State) : exec (.thermalMigration lid vcore core) s = execThermalMigration lid vcore core s := rfl
theorem exec_uncorrectableError (core : Nat) (site : ErrSite) (s : State) : exec (.uncorrectableError core site) s = execUncorrectableError core site s := rfl
theorem exec_resetPart (img : BootImage) (s : State) : exec (.resetPart img) s = execResetPart img s := rfl
theorem exec_attestationReport (nonce : BitVec 256) (s : State) : exec (.attestationReport nonce) s = execAttestationReport nonce s := rfl
theorem exec_remoteAccessResponse (id : Nat) (r : RemoteResp) (s : State) : exec (.remoteAccessResponse id r) s = execRemoteAccessResponse id r s := rfl
theorem exec_hostFence (release : Bool) (s : State) : exec (.hostFence release) s = execHostFence release s := rfl
theorem exec_hostCoherentAgentAccess (addr size : Nat) (data : Option (List (BitVec 8))) (s : State) : exec (.hostCoherentAgentAccess addr size data) s = execHostCoherentAgentAccess addr size data s := rfl

end Sys2Proof.Machine
end

