-- ==== Sys2Proof/Laws/Results.lean ====
section
/-! SUPPORT. Results in registers: what a fixed-latency result, a compare and a pending result leave, once for every instruction of that shape. -/

namespace Sys2Proof.Machine

open Sys2Proof.Claims

/-! ## Where a destination lies -/

/-- The keys of a destination lie apart from l0, l1 and $fpflags of every lane. -/
theorem opdKey_apart {n : Nat} {o : Opd} (hd : dstOk n o = true) (hn : n = 1 ∨ n = 2) {L k key : Nat} (hk : k < n) (he : opdKey? o L k = some key) (M : Nat) (hM : M < 32) :
    key ≠ keyL M 0 ∧ key ≠ keyL M 1 ∧ key ≠ keyF M := by
  unfold keyL keyF
  cases o with
  | v m =>
    have : m.toNat < 256 := m.isLt
    have : n = 2 → m.toNat % 2 = 0 := by intro e; subst e; simp [dstOk, Opd.even] at hd; exact hd.2
    simp only [opdKey?, keyV, Option.some.injEq] at he
    rcases hn with e | e <;> subst e <;> omega
  | o m =>
    have : m.toNat < 8 := m.isLt
    have : n = 2 → m.toNat % 2 = 0 := by intro e; subst e; simp [dstOk, Opd.even] at hd; exact hd.2
    simp only [opdKey?, keyO, Option.some.injEq] at he
    rcases hn with e | e <;> subst e <;> omega
  | s m => simp only [opdKey?, keyS, Option.some.injEq] at he; omega
  | l m => rcases hn with e | e <;> subst e <;> simp [dstOk, Opd.isDst] at hd
  | z => simp [opdKey?] at he
  | rsv m => simp [opdKey?] at he

/-- Two words of a destination that is no s register have different keys. -/
theorem opdKey_inj {n : Nat} {o : Opd} (hd : dstOk n o = true) (hn : n = 1 ∨ n = 2) {L M j k key : Nat} (hj : j < n) (hk : k < n)
    (h1 : opdKey? o L j = some key) (h2 : opdKey? o M k = some key) : j = k ∧ (o.isS = false → L = M) := by
  cases o with
  | v m =>
    have : m.toNat < 256 := m.isLt
    simp only [opdKey?, keyV, Option.some.injEq] at h1 h2
    rcases hn with e | e <;> subst e <;> (refine ⟨?_, fun _ => ?_⟩ <;> omega)
  | o m =>
    have : m.toNat < 8 := m.isLt
    simp only [opdKey?, keyO, Option.some.injEq] at h1 h2
    rcases hn with e | e <;> subst e <;> (refine ⟨?_, fun _ => ?_⟩ <;> omega)
  | s m => simp only [opdKey?, keyS, Option.some.injEq] at h1 h2; exact ⟨by omega, fun h => by simp [Opd.isS] at h⟩
  | l m => rcases hn with e | e <;> subst e <;> simp [dstOk, Opd.isDst] at hd
  | z => simp [opdKey?] at h1
  | rsv m => simp [opdKey?] at h1

theorem resWords_length {n : Nat} (hn : n = 1 ∨ n = 2) (v : DWord) (p : Bool) : (resWords n v p).length = n := by
  rcases hn with e | e <;> subst e <;> rfl

/-! ## The list of writes of a destination -/

theorem mem_dstWrites_lane {o : Opd} (hs : o.isS = false) {rs : List LaneRes} {key : Nat} {c : RegCell} :
    (key, c) ∈ dstWrites o rs ↔ ∃ r ∈ rs, ∃ k, r.words[k]? = some c ∧ opdKey? o r.lane k = some key := by
  have e : dstWrites o rs = rs.flatMap fun r => (r.words.zipIdx).filterMap fun (c, k) => (opdKey? o r.lane k).map fun key => (key, c) := by
    cases o <;> first | rfl | (simp [Opd.isS] at hs)
  rw [e]
  simp only [List.mem_flatMap, List.mem_filterMap, Option.map_eq_some_iff, Prod.mk.injEq, Prod.exists]
  constructor
  · rintro ⟨r, hr, c', k, hm, key', hk, rfl, rfl⟩
    exact ⟨r, hr, k, (List.mem_zipIdx_iff_getElem?.1 hm), hk⟩
  · rintro ⟨r, hr, k, hc, hk⟩
    exact ⟨r, hr, c, k, List.mem_zipIdx_iff_getElem?.2 hc, key, hk, rfl, rfl⟩

theorem mem_dstWrites_s {m : BitVec 7} {rs : List LaneRes} {key : Nat} {c : RegCell} :
    (key, c) ∈ dstWrites (.s m) rs ↔ ∃ r, rs.head? = some r ∧ ∃ k, r.words[k]? = some c ∧ opdKey? (.s m) r.lane k = some key := by
  cases rs with
  | nil => simp [dstWrites]
  | cons r t =>
    simp only [dstWrites, List.mem_filterMap, Option.map_eq_some_iff, Prod.mk.injEq, Prod.exists, List.head?_cons, Option.some.injEq]
    constructor
    · rintro ⟨c', k, hm, key', hk, rfl, rfl⟩
      exact ⟨r, rfl, k, List.mem_zipIdx_iff_getElem?.1 hm, hk⟩
    · rintro ⟨_, rfl, k, hc, hk⟩
      exact ⟨c, k, List.mem_zipIdx_iff_getElem?.2 hc, key, hk, rfl, rfl⟩

/-- Every write of a destination is of an acting lane's word of it. -/
theorem dstWrites_sound {o : Opd} {rs : List LaneRes} {w : Nat × RegCell} (h : w ∈ dstWrites o rs) :
    ∃ r ∈ rs, ∃ k, r.words[k]? = some w.2 ∧ opdKey? o r.lane k = some w.1 := by
  obtain ⟨key, c⟩ := w
  cases ho : o.isS with
  | false => exact (mem_dstWrites_lane ho).1 h
  | true =>
    cases o with
    | s m =>
      obtain ⟨r, hr, k, hc, hk⟩ := mem_dstWrites_s.1 h
      exact ⟨r, List.mem_of_mem_head? hr, k, hc, hk⟩
    | _ => simp [Opd.isS] at ho

/-- Every write of the last-result file is of l0 or l1 of an acting lane. -/
theorem lastResult_sound {s : State} {lat : Nat} {g : Group} {o : Opd} {rs : List LaneRes} {w : Nat × Nat × RegCell} (h : w ∈ lastResult s lat g o rs) :
    ∃ r ∈ rs, w.1 = keyL r.lane 0 ∨ w.1 = keyL r.lane 1 := by
  unfold lastResult at h
  obtain ⟨r, hr, h⟩ := List.mem_flatMap.1 h
  refine ⟨r, hr, ?_⟩
  split at h
  · simp only [List.mem_cons, List.not_mem_nil, or_false] at h
    rcases h with h | h <;> subst h <;> simp
  · simp only [List.mem_cons, List.not_mem_nil, or_false] at h
    rcases h with h | h <;> subst h <;> simp
  · cases h

/-! ## A result of one or two words in each acting lane -/

/-- The results of the acting lanes, lane by lane. -/
theorem mem_laneResults {e : Env} {n : Nat} {f : Nat → PVal} {r : LaneRes} :
    r ∈ laneResults e n f ↔ ∃ L ∈ e.lanes, r = ⟨L, resWords n (f L).val (f L).poison⟩ := by
  unfold laneResults
  simp only [List.mem_map]
  constructor
  · rintro ⟨L, hL, rfl⟩; exact ⟨L, hL, rfl⟩
  · rintro ⟨L, hL, rfl⟩; exact ⟨L, hL, rfl⟩

/-- A result written by `writeDst` stands in its destination. -/
theorem holds_writeDst {e : Env} {n lat : Nat} {dst : Opd} {f : Nat → PVal} {s : State} (hn : n = 1 ∨ n = 2) (hd : dstOk n dst = true)
    (hl : ∀ L ∈ e.lanes, L < 32) (g : Group) : Holds e n dst f (g.writeDst s lat dst (laneResults e n f)) := by
  intro L hL k key hk hkey hlead
  unfold Group.writeDst
  rw [cellAt_writeEach_other]
  · cases hc : (resWords n (f L).val (f L).poison)[k]? with
    | none => exact absurd (List.getElem?_eq_none_iff.1 hc) (by rw [resWords_length hn]; omega)
    | some c =>
      rw [cellAt_writeAll_mem s lat _ g (c := c)]
      · cases ho : dst.isS with
        | false => exact (mem_dstWrites_lane ho).2 ⟨_, mem_laneResults.2 ⟨L, hL, rfl⟩, k, hc, hkey⟩
        | true =>
          cases dst with
          | s m =>
            refine mem_dstWrites_s.2 ⟨⟨L, resWords n (f L).val (f L).poison⟩, ?_, k, hc, hkey⟩
            have := hlead rfl
            unfold Env.leader at this
            unfold laneResults
            rw [List.head?_map, this]; rfl
          | _ => simp [Opd.isS] at ho
      · intro w hw hwk
        cases ho : dst.isS with
        | false =>
          obtain ⟨r, hr, k', hc', hk'⟩ := dstWrites_sound hw
          obtain ⟨M, hM, rfl⟩ := mem_laneResults.1 hr
          have hk2 : k' < n := by
            have := (List.getElem?_eq_some_iff.1 hc').1
            rwa [resWords_length hn] at this
          rw [hwk] at hk'
          obtain ⟨e1, e2⟩ := opdKey_inj hd hn hk hk2 hkey hk'
          have hLM := e2 ho
          subst e1; subst hLM
          exact Option.some.inj (hc'.symm.trans hc)
        | true =>
          cases dst with
          | s m =>
            obtain ⟨r, hr, k', hc', hk'⟩ := mem_dstWrites_s.1 (show (w.1, w.2) ∈ dstWrites (.s m) _ from hw)
            have h1 := hlead rfl
            unfold Env.leader at h1
            unfold laneResults at hr
            rw [List.head?_map, h1] at hr
            simp only [Option.map_some, Option.some.injEq] at hr
            subst hr
            have hk2 : k' < n := by
              have := (List.getElem?_eq_some_iff.1 hc').1
              rwa [resWords_length hn] at this
            rw [hwk] at hk'
            have e1 := (opdKey_inj hd hn hk hk2 hkey hk').1
            subst e1
            exact Option.some.inj (hc'.symm.trans hc)
          | _ => simp [Opd.isS] at ho
  · intro w hw e1
    obtain ⟨r, hr, h⟩ := lastResult_sound hw
    obtain ⟨M, hM, rfl⟩ := mem_laneResults.1 hr
    have := opdKey_apart hd hn hk hkey M (hl M hM)
    rcases h with h | h
    · exact this.1 (e1.symm.trans h)
    · exact this.2.1 (e1.symm.trans h)

theorem keyL_inj {a b i j : Nat} (hi : i < 2) (hj : j < 2) (h : keyL a i = keyL b j) : a = b ∧ i = j := by unfold keyL at h; omega

/-- The last-result file after a result. -/
theorem lastResult_writeDst {e : Env} {n lat : Nat} {dst : Opd} {f : Nat → PVal} {s : State} (hn : n = 1 ∨ n = 2) (g : Group) (hg : ∀ L, g.cellAt (keyL L 0) = e.g0.cellAt (keyL L 0)) :
    LastResult e n dst f (g.writeDst s lat dst (laneResults e n f)) := by
  intro hs L hL
  have hone : ∀ rs, lastResult s lat g dst rs = rs.flatMap fun r => match r.words with
      | [c] => [(keyL r.lane 1, g.readyAt s (keyL r.lane 0), g.cellAt (keyL r.lane 0)), (keyL r.lane 0, s.clk + lat, c)]
      | [c, d] => [(keyL r.lane 0, s.clk + lat, c), (keyL r.lane 1, s.clk + lat, d)]
      | _ => [] := by
    intro rs
    unfold lastResult
    cases dst <;> first | rfl | (simp [Opd.isS] at hs)
  have uniq : ∀ (j r : Nat) (c : RegCell), j < 2 → (∀ w ∈ lastResult s lat g dst (laneResults e n f), w.1 = keyL L j → w.2.2 = c) →
      (keyL L j, r, c) ∈ lastResult s lat g dst (laneResults e n f) → (g.writeDst s lat dst (laneResults e n f)).cellAt (keyL L j) = c := by
    intro j r c _ hu hm
    exact cellAt_writeEach_mem s _ _ hm hu
  rcases hn with hn | hn
  · subst hn
    have hm : ∀ w, w ∈ lastResult s lat g dst (laneResults e 1 f) ↔ ∃ M ∈ e.lanes,
        w = (keyL M 1, g.readyAt s (keyL M 0), g.cellAt (keyL M 0)) ∨ w = (keyL M 0, s.clk + lat, cell ((f M).val.setWidth 32) (f M).poison) := by
      intro w
      rw [hone, List.mem_flatMap]
      constructor
      · rintro ⟨r, hr, hw⟩
        obtain ⟨M, hM, rfl⟩ := mem_laneResults.1 hr
        refine ⟨M, hM, ?_⟩
        simpa [resWords] using hw
      · rintro ⟨M, hM, hw⟩
        refine ⟨_, mem_laneResults.2 ⟨M, hM, rfl⟩, ?_⟩
        simpa [resWords] using hw
    refine ⟨?_, fun _ => ?_, fun h => absurd h (by omega)⟩
    · rw [uniq 0 (s.clk + lat) (cell ((f L).val.setWidth 32) (f L).poison) (by omega)]
      · rfl
      · intro w hw hk
        obtain ⟨M, _, h | h⟩ := (hm w).1 hw
        · rw [h] at hk; exact absurd (keyL_inj (by omega) (by omega) hk).2 (by omega)
        · rw [h] at hk; have := (keyL_inj (by omega) (by omega) hk).1; subst this; rw [h]
      · exact (hm _).2 ⟨L, hL, .inr rfl⟩
    · rw [uniq 1 (g.readyAt s (keyL L 0)) (g.cellAt (keyL L 0)) (by omega)]
      · exact hg L
      · intro w hw hk
        obtain ⟨M, _, h | h⟩ := (hm w).1 hw
        · rw [h] at hk; have := (keyL_inj (by omega) (by omega) hk).1; subst this; rw [h]
        · rw [h] at hk; exact absurd (keyL_inj (by omega) (by omega) hk).2 (by omega)
      · exact (hm _).2 ⟨L, hL, .inl rfl⟩
  · subst hn
    have hm : ∀ w, w ∈ lastResult s lat g dst (laneResults e 2 f) ↔
        ∃ M ∈ e.lanes, w = (keyL M 0, s.clk + lat, cell ((f M).val.setWidth 32) (f M).poison) ∨ w = (keyL M 1, s.clk + lat, cell ((f M).val.extractLsb' 32 32) (f M).poison) := by
      intro w
      rw [hone, List.mem_flatMap]
      constructor
      · rintro ⟨r, hr, hw⟩
        obtain ⟨M, hM, rfl⟩ := mem_laneResults.1 hr
        refine ⟨M, hM, ?_⟩
        simpa [resWords] using hw
      · rintro ⟨M, hM, hw⟩
        refine ⟨_, mem_laneResults.2 ⟨M, hM, rfl⟩, ?_⟩
        simpa [resWords] using hw
    refine ⟨?_, fun h => absurd h (by omega), fun _ => ?_⟩
    · rw [uniq 0 (s.clk + lat) (cell ((f L).val.setWidth 32) (f L).poison) (by omega)]
      · rfl
      · intro w hw hk
        obtain ⟨M, _, h | h⟩ := (hm w).1 hw
        · rw [h] at hk; have := (keyL_inj (by omega) (by omega) hk).1; subst this; rw [h]
        · rw [h] at hk; exact absurd (keyL_inj (by omega) (by omega) hk).2 (by omega)
      · exact (hm _).2 ⟨L, hL, .inl rfl⟩
    · rw [uniq 1 (s.clk + lat) (cell ((f L).val.extractLsb' 32 32) (f L).poison) (by omega)]
      · rfl
      · intro w hw hk
        obtain ⟨M, _, h | h⟩ := (hm w).1 hw
        · rw [h] at hk; exact absurd (keyL_inj (by omega) (by omega) hk).2 (by omega)
        · rw [h] at hk; have := (keyL_inj (by omega) (by omega) hk).1; subst this; rw [h]
      · exact (hm _).2 ⟨L, hL, .inr rfl⟩

/-- A result changes no other register. -/
theorem cellAt_writeDst_other {e : Env} {n lat : Nat} {dst : Opd} {f : Nat → PVal} {s : State} (hn : n = 1 ∨ n = 2) (g : Group) {j : Nat}
    (h : ∀ L ∈ e.lanes, j ≠ keyL L 0 ∧ j ≠ keyL L 1 ∧ j ∉ opdKeys dst n L) : (g.writeDst s lat dst (laneResults e n f)).cellAt j = g.cellAt j := by
  unfold Group.writeDst
  rw [cellAt_writeEach_other, cellAt_writeAll_other]
  · intro w hw e1
    obtain ⟨r, hr, k, hc, hk⟩ := dstWrites_sound hw
    obtain ⟨M, hM, rfl⟩ := mem_laneResults.1 hr
    refine (h M hM).2.2 ?_
    unfold opdKeys
    have hk2 : k < n := by
      have := (List.getElem?_eq_some_iff.1 hc).1
      rwa [resWords_length hn] at this
    exact List.mem_filterMap.2 ⟨k, List.mem_range.2 hk2, e1 ▸ hk⟩
  · intro w hw e1
    obtain ⟨r, hr, q⟩ := lastResult_sound hw
    obtain ⟨M, hM, rfl⟩ := mem_laneResults.1 hr
    rcases q with q | q
    · exact (h M hM).1 (e1.symm.trans q)
    · exact (h M hM).2.1 (e1.symm.trans q)

/-- A register whose last use is not marked is as it was. -/
theorem cellAt_lastUse_unmarked {s : State} {gid : Nat} {g : Group} {a : Gang} {h : Header} {gd : Guard} {u : Uses} {j : Nat}
    (hj : j ∉ marked (mkEnv s gid g a h gd u) u) : (mkEnv s gid g a h gd u).g.cellAt j = g.cellAt j := by
  refine cellAt_lastUse_other _ _ g fun x hx hb => ?_
  by_cases hv : (match x.1 with | .v _ | .o _ => False | _ => True)
  · exact .inr hv
  · refine .inl fun L hL hm => hj ?_
    unfold marked
    refine List.mem_flatMap.2 ⟨L, hL, List.mem_flatMap.2 ⟨x, hx, ?_⟩⟩
    rw [if_pos hb]
    revert hv
    cases hx1 : x.1 with
    | v m => intro _; rw [hx1] at hm; exact hm
    | o m => intro _; rw [hx1] at hm; exact hm
    | _ => intro hv; exact absurd trivial hv

/-- Nor is a register that no instruction may write under `touched` one of those a last use marks. -/
theorem marked_touched {e : Env} {u : Uses} {j : Nat} (hj : j ∉ touched e u) : j ∉ marked e u := by
  intro hm
  obtain ⟨L, hL, hm⟩ := List.mem_flatMap.1 hm
  exact hj (List.mem_flatMap.2 ⟨L, hL, List.mem_append_right _ hm⟩)
theorem cellAt_lastUse_untouched {s : State} {gid : Nat} {g : Group} {a : Gang} {h : Header} {gd : Guard} {u : Uses} {j : Nat}
    (hj : j ∉ touched (mkEnv s gid g a h gd u) u) : (mkEnv s gid g a h gd u).g.cellAt j = g.cellAt j := cellAt_lastUse_unmarked (marked_touched hj)

/-- A source a last-use bit may mark lies below l0 in its lane. -/
theorem srcOk_below {n : Nat} {o : Opd} {b : Bool} (h : srcOk n o b = true) (hn : n ≤ 2) {L k key : Nat} (hk : k < n) (he : opdKey? o L k = some key) :
    o.isS = true ∨ (∃ m, o = .l m) ∨ key % 1024 < 264 := by
  cases o with
  | v m =>
    have : m.toNat < 256 := m.isLt
    simp only [opdKey?, keyV, Option.some.injEq] at he
    exact .inr (.inr (by omega))
  | o m =>
    have : m.toNat < 8 := m.isLt
    have : n = 2 → m.toNat % 2 = 0 := by intro e; subst e; simp [srcOk, Opd.even] at h; exact h
    simp only [opdKey?, keyO, Option.some.injEq] at he
    exact .inr (.inr (by omega))
  | s m => exact .inl rfl
  | l m => exact .inr (.inl ⟨m, rfl⟩)
  | z => simp [opdKey?] at he
  | rsv m => simp [opdKey?] at he

/-- l0, l1 and $fpflags are as they were once last use has been applied (08 R158). -/
theorem cellAt_mkEnv_apart (s : State) (gid : Nat) (g : Group) (a : Gang) (h : Header) (gd : Guard) (u : Uses)
    (hs : ∀ x ∈ u.src, ∀ L k key, k < x.2.1 → opdKey? x.1 L k = some key → x.1.isS = true ∨ (∃ m, x.1 = .l m) ∨ key % 1024 < 264)
    {M j : Nat} (hj : 264 ≤ j) (hj2 : j < 1024) : (mkEnv s gid g a h gd u).g.cellAt (M * 1024 + j) = g.cellAt (M * 1024 + j) := by
  refine cellAt_lastUse_other _ _ g fun x hx hb => ?_
  have key : ∀ L, (M * 1024 + j) ∈ opdKeys x.1 x.2.1 L → x.1.isS = true ∨ (∃ m, x.1 = .l m) := by
    intro L hm
    unfold opdKeys at hm
    obtain ⟨k, hk, e⟩ := List.mem_filterMap.1 hm
    rcases hs x hx L k _ (List.mem_range.1 hk) e with q | q | q
    · exact .inl q
    · exact .inr q
    · omega
  cases hx1 : x.1 with
  | v m => exact .inl fun L _ hm => by rcases key L (by rw [hx1]; exact hm) with q | ⟨m, q⟩ <;> rw [hx1] at q <;> cases q
  | o m => exact .inl fun L _ hm => by rcases key L (by rw [hx1]; exact hm) with q | ⟨m, q⟩ <;> rw [hx1] at q <;> cases q
  | _ => exact .inr trivial

/-! ## The laws of the shapes -/

/-- An instruction whose meaning is a fixed-latency result completes with it. -/
theorem regResult_law {i : Instr} {gd : Guard} {u : Uses} {n lat : Nat} {dst : Opd} {ok : Env → Prop} {val : Env → Nat → PVal} {fl : Env → Nat → Word}
    {body : State → Env → Act} (hn : n = 1 ∨ n = 2) (hu : (dst, n) ∈ u.dst) (hx : ∀ s, exec i s = runInstr i gd u (body s) s)
    (hd : i.formatOk = true → dstOk n dst = true) (ho : i.opcode < 0xF8)
    (hs : i.formatOk = true → ∀ x ∈ u.src, ∀ L k key, k < x.2.1 → opdKey? x.1 L k = some key → x.1.isS = true ∨ (∃ m, x.1 = .l m) ∨ key % 1024 < 264)
    (hb : ∀ s gid slice g a h, Issues i gd u s gid slice g a h → ok (mkEnv s gid g a h gd u) →
      body s (mkEnv s gid g a h gd u) = regResult (mkEnv s gid g a h gd u) lat n dst (val (mkEnv s gid g a h gd u)) (fl (mkEnv s gid g a h gd u))) :
    RegResult i gd u n dst ok val fl := by
  intro s gid slice g a h hi hok e
  have hf := issues_formatOk hi ho
  have hd1 := hd hf
  have hs1 := hs hf
  have hlt : ∀ L ∈ e.lanes, L < 32 := fun L hL => actingLanes_lt hL
  have hnd : e.lanes.Nodup := actingLanes_nodup _ _ _ _
  let rs := laneResults e n (val e)
  let g1 := e.g.writeDst e.s lat dst rs
  let bits : Nat → Word := fun L => fl e L ||| (if (val e L).poison then poisonFlag else 0)
  let g2 := e.lanes.foldl (fun g L => g.orFlags e.s lat L (bits L)) g1
  have hbody : body s e = .done g2 s := hb s gid slice g a h hi hok
  let g3 := stepOn s.clk gd.stall.toNat slice g2
  have hexec : exec i s = .next (commit gid (slicesAt s gid slice) (wasArmed s gid) g3 s) := by
    rw [hx, runInstr_issues hi]
    show Host.Outcome.next (finish gid slice gd.stall.toNat s (body s e)) = _
    rw [hbody]; rfl
  have hr3 : RegistersOnly g g3 := by
    have h0 : RegistersOnly g e.g := registersOnly_lastUse _ _ g
    have h1 : RegistersOnly e.g g1 := registersOnly_writeDst e.s lat dst rs e.g
    have h2 : RegistersOnly g1 g2 := registersOnly_foldl _ (fun _ _ => registersOnly_orFlags _ _ _ _ _) e.lanes g1
    exact h0.trans (h1.trans (h2.trans (controlOnly_stepOn _ _ _ _).registersOnly))
  obtain ⟨g', hg', hgo, hro, hc, _, _⟩ := commit_spec (s := s) (s1 := s) (gid := gid) (slicesAt s gid slice) (wasArmed s gid) hr3 rfl
  have hcell : ∀ k, g'.cellAt k = g2.cellAt k := fun k => (hc k).trans ((controlOnly_stepOn _ _ _ _).cellAt k)
  have hcell1 : ∀ k, (∀ L ∈ e.lanes, k ≠ keyF L) → g'.cellAt k = g1.cellAt k := fun k hk => (hcell k).trans (cellAt_foldl_orFlags_other _ _ _ _ _ hk)
  have hL0 : ∀ L, e.g.cellAt (keyL L 0) = e.g0.cellAt (keyL L 0) := fun L => cellAt_mkEnv_apart s gid g a h gd u hs1 (j := 264) (by omega) (by omega)
  have hF0 : ∀ L, e.g.cellAt (keyF L) = e.g0.cellAt (keyF L) := fun L => cellAt_mkEnv_apart s gid g a h gd u hs1 (j := 300) (by omega) (by omega)
  refine ⟨_, g', hexec, hg', hgo, hro, ?_, ?_, ?_, ?_⟩
  · intro key hkey
    have hk : ∀ L ∈ e.lanes, key ≠ keyL L 0 ∧ key ≠ keyL L 1 ∧ key ≠ keyF L ∧ key ∉ opdKeys dst n L := by
      intro L hL
      refine ⟨?_, ?_, ?_, ?_⟩ <;> intro q <;> refine hkey (List.mem_flatMap.2 ⟨L, hL, ?_⟩)
      · rw [q]; simp
      · rw [q]; simp
      · rw [q]; simp
      · refine List.mem_append_left _ (List.mem_append_left _ (List.mem_append_right _ ?_))
        exact List.mem_flatMap.2 ⟨(dst, n), hu, q⟩
    rw [hcell1 key fun L hL => (hk L hL).2.2.1]
    rw [cellAt_writeDst_other hn e.g fun L hL => ⟨(hk L hL).1, (hk L hL).2.1, (hk L hL).2.2.2⟩]
    exact cellAt_lastUse_untouched hkey
  · intro L hL k key hk hkey hlead
    rw [hcell1 key fun M hM => (opdKey_apart hd1 hn hk hkey M (hlt M hM)).2.2]
    exact holds_writeDst hn hd1 hlt e.g L hL k key hk hkey hlead
  · intro hds L hL
    have := lastResult_writeDst (e := e) (n := n) (lat := lat) (dst := dst) (f := val e) (s := e.s) hn e.g hL0 hds L hL
    have a0 := hcell1 (keyL L 0) fun M _ => by unfold keyL keyF; omega
    have a1 := hcell1 (keyL L 1) fun M _ => by unfold keyL keyF; omega
    rw [a0, a1]; exact this
  · intro L hL
    rw [hcell]
    rw [flags_foldl_orFlags e.s lat bits e.lanes hnd g1 hL]
    have : g1.cellAt (keyF L) = e.g0.cellAt (keyF L) := by
      refine (cellAt_writeDst_other hn e.g fun M hM => ⟨?_, ?_, ?_⟩).trans (hF0 L)
      · unfold keyF keyL; omega
      · unfold keyF keyL; omega
      · intro q
        unfold opdKeys at q
        obtain ⟨k, hk, q⟩ := List.mem_filterMap.1 q
        exact (opdKey_apart hd1 hn (List.mem_range.1 hk) q L (hlt L hL)).2.2 rfl
    rw [this]

/-- An instruction whose meaning is a pending result completes with it pending. -/
theorem pendResult_law {i : Instr} {gd : Guard} {u : Uses} {ok : Env → Prop} {ctr : Env → Nat} {ws : Env → List (Nat × RegCell)} {fl : Env → List (Nat × Word)}
    {body : State → Env → Act} (hx : ∀ s, exec i s = runInstr i gd u (body s) s) (ho : i.opcode < 0xF8)
    (hs : i.formatOk = true → ∀ x ∈ u.src, ∀ L k key, k < x.2.1 → opdKey? x.1 L k = some key → x.1.isS = true ∨ (∃ m, x.1 = .l m) ∨ key % 1024 < 264)
    (hb : ∀ s gid slice g a h, Issues i gd u s gid slice g a h → ok (mkEnv s gid g a h gd u) →
      body s (mkEnv s gid g a h gd u) = pendResult (mkEnv s gid g a h gd u) (ctr (mkEnv s gid g a h gd u)) (ws (mkEnv s gid g a h gd u)) (fl (mkEnv s gid g a h gd u)) (mkEnv s gid g a h gd u).g s) :
    PendsResult i gd u ok ctr ws fl := by
  intro s gid slice g a h hi hok e hne hfull
  have hempty : e.lanes.isEmpty = false := by cases hl : e.lanes with
    | nil => exact absurd hl hne
    | cons _ _ => rfl
  let v : VPend := ⟨s.nextId, true, ws e ++ (fl e).filterMap (fun (L, b) => if b == 0 then none else some (keyF L, ⟨b, false, 0⟩)), (ws e).map (·.1), overlaps e (e.g.addTok (ctr e) s.nextId false) ((ws e).map (·.1))⟩
  let g2 : Group := { (e.g.addTok (ctr e) s.nextId false) with vp := e.g.vp ++ [v] }
  have hbody : body s e = .done g2 s.takeId := by
    rw [hb s gid slice g a h hi hok]
    unfold pendResult
    have hf2 : (mkEnv s gid g a h gd u).full (ctr (mkEnv s gid g a h gd u)) = false := hfull
    have he2 : (mkEnv s gid g a h gd u).lanes.isEmpty = false := hempty
    rw [hf2, he2]; rfl
  let g3 := stepOn s.clk gd.stall.toNat slice g2
  have hexec : exec i s = .next (commit gid (slicesAt s gid slice) (wasArmed s gid) g3 s.takeId) := by
    rw [hx, runInstr_issues hi]
    show Host.Outcome.next (finish gid slice gd.stall.toNat s (body s e)) = _
    rw [hbody]; rfl
  have hr3 : RegistersOnly g g3 := by
    have h0 : RegistersOnly g e.g := registersOnly_lastUse _ _ g
    have h1 : RegistersOnly e.g g2 := ⟨rfl, rfl⟩
    exact h0.trans (h1.trans (controlOnly_stepOn _ _ _ _).registersOnly)
  obtain ⟨g', hg', hgo, hro, hc, hvp, hout⟩ := commit_spec (s := s) (s1 := s.takeId) (gid := gid) (slicesAt s gid slice) (wasArmed s gid) hr3 rfl
  have h3 := (controlOnly_stepOn s.clk gd.stall.toNat slice g2).1
  have hv3 : g3.vp = g2.vp := by show (stepOn s.clk gd.stall.toNat slice g2).vp = _; rw [h3]
  have ho3 : g3.out = g2.out := by show (stepOn s.clk gd.stall.toNat slice g2).out = _; rw [h3]
  have hge : e.g = { g with rf := e.g.rf } := lastUse_eq _ _ g
  have hcell : ∀ k, g'.cellAt k = e.g.cellAt k := fun k => (hc k).trans ((controlOnly_stepOn _ _ _ _).cellAt k)
  have hap := @cellAt_mkEnv_apart s gid g a h gd u (hs (issues_formatOk hi ho))
  refine ⟨_, g', v, hexec, hg', hgo, hro, ⟨fun key hkey => ?_, fun L _ => ⟨?_, ?_⟩, fun L _ => ?_⟩, ?_, rfl, rfl, ?_, rfl, ?_⟩
  · rw [hcell]; exact cellAt_lastUse_unmarked hkey
  · rw [hcell]; have q := hap (M := L) (j := 264 + 0) (by omega) (by omega); rwa [← Nat.add_assoc] at q
  · rw [hcell]; have q := hap (M := L) (j := 264 + 1) (by omega) (by omega); rwa [← Nat.add_assoc] at q
  · rw [hcell]; exact hap (M := L) (j := 300) (by omega) (by omega)
  · rw [hvp, hv3]
    show e.g.vp ++ [v] = _
    rw [hge]
  · show overlaps e (e.g.addTok (ctr e) s.nextId false) _ = _
    unfold overlaps Group.addTok
    rw [hge]
  · rw [hout, ho3]
    show dropVoid (ctr e) (e.g.out ++ [⟨ctr e, s.nextId, false⟩]) = _
    rw [hge]

/-! ## Compares -/

theorem keyP_inj {a b i j : Nat} (hi : i < 15) (hj : j < 15) (h : keyP a i = keyP b j) : a = b ∧ i = j := by unfold keyP at h; omega

theorem cellAt_writePred_other {j p L : Nat} (h : p ≠ 15 → j ≠ keyP L p) (s : State) (lat : Nat) (v q : Bool) (g : Group) :
    (g.writePred s lat p L v q).cellAt j = g.cellAt j := by
  unfold Group.writePred
  split
  · rfl
  · rename_i hp; exact cellAt_writeFixed_other (h hp) _ _ _ _

theorem cellAt_writePred_same {p L : Nat} (h : p ≠ 15) (s : State) (lat : Nat) (v q : Bool) (g : Group) :
    (g.writePred s lat p L v q).cellAt (keyP L p) = cell (if v then 1 else 0) q := by
  unfold Group.writePred
  rw [if_neg h]; exact cellAt_writeFixed_same _ _ _ _ _

/-- A fold over the acting lanes in which only lane L's turn writes a key: what that turn makes of it stands. -/
theorem cellAt_foldl_lane (f : Group → Nat → Group) (l : List Nat) (hn : l.Nodup) {L k : Nat} (hL : L ∈ l) {P : RegCell → RegCell → Prop}
    (hother : ∀ g M, M ≠ L → (f g M).cellAt k = g.cellAt k) (hsame : ∀ g : Group, P (g.cellAt k) ((f g L).cellAt k)) (g : Group) :
    P (g.cellAt k) ((l.foldl f g).cellAt k) := by
  have skip : ∀ (t : List Nat) (g : Group), L ∉ t → (t.foldl f g).cellAt k = g.cellAt k := by
    intro t
    induction t with
    | nil => intro g _; rfl
    | cons M t ih =>
      intro g hL
      rw [List.foldl_cons, ih _ fun q => hL (List.mem_cons_of_mem _ q)]
      exact hother g M fun q => hL (by rw [q]; exact List.mem_cons_self)
  induction l generalizing g with
  | nil => cases hL
  | cons M t ih =>
    obtain ⟨hm, ht⟩ := List.nodup_cons.1 hn
    rw [List.foldl_cons]
    rcases List.mem_cons.1 hL with e | e
    · subst e
      rw [skip t _ hm]; exact hsame g
    · have hk := hother g M fun q => hm (by rw [q]; exact e)
      rw [← hk]; exact ih ht e _

/-- A fold over lanes changes no key that no lane's turn writes. -/
theorem cellAt_foldl_none (f : Group → Nat → Group) (l : List Nat) {k : Nat} (h : ∀ g, ∀ M ∈ l, (f g M).cellAt k = g.cellAt k) (g : Group) :
    (l.foldl f g).cellAt k = g.cellAt k := by
  induction l generalizing g with
  | nil => rfl
  | cons M t ih => rw [List.foldl_cons, ih fun g N hN => h g N (List.mem_cons_of_mem _ hN)]; exact h g M List.mem_cons_self

/-- A C-format instruction completes with its predicates written. -/
theorem cmpResult_law {i : Instr} {w : WC} {u : Uses} {lat : Nat} {ok : Env → Prop} {cond : Env → Nat → Bool × Bool} {fl : Env → Nat → Word}
    {body : State → Env → Act} (hu : u.pdst = [w.pd1.toNat, w.pd2.toNat]) (hx : ∀ s, exec i s = runInstr i w.g u (body s) s)
    (hpd : i.formatOk = true → ckC w = true) (ho : i.opcode < 0xF8)
    (hs : i.formatOk = true → ∀ x ∈ u.src, ∀ L k key, k < x.2.1 → opdKey? x.1 L k = some key → x.1.isS = true ∨ (∃ m, x.1 = .l m) ∨ key % 1024 < 264)
    (hb : ∀ s gid slice g a h, Issues i w.g u s gid slice g a h → ok (mkEnv s gid g a h w.g u) →
      body s (mkEnv s gid g a h w.g u) = cmpResult (mkEnv s gid g a h w.g u) w lat (cond (mkEnv s gid g a h w.g u)) (fl (mkEnv s gid g a h w.g u))) :
    CmpResult i w u ok cond fl := by
  intro s gid slice g a h hi hok e
  have hf := issues_formatOk hi ho
  have hck := hpd hf
  have hs1 := hs hf
  have hnd : e.lanes.Nodup := actingLanes_nodup _ _ _ _
  have h1 : w.pd1.toNat < 16 := w.pd1.isLt
  have h2 : w.pd2.toNat < 16 := w.pd2.isLt
  have hne : w.pd1 ≠ 15#4 → w.pd1 ≠ w.pd2 := by
    intro h15 he
    unfold ckC at hck
    simp [he] at hck
    rw [he] at h15
    exact h15 hck.1.2
  let turn : Group → Nat → Group := fun g L =>
    let c := cond e L
    let pc := rdPred e.s0 e.g0 w.pc.toNat L
    let p := c.2 || (w.comb != 0 && pc.2)
    let q := pc.1 != w.pneg
    let g := g.writePred e.s lat w.pd1.toNat L (combine w.comb c.1 q) p
    let g := g.writePred e.s lat w.pd2.toNat L (combine w.comb (!c.1) q) p
    g.orFlags e.s lat L (fl e L ||| (if p then poisonFlag else 0))
  let g2 := e.lanes.foldl turn e.g
  have hbody : body s e = .done g2 s := hb s gid slice g a h hi hok
  let g3 := stepOn s.clk w.g.stall.toNat slice g2
  have hexec : exec i s = .next (commit gid (slicesAt s gid slice) (wasArmed s gid) g3 s) := by
    rw [hx, runInstr_issues hi]
    show Host.Outcome.next (finish gid slice w.g.stall.toNat s (body s e)) = _
    rw [hbody]; rfl
  have hturn : ∀ g L, RegistersOnly g (turn g L) := fun g L =>
    (registersOnly_writePred _ _ _ _ _ _ _).trans ((registersOnly_writePred _ _ _ _ _ _ _).trans (registersOnly_orFlags _ _ _ _ _))
  have hr3 : RegistersOnly g g3 := by
    have h0 : RegistersOnly g e.g := registersOnly_lastUse _ _ g
    exact h0.trans ((registersOnly_foldl _ hturn e.lanes e.g).trans (controlOnly_stepOn _ _ _ _).registersOnly)
  obtain ⟨g', hg', hgo, hro, hc, _, _⟩ := commit_spec (s := s) (s1 := s) (gid := gid) (slicesAt s gid slice) (wasArmed s gid) hr3 rfl
  have hcell : ∀ k, g'.cellAt k = g2.cellAt k := fun k => (hc k).trans ((controlOnly_stepOn _ _ _ _).cellAt k)
  have hap := @cellAt_mkEnv_apart s gid g a h w.g u hs1
  have hF0 : ∀ L, e.g.cellAt (keyF L) = e.g0.cellAt (keyF L) := fun L => cellAt_mkEnv_apart s gid g a h w.g u hs1 (j := 300) (by omega) (by omega)
  have hoth : ∀ (k : Nat) (g : Group) (M : Nat), (w.pd1.toNat ≠ 15 → k ≠ keyP M w.pd1.toNat) → (w.pd2.toNat ≠ 15 → k ≠ keyP M w.pd2.toNat) → k ≠ keyF M →
      (turn g M).cellAt k = g.cellAt k := by
    intro k g M a1 a2 a3
    show ((Group.orFlags _ _ _ _ _).cellAt k) = _
    rw [cellAt_orFlags_other a3, cellAt_writePred_other a2, cellAt_writePred_other a1]
  have hkeep : ∀ L j, j < 2 → g'.cellAt (keyL L j) = g.cellAt (keyL L j) := by
    intro L j hj
    have hl : e.g.cellAt (keyL L j) = g.cellAt (keyL L j) := by
      have := hap (M := L) (j := 264 + j) (by omega) (by omega)
      rwa [← Nat.add_assoc] at this
    rw [hcell, ← hl]
    exact cellAt_foldl_none turn e.lanes (fun g M _ => hoth _ g M (fun h15 => by unfold keyL keyP; omega) (fun h15 => by unfold keyL keyP; omega) (by unfold keyL keyF; omega)) e.g
  refine ⟨_, g', hexec, hg', hgo, hro, ?_, fun L _ => ⟨hkeep L 0 (by omega), hkeep L 1 (by omega)⟩, ?_, ?_⟩
  · intro key hkey
    rw [hcell]
    have hk : ∀ L ∈ e.lanes, (w.pd1.toNat ≠ 15 → key ≠ keyP L w.pd1.toNat) ∧ (w.pd2.toNat ≠ 15 → key ≠ keyP L w.pd2.toNat) ∧ key ≠ keyF L := by
      intro L hL
      refine ⟨fun h15 q => ?_, fun h15 q => ?_, fun q => ?_⟩ <;> refine hkey (List.mem_flatMap.2 ⟨L, hL, ?_⟩)
      · refine List.mem_append_left _ (List.mem_append_right _ (List.mem_filterMap.2 ⟨w.pd1.toNat, by rw [hu]; simp, by rw [if_neg h15, q]⟩))
      · refine List.mem_append_left _ (List.mem_append_right _ (List.mem_filterMap.2 ⟨w.pd2.toNat, by rw [hu]; simp, by rw [if_neg h15, q]⟩))
      · rw [q]; simp
    exact (cellAt_foldl_none turn e.lanes (fun g M hM => hoth key g M (hk M hM).1 (hk M hM).2.1 (hk M hM).2.2) e.g).trans (cellAt_lastUse_untouched hkey)
  · intro L hL
    have n15 : ∀ {p : BitVec 4}, p ≠ 15#4 → p.toNat ≠ 15 := fun {p} hp q => hp (BitVec.eq_of_toNat_eq q)
    have hpp : ∀ {x M y : Nat}, x < 16 → y < 16 → M ≠ L → keyP L x ≠ keyP M y := by
      intro x M y hx hy hM q; unfold keyP at q; omega
    refine ⟨fun h15 => ?_, fun h15 => ?_⟩
    · rw [hcell]
      refine cellAt_foldl_lane turn e.lanes hnd hL (P := fun _ c => c = _) (fun g M hM => ?_) (fun g => ?_) e.g
      · exact hoth _ g M (fun _ => hpp h1 h1 hM) (fun _ => hpp h1 h2 hM) (by unfold keyP keyF; omega)
      · show ((Group.orFlags _ _ _ _ _).cellAt _) = _
        rw [cellAt_orFlags_other (by unfold keyP keyF; omega), cellAt_writePred_other, cellAt_writePred_same (n15 h15)]
        · rfl
        · intro _ q
          have : w.pd1.toNat = w.pd2.toNat := by unfold keyP at q; omega
          exact hne h15 (BitVec.eq_of_toNat_eq this)
    · rw [hcell]
      refine cellAt_foldl_lane turn e.lanes hnd hL (P := fun _ c => c = _) (fun g M hM => ?_) (fun g => ?_) e.g
      · exact hoth _ g M (fun _ => hpp h2 h1 hM) (fun _ => hpp h2 h2 hM) (by unfold keyP keyF; omega)
      · show ((Group.orFlags _ _ _ _ _).cellAt _) = _
        rw [cellAt_orFlags_other (by unfold keyP keyF; omega), cellAt_writePred_same (n15 h15)]
        rfl
  · intro L hL
    rw [hcell, ← hF0]
    refine cellAt_foldl_lane turn e.lanes hnd hL (P := fun a c => c.val = a.val ||| _) (fun g M hM => ?_) (fun g => ?_) e.g
    · refine hoth _ g M (fun _ => ?_) (fun _ => ?_) ?_ <;> unfold keyF <;> first | (unfold keyP; omega) | omega
    · show ((Group.orFlags _ _ _ _ _).cellAt _).val = _
      rw [flags_orFlags_same, cellAt_writePred_other, cellAt_writePred_other]
      · rfl
      · intro _; unfold keyF keyP; omega
      · intro _; unfold keyF keyP; omega

end Sys2Proof.Machine
end

