-- ==== Sys2Proof/Laws/Integer.lean ====
section
/-! SUPPORT. Integer instructions: one law for each shape of Machine/Integer.lean. -/

namespace Sys2Proof.Machine

open Sys2Proof.Claims

/-- The sources of an I-format integer word lie below l0. -/
theorem ckInt_sources {nd na nb : Nat} {own x len : Bool} {w : WI} (h : ckInt nd na nb own x len w = true) (hb : nb ≤ 2) (ha : na ≤ 2) :
    dstOk nd w.dst = true ∧ ∀ y ∈ (usesI nd na nb w).src, ∀ L k key, k < y.2.1 → opdKey? y.1 L k = some key → y.1.isS = true ∨ (∃ m, y.1 = .l m) ∨ key % 1024 < 264 := by
  unfold ckInt at h
  simp only [Bool.and_eq_true] at h
  obtain ⟨⟨h1, hd⟩, hA⟩ := h.1 |> fun q => (⟨⟨q.1.1, q.1.2⟩, q.2⟩ : (_ ∧ _) ∧ _)
  refine ⟨hd, ?_⟩
  intro y hy L k key hk he
  unfold usesI at hy
  simp only [List.mem_append, List.mem_singleton] at hy
  rcases hy with hy | hy
  · subst hy; exact srcOk_below hA ha hk he
  · split at hy
    · cases hy
    · rename_i hm
      simp only [List.mem_singleton] at hy
      subst hy
      have h2 := h.2
      rw [if_neg hm] at h2
      have h3 := (Bool.and_eq_true _ _ ▸ h2).1
      exact srcOk_below h3 hb hk he

/-- The sources of a V-format word of checked widths lie below l0. -/
theorem srcV_below {nd na nb nc : Nat} {w : WV} (ha : srcOk na w.a w.la = true) (hb : srcOk nb w.b w.lb = true) (hc : srcOk nc w.c w.lc = true)
    (la : na ≤ 2) (lb : nb ≤ 2) (lc : nc ≤ 2) :
    ∀ y ∈ (usesV nd na nb nc w).src, ∀ L k key, k < y.2.1 → opdKey? y.1 L k = some key → y.1.isS = true ∨ (∃ m, y.1 = .l m) ∨ key % 1024 < 264 := by
  intro y hy L k key hk he
  unfold usesV at hy
  simp only [List.mem_cons, List.not_mem_nil, or_false] at hy
  rcases hy with hy | hy | hy <;> subst hy
  · exact srcOk_below ha la hk he
  · exact srcOk_below hb lb hk he
  · exact srcOk_below hc lc hk he

/-- A 32-bit operation on two sources completes with its value. -/
theorem int2_law {i : Instr} {w : WI} {zx own x len : Bool} {f f' : Word → Word → Word} (hx : ∀ s, exec i s = int2 i w zx f s)
    (hk : i.formatOk = ckInt 1 1 1 own x len w) (ho : i.opcode < 0xF8) (hf : ∀ a b, f a b = f' a b) :
    RegResult i w.g (usesI 1 1 1 w) 1 w.dst (fun _ => True)
      (fun e L => ⟨(f' (e.r32 w.a L).w (e.srcB zx w L).w).setWidth 64, (e.r32 w.a L).poison || (e.srcB zx w L).poison⟩) (fun _ _ => 0) := by
  refine regResult_law (lat := 2) (body := fun _ e => regResult e 2 1 w.dst (fun L => let a := e.r32 w.a L; let b := e.srcB zx w L; pval (f a.w b.w) (a.poison || b.poison)) fun _ => 0)
    (.inl rfl) (by simp [usesI]) hx (fun h => (ckInt_sources (hk ▸ h) (by omega) (by omega)).1) ho (fun h => (ckInt_sources (hk ▸ h) (by omega) (by omega)).2) ?_
  intro s gid slice g a h _ _
  dsimp only
  congr 1
  funext L
  rw [← hf]; rfl

/-- A 32-bit operation on one source completes with its value. -/
theorem int1_law {i : Instr} {w : WI} {own x len : Bool} {f f' : Word → Word} (hx : ∀ s, exec i s = int1 i w f s)
    (hk : i.formatOk = ckInt 1 1 0 own x len w) (ho : i.opcode < 0xF8) (hf : ∀ a, f a = f' a) :
    RegResult i w.g (usesI 1 1 1 w) 1 w.dst (fun _ => True) (fun e L => ⟨(f' (e.r32 w.a L).w).setWidth 64, (e.r32 w.a L).poison⟩) (fun _ _ => 0) := by
  have hsrc : i.formatOk = true → dstOk 1 w.dst = true ∧ ∀ y ∈ (usesI 1 1 1 w).src, ∀ L k key, k < y.2.1 → opdKey? y.1 L k = some key → y.1.isS = true ∨ (∃ m, y.1 = .l m) ∨ key % 1024 < 264 := by
    intro h
    rw [hk] at h
    have h1 := ckInt_sources h (by omega) (by omega)
    refine ⟨h1.1, fun y hy L k key hkk he => ?_⟩
    unfold usesI at hy
    simp only [List.mem_append, List.mem_singleton] at hy
    rcases hy with hy | hy
    · exact h1.2 y (by unfold usesI; simp [hy]) L k key hkk he
    · split at hy
      · cases hy
      · rename_i hm
        simp only [List.mem_singleton] at hy
        subst hy
        unfold ckInt at h
        simp only [Bool.and_eq_true] at h
        have h2 := h.2
        rw [if_neg hm] at h2
        have h3 := (Bool.and_eq_true _ _ ▸ h2).1
        simp only [srcOk, Bool.and_eq_true, beq_iff_eq] at h3
        rw [h3.1] at he; simp [opdKey?] at he
  refine regResult_law (lat := 2) (body := fun _ e => regResult e 2 1 w.dst (fun L => let a := e.r32 w.a L; pval (f a.w) a.poison) fun _ => 0)
    (.inl rfl) (by simp [usesI]) hx (fun h => (hsrc h).1) ho (fun h => (hsrc h).2) ?_
  intro s gid slice g a h _ _
  dsimp only
  congr 1
  funext L
  rw [← hf]; rfl

/-- A 32-bit operation on three sources completes with its value. -/
theorem int3_law {i : Instr} {w : WV} {m : BitVec 9} {f f' : Word → Word → Word → Word} (hx : ∀ s, exec i s = int3 i w f s)
    (hk : i.formatOk = ckIntV 1 1 1 1 m w) (ho : i.opcode < 0xF8) (hf : ∀ a b c, f a b c = f' a b c) :
    RegResult i w.g (usesV 1 1 1 1 w) 1 w.dst (fun _ => True)
      (fun e L => ⟨(f' (e.r32 w.a L).w (e.r32 w.b L).w (e.r32 w.c L).w).setWidth 64, (e.r32 w.a L).poison || (e.r32 w.b L).poison || (e.r32 w.c L).poison⟩) (fun _ _ => 0) := by
  have hck : i.formatOk = true → dstOk 1 w.dst = true ∧ srcOk 1 w.a w.la = true ∧ srcOk 1 w.b w.lb = true ∧ srcOk 1 w.c w.lc = true := by
    intro h; rw [hk] at h; unfold ckIntV at h; simp only [Bool.and_eq_true] at h
    exact ⟨h.1.1.1.1.2, h.1.1.1.2, h.1.1.2, h.1.2⟩
  refine regResult_law (lat := 2) (body := fun _ e => regResult e 2 1 w.dst (fun L => let a := e.r32 w.a L; let b := e.r32 w.b L; let c := e.r32 w.c L
      pval (f a.w b.w c.w) (a.poison || b.poison || c.poison)) fun _ => 0)
    (.inl rfl) (by simp [usesV]) hx (fun h => (hck h).1) ho
    (fun h => srcV_below (nd := 1) (hck h).2.1 (hck h).2.2.1 (hck h).2.2.2 (by omega) (by omega) (by omega)) ?_
  intro s gid slice g a h _ _
  dsimp only
  congr 1
  funext L
  rw [← hf]; rfl

end Sys2Proof.Machine
end

