-- ==== Sys2Proof/Laws/Memory.lean ====
section
/-! SUPPORT. Memory: reads after writes, what a write leaves alone, the canonical form kept (12 R250; 00 R1). -/

namespace Sys2Proof.Machine

/-! ## One byte -/

@[simp] theorem readByte_writeByte_same (a : Nat) (b : Byte) (s : State) : readByte (writeByte a b s) a = b := sgetD_sput_same _ a b s.mem
theorem readByte_writeByte_other {a j : Nat} (h : j ≠ a) (b : Byte) (s : State) : readByte (writeByte a b s) j = readByte s j := sgetD_sput_other _ h b s.mem
theorem wf_writeByte (a : Nat) (b : Byte) {s : State} (h : Memory.wf s.mem = true) : Memory.wf (writeByte a b s).mem = true := canon_sput _ a b h
theorem reset_mem_wf : Memory.wf State.reset.mem = true := rfl
theorem reset_marks_canon : canon false State.reset.memPoison = true := rfl

/-! ## Several bytes -/

/-- Bytes are the only thing that storing bytes changes. -/
theorem writeBytes_eq (n a v : Nat) (s : State) : writeBytes a v n s = { s with mem := (writeBytes a v n s).mem } := by
  induction n generalizing a v s with
  | zero => rfl
  | succ n ih => rw [writeBytes, ih]; rfl

theorem wf_writeBytes (n a v : Nat) {s : State} (h : Memory.wf s.mem = true) : Memory.wf (writeBytes a v n s).mem = true := by
  induction n generalizing a v s with
  | zero => exact h
  | succ n ih => exact ih (a + 1) (v / 256) (wf_writeByte a _ h)

theorem readByte_writeBytes_outside (n a v : Nat) (s : State) {j : Nat} (h : j < a ∨ a + n ≤ j) : readByte (writeBytes a v n s) j = readByte s j := by
  induction n generalizing a v s with
  | zero => rfl
  | succ n ih => rw [writeBytes, ih (a + 1) (v / 256) _ (by omega), readByte_writeByte_other (by omega)]

theorem readByte_writeBytes_inside (n a v : Nat) (s : State) {k : Nat} (h : k < n) : readByte (writeBytes a v n s) (a + k) = BitVec.ofNat 8 (v / 256 ^ k) := by
  induction n generalizing a v s k with
  | zero => omega
  | succ n ih =>
    rw [writeBytes]
    cases k with
    | zero => rw [readByte_writeBytes_outside n (a + 1) _ _ (by omega), show a + 0 = a from rfl, readByte_writeByte_same, Nat.pow_zero, Nat.div_one]
    | succ k =>
      have e : a + (k + 1) = a + 1 + k := by omega
      rw [e, ih (a + 1) (v / 256) _ (by omega), Nat.div_div_eq_div_mul, Nat.pow_succ, Nat.mul_comm]

/-- A number read from bytes that hold its digits is the number, cut to their width. -/
theorem readMem_of_bytes (n a v : Nat) (s : State) (h : ∀ k, k < n → readByte s (a + k) = BitVec.ofNat 8 (v / 256 ^ k)) : readMem s a n = v % 256 ^ n := by
  induction n generalizing a v with
  | zero => simp [readMem, Nat.mod_one]
  | succ n ih =>
    have h0 := h 0 (by omega)
    have ht := ih (a + 1) (v / 256) fun k hk => by
      have := h (k + 1) (by omega)
      rw [show a + 1 + k = a + (k + 1) by omega, this, Nat.div_div_eq_div_mul, Nat.pow_succ, Nat.mul_comm]
    rw [readMem, ht, show readByte s a = readByte s (a + 0) by rfl, h0, Nat.pow_zero, Nat.div_one, BitVec.toNat_ofNat, show 256 ^ (n + 1) = 256 * 256 ^ n by rw [Nat.pow_succ, Nat.mul_comm], Nat.mod_mul]

theorem readMem_writeBytes_same (n a v : Nat) (s : State) : readMem (writeBytes a v n s) a n = v % 256 ^ n :=
  readMem_of_bytes n a v _ fun _ hk => readByte_writeBytes_inside n a v s hk

/-! ## Stores with marks -/

/-- A store changes bytes and marks and nothing else. -/
theorem writeMem_eq (a n v : Nat) (p : Bool) (s : State) : writeMem a n v p s = { s with mem := (writeMem a n v p s).mem, memPoison := (writeMem a n v p s).memPoison } := by
  unfold writeMem; rw [writeBytes_eq]
@[simp] theorem writeMem_mem (a n v : Nat) (p : Bool) (s : State) : (writeMem a n v p s).mem = (writeBytes a v n s).mem := rfl
theorem readByte_writeMem (a n v : Nat) (p : Bool) (s : State) (j : Nat) : readByte (writeMem a n v p s) j = readByte (writeBytes a v n s) j := rfl
theorem readByte_writeMem_outside (a n v : Nat) (p : Bool) (s : State) {j : Nat} (h : j < a ∨ a + n ≤ j) : readByte (writeMem a n v p s) j = readByte s j :=
  readByte_writeBytes_outside n a v s h
theorem readByte_writeMem_inside (a n v : Nat) (p : Bool) (s : State) {k : Nat} (h : k < n) : readByte (writeMem a n v p s) (a + k) = BitVec.ofNat 8 (v / 256 ^ k) :=
  readByte_writeBytes_inside n a v s h
theorem readMem_writeMem_same (a n v : Nat) (p : Bool) (s : State) : readMem (writeMem a n v p s) a n = v % 256 ^ n :=
  readMem_of_bytes n a v _ fun _ hk => readByte_writeMem_inside a n v p s hk
theorem wf_writeMem (a n v : Nat) (p : Bool) {s : State} (h : Memory.wf s.mem = true) : Memory.wf (writeMem a n v p s).mem = true := wf_writeBytes n a v h
theorem marks_writeMem (a n v : Nat) (p : Bool) {s : State} (h : canon false s.memPoison = true) : canon false (writeMem a n v p s).memPoison = true := by
  unfold writeMem
  have : (writeBytes a v n s).memPoison = s.memPoison := by rw [writeBytes_eq]
  exact canon_foldl_sput false (fun w => w) (fun _ => p) (wordsOf a n) (by rw [this]; exact h)

theorem writeByteList_eq (a : Nat) (bs : List Byte) (s : State) :
    writeByteList a bs s = { s with mem := (writeByteList a bs s).mem, memPoison := (writeByteList a bs s).memPoison } := writeMem_eq _ _ _ _ _
theorem wf_writeByteList (a : Nat) (bs : List Byte) {s : State} (h : Memory.wf s.mem = true) : Memory.wf (writeByteList a bs s).mem = true := wf_writeMem _ _ _ _ h
theorem marks_writeByteList (a : Nat) (bs : List Byte) {s : State} (h : canon false s.memPoison = true) : canon false (writeByteList a bs s).memPoison = true := marks_writeMem _ _ _ _ h
theorem readByte_writeByteList_outside (a : Nat) (bs : List Byte) (s : State) {j : Nat} (h : j < a ∨ a + bs.length ≤ j) : readByte (writeByteList a bs s) j = readByte s j :=
  readByte_writeMem_outside a bs.length (bytesWord bs) false s h

/-- Digit k of a list of bytes as a number is its byte k. -/
theorem bytesWord_digit (bs : List Byte) {k : Nat} {b : Byte} (h : bs[k]? = some b) : BitVec.ofNat 8 (bytesWord bs / 256 ^ k) = b := by
  induction bs generalizing k with
  | nil => simp at h
  | cons c t ih =>
    cases k with
    | zero =>
      simp only [List.getElem?_cons_zero, Option.some.injEq] at h
      subst h
      apply BitVec.eq_of_toNat_eq
      have := c.isLt
      simp [bytesWord]
      omega
    | succ k =>
      simp only [List.getElem?_cons_succ] at h
      rw [Nat.pow_succ, Nat.mul_comm, ← Nat.div_div_eq_div_mul]
      have : bytesWord (c :: t) / 256 = bytesWord t := by simp only [bytesWord]; have := c.isLt; omega
      rw [this]; exact ih h

theorem readByte_writeByteList_inside (a : Nat) (bs : List Byte) (s : State) {k : Nat} {b : Byte} (h : bs[k]? = some b) : readByte (writeByteList a bs s) (a + k) = b := by
  have hk : k < bs.length := by
    rcases Nat.lt_or_ge k bs.length with g | g
    · exact g
    · rw [List.getElem?_eq_none g] at h; exact absurd h (by simp)
  rw [show writeByteList a bs s = writeMem a bs.length (bytesWord bs) false s from rfl, readByte_writeMem_inside _ _ _ _ _ hk]
  exact bytesWord_digit bs h

end Sys2Proof.Machine
end

