-- ==== Sys2Proof/Laws/PerInstr.lean ====
section
/-! SUPPORT. Facts about every instruction, one lemma per constructor. Family OpcodeField: the opcode field [58:51] of an encoded word is the instruction's opcode (08 R174, R185). -/

namespace Sys2Proof.Laws

/-! ## The opcode field of each format -/

theorem opcode_of_bits {w : DWord} {opc : Nat} (h : ∀ i, i < 8 → w.getLsbD (51 + i) = (BitVec.ofNat 8 opc).getLsbD i) : fld w 51 8 = BitVec.ofNat 8 opc := by
  apply BitVec.eq_of_getLsbD_eq
  intro i hi
  rw [← h i hi]
  simp [fld, hi]

theorem below_eight {i : Nat} (h : i < 8) : i = 0 ∨ i = 1 ∨ i = 2 ∨ i = 3 ∨ i = 4 ∨ i = 5 ∨ i = 6 ∨ i = 7 := by omega

theorem fld_encV (opc : Nat) (w : WV) : fld (encV opc w) 51 8 = BitVec.ofNat 8 opc := by
  apply opcode_of_bits
  intro i hi
  obtain h | h | h | h | h | h | h | h := below_eight hi <;> subst h <;> (simp only [encV, encHead, BitVec.getLsbD_append]; simp)

theorem fld_encI (opc : Nat) (w : WI) : fld (encI opc w) 51 8 = BitVec.ofNat 8 opc := by
  apply opcode_of_bits
  intro i hi
  obtain h | h | h | h | h | h | h | h := below_eight hi <;> subst h <;> (simp only [encI, encHead, BitVec.getLsbD_append]; simp)

theorem fld_encC (opc : Nat) (w : WC) : fld (encC opc w) 51 8 = BitVec.ofNat 8 opc := by
  apply opcode_of_bits
  intro i hi
  obtain h | h | h | h | h | h | h | h := below_eight hi <;> subst h <;> (simp only [encC, encHead, BitVec.getLsbD_append]; simp)

theorem fld_encM (opc : Nat) (w : WM) : fld (encM opc w) 51 8 = BitVec.ofNat 8 opc := by
  apply opcode_of_bits
  intro i hi
  obtain h | h | h | h | h | h | h | h := below_eight hi <;> subst h <;> (simp only [encM, encHead, BitVec.getLsbD_append]; simp)

theorem fld_encT (opc : Nat) (w : WT) : fld (encT opc w) 51 8 = BitVec.ofNat 8 opc := by
  apply opcode_of_bits
  intro i hi
  obtain h | h | h | h | h | h | h | h := below_eight hi <;> subst h <;> (simp only [encT, encHead, BitVec.getLsbD_append]; simp)

theorem fld_encX (opc : Nat) (w : WX) : fld (encX opc w) 51 8 = BitVec.ofNat 8 opc := by
  apply opcode_of_bits
  intro i hi
  obtain h | h | h | h | h | h | h | h := below_eight hi <;> subst h <;> (simp only [encX, encHead, BitVec.getLsbD_append]; simp)

theorem fld_encA (opc : Nat) (w : WA) : fld (encA opc w) 51 8 = BitVec.ofNat 8 opc := by
  apply opcode_of_bits
  intro i hi
  obtain h | h | h | h | h | h | h | h := below_eight hi <;> subst h <;> (simp only [encA, encHead, BitVec.getLsbD_append]; simp)

theorem fld_encB (opc : Nat) (w : WB) : fld (encB opc w) 51 8 = BitVec.ofNat 8 opc := by
  apply opcode_of_bits
  intro i hi
  obtain h | h | h | h | h | h | h | h := below_eight hi <;> subst h <;> (simp only [encB, encHead, BitVec.getLsbD_append]; simp)

theorem fld_encS (opc : Nat) (w : WS) : fld (encS opc w) 51 8 = BitVec.ofNat 8 opc := by
  apply opcode_of_bits
  intro i hi
  obtain h | h | h | h | h | h | h | h := below_eight hi <;> subst h <;> (simp only [encS, encHead, BitVec.getLsbD_append]; simp)

theorem fld_encH (w : WH) : fld (encH w) 51 8 = BitVec.ofNat 8 w.opc.toNat := by
  apply opcode_of_bits
  intro i hi
  obtain h | h | h | h | h | h | h | h := below_eight hi <;> subst h <;> (simp only [encH, encHead, BitVec.getLsbD_append]; simp)

namespace OpcodeField

/-- The opcode field of the word that encodes an instruction. -/
def Statement (i : Instr) : Prop := ∀ w, encode i = some w → fld w 51 8 = BitVec.ofNat 8 i.opcode

theorem nop (w : WI) : Statement (.nop w) := by intro x h; cases h; exact fld_encI 0x00 w
theorem mov (w : WI) : Statement (.mov w) := by intro x h; cases h; exact fld_encI 0x01 w
theorem movi (w : WI) : Statement (.movi w) := by intro x h; cases h; exact fld_encI 0x02 w
theorem sel (w : WV) : Statement (.sel w) := by intro x h; cases h; exact fld_encV 0x03 w
theorem iadd (w : WI) : Statement (.iadd w) := by intro x h; cases h; exact fld_encI 0x04 w
theorem isub (w : WI) : Statement (.isub w) := by intro x h; cases h; exact fld_encI 0x05 w
theorem iaddc (w : WV) : Statement (.iaddc w) := by intro x h; cases h; exact fld_encV 0x06 w
theorem add64 (w : WI) : Statement (.add64 w) := by intro x h; cases h; exact fld_encI 0x07 w
theorem sub64 (w : WI) : Statement (.sub64 w) := by intro x h; cases h; exact fld_encI 0x08 w
theorem lea (w : WI) : Statement (.lea w) := by intro x h; cases h; exact fld_encI 0x09 w
theorem imul (w : WI) : Statement (.imul w) := by intro x h; cases h; exact fld_encI 0x0A w
theorem imulhi (w : WI) : Statement (.imulhi w) := by intro x h; cases h; exact fld_encI 0x0B w
theorem umulhi (w : WI) : Statement (.umulhi w) := by intro x h; cases h; exact fld_encI 0x0C w
theorem imad (w : WV) : Statement (.imad w) := by intro x h; cases h; exact fld_encV 0x0D w
theorem imadw (w : WV) : Statement (.imadw w) := by intro x h; cases h; exact fld_encV 0x0E w
theorem idiv (w : WI) : Statement (.idiv w) := by intro x h; cases h; exact fld_encI 0x0F w
theorem udiv (w : WI) : Statement (.udiv w) := by intro x h; cases h; exact fld_encI 0x10 w
theorem irem (w : WI) : Statement (.irem w) := by intro x h; cases h; exact fld_encI 0x11 w
theorem urem (w : WI) : Statement (.urem w) := by intro x h; cases h; exact fld_encI 0x12 w
theorem imin (w : WI) : Statement (.imin w) := by intro x h; cases h; exact fld_encI 0x13 w
theorem imax (w : WI) : Statement (.imax w) := by intro x h; cases h; exact fld_encI 0x14 w
theorem umin (w : WI) : Statement (.umin w) := by intro x h; cases h; exact fld_encI 0x15 w
theorem umax (w : WI) : Statement (.umax w) := by intro x h; cases h; exact fld_encI 0x16 w
theorem iabs (w : WI) : Statement (.iabs w) := by intro x h; cases h; exact fld_encI 0x17 w
theorem ineg (w : WI) : Statement (.ineg w) := by intro x h; cases h; exact fld_encI 0x18 w
theorem iand (w : WI) : Statement (.iand w) := by intro x h; cases h; exact fld_encI 0x19 w
theorem ior (w : WI) : Statement (.ior w) := by intro x h; cases h; exact fld_encI 0x1A w
theorem ixor (w : WI) : Statement (.ixor w) := by intro x h; cases h; exact fld_encI 0x1B w
theorem andn (w : WI) : Statement (.andn w) := by intro x h; cases h; exact fld_encI 0x1C w
theorem inot (w : WI) : Statement (.inot w) := by intro x h; cases h; exact fld_encI 0x1D w
theorem shl (w : WI) : Statement (.shl w) := by intro x h; cases h; exact fld_encI 0x1E w
theorem shr (w : WI) : Statement (.shr w) := by intro x h; cases h; exact fld_encI 0x1F w
theorem sar (w : WI) : Statement (.sar w) := by intro x h; cases h; exact fld_encI 0x20 w
theorem rotl (w : WI) : Statement (.rotl w) := by intro x h; cases h; exact fld_encI 0x21 w
theorem funnel (w : WV) : Statement (.funnel w) := by intro x h; cases h; exact fld_encV 0x22 w
theorem bfx (w : WI) : Statement (.bfx w) := by intro x h; cases h; exact fld_encI 0x23 w
theorem bfi (w : WV) : Statement (.bfi w) := by intro x h; cases h; exact fld_encV 0x24 w
theorem popc (w : WI) : Statement (.popc w) := by intro x h; cases h; exact fld_encI 0x25 w
theorem clz (w : WI) : Statement (.clz w) := by intro x h; cases h; exact fld_encI 0x26 w
theorem ctz (w : WI) : Statement (.ctz w) := by intro x h; cases h; exact fld_encI 0x27 w
theorem brev (w : WI) : Statement (.brev w) := by intro x h; cases h; exact fld_encI 0x28 w
theorem prmt (w : WV) : Statement (.prmt w) := by intro x h; cases h; exact fld_encV 0x29 w
theorem icmp (w : WC) : Statement (.icmp w) := by intro x h; cases h; exact fld_encC 0x2A w
theorem ucmp (w : WC) : Statement (.ucmp w) := by intro x h; cases h; exact fld_encC 0x2B w
theorem plop (w : WC) : Statement (.plop w) := by intro x h; cases h; exact fld_encC 0x30 w
theorem pstore (w : WI) : Statement (.pstore w) := by intro x h; cases h; exact fld_encI 0x31 w
theorem pload (w : WI) : Statement (.pload w) := by intro x h; cases h; exact fld_encI 0x32 w
theorem pmov (w : WC) : Statement (.pmov w) := by intro x h; cases h; exact fld_encC 0x33 w
theorem shfl (w : WI) : Statement (.shfl w) := by intro x h; cases h; exact fld_encI 0x34 w
theorem vote (w : WI) : Statement (.vote w) := by intro x h; cases h; exact fld_encI 0x35 w
theorem redux (w : WI) : Statement (.redux w) := by intro x h; cases h; exact fld_encI 0x36 w
theorem firstl (w : WI) : Statement (.firstl w) := by intro x h; cases h; exact fld_encI 0x37 w
theorem mfs (w : WS) : Statement (.mfs w) := by intro x h; cases h; exact fld_encS 0x38 w
theorem mts (w : WS) : Statement (.mts w) := by intro x h; cases h; exact fld_encS 0x39 w
theorem fadd (w : WV) : Statement (.fadd w) := by intro x h; cases h; exact fld_encV 0x40 w
theorem fsub (w : WV) : Statement (.fsub w) := by intro x h; cases h; exact fld_encV 0x41 w
theorem fmul (w : WV) : Statement (.fmul w) := by intro x h; cases h; exact fld_encV 0x42 w
theorem ffma (w : WV) : Statement (.ffma w) := by intro x h; cases h; exact fld_encV 0x43 w
theorem fdiv (w : WV) : Statement (.fdiv w) := by intro x h; cases h; exact fld_encV 0x44 w
theorem fsqrt (w : WV) : Statement (.fsqrt w) := by intro x h; cases h; exact fld_encV 0x45 w
theorem fmin (w : WV) : Statement (.fmin w) := by intro x h; cases h; exact fld_encV 0x46 w
theorem fmax (w : WV) : Statement (.fmax w) := by intro x h; cases h; exact fld_encV 0x47 w
theorem fminnum (w : WV) : Statement (.fminnum w) := by intro x h; cases h; exact fld_encV 0x48 w
theorem fmaxnum (w : WV) : Statement (.fmaxnum w) := by intro x h; cases h; exact fld_encV 0x49 w
theorem fabs (w : WV) : Statement (.fabs w) := by intro x h; cases h; exact fld_encV 0x4A w
theorem fneg (w : WV) : Statement (.fneg w) := by intro x h; cases h; exact fld_encV 0x4B w
theorem fcopysign (w : WV) : Statement (.fcopysign w) := by intro x h; cases h; exact fld_encV 0x4C w
theorem fcmp (w : WC) : Statement (.fcmp w) := by intro x h; cases h; exact fld_encC 0x4D w
theorem fclass (w : WC) : Statement (.fclass w) := by intro x h; cases h; exact fld_encC 0x4E w
theorem frint (w : WV) : Statement (.frint w) := by intro x h; cases h; exact fld_encV 0x4F w
theorem fscaleb (w : WV) : Statement (.fscaleb w) := by intro x h; cases h; exact fld_encV 0x50 w
theorem flogb (w : WV) : Statement (.flogb w) := by intro x h; cases h; exact fld_encV 0x51 w
theorem cvt (w : WV) : Statement (.cvt w) := by intro x h; cases h; exact fld_encV 0x52 w
theorem cvti (w : WV) : Statement (.cvti w) := by intro x h; cases h; exact fld_encV 0x53 w
theorem icvtf (w : WV) : Statement (.icvtf w) := by intro x h; cases h; exact fld_encV 0x54 w
theorem frcp (w : WV) : Statement (.frcp w) := by intro x h; cases h; exact fld_encV 0x55 w
theorem frsq (w : WV) : Statement (.frsq w) := by intro x h; cases h; exact fld_encV 0x56 w
theorem fexp2 (w : WV) : Statement (.fexp2 w) := by intro x h; cases h; exact fld_encV 0x57 w
theorem flog2 (w : WV) : Statement (.flog2 w) := by intro x h; cases h; exact fld_encV 0x58 w
theorem fsin (w : WV) : Statement (.fsin w) := by intro x h; cases h; exact fld_encV 0x59 w
theorem fcos (w : WV) : Statement (.fcos w) := by intro x h; cases h; exact fld_encV 0x5A w
theorem ftanh (w : WV) : Statement (.ftanh w) := by intro x h; cases h; exact fld_encV 0x5B w
theorem dot (w : WV) : Statement (.dot w) := by intro x h; cases h; exact fld_encV 0x5C w
theorem expr (w : WI) : Statement (.expr w) := by intro x h; cases h; exact fld_encI 0x5D w
theorem rng (w : WV) : Statement (.rng w) := by intro x h; cases h; exact fld_encV 0x5E w
theorem qmx (w : WV) : Statement (.qmx w) := by intro x h; cases h; exact fld_encV 0x5F w
theorem ld (w : WM) : Statement (.ld w) := by intro x h; cases h; exact fld_encM 0x80 w
theorem st (w : WM) : Statement (.st w) := by intro x h; cases h; exact fld_encM 0x81 w
theorem lds (w : WM) : Statement (.lds w) := by intro x h; cases h; exact fld_encM 0x82 w
theorem sts (w : WM) : Statement (.sts w) := by intro x h; cases h; exact fld_encM 0x83 w
theorem ldu (w : WM) : Statement (.ldu w) := by intro x h; cases h; exact fld_encM 0x84 w
theorem atom (w : WT) : Statement (.atom w) := by intro x h; cases h; exact fld_encT 0x85 w
theorem atoms (w : WT) : Statement (.atoms w) := by intro x h; cases h; exact fld_encT 0x86 w
theorem red (w : WM) : Statement (.red w) := by intro x h; cases h; exact fld_encM 0x87 w
theorem stmc (w : WM) : Statement (.stmc w) := by intro x h; cases h; exact fld_encM 0x88 w
theorem fence (w : WM) : Statement (.fence w) := by intro x h; cases h; exact fld_encM 0x89 w
theorem cctl (w : WM) : Statement (.cctl w) := by intro x h; cases h; exact fld_encM 0x8A w
theorem msgput (w : WA) : Statement (.msgput w) := by intro x h; cases h; exact fld_encA 0x8B w
theorem msgtake (w : WA) : Statement (.msgtake w) := by intro x h; cases h; exact fld_encA 0x8C w
theorem mloop (w : WX) : Statement (.mloop w) := by intro x h; cases h; exact fld_encX 0xA0 w
theorem mconv (w : WX) : Statement (.mconv w) := by intro x h; cases h; exact fld_encX 0xA1 w
theorem mzero (w : WX) : Statement (.mzero w) := by intro x h; cases h; exact fld_encX 0xA2 w
theorem mlda (w : WX) : Statement (.mlda w) := by intro x h; cases h; exact fld_encX 0xA3 w
theorem msta (w : WX) : Statement (.msta w) := by intro x h; cases h; exact fld_encX 0xA4 w
theorem accrd (w : WX) : Statement (.accrd w) := by intro x h; cases h; exact fld_encX 0xA5 w
theorem accwr (w : WX) : Statement (.accwr w) := by intro x h; cases h; exact fld_encX 0xA6 w
theorem drain (w : WX) : Statement (.drain w) := by intro x h; cases h; exact fld_encX 0xA7 w
theorem epload (w : WA) : Statement (.epload w) := by intro x h; cases h; exact fld_encA 0xA8 w
theorem faclu (w : WX) : Statement (.faclu w) := by intro x h; cases h; exact fld_encX 0xA9 w
theorem facch (w : WX) : Statement (.facch w) := by intro x h; cases h; exact fld_encX 0xAA w
theorem facqr (w : WX) : Statement (.facqr w) := by intro x h; cases h; exact fld_encX 0xAB w
theorem trsm (w : WX) : Statement (.trsm w) := by intro x h; cases h; exact fld_encX 0xAC w
theorem pvapply (w : WX) : Statement (.pvapply w) := by intro x h; cases h; exact fld_encX 0xAD w
theorem pvmov (w : WX) : Statement (.pvmov w) := by intro x h; cases h; exact fld_encX 0xAE w
theorem cpy (w : WA) : Statement (.cpy w) := by intro x h; cases h; exact fld_encA 0xB0 w
theorem gather (w : WA) : Statement (.gather w) := by intro x h; cases h; exact fld_encA 0xB1 w
theorem scatter (w : WA) : Statement (.scatter w) := by intro x h; cases h; exact fld_encA 0xB2 w
theorem cinit (w : WA) : Statement (.cinit w) := by intro x h; cases h; exact fld_encA 0xB3 w
theorem cstart (w : WA) : Statement (.cstart w) := by intro x h; cases h; exact fld_encA 0xB4 w
theorem cquery (w : WA) : Statement (.cquery w) := by intro x h; cases h; exact fld_encA 0xB5 w
theorem cfree (w : WA) : Statement (.cfree w) := by intro x h; cases h; exact fld_encA 0xB6 w
theorem tdef (w : WA) : Statement (.tdef w) := by intro x h; cases h; exact fld_encA 0xB7 w
theorem tsig (w : WA) : Statement (.tsig w) := by intro x h; cases h; exact fld_encA 0xB8 w
theorem bar (w : WA) : Statement (.bar w) := by intro x h; cases h; exact fld_encA 0xB9 w
theorem barc (w : WA) : Statement (.barc w) := by intro x h; cases h; exact fld_encA 0xBA w
theorem launch (w : WA) : Statement (.launch w) := by intro x h; cases h; exact fld_encA 0xBB w
theorem selsched (w : WA) : Statement (.selsched w) := by intro x h; cases h; exact fld_encA 0xBC w
theorem bra (w : WB) : Statement (.bra w) := by intro x h; cases h; exact fld_encB 0xC0 w
theorem brx (w : WB) : Statement (.brx w) := by intro x h; cases h; exact fld_encB 0xC1 w
theorem call (w : WB) : Statement (.call w) := by intro x h; cases h; exact fld_encB 0xC2 w
theorem callx (w : WB) : Statement (.callx w) := by intro x h; cases h; exact fld_encB 0xC3 w
theorem ret (w : WB) : Statement (.ret w) := by intro x h; cases h; exact fld_encB 0xC4 w
theorem exitLanes (w : WB) : Statement (.exitLanes w) := by intro x h; cases h; exact fld_encB 0xC5 w
theorem regang (w : WB) : Statement (.regang w) := by intro x h; cases h; exact fld_encB 0xC6 w
theorem waitCtr (w : WI) : Statement (.waitCtr w) := by intro x h; cases h; exact fld_encI 0xC7 w
theorem yield (w : WI) : Statement (.yield w) := by intro x h; cases h; exact fld_encI 0xC8 w
theorem sleep (w : WI) : Statement (.sleep w) := by intro x h; cases h; exact fld_encI 0xC9 w
theorem xlate (w : WI) : Statement (.xlate w) := by intro x h; cases h; exact fld_encI 0xCA w
theorem trapCode (w : WI) : Statement (.trapCode w) := by intro x h; cases h; exact fld_encI 0xCB w
theorem bkpt (w : WI) : Statement (.bkpt w) := by intro x h; cases h; exact fld_encI 0xCC w
theorem ifence (w : WM) : Statement (.ifence w) := by intro x h; cases h; exact fld_encM 0xCD w
theorem eret (w : WB) : Statement (.eret w) := by intro x h; cases h; exact fld_encB 0xD0 w
theorem mfsp (w : WS) : Statement (.mfsp w) := by intro x h; cases h; exact fld_encS 0xD1 w
theorem mtsp (w : WS) : Statement (.mtsp w) := by intro x h; cases h; exact fld_encS 0xD2 w
theorem haltctx (w : WI) : Statement (.haltctx w) := by intro x h; cases h; exact fld_encI 0xD3 w
theorem pref (w : WM) : Statement (.pref w) := by intro x h; cases h; exact fld_encM 0xF8 w
theorem evict (w : WM) : Statement (.evict w) := by intro x h; cases h; exact fld_encM 0xF9 w
theorem prio (w : WI) : Statement (.prio w) := by intro x h; cases h; exact fld_encI 0xFA w
theorem unassignedHint (w : WH) : Statement (.unassignedHint w) := by intro x h; cases h; exact fld_encH w
theorem clauseStart (gid slice : Nat) : Statement (.clauseStart gid slice) := by intro x h; cases h
theorem variableResultComplete (gid : Nat) (w1 : Bool) : Statement (.variableResultComplete gid w1) := by intro x h; cases h
theorem walkStart (lookup : Nat) : Statement (.walkStart lookup) := by intro x h; cases h
theorem walkComplete (lookup : Nat) : Statement (.walkComplete lookup) := by intro x h; cases h
theorem invalidateContext (ctx : Nat) (seq : BitVec 16) : Statement (.invalidateContext ctx seq) := by intro x h; cases h
theorem invalidatePages (ctx : Nat) (seq : BitVec 16) (pages : BitVec 32) : Statement (.invalidatePages ctx seq pages) := by intro x h; cases h
theorem invalidateRanges (ctx : Nat) (seq : BitVec 16) : Statement (.invalidateRanges ctx seq) := by intro x h; cases h
theorem invalidateNodes (ctx : Nat) (seq : BitVec 16) : Statement (.invalidateNodes ctx seq) := by intro x h; cases h
theorem invalidateReserved (ctx : Nat) (seq : BitVec 16) (kind : BitVec 4) : Statement (.invalidateReserved ctx seq kind) := by intro x h; cases h
theorem invalidationComplete (ctx : Nat) : Statement (.invalidationComplete ctx) := by intro x h; cases h
theorem copyEngineRow (op : Nat) : Statement (.copyEngineRow op) := by intro x h; cases h
theorem copyEngineComplete (op : Nat) : Statement (.copyEngineComplete op) := by intro x h; cases h
theorem sequencerOpStart (quad : Nat) : Statement (.sequencerOpStart quad) := by intro x h; cases h
theorem kStep (quad : Nat) : Statement (.kStep quad) := by intro x h; cases h
theorem drainRow (quad : Nat) : Statement (.drainRow quad) := by intro x h; cases h
theorem matrixOpComplete (gid : Nat) : Statement (.matrixOpComplete gid) := by intro x h; cases h
theorem factorColumn (quad : Nat) : Statement (.factorColumn quad) := by intro x h; cases h
theorem factorGrowth (quad : Nat) : Statement (.factorGrowth quad) := by intro x h; cases h
theorem msgputAppend (msg : Nat) : Statement (.msgputAppend msg) := by intro x h; cases h
theorem creditRequest (msg : Nat) : Statement (.creditRequest msg) := by intro x h; cases h
theorem creditGrant (msg : Nat) : Statement (.creditGrant msg) := by intro x h; cases h
theorem creditReturn (part core : Nat) : Statement (.creditReturn part core) := by intro x h; cases h
theorem taskSpawn (core entry quad : Nat) : Statement (.taskSpawn core entry quad) := by intro x h; cases h
theorem sleepExpiry (gid slice : Nat) : Statement (.sleepExpiry gid slice) := by intro x h; cases h
theorem groupEnd (gid : Nat) : Statement (.groupEnd gid) := by intro x h; cases h
theorem launchRecordAccept (ctx src : Nat) : Statement (.launchRecordAccept ctx src) := by intro x h; cases h
theorem workgroupStart (lid vcore : Nat) : Statement (.workgroupStart lid vcore) := by intro x h; cases h
theorem launchComplete (lid : Nat) : Statement (.launchComplete lid) := by intro x h; cases h
theorem commNegotiate (ctx : Nat) (m : CommMsg) : Statement (.commNegotiate ctx m) := by intro x h; cases h
theorem commAbortNotice (ctx : Nat) (tag : BitVec 32) (mismatch : Bool) : Statement (.commAbortNotice ctx tag mismatch) := by intro x h; cases h
theorem commTimeout (ctx h : Nat) : Statement (.commTimeout ctx h) := by intro x h; cases h
theorem slotRequest (sw : Nat) (r : SlotReq) : Statement (.slotRequest sw r) := by intro x h; cases h
theorem slotDecision (sw : Nat) : Statement (.slotDecision sw) := by intro x h; cases h
theorem slotReclaim (sw owner : Nat) : Statement (.slotReclaim sw owner) := by intro x h; cases h
theorem chunkReceive (ctx : Nat) (c : Chunk) : Statement (.chunkReceive ctx c) := by intro x h; cases h
theorem chunkResendRequest (ctx h inst chunk : Nat) : Statement (.chunkResendRequest ctx h inst chunk) := by intro x h; cases h
theorem chunkAck (ctx h inst chunk : Nat) : Statement (.chunkAck ctx h inst chunk) := by intro x h; cases h
theorem instanceComplete (ctx h inst : Nat) : Statement (.instanceComplete ctx h inst) := by intro x h; cases h
theorem flitReceive (port : Nat) (crcOk : Bool) : Statement (.flitReceive port crcOk) := by intro x h; cases h
theorem linkTrained (port version node : Nat) (masterTime : BitVec 64) : Statement (.linkTrained port version node masterTime) := by intro x h; cases h
theorem timeSyncSend (port : Nat) : Statement (.timeSyncSend port) := by intro x h; cases h
theorem timeSyncReceive (port : Nat) (masterTime : BitVec 64) : Statement (.timeSyncReceive port masterTime) := by intro x h; cases h
theorem syncWaitExpiry : Statement (.syncWaitExpiry) := by intro x h; cases h
theorem masterLeaves (node : Nat) : Statement (.masterLeaves node) := by intro x h; cases h
theorem fabricAccess (r : FabReq) : Statement (.fabricAccess r) := by intro x h; cases h
theorem hostMemRead (addr size : Nat) : Statement (.hostMemRead addr size) := by intro x h; cases h
theorem hostMemWrite (addr : Nat) (data : List (BitVec 8)) : Statement (.hostMemWrite addr data) := by intro x h; cases h
theorem haltCtxCmd (ctx : Nat) : Statement (.haltCtxCmd ctx) := by intro x h; cases h
theorem resumeCtx (ctx : Nat) : Statement (.resumeCtx ctx) := by intro x h; cases h
theorem switchOut (ctx : Nat) : Statement (.switchOut ctx) := by intro x h; cases h
theorem switchIn (ctx : Nat) : Statement (.switchIn ctx) := by intro x h; cases h
theorem killCtx (ctx : Nat) : Statement (.killCtx ctx) := by intro x h; cases h
theorem quiesceCtx (ctx : Nat) : Statement (.quiesceCtx ctx) := by intro x h; cases h
theorem createCtx (ctx : Nat) : Statement (.createCtx ctx) := by intro x h; cases h
theorem ctxcmdReserved (ctx : Nat) (cmd : BitVec 4) : Statement (.ctxcmdReserved ctx cmd) := by intro x h; cases h
theorem sliceatReached (ctx : Nat) : Statement (.sliceatReached ctx) := by intro x h; cases h
theorem sliceendReached (ctx : Nat) : Statement (.sliceendReached ctx) := by intro x h; cases h
theorem sliceatWrite (ctx : Nat) (v : BitVec 64) : Statement (.sliceatWrite ctx v) := by intro x h; cases h
theorem tsliceExpiry (part : Nat) : Statement (.tsliceExpiry part) := by intro x h; cases h
theorem contextHalted (ctx : Nat) : Statement (.contextHalted ctx) := by intro x h; cases h
theorem saveComplete (ctx : Nat) : Statement (.saveComplete ctx) := by intro x h; cases h
theorem contextKilled (ctx : Nat) : Statement (.contextKilled ctx) := by intro x h; cases h
theorem lqtailWrite (ctx q : Nat) (v : BitVec 64) : Statement (.lqtailWrite ctx q v) := by intro x h; cases h
theorem lqbaseWrite (ctx q : Nat) (v : BitVec 64) : Statement (.lqbaseWrite ctx q v) := by intro x h; cases h
theorem eqheadWrite (part : Nat) (v : BitVec 64) : Statement (.eqheadWrite part v) := by intro x h; cases h
theorem grantWrite (part off : Nat) (v : BitVec 64) : Statement (.grantWrite part off v) := by intro x h; cases h
theorem sharesWrite (part : Nat) (v : BitVec 64) : Statement (.sharesWrite part v) := by intro x h; cases h
theorem adoptCarry (ctx : Nat) : Statement (.adoptCarry ctx) := by intro x h; cases h
theorem holdCtx (ctx : Nat) (on : Bool) : Statement (.holdCtx ctx on) := by intro x h; cases h
theorem carryWritten (ctx : Nat) : Statement (.carryWritten ctx) := by intro x h; cases h
theorem plimitWrite (v : BitVec 64) : Statement (.plimitWrite v) := by intro x h; cases h
theorem registerWrite (fn off size : Nat) (v : BitVec 64) : Statement (.registerWrite fn off size v) := by intro x h; cases h
theorem clockStepDecision (powerMw maxC : Nat) : Statement (.clockStepDecision powerMw maxC) := by intro x h; cases h
theorem thermalTrip (maxC : Nat) : Statement (.thermalTrip maxC) := by intro x h; cases h
theorem thermalMigration (lid vcore core : Nat) : Statement (.thermalMigration lid vcore core) := by intro x h; cases h
theorem uncorrectableError (core : Nat) (site : ErrSite) : Statement (.uncorrectableError core site) := by intro x h; cases h
theorem resetPart (img : BootImage) : Statement (.resetPart img) := by intro x h; cases h
theorem attestationReport (nonce : BitVec 256) : Statement (.attestationReport nonce) := by intro x h; cases h
theorem remoteAccessResponse (id : Nat) (r : RemoteResp) : Statement (.remoteAccessResponse id r) := by intro x h; cases h
theorem hostFence (release : Bool) : Statement (.hostFence release) := by intro x h; cases h
theorem hostCoherentAgentAccess (addr size : Nat) (data : Option (List (BitVec 8))) : Statement (.hostCoherentAgentAccess addr size data) := by intro x h; cases h

end OpcodeField

end Sys2Proof.Laws
end

