-- ==== Sys2Proof/Laws/Records.lean ====
section
/-! SUPPORT. What raising a halt, writing a record and pushing an event come to (25 R418, R423 to R425; 27 R445). -/

namespace Sys2Proof.Machine

/-! ## The die caches: what an access does to residency moves nothing else -/

theorem cacheHit_only (pa : Nat) (write : Bool) (s : State) : ∃ c, cacheHit pa write s = { s with cache := c } := by
  unfold cacheHit; split <;> exact ⟨_, rfl⟩
theorem cacheAlloc_only (ways : BitVec 24) (pa : Nat) (write first : Bool) (s : State) : ∃ c, cacheAlloc ways pa write first s = { s with cache := c } := by
  unfold cacheAlloc
  dsimp only
  split
  · exact cacheHit_only pa write s
  · split
    · exact ⟨_, rfl⟩
    · split <;> exact ⟨_, rfl⟩
theorem cacheAccess_only (ways : BitVec 24) (code pa : Nat) (write : Bool) (s : State) : ∃ c, cacheAccess ways code pa write s = { s with cache := c } := by
  unfold cacheAccess
  split
  · split
    · exact ⟨_, rfl⟩
    · exact cacheHit_only pa false s
  · exact cacheAlloc_only _ _ _ _ _
theorem cacheDrop_only (pa : Nat) (s : State) : ∃ c, cacheDrop pa s = { s with cache := c } := ⟨_, rfl⟩
theorem cachePass_only (pa n : Nat) (write : Bool) (s : State) : ∃ c, cachePass pa n write s = { s with cache := c } := by
  unfold cachePass
  split
  · exact ⟨_, rfl⟩
  · rename_i he; clear he
    generalize List.range _ = l
    induction l generalizing s with
    | nil => exact ⟨_, rfl⟩
    | cons k l ih =>
      obtain ⟨c, hc⟩ := cacheHit_only ((pa / 64 + k) * 64) write s
      obtain ⟨d, hd⟩ := ih { s with cache := c }
      exact ⟨d, by rw [List.foldl_cons, hc, hd]⟩
theorem countBytes_only (part pa : Nat) (s : State) : ∃ x, countBytes part pa s = { s with parts := x } := by
  unfold countBytes; dsimp only; split <;> exact ⟨_, rfl⟩
/-- An agent that works for a partition moves residency and byte counts. -/
theorem agentPass_only (part pa n : Nat) (write : Bool) (s : State) : ∃ c x, agentPass part pa n write s = { s with cache := c, parts := x } := by
  obtain ⟨x, hx⟩ := countBytes_only part pa s
  obtain ⟨c, hc⟩ := cachePass_only pa n write { s with parts := x }
  exact ⟨c, x, by unfold agentPass; rw [hx, hc]⟩
@[simp] theorem agentPass_mem (part pa n : Nat) (write : Bool) (s : State) : (agentPass part pa n write s).mem = s.mem := by
  obtain ⟨c, x, h⟩ := agentPass_only part pa n write s; rw [h]
@[simp] theorem agentPass_marks (part pa n : Nat) (write : Bool) (s : State) : (agentPass part pa n write s).memPoison = s.memPoison := by
  obtain ⟨c, x, h⟩ := agentPass_only part pa n write s; rw [h]
/-- An access through a mapping entry moves residency and its partition's byte counts. -/
theorem cacheTouch_only (part code pa : Nat) (write : Bool) (s : State) : ∃ c x, cacheTouch part code pa write s = { s with cache := c, parts := x } := by
  obtain ⟨x, hx⟩ := countBytes_only part pa s
  have use : ∀ {f : State → State}, (∃ c, f { s with parts := x } = { { s with parts := x } with cache := c }) → ∃ c y, f { s with parts := x } = { s with cache := c, parts := y } :=
    fun ⟨c, h⟩ => ⟨c, x, h⟩
  unfold cacheTouch
  rw [hx]
  dsimp only
  split
  · exact use (cacheAccess_only _ _ _ _ _)
  · exact use (cacheAccess_only _ _ _ _ _)
  · split
    · exact use (cacheAccess_only _ _ _ _ _)
    · split
      · exact use (cacheDrop_only _ _)
      · exact use (cacheHit_only _ _ _)
  · exact ⟨_, _, rfl⟩
/-- A fetch moves residency, byte counts and what the core holds of the instructions. -/
theorem fetchPass_only (s : State) (g : Group) (va : DWord) : ∃ c x, fetchPass s g va = { s with cache := c, parts := x } := by
  unfold fetchPass
  split
  · rename_i w _
    split
    · obtain ⟨c, x, h⟩ := cacheTouch_only g.part (atCache w.attr) (w.pas.headD 0) false s
      exact ⟨c, x, h⟩
    · exact ⟨_, _, rfl⟩
  · exact ⟨_, _, rfl⟩

/-! ## The halt line -/

/-- A halt raised changes contexts only. -/
theorem raiseHalt_only (c : Nat) (r : StopRec) (s : State) : ∃ x, raiseHalt c r s = { s with ctxs := x } := by
  unfold raiseHalt
  dsimp only
  split <;> exact ⟨_, rfl⟩
/-- A running context begins to halt, with the record. -/
theorem raiseHalt_running {c : Nat} {s : State} (h : (s.ctx c).st = .running) (r : StopRec) :
    raiseHalt c r s = s.setCtx c { s.ctx c with st := .halting, recs := (s.ctx c).recs ++ [r] } := by
  unfold raiseHalt; simp only [h]

/-- A gang that raises a halt cause changes contexts only. -/
theorem haltAt_only (gid slice cause detail : Nat) (addr : DWord) (lanes : Nat) (s : State) : ∃ x, haltAt gid slice cause detail addr lanes s = { s with ctxs := x } := by
  unfold haltAt; split
  · exact ⟨_, rfl⟩
  · exact raiseHalt_only _ _ _

/-! ## Records and events -/

/-- A record written changes memory, marks, contexts, the die cache and byte counts. -/
theorem writeRec_only (c : Nat) (r : StopRec) (s : State) : ∃ m p x k y, writeRec c r s = { s with mem := m, memPoison := p, ctxs := x, cache := k, parts := y } := by
  unfold writeRec
  dsimp only
  split
  · rw [writeByteList_eq]
    generalize ({ s.ctx c with stopseq := (s.ctx c).stopseq + 1 } : Ctx) = x
    obtain ⟨k, y, hk⟩ := agentPass_only (partOf c) ((BitVec.extractLsb' 12 40 (s.ctx c).stopbase).toNat * 4096 + 128 * ((s.ctx c).stopseq.toNat % 2 ^ min (BitVec.extractLsb' 1 4 (s.ctx c).stopbase).toNat 12)) 128 true (s.setCtx c x)
    rw [hk]; exact ⟨_, _, _, k, y, rfl⟩
  · exact ⟨_, _, _, _, _, rfl⟩
theorem wf_writeRec (c : Nat) (r : StopRec) {s : State} (h : Memory.wf s.mem = true) : Memory.wf (writeRec c r s).mem = true := by
  unfold writeRec
  dsimp only
  split
  · exact wf_writeByteList _ _ (by rw [agentPass_mem]; exact h)
  · exact h
theorem marks_writeRec (c : Nat) (r : StopRec) {s : State} (h : canon false s.memPoison = true) : canon false (writeRec c r s).memPoison = true := by
  unfold writeRec
  dsimp only
  split
  · exact marks_writeByteList _ _ (by rw [agentPass_marks]; exact h)
  · exact h

/-- The tail of an event queue advanced: its partition and the interrupts sent. -/
theorem advanceEvents_only (part : Nat) (s : State) : ∃ x o, advanceEvents part s = { s with parts := x, out := o } := ⟨_, _, rfl⟩
theorem advanceEvents_mem (part : Nat) (s : State) : (advanceEvents part s).mem = s.mem := rfl
theorem advanceEvents_marks (part : Nat) (s : State) : (advanceEvents part s).memPoison = s.memPoison := rfl

/-- An event pushed waits in its partition, and changes nothing else. -/
theorem pushEvent_only (part src seq kind cause ctx data : Nat) (s : State) : ∃ x, pushEvent part src seq kind cause ctx data s = { s with parts := x } := ⟨_, rfl⟩
theorem wf_pushEvent (part src seq kind cause ctx data : Nat) {s : State} (h : Memory.wf s.mem = true) : Memory.wf (pushEvent part src seq kind cause ctx data s).mem = true := h
theorem marks_pushEvent (part src seq kind cause ctx data : Nat) {s : State} (h : canon false s.memPoison = true) :
    canon false (pushEvent part src seq kind cause ctx data s).memPoison = true := h

/-- An event written changes memory, marks, its partition, the interrupts sent and the die cache. -/
theorem writeEvent_only (part : Nat) (e : Event) (s : State) : ∃ m p x o k, writeEvent part e s = { s with mem := m, memPoison := p, parts := x, out := o, cache := k } := by
  unfold writeEvent
  generalize e.bytes = bs
  dsimp only
  split
  · exact ⟨_, _, _, _, _, rfl⟩
  · rw [writeByteList_eq]
    obtain ⟨k, y, hk⟩ := agentPass_only part (((s.part part).eqbase.extractLsb' 12 40).toNat * 4096 + 32 * ((s.part part).eqtail.toNat % (s.part part).eqSize)) 32 true s
    rw [hk]; exact ⟨_, _, _, _, k, rfl⟩
theorem wf_writeEvent (part : Nat) (e : Event) {s : State} (h : Memory.wf s.mem = true) : Memory.wf (writeEvent part e s).mem = true := by
  unfold writeEvent
  generalize e.bytes = bs
  dsimp only
  split
  · exact h
  · rw [advanceEvents_mem]; exact wf_writeByteList _ _ (by rw [agentPass_mem]; exact h)
theorem marks_writeEvent (part : Nat) (e : Event) {s : State} (h : canon false s.memPoison = true) : canon false (writeEvent part e s).memPoison = true := by
  unfold writeEvent
  generalize e.bytes = bs
  dsimp only
  split
  · exact h
  · rw [advanceEvents_marks]; exact marks_writeByteList _ _ (by rw [agentPass_marks]; exact h)

/-- The events of one partition written, and of all: by induction over what waits. -/
theorem writeEvents_only (part : Nat) : ∀ (es : List Event) (s : State), ∃ m p x o k, es.foldl (fun s e => writeEvent part e s) s = { s with mem := m, memPoison := p, parts := x, out := o, cache := k }
  | [], s => ⟨_, _, _, _, _, rfl⟩
  | e :: r, s => by
    obtain ⟨m, p, x, o, k, h⟩ := writeEvent_only part e s
    obtain ⟨m', p', x', o', k', h'⟩ := writeEvents_only part r (writeEvent part e s)
    refine ⟨m', p', x', o', k', ?_⟩
    rw [List.foldl_cons, h', h]
theorem flushParts_only : ∀ (l : List Nat) (s : State), ∃ m p x o k, l.foldl (fun s p => flushPart p s) s = { s with mem := m, memPoison := p, parts := x, out := o, cache := k }
  | [], s => ⟨_, _, _, _, _, rfl⟩
  | q :: r, s => by
    obtain ⟨m, p, x, o, k, h⟩ := writeEvents_only q (s.part q).evq (s.updPart q fun p => { p with evq := [] })
    obtain ⟨m', p', x', o', k', h'⟩ := flushParts_only r (flushPart q s)
    refine ⟨m', p', x', o', k', ?_⟩
    rw [List.foldl_cons, h']; unfold flushPart; rw [h]; rfl
@[simp] theorem State.flushEvents_zero (s : State) : s.flushEvents 0 = s := rfl
/-- What the passing of time writes: memory, marks, partitions, the interrupts sent and the die cache. -/
theorem flushEvents_only (ns : Nat) (s : State) : ∃ m p x o k, s.flushEvents ns = { s with mem := m, memPoison := p, parts := x, out := o, cache := k } := by
  unfold State.flushEvents; split
  · exact ⟨_, _, _, _, _, rfl⟩
  · exact flushParts_only _ s
theorem wf_writeEvents (part : Nat) : ∀ (es : List Event) {s : State}, Memory.wf s.mem = true → Memory.wf (es.foldl (fun s e => writeEvent part e s) s).mem = true
  | [], _, h => h
  | e :: r, _, h => wf_writeEvents part r (wf_writeEvent part e h)
theorem wf_flushParts : ∀ (l : List Nat) {s : State}, Memory.wf s.mem = true → Memory.wf (l.foldl (fun s p => flushPart p s) s).mem = true
  | [], _, h => h
  | q :: r, s, h => wf_flushParts r (wf_writeEvents q (s.part q).evq (s := s.updPart q fun p => { p with evq := [] }) h)
theorem wf_flushEvents (ns : Nat) {s : State} (h : Memory.wf s.mem = true) : Memory.wf (s.flushEvents ns).mem = true := by
  unfold State.flushEvents; split
  · exact h
  · exact wf_flushParts _ h
theorem marks_writeEvents (part : Nat) : ∀ (es : List Event) {s : State}, canon false s.memPoison = true → canon false (es.foldl (fun s e => writeEvent part e s) s).memPoison = true
  | [], _, h => h
  | e :: r, _, h => marks_writeEvents part r (marks_writeEvent part e h)
theorem marks_flushParts : ∀ (l : List Nat) {s : State}, canon false s.memPoison = true → canon false (l.foldl (fun s p => flushPart p s) s).memPoison = true
  | [], _, h => h
  | q :: r, s, h => marks_flushParts r (marks_writeEvents q (s.part q).evq (s := s.updPart q fun p => { p with evq := [] }) h)
theorem marks_flushEvents (ns : Nat) {s : State} (h : canon false s.memPoison = true) : canon false (s.flushEvents ns).memPoison = true := by
  unfold State.flushEvents; split
  · exact h
  · exact marks_flushParts _ h

end Sys2Proof.Machine
end

