-- ==== Sys2Proof/Laws/Stops.lean ====
section
/-! SUPPORT. An instruction that stops its context (25 R414, R418), and an access of a group that is not divided (03 R56): one lemma each for what they do. -/

namespace Sys2Proof.Machine

open Sys2Proof.Claims

/-! ## Stops -/

/-- A raised halt line in the contexts. -/
theorem raiseHalt_ctx (c : Nat) (r : StopRec) (s : State) (j : Nat) : (raiseHalt c r s).ctx j = if j = c then stopped r (s.ctx c) else s.ctx j := by
  unfold raiseHalt stopped
  dsimp only
  by_cases h : j = c
  · subst h
    rw [if_pos rfl]
    split <;> rename_i hst <;> simp [hst]
  · rw [if_neg h]
    split <;> first | exact ctx_setCtx_other h _ s | rfl

/-- An issue is counted in the group's partition alone, and beside it a resume point passed by is gone (18 R325). -/
theorem countIssue_spec {s0 : State} {gid : Nat} {g : Group} (hg : s0.group? gid = some g) (slice : Nat) {m : State} {h : Group} (hm : m.group? gid = some h) :
    let t := countIssue gid slice s0 m
    (t = { m with parts := t.parts, groups := t.groups }) ∧ t.parts = (m.updPart g.part fun p => { p with issue := p.issue + 1 }).parts ∧ (∀ j, j ≠ gid → t.group? j = m.group? j) ∧
      t.group? gid = some { h with resume := if passesBy s0 gid slice then none else h.resume } := by
  unfold countIssue
  rw [hg]
  dsimp only
  split
  · unfold State.updGroup
    rw [group_updPart, hm]
    exact ⟨rfl, rfl, fun j hj => group_setGroup_other hj _ _, group_setGroup_same _ _ _⟩
  · exact ⟨rfl, rfl, fun _ _ => rfl, hm⟩

/-- What an instruction leaves that comes to a halt. -/
theorem finish_halt {s : State} {gid : Nat} {g : Group} (hg : s.group? gid = some g) (slice stall cause detail : Nat) (addr : DWord) (lanes : Nat) :
    StopOnly gid g s (finish gid slice stall s (.halt cause detail addr lanes)) ∧
    (finish gid slice stall s (.halt cause detail addr lanes)).ctx g.ctx = stopped (groupRec s gid slice cause detail addr lanes true) (s.ctx g.ctx) := by
  generalize hr : groupRec s gid slice cause detail addr lanes true = r
  obtain ⟨x, hx⟩ := raiseHalt_only g.ctx r s
  have hctx : ∀ j, (raiseHalt g.ctx r s).ctx j = if j = g.ctx then stopped r (s.ctx g.ctx) else s.ctx j := raiseHalt_ctx g.ctx r s
  have hh : haltAt gid slice cause detail addr lanes s = { s with ctxs := x } := by
    unfold haltAt; rw [hg]; dsimp only; rw [hr, hx]
  rw [hx] at hctx
  generalize hsl : slicesAt { s with ctxs := x } gid slice = sl
  have hd : dropRemote gid slice { s with ctxs := x } = State.setGroup gid { g with remote := restRemote sl g.remote } { s with ctxs := x } := by
    unfold dropRemote State.updGroup
    have : State.group? { s with ctxs := x } gid = some g := hg
    rw [this, hsl]
  generalize hk : State.setGroup gid { g with remote := restRemote sl g.remote } { s with ctxs := x } = k at hd
  have hkg : k.group? gid = some { g with remote := restRemote sl g.remote } := by rw [← hk]; exact group_setGroup_same _ _ _
  have hf : ∃ l, forgetErrs gid k = { k with lookups := l } ∧ ∀ p ∈ l, p ∈ s.lookups := by
    unfold forgetErrs
    rw [hkg]
    refine ⟨_, rfl, fun p hp => ?_⟩
    have := (List.mem_filter.1 hp).1
    rw [← hk] at this; exact this
  obtain ⟨l, hl, hsub⟩ := hf
  have ht : finish gid slice stall s (.halt cause detail addr lanes) = (countIssue gid slice s { k with lookups := l }).bump := by
    show (countIssue gid slice s (forgetErrs gid (dropRemote gid slice (haltAt gid slice cause detail addr lanes s)))).bump = _
    rw [hh, hd, hl]
  obtain ⟨c1, c2, c3, c4⟩ := countIssue_spec hg slice (m := { k with lookups := l }) hkg
  rw [ht]
  generalize countIssue gid slice s { k with lookups := l } = t at c1 c2 c3 c4
  refine ⟨⟨by rw [c1, ← hk]; rfl, ⟨sl, _, c4, ?_⟩, fun j hj => ?_, fun c hc => ?_, fun p => ?_, by rw [c1]; exact hsub⟩, ?_⟩
  · by_cases hp : passesBy s gid slice = true
    · exact .inr ⟨if_pos hp, slice, hp⟩
    · exact .inl (if_neg hp)
  · rw [group_bump, c3 j hj, ← hk]; exact group_setGroup_other hj _ { s with ctxs := x }
  · have := hctx c; rw [if_neg hc] at this; rw [c1, ← hk]; exact this
  · have hq : ∀ q, k.part q = s.part q := fun q => by rw [← hk]; rfl
    have key := part_updPart p g.part (fun x => { x with issue := x.issue + 1 }) k
    rw [hq, hq] at key
    have : t.bump.part p = (k.updPart g.part fun p => { p with issue := p.issue + 1 }).part p := by
      show sgetD Part.reset p t.parts = _
      rw [c2]; rfl
    rw [this]
    refine Eq.trans key ?_
    split
    · rename_i e; rw [e]
    · rfl
  · have := hctx g.ctx; rw [if_pos rfl] at this; rw [c1, ← hk]; exact this

/-- The record of a group names its number. -/
theorem groupRec_fields {s : State} {gid : Nat} {g : Group} (hg : s.group? gid = some g) (slice cause detail : Nat) (addr : DWord) (lanes : Nat) (first : Bool) :
    let r := groupRec s gid slice cause detail addr lanes first
    r.cause = cause ∧ r.detail = detail ∧ r.addr = addr ∧ r.lanes = lanes ∧ r.first = first ∧ r.unit = gid := by
  unfold groupRec; rw [hg]; exact ⟨rfl, rfl, rfl, rfl, rfl, rfl⟩

/-- An instruction that issues and whose own meaning is a halt stops its context. -/
theorem haltsIn_law {i : Instr} {gd : Guard} {u : Uses} {s : State} {gid slice : Nat} {g : Group} {a : Gang} {h : Header} (hi : Issues i gd u s gid slice g a h)
    {body : Env → Act} (hx : exec i s = runInstr i gd u body s) {cause detail lanes : Nat} {addr : DWord}
    (hb : body (mkEnv s gid g a h gd u) = .halt cause detail addr lanes) : HaltsIn i s gid g cause detail addr lanes := by
  obtain ⟨hs, hc⟩ := finish_halt (curGang_group hi.cur).1 slice gd.stall.toNat cause detail addr lanes
  exact ⟨_, _, by rw [hx, runInstr_issues hi, hb], hs, hc, groupRec_fields (curGang_group hi.cur).1 slice cause detail addr lanes true⟩

/-- So does one that a decode check refuses (08 R186). -/
theorem haltsIn_refused {i : Instr} {gd : Guard} {u : Uses} {s : State} {gid slice : Nat} {g : Group} {a : Gang} {h : Header}
    (hc : curGang s = some (gid, slice, g, a, h)) {cause : Nat} (hd : decodeCheck i g a h = some cause) {body : Env → Act} (hx : exec i s = runInstr i gd u body s) :
    HaltsIn i s gid g cause 0 0 0 := by
  obtain ⟨hs, hk⟩ := finish_halt (curGang_group hc).1 slice gd.stall.toNat cause 0 0 0
  refine ⟨_, _, ?_, hs, hk, groupRec_fields (curGang_group hc).1 slice cause 0 0 0 true⟩
  rw [hx]; unfold runInstr; rw [hc]; dsimp only; rw [hd]

/-! ## Accesses -/

/-- With no late access nothing is performed. -/
@[simp] theorem performLate_none (due : Late × Nat → Bool) (s : State) (g : Group) (h : g.late = []) : performLate due (s, g) = (s, g) := by
  unfold performLate; simp [h]

/-- A group that is not divided and has no late access performs its accesses as they issue. -/
theorem accessUnit_together {e : Env} (he : e.divided = false) (pick : Nat) (x : Late) (s : State) {g : Group} (hg : g.late = []) :
    accessUnit e pick x (s, g) = ((x.now s g).1, (x.now s g).2, g) := by
  unfold accessUnit
  rw [performLate_none _ _ _ hg]
  simp [he]

end Sys2Proof.Machine
end

