-- ==== Sys2Proof/Tests/Slice0.lean ====
section
/-! SUPPORT. Tests of the model's own: words read, well-formedness refused, one step each, and a witness for the hypotheses of every statement. -/

namespace Sys2Proof.Tests

open Sys2Proof.Machine Sys2Proof.Claims

set_option Elab.async false

/-! ## Small states -/

/-- A state about to run a word: a running context, one group in quadrant 0 inside a clause, and the gang named. -/
def st (w : DWord) : State := { State.reset.withFetchWord 64 w.toNat with cur := some ⟨1, 0⟩ }
/-- Its group. -/
def gOf (s : State) : Group := (s.group? 1).getD default
/-- Its gang. -/
def aOf (s : State) : Gang := ((gOf s).gang? 0).getD default
/-- Its clause's header. -/
def hOf (s : State) : Header := (aOf s).hdr.getD default
/-- Its group changed. -/
def withG (f : Group → Group) (s : State) : State := s.setGroup 1 (f (gOf s))

/-- What has been fetched in a clause that allows it. -/
def FetchedIn (i : Instr) (s : State) : Prop := Fetched i s 1 0 (gOf s) (aOf s) (hOf s)
def fetchedB (i : Instr) (s : State) : Bool :=
  (curGang s).isSome && (match clsOf (hOf s).cls.toNat with | some c => i.classOk c ((aOf s).idx == (hOf s).count.toNat) | none => false)

/-- The guard of an instruction word. -/
def guardOf (w : DWord) : Guard := decGuard w

/-- Nothing stops i before its own meaning. -/
def issuesB (i : Instr) (gd : Guard) (s : State) : Bool :=
  (curGang s).isSome && (decodeCheck i (gOf s) (aOf s) (hOf s)).isNone && !((gOf s).effSr s).dbgctl.getLsbD 0 && (actingLanes s (gOf s) (aOf s) gd).2.isEmpty

theorem curGang_of {s : State} (hc : s.cur = some ⟨1, 0⟩) (h1 : (curGang s).isSome = true) : curGang s = some (1, 0, gOf s, aOf s, hOf s) := by
  unfold curGang at h1 ⊢
  rw [hc] at h1 ⊢
  unfold hOf aOf gOf
  dsimp only at h1 ⊢
  cases e : s.group? 1 with
  | none => rw [e] at h1; exact absurd h1 (by simp)
  | some g =>
    rw [e] at h1
    dsimp only at h1 ⊢
    simp only [Option.getD_some]
    cases e2 : g.gang? 0 with
    | none => rw [e2] at h1; exact absurd h1 (by simp)
    | some a =>
      rw [e2] at h1
      cases e3 : a.hdr with
      | none => simp [e3] at h1
      | some h => simp [e3]

theorem issues_of {i : Instr} {gd : Guard} {s : State} (u : Uses) (hc : s.cur = some ⟨1, 0⟩) (h : issuesB i gd s = true) : Issues i gd u s 1 0 (gOf s) (aOf s) (hOf s) := by
  unfold issuesB at h
  simp only [Bool.and_eq_true, Bool.not_eq_true', Option.isNone_iff_eq_none] at h
  obtain ⟨⟨⟨h1, h2⟩, h3⟩, h4⟩ := h
  exact ⟨curGang_of hc h1, h2, by rw [h3]; rfl, by rw [h4]; rfl⟩

theorem fetchedIn_of {i : Instr} {s : State} (hc : s.cur = some ⟨1, 0⟩) (h : fetchedB i s = true) : FetchedIn i s := by
  unfold fetchedB at h
  simp only [Bool.and_eq_true] at h
  refine ⟨curGang_of hc h.1, ?_⟩
  split at h
  · exact ⟨_, ‹_›, h.2⟩
  · exact absurd h.2 (by simp)
theorem fetchedIn_all {l : List Instr} {s : State} (hc : s.cur = some ⟨1, 0⟩) (h : l.all (fun i => fetchedB i s) = true) : ∀ i ∈ l, FetchedIn i s := fun i hi => fetchedIn_of hc (List.all_eq_true.1 h i hi)

/-! ## Words read (08 R174 to R184): one of each opcode, put together by hand from the format and encoding tables -/

/-- Words written out, with what they stand for. -/
def words_moves_and_integers : List (DWord × Instr) := [
  (0x7802C562B1400000, .nop ⟨⟨false, 15, 2⟩, .z, .z, .z, 0, false, false, 0⟩),
  (0x98090381B1400000, .mov ⟨⟨true, 3, 1⟩, .v 7, .v 6, .z, 0, false, false, 0⟩),
  (0x781004E2B1590100, .movi ⟨⟨false, 15, 0⟩, .v 9, .z, .z, 200, false, false, 256⟩),
  (0x78180080A078A413, .sel ⟨⟨false, 15, 0⟩, .v 1, .v 2, .s 3, .z, false, true, false, 19⟩),
  (0x7821010071402300, .iadd ⟨⟨false, 15, 1⟩, .v 2, .v 1, .z, 1, false, false, 768⟩),
  (0x7829010071402300, .isub ⟨⟨false, 15, 1⟩, .v 2, .v 1, .z, 1, false, false, 768⟩),
  (0x7830020180F09001, .iaddc ⟨⟨false, 15, 0⟩, .v 4, .v 6, .v 7, .s 9, false, false, false, 1⟩),
  (0x78380201A1001000, .add64 ⟨⟨false, 15, 0⟩, .v 4, .v 6, .s 8, 0, true, false, 0⟩),
  (0x78400201A1001000, .sub64 ⟨⟨false, 15, 0⟩, .v 4, .v 6, .s 8, 0, true, false, 0⟩),
  (0x7848024200E06000, .lea ⟨⟨false, 15, 0⟩, .v 4, .s 8, .v 7, 3, false, false, 0⟩),
  (0x5850C0BFEFE01000, .imul ⟨⟨false, 11, 0⟩, .o 1, .v 255, .s 127, 0, true, false, 0⟩),
  (0x5858C0BFEFE01000, .imulhi ⟨⟨false, 11, 0⟩, .o 1, .v 255, .s 127, 0, true, false, 0⟩),
  (0x5860C0BFEFE01000, .umulhi ⟨⟨false, 11, 0⟩, .o 1, .v 255, .s 127, 0, true, false, 0⟩),
  (0x7868008080604200, .imad ⟨⟨false, 15, 0⟩, .v 1, .v 2, .v 3, .v 4, false, false, true, 0⟩),
  (0x78700100C0A06001, .imadw ⟨⟨false, 15, 0⟩, .v 2, .v 3, .v 5, .v 6, false, false, false, 1⟩),
  (0x5878C0BFEFE01000, .idiv ⟨⟨false, 11, 0⟩, .o 1, .v 255, .s 127, 0, true, false, 0⟩),
  (0x5880C0BFEFE01000, .udiv ⟨⟨false, 11, 0⟩, .o 1, .v 255, .s 127, 0, true, false, 0⟩),
  (0x5888C0BFEFE01000, .irem ⟨⟨false, 11, 0⟩, .o 1, .v 255, .s 127, 0, true, false, 0⟩),
  (0x5890C0BFEFE01000, .urem ⟨⟨false, 11, 0⟩, .o 1, .v 255, .s 127, 0, true, false, 0⟩),
  (0x5898C0BFEFE01000, .imin ⟨⟨false, 11, 0⟩, .o 1, .v 255, .s 127, 0, true, false, 0⟩),
  (0x58A0C0BFEFE01000, .imax ⟨⟨false, 11, 0⟩, .o 1, .v 255, .s 127, 0, true, false, 0⟩),
  (0x58A8C0BFEFE01000, .umin ⟨⟨false, 11, 0⟩, .o 1, .v 255, .s 127, 0, true, false, 0⟩),
  (0x58B0C0BFEFE01000, .umax ⟨⟨false, 11, 0⟩, .o 1, .v 255, .s 127, 0, true, false, 0⟩),
  (0x78B882E271400100, .iabs ⟨⟨false, 15, 0⟩, .s 5, .l 1, .z, 0, false, false, 256⟩),
  (0x78C082E271400100, .ineg ⟨⟨false, 15, 0⟩, .s 5, .l 1, .z, 0, false, false, 256⟩),
  (0x58C8C0BFEFE01000, .iand ⟨⟨false, 11, 0⟩, .o 1, .v 255, .s 127, 0, true, false, 0⟩),
  (0x58D0C0BFEFE01000, .ior ⟨⟨false, 11, 0⟩, .o 1, .v 255, .s 127, 0, true, false, 0⟩),
  (0x58D8C0BFEFE01000, .ixor ⟨⟨false, 11, 0⟩, .o 1, .v 255, .s 127, 0, true, false, 0⟩),
  (0x58E0C0BFEFE01000, .andn ⟨⟨false, 11, 0⟩, .o 1, .v 255, .s 127, 0, true, false, 0⟩),
  (0x78E882E231400000, .inot ⟨⟨false, 15, 0⟩, .s 5, .l 0, .z, 0, false, false, 0⟩),
  (0x58F0C0BFEFE01000, .shl ⟨⟨false, 11, 0⟩, .o 1, .v 255, .s 127, 0, true, false, 0⟩),
  (0x58F8C0BFEFE01000, .shr ⟨⟨false, 11, 0⟩, .o 1, .v 255, .s 127, 0, true, false, 0⟩),
  (0x5900C0BFEFE01000, .sar ⟨⟨false, 11, 0⟩, .o 1, .v 255, .s 127, 0, true, false, 0⟩),
  (0x5908C0BFEFE01000, .rotl ⟨⟨false, 11, 0⟩, .o 1, .v 255, .s 127, 0, true, false, 0⟩),
  (0x7910008080604200, .funnel ⟨⟨false, 15, 0⟩, .v 1, .v 2, .v 3, .v 4, false, false, true, 0⟩),
  (0x791800808060011F, .bfx ⟨⟨false, 15, 0⟩, .v 1, .v 2, .v 3, 0, false, false, 287⟩),
  (0x792000808060401F, .bfi ⟨⟨false, 15, 0⟩, .v 1, .v 2, .v 3, .v 4, false, false, false, 31⟩),
  (0x792882E231400000, .popc ⟨⟨false, 15, 0⟩, .s 5, .l 0, .z, 0, false, false, 0⟩),
  (0x793082E231400000, .clz ⟨⟨false, 15, 0⟩, .s 5, .l 0, .z, 0, false, false, 0⟩),
  (0x793882E231400000, .ctz ⟨⟨false, 15, 0⟩, .s 5, .l 0, .z, 0, false, false, 0⟩),
  (0x794082E231400000, .brev ⟨⟨false, 15, 0⟩, .s 5, .l 0, .z, 0, false, false, 0⟩),
  (0x7948008080604200, .prmt ⟨⟨false, 15, 0⟩, .v 1, .v 2, .v 3, .v 4, false, false, true, 0⟩),
  (0x7950120100A75200, .icmp ⟨⟨false, 15, 0⟩, 1, 2, false, 4, 5, 3, true, 1, false, true, 2, 0, 0⟩),
  (0x7958120100A75200, .ucmp ⟨⟨false, 15, 0⟩, 1, 2, false, 4, 5, 3, true, 1, false, true, 2, 0, 0⟩)]

/-- Words written out, with what they stand for. -/
def words_compares_predicates_lanes_special : List (DWord × Instr) := [
  (0x79800F06C1E00600, .plop ⟨⟨false, 15, 0⟩, 0, 15, false, 27, 15, 0, false, 0, false, false, 6, 0, 0⟩),
  (0x798800E2B1416000, .pstore ⟨⟨false, 15, 0⟩, .v 1, .z, .z, 11, false, false, 0⟩),
  (0x7990C50071400100, .pload ⟨⟨false, 15, 0⟩, .z, .v 1, .z, 0, false, false, 256⟩),
  (0x79984F0131400020, .pmov ⟨⟨false, 15, 0⟩, 4, 15, false, 4, 394, 0, false, 0, false, false, 0, 1, 0⟩),
  (0x79A00080B14083D0, .shfl ⟨⟨false, 15, 0⟩, .v 1, .v 2, .z, 4, false, false, 976⟩),
  (0x79A800E2B1436003, .vote ⟨⟨false, 15, 0⟩, .v 1, .z, .z, 27, false, false, 3⟩),
  (0x79B08080B1400407, .redux ⟨⟨false, 15, 0⟩, .s 1, .v 2, .z, 0, false, false, 1031⟩),
  (0x79B80080B1400000, .firstl ⟨⟨false, 15, 0⟩, .v 1, .v 2, .z, 0, false, false, 0⟩),
  (0x79C1030188000000, .mfs ⟨⟨false, 15, 1⟩, .v 6, 49, 0⟩),
  (0x79C8030008000000, .mts ⟨⟨false, 15, 0⟩, .v 6, 1, 0⟩)]

/-- Words written out, with what they stand for. -/
def words_float : List (DWord × Instr) := [
  (0x7A0000808078A16E, .fadd ⟨⟨false, 15, 0⟩, .v 1, .v 2, .v 3, .z, false, false, false, 366⟩),
  (0x7A0800808078A16E, .fsub ⟨⟨false, 15, 0⟩, .v 1, .v 2, .v 3, .z, false, false, false, 366⟩),
  (0x7A1000808078A16E, .fmul ⟨⟨false, 15, 0⟩, .v 1, .v 2, .v 3, .z, false, false, false, 366⟩),
  (0x7A1B05008060A480, .ffma ⟨⟨false, 15, 3⟩, .v 10, .v 2, .v 3, .v 10, false, true, false, 128⟩),
  (0x7A2000808078A081, .fdiv ⟨⟨false, 15, 0⟩, .v 1, .v 2, .v 3, .z, false, false, false, 129⟩),
  (0x7A280080B158A081, .fsqrt ⟨⟨false, 15, 0⟩, .v 1, .v 2, .z, .z, false, false, false, 129⟩),
  (0x7A300080A078A082, .fmin ⟨⟨false, 15, 0⟩, .v 1, .v 2, .s 3, .z, false, false, false, 130⟩),
  (0x7A380080A078A082, .fmax ⟨⟨false, 15, 0⟩, .v 1, .v 2, .s 3, .z, false, false, false, 130⟩),
  (0x7A400080A078A082, .fminnum ⟨⟨false, 15, 0⟩, .v 1, .v 2, .s 3, .z, false, false, false, 130⟩),
  (0x7A480080A078A082, .fmaxnum ⟨⟨false, 15, 0⟩, .v 1, .v 2, .s 3, .z, false, false, false, 130⟩),
  (0x7A5001013158A0C0, .fabs ⟨⟨false, 15, 0⟩, .v 2, .v 4, .z, .z, false, false, false, 192⟩),
  (0x7A5801013158A0C0, .fneg ⟨⟨false, 15, 0⟩, .v 2, .v 4, .z, .z, false, false, false, 192⟩),
  (0x7A6000808078A140, .fcopysign ⟨⟨false, 15, 0⟩, .v 1, .v 2, .v 3, .z, false, false, false, 320⟩),
  (0x7A68120080600D20, .fcmp ⟨⟨false, 15, 0⟩, 1, 2, false, 2, 3, 0, false, 0, false, false, 13, 1, 0⟩),
  (0x7A701F00B1400F60, .fclass ⟨⟨false, 15, 0⟩, 1, 15, false, 2, 394, 0, false, 0, false, false, 15, 3, 0⟩),
  (0x7A780080B158A092, .frint ⟨⟨false, 15, 0⟩, .v 1, .v 2, .z, .z, false, false, false, 146⟩),
  (0x7A8001012078A0EE, .fscaleb ⟨⟨false, 15, 0⟩, .v 2, .v 4, .s 3, .z, false, false, false, 238⟩),
  (0x7A880080B158A040, .flogb ⟨⟨false, 15, 0⟩, .v 1, .v 2, .z, .z, false, false, false, 64⟩),
  (0x7A900100B140303C, .cvt ⟨⟨false, 15, 0⟩, .v 2, .v 2, .z, .v 3, false, false, false, 60⟩),
  (0x7A9801013158A1BA, .cvti ⟨⟨false, 15, 0⟩, .v 2, .v 4, .z, .z, false, false, false, 442⟩),
  (0x7AA001013158A0F2, .icvtf ⟨⟨false, 15, 0⟩, .v 2, .v 4, .z, .z, false, false, false, 242⟩),
  (0x7AA80080B158A083, .frcp ⟨⟨false, 15, 0⟩, .v 1, .v 2, .z, .z, false, false, false, 131⟩),
  (0x7AB00080B158A083, .frsq ⟨⟨false, 15, 0⟩, .v 1, .v 2, .z, .z, false, false, false, 131⟩),
  (0x7AB80080B158A083, .fexp2 ⟨⟨false, 15, 0⟩, .v 1, .v 2, .z, .z, false, false, false, 131⟩),
  (0x7AC00080B158A083, .flog2 ⟨⟨false, 15, 0⟩, .v 1, .v 2, .z, .z, false, false, false, 131⟩),
  (0x7AC80080B158A083, .fsin ⟨⟨false, 15, 0⟩, .v 1, .v 2, .z, .z, false, false, false, 131⟩),
  (0x7AD00080B158A083, .fcos ⟨⟨false, 15, 0⟩, .v 1, .v 2, .z, .z, false, false, false, 131⟩),
  (0x7AD80080B158A083, .ftanh ⟨⟨false, 15, 0⟩, .v 1, .v 2, .z, .z, false, false, false, 131⟩),
  (0x7AE0008080604043, .dot ⟨⟨false, 15, 0⟩, .v 1, .v 2, .v 3, .v 4, false, false, false, 67⟩),
  (0x7AE80081211FE000, .expr ⟨⟨false, 15, 0⟩, .v 1, .v 4, .s 8, 255, false, false, 0⟩),
  (0x7AF00162B158A100, .rng ⟨⟨false, 15, 0⟩, .v 2, .z, .z, .z, false, false, false, 256⟩),
  (0x7AF80080B158A100, .qmx ⟨⟨false, 15, 0⟩, .v 1, .v 2, .z, .z, false, false, false, 256⟩)]

/-- Words written out, with what they stand for. -/
def words_memory_and_messages : List (DWord × Instr) := [
  (0x440003C000280010, .ld ⟨⟨false, 8, 0⟩, .v 7, .s 0, .v 1, 64, 0, 0, false, 1, 0, false, false⟩),
  (0x7C080142315FE932, .st ⟨⟨false, 15, 0⟩, .v 2, .s 8, .z, 255, 2, 1, false, 3, 0, true, false⟩),
  (0x7C100200B14000C4, .lds ⟨⟨false, 15, 0⟩, .v 4, .v 2, .z, 0, 0, 0, true, 4, 1, false, false⟩),
  (0x7C18020081200045, .sts ⟨⟨false, 15, 0⟩, .v 4, .v 2, .v 9, 0, 0, 0, false, 4, 1, false, true⟩),
  (0x7C20824231401630, .ldu ⟨⟨false, 15, 0⟩, .s 4, .s 8, .z, 0, 5, 2, false, 3, 0, false, false⟩),
  (0x7C2803423140A898, .atom ⟨⟨false, 15, 0⟩, .v 6, .s 8, .z, .v 10, 2, 0, 9, true, false, false, false⟩),
  (0x7C3003020020C0E1, .atoms ⟨⟨false, 15, 0⟩, .v 6, .v 8, .v 1, .v 12, 0, 0, 14, false, false, false, true⟩),
  (0x7C380342315E0030, .red ⟨⟨false, 15, 0⟩, .v 6, .s 8, .z, 240, 0, 0, false, 3, 0, false, false⟩),
  (0x7C40014231401320, .stmc ⟨⟨false, 15, 0⟩, .v 2, .s 8, .z, 0, 4, 3, false, 2, 0, false, false⟩),
  (0x7C48C562B1401300, .fence ⟨⟨false, 15, 0⟩, .z, .z, .z, 0, 4, 3, false, 0, 0, false, false⟩),
  (0x7C50C54200604000, .cctl ⟨⟨false, 15, 0⟩, .z, .s 8, .v 3, 2, 0, 0, false, 0, 0, false, false⟩),
  (0x7C580840F140E001, .msgput ⟨⟨false, 15, 0⟩, .v 16, .s 3, .z, 7, 0, false, 1⟩),
  (0x7C60C5083145C100, .msgtake ⟨⟨false, 15, 0⟩, .z, .v 32, .z, 46, 0, false, 256⟩)]

/-- Words written out, with what they stand for. -/
def words_matrix : List (DWord × Instr) := [
  (0x7D00840000044004, .mloop ⟨⟨false, 15, 0⟩, .s 8, 0, 0, 0, 0, 2, 2, false, 0, 4⟩),
  (0x7D08881590066000, .mconv ⟨⟨false, 15, 0⟩, .s 16, 1, 2, 200, 0, 3, 3, false, 0, 0⟩),
  (0x7D10C52000000001, .mzero ⟨⟨false, 15, 0⟩, .z, 2, 0, 0, 0, 0, 0, false, 0, 1⟩),
  (0x7D18817000000000, .mlda ⟨⟨false, 15, 0⟩, .s 2, 7, 0, 0, 0, 0, 0, false, 0, 0⟩),
  (0x7D20817000000000, .msta ⟨⟨false, 15, 0⟩, .s 2, 7, 0, 0, 0, 0, 0, false, 0, 0⟩),
  (0x7D28016100000103, .accrd ⟨⟨false, 15, 0⟩, .v 2, 6, 0, 128, 0, 0, 0, false, 0, 259⟩),
  (0x7D3001607E000001, .accwr ⟨⟨false, 15, 0⟩, .v 2, 6, 0, 63, 0, 0, 0, false, 0, 1⟩),
  (0x7D388415FE000001, .drain ⟨⟨false, 15, 0⟩, .s 8, 1, 2, 255, 0, 0, 0, false, 0, 1⟩),
  (0x7D40C54171462003, .epload ⟨⟨false, 15, 0⟩, .z, .s 5, .z, 49, 0, false, 3⟩),
  (0x7D48822000600001, .faclu ⟨⟨false, 15, 0⟩, .s 4, 2, 0, 0, 3, 0, 0, false, 0, 1⟩),
  (0x7D50C53000020000, .facch ⟨⟨false, 15, 0⟩, .z, 3, 0, 0, 0, 1, 0, false, 0, 0⟩),
  (0x7D5882210A000000, .facqr ⟨⟨false, 15, 0⟩, .s 4, 2, 0, 133, 0, 0, 0, false, 0, 0⟩),
  (0x7D60C52800000007, .trsm ⟨⟨false, 15, 0⟩, .z, 2, 4, 0, 0, 0, 0, false, 0, 7⟩),
  (0x7D68C52000600003, .pvapply ⟨⟨false, 15, 0⟩, .z, 2, 0, 0, 3, 0, 0, false, 0, 3⟩),
  (0x7D70C5210A600004, .pvmov ⟨⟨false, 15, 0⟩, .z, 2, 0, 133, 3, 0, 0, false, 0, 4⟩)]

/-- Words written out, with what they stand for. -/
def words_copies_collectives_tasks : List (DWord × Instr) := [
  (0x7D80880231400000, .cpy ⟨⟨false, 15, 0⟩, .s 16, .v 8, .z, 0, 0, false, 0⟩),
  (0x7D88B84200200404, .gather ⟨⟨false, 15, 0⟩, .s 112, .s 8, .v 1, 0, 1, false, 4⟩),
  (0x7D90B84200200404, .scatter ⟨⟨false, 15, 0⟩, .s 112, .s 8, .v 1, 0, 1, false, 4⟩),
  (0x7D989062A0400000, .cinit ⟨⟨false, 15, 0⟩, .s 32, .z, .s 2, 0, 0, false, 0⟩),
  (0x7DA0904060400400, .cstart ⟨⟨false, 15, 0⟩, .s 32, .s 1, .s 2, 0, 1, false, 0⟩),
  (0x7DA8C5006040C000, .cquery ⟨⟨false, 15, 0⟩, .z, .v 1, .s 2, 6, 0, false, 0⟩),
  (0x7DB0C56280400000, .cfree ⟨⟨false, 15, 0⟩, .z, .z, .v 2, 0, 0, false, 0⟩),
  (0x7DB8826280400000, .tdef ⟨⟨false, 15, 0⟩, .s 4, .z, .v 2, 0, 0, false, 0⟩),
  (0x7DC0C56280400000, .tsig ⟨⟨false, 15, 0⟩, .z, .z, .v 2, 0, 0, false, 0⟩),
  (0x7DC8C562B140E005, .bar ⟨⟨false, 15, 0⟩, .z, .z, .z, 7, 0, false, 5⟩),
  (0x7DD081C231402001, .barc ⟨⟨false, 15, 0⟩, .s 3, .s 8, .z, 1, 0, false, 1⟩),
  (0x7DD8810120C00400, .launch ⟨⟨false, 15, 0⟩, .s 2, .v 4, .s 6, 0, 1, false, 0⟩),
  (0x7DE0C50120C12000, .selsched ⟨⟨false, 15, 0⟩, .z, .v 4, .s 6, 9, 0, false, 0⟩)]

/-- Words written out, with what they stand for. -/
def words_control_system_hints : List (DWord × Instr) := [
  (0x7E00FFFFFFFC1234, .bra ⟨⟨false, 15, 0⟩, 4294967292, 4660⟩),
  (0x7E08810000000005, .brx ⟨⟨false, 15, 0⟩, 2164260864, 5⟩),
  (0x7E10800000000000, .call ⟨⟨false, 15, 0⟩, 2147483648, 0⟩),
  (0x7E18820000000000, .callx ⟨⟨false, 15, 0⟩, 2181038080, 0⟩),
  (0x7E20000000000000, .ret ⟨⟨false, 15, 0⟩, 0, 0⟩),
  (0x7E28000000000000, .exitLanes ⟨⟨false, 15, 0⟩, 0, 0⟩),
  (0x7E30000000000000, .regang ⟨⟨false, 15, 0⟩, 0, 0⟩),
  (0x7E38C562B140600C, .waitCtr ⟨⟨false, 15, 0⟩, .z, .z, .z, 3, false, false, 12⟩),
  (0x7E40C562B1400000, .yield ⟨⟨false, 15, 0⟩, .z, .z, .z, 0, false, false, 0⟩),
  (0x7E48C562B15FE200, .sleep ⟨⟨false, 15, 0⟩, .z, .z, .z, 255, false, false, 512⟩),
  (0x7E50C56280246000, .xlate ⟨⟨false, 15, 0⟩, .z, .z, .v 1, 35, false, false, 0⟩),
  (0x7E58C562B1556000, .trapCode ⟨⟨false, 15, 0⟩, .z, .z, .z, 171, false, false, 0⟩),
  (0x7E60C562B1556000, .bkpt ⟨⟨false, 15, 0⟩, .z, .z, .z, 171, false, false, 0⟩),
  (0x7E68C562B1401000, .ifence ⟨⟨false, 15, 0⟩, .z, .z, .z, 0, 4, 0, false, 0, 0, false, false⟩),
  (0x7E80000000000000, .eret ⟨⟨false, 15, 0⟩, 0, 0⟩),
  (0x7E89030188000000, .mfsp ⟨⟨false, 15, 1⟩, .v 6, 49, 0⟩),
  (0x7E90030008000000, .mtsp ⟨⟨false, 15, 0⟩, .v 6, 1, 0⟩),
  (0x7E98C540F1400001, .haltctx ⟨⟨false, 15, 0⟩, .z, .s 3, .z, 0, false, false, 1⟩),
  (0x7FC0C54200604000, .pref ⟨⟨false, 15, 0⟩, .z, .s 8, .v 3, 2, 0, 0, false, 0, 0, false, false⟩),
  (0x7FC8C54200604000, .evict ⟨⟨false, 15, 0⟩, .z, .s 8, .v 3, 2, 0, 0, false, 0, 0, false, false⟩),
  (0x7FD0C562B1406000, .prio ⟨⟨false, 15, 0⟩, .z, .z, .z, 3, false, false, 0⟩)]

/-- The word decodes to the instruction, which is well formed, encodes to the word, and issues as the first word of a clause. -/
def reads (p : DWord × Instr) : Bool := decode p.1 == some p.2 && p.2.wellFormed && encode p.2 == some p.1 && issuesB p.2 (guardOf p.1) (st p.1)

theorem test_words_moves_and_integers : words_moves_and_integers.all reads = true := by decide +kernel
theorem test_words_compares_predicates_lanes_special : words_compares_predicates_lanes_special.all reads = true := by decide +kernel
theorem test_words_float : words_float.all reads = true := by decide +kernel
theorem test_words_memory_and_messages : words_memory_and_messages.all reads = true := by decide +kernel
theorem test_words_matrix : words_matrix.all reads = true := by decide +kernel
theorem test_words_copies_collectives_tasks : words_copies_collectives_tasks.all reads = true := by decide +kernel
theorem test_words_control_system_hints : words_control_system_hints.all reads = true := by decide +kernel

/-- Register v n of the four lanes. -/
def withV (n : Nat) (v : Word) (s : State) : State := withG (fun g => (List.range 4).foldl (fun g L => g.putCell (keyV L n) (cell v false)) g) s
/-- Register s n. -/
def withS (n : Nat) (v : Word) (s : State) : State := withG (fun g => g.putCell (keyS n) (cell v false)) s
/-- The special registers changed. -/
def withSr (f : SRegs → SRegs) (s : State) : State := withG (fun g => { g with sr := f g.sr }) s
/-- The environment of the instruction to issue. -/
def env (s : State) (gd : Guard) (u : Uses) : Env := mkEnv s 1 (gOf s) (aOf s) (hOf s) gd u

theorem issues_all {l : List Instr} {gd : Guard} {s : State} (hc : s.cur = some ⟨1, 0⟩) (h : l.all (fun i => issuesB i gd s) = true) :
    ∀ i ∈ l, ∀ u, Issues i gd u s 1 0 (gOf s) (aOf s) (hOf s) := fun i hi u => issues_of u hc (List.all_eq_true.1 h i hi)

/-- The guard that always holds. -/
def always : Guard := ⟨false, 15, 0⟩
/-- v2 from v1 and v3. -/
def wi : WI := ⟨always, .v 2, .v 1, .v 3, 0, false, false, 0⟩
/-- v2 from v4, v6 and v8. -/
def wv : WV := ⟨always, .v 2, .v 4, .v 6, .v 8, false, false, false, 0⟩
/-- p1 and p2 from v4 and v6. -/
def wc : WC := ⟨always, 1, 2, false, 4, 6, 0, false, 0, false, false, 0, 0, 0⟩

/-! ## Witnesses: integers, predicates, lanes, special registers -/

theorem witness_TwoSourceIntegerResults : ∀ i ∈ ([.iadd wi, .isub wi, .imul wi, .imulhi wi, .umulhi wi, .imin wi, .imax wi, .umin wi, .umax wi, .iand wi, .ior wi, .ixor wi, .andn wi, .shl wi, .shr wi, .sar wi, .rotl wi, .bfx wi] : List Instr),
    ∀ u, Issues i always u (st 0x7829010071402200) 1 0 (gOf (st 0x7829010071402200)) (aOf (st 0x7829010071402200)) (hOf (st 0x7829010071402200)) := issues_all rfl (by decide)
theorem witness_OneAndThreeSourceIntegerResults : ∀ i ∈ ([.iabs { wi with b := .z }, .ineg { wi with b := .z }, .inot { wi with b := .z }, .popc { wi with b := .z }, .clz { wi with b := .z }, .ctz { wi with b := .z }, .brev { wi with b := .z }, .imad wv, .funnel wv, .bfi wv, .prmt wv] : List Instr),
    ∀ u, Issues i always u (st 0) 1 0 (gOf (st 0)) (aOf (st 0)) (hOf (st 0)) := issues_all rfl (by decide)
theorem witness_PairResults : ∀ i ∈ ([.add64 { wi with a := .v 4, b := .v 6 }, .sub64 { wi with a := .v 4, b := .v 6 }, .lea { wi with a := .v 4, imm := 31 }, .iaddc wv, .imadw wv] : List Instr),
    ∀ u, Issues i always u (st 0) 1 0 (gOf (st 0)) (aOf (st 0)) (hOf (st 0)) := issues_all rfl (by decide)
theorem witness_MoveResults : ∀ i ∈ ([.mov { wi with b := .z }, .movi { wi with a := .z, b := .z, imm := 255 }, .sel { wv with c := .z }, .nop { wi with dst := .z, a := .z, b := .z }] : List Instr),
    ∀ u, Issues i always u (st 0) 1 0 (gOf (st 0)) (aOf (st 0)) (hOf (st 0)) := issues_all rfl (by decide)

/-- A division of v1 by s4, and its state: INTDIV traps. -/
def sDiv (x y : Word) : State := withSr (fun r => { r with trapen := 4 }) (withS 4 y (withV 1 x (st 0)))
def wDiv : WI := { wi with b := .s 4 }
theorem witness_Divisions_issue : ∀ i ∈ ([.idiv wDiv, .udiv wDiv, .irem wDiv, .urem wDiv] : List Instr), ∀ u, Issues i always u (sDiv 7 2) 1 0 (gOf (sDiv 7 2)) (aOf (sDiv 7 2)) (hOf (sDiv 7 2)) := issues_all rfl (by decide)
theorem witness_Divisions_good : ∀ L ∈ (env (sDiv 7 2) always (usesI 1 1 1 wDiv)).lanes, badDivision true ((env (sDiv 7 2) always (usesI 1 1 1 wDiv)).r32 (.v 1) L).w ((env (sDiv 7 2) always (usesI 1 1 1 wDiv)).srcB false wDiv L).w = false := by decide
theorem witness_Divisions_zero : let e := env (sDiv 7 0) always (usesI 1 1 1 wDiv)
    Issues (.udiv wDiv) always (usesI 1 1 1 wDiv) (sDiv 7 0) 1 0 (gOf (sDiv 7 0)) (aOf (sDiv 7 0)) (hOf (sDiv 7 0)) ∧
    e.sr.trapIntdiv = true ∧ ∃ L ∈ e.lanes.filter fun L => badDivision false (e.r32 (.v 1) L).w (e.srcB false wDiv L).w, (e.srcB false wDiv L).w = 0 := ⟨issues_of _ rfl (by decide), by decide, by decide⟩
theorem witness_Divisions_overflow : let e := env (sDiv 0x80000000 0xFFFFFFFF) always (usesI 1 1 1 wDiv)
    Issues (.idiv wDiv) always (usesI 1 1 1 wDiv) (sDiv 0x80000000 0xFFFFFFFF) 1 0 (gOf (sDiv 0x80000000 0xFFFFFFFF)) (aOf (sDiv 0x80000000 0xFFFFFFFF)) (hOf (sDiv 0x80000000 0xFFFFFFFF)) ∧
    e.sr.trapIntdiv = true ∧ e.lanes.filter (fun L => badDivision true (e.r32 (.v 1) L).w (e.srcB false wDiv L).w) ≠ [] ∧
    ∀ L ∈ e.lanes.filter fun L => badDivision true (e.r32 (.v 1) L).w (e.srcB false wDiv L).w, (e.srcB false wDiv L).w ≠ 0 := ⟨issues_of _ rfl (by decide), by decide, by decide, by decide⟩

theorem witness_IntegerPredicates : ∀ i ∈ ([.icmp wc, .ucmp wc, .plop { wc with a := 0, b := 31 }, .pmov { wc with b := 0x18A }, .pload { wi with dst := .z, b := .z, imm := 11 }] : List Instr),
    ∀ u, Issues i always u (st 0) 1 0 (gOf (st 0)) (aOf (st 0)) (hOf (st 0)) := issues_all rfl (by decide)
theorem witness_LaneNumbers : ∀ i ∈ ([.pstore { wi with a := .z, b := .z, imm := 11 }, .vote { wi with a := .z, b := .z, imm := 15 }, .firstl { wi with b := .z }] : List Instr),
    ∀ u, Issues i always u (st 0) 1 0 (gOf (st 0)) (aOf (st 0)) (hOf (st 0)) := issues_all rfl (by decide)
theorem witness_LaneExchanges : (∀ i ∈ ([.shfl wi, .redux { wi with b := .z }] : List Instr), ∀ u, Issues i always u (st 0) 1 0 (gOf (st 0)) (aOf (st 0)) (hOf (st 0))) ∧
    (env (st 0) always .none).lanes ≠ [] ∧ (env (st 0) always .none).full 0 = false := ⟨issues_all rfl (by decide), by decide, by decide⟩

/-- A state in a supervisor context. -/
def sSup (hd : Bool) : State := withSr (fun r => { r with handler := hd }) (st 0x7E88000000000000)
/-- What is to issue in a state. -/
def IssuesIn (i : Instr) (s : State) : Prop := ∀ u, Issues i always u s 1 0 (gOf s) (aOf s) (hOf s)
theorem issuesIn {i : Instr} {s : State} (hc : s.cur = some ⟨1, 0⟩) (h : issuesB i always s = true) : IssuesIn i s := fun u => issues_of u hc h
theorem issuesIn_all {l : List Instr} {s : State} (hc : s.cur = some ⟨1, 0⟩) (h : l.all (fun i => issuesB i always s) = true) : ∀ i ∈ l, IssuesIn i s := fun i hi => issuesIn hc (List.all_eq_true.1 h i hi)
/-- MFS, MFSP, MTS and MTSP of a number. -/
def mfs (n : BitVec 12) : Instr := .mfs ⟨always, .v 2, n, 0⟩
def mfsp (n : BitVec 12) : Instr := .mfsp ⟨always, .v 1, n, 0⟩
def mts (n : BitVec 12) : Instr := .mts ⟨always, .s 4, n, 0⟩
def mtsp (n : BitVec 12) : Instr := .mtsp ⟨always, .s 4, n, 0⟩

theorem witness_SpecialRegisterReadsAndChecks :
    (∀ i ∈ [mfs 0x000, mfs 0x001, mfs 0x020, mfs 0x067], IssuesIn i (st 0)) ∧ (∀ n ∈ [0x000, 0x001, 0x020, 0x067], srCheck (env (st 0) always .none) false n = none) ∧
    (∀ i ∈ [mfsp 0x800, mfsp 0x803], IssuesIn i (sSup false)) ∧ (∀ n ∈ [0x800, 0x803], srCheck (env (sSup false) always .none) true n = none) ∧
    (∀ x ∈ (gOf (st 0)).srhz, x.ready ≤ (st 0).clk) ∧ (gOf (st 0)).hz = [] ∧ (gOf (st 0)).vp = [] ∧ (∀ n ∈ [0x060, 0x063, 0x064, 0x067, 0x021], srCheck (env (st 0) always .none) false n = none) :=
  ⟨issuesIn_all rfl (by decide), by decide, issuesIn_all rfl (by decide), by decide, by decide, by decide, by decide, by decide⟩
theorem witness_SpecialRegisterChecks : (∀ i ∈ [mfs 0x800, mfs 0xFFF, mts 0x800], IssuesIn i (st 0)) ∧ (∀ i ∈ [mtsp 0x804, mfsp 0x804], IssuesIn i (sSup false)) ∧
    (∀ i ∈ [mfs 0x009, mfs 0x7FF, .mfs ⟨always, .v 1, 0x010, 0⟩], FetchedIn i (st 0)) ∧ (∀ i ∈ [mtsp 0x805, mfsp 0xFFF], FetchedIn i (sSup false)) ∧
    srNamed 0x009 = false ∧ srNamed 0x7FF = false ∧ srWide 0x010 = true ∧ (Opd.v 1).even = false ∧ (gOf (sSup false)).sr.handler = false :=
  ⟨issuesIn_all rfl (by decide), issuesIn_all rfl (by decide), fetchedIn_all rfl (by decide), fetchedIn_all rfl (by decide), by decide, by decide, by decide, by decide, by decide⟩
theorem witness_SpecialRegisterAndFlagWrites : let e := env (st 0) always .none
    (∀ i ∈ [mts 0x020, mts 0x022, mts 0x023, mts 0x024, mts 0x025, mts 0x040, mts 0x050, mts 0x054, mts 0x021], IssuesIn i (st 0)) ∧ (∀ n ∈ [0x020, 0x021, 0x022, 0x025, 0x040, 0x054], srCheck e false n = none) ∧
    e.leader = some 0 ∧ e.lanes ≠ [] ∧ (∀ M ∈ e.lanes, (e.rN (.s 4) 2 M).poison = false) ∧
    ((env (withS 4 5 (st 0)) always .none).r32 (.s 4) 0).w.toNat % 8 > 4 ∧ ((env (withS 4 3 (st 0)) always .none).r32 (.s 4) 0).w.toNat % 4 = 3 :=
  ⟨issuesIn_all rfl (by decide), by decide, by decide, by decide, by decide, by decide, by decide⟩
/-- A queue configuration of s4 to be written, and the queue's before; the partition holds its first bank set. -/
def sMq (v cfg : Word) : State := ((withS 4 v (st 0)).setMq 0 0 3 ⟨cfg, 0, 0, []⟩).updPart 0 fun p => { p with spsets := 1 }
theorem witness_QueueAndResumeWrites : let v (w : Word) : Word := ((env (sMq w 0) always .none).r32 (.s 4) 0).w
    (∀ i ∈ [mts 0x063, mts 0x067], IssuesIn i (sMq 0x800C0000 0)) ∧ (env (sMq 0x800D0000 0) always .none).leader = some 0 ∧ 12 < (v 0x800D0000).toNat / 65536 % 16 ∧
    (v 0x800C00C0).toNat % 2048 * 4096 + 64 * 2 ^ 12 ≤ ((sMq 0x800C00C0 0).part 0).spadSize 0 ∧ ((sMq 0x800C00C1 0).part 0).spadSize 0 < (v 0x800C00C1).toNat % 2048 * 4096 + 64 * 2 ^ 12 ∧
    ((sMq 0x800B0000 0x800C0000).mq 0 0 3).en = true ∧ cfgLg ((sMq 0x800B0000 0x800C0000).mq 0 0 3).cfg ≠ 11 ∧ ((sMq 0 0).mq 0 0 3).en = false ∧
    IssuesIn (mtsp 0x804) (sSup true) ∧ wasArmed (sSup true) 1 = false :=
  ⟨issuesIn_all rfl (by decide), by decide, by decide, by decide +kernel, by decide +kernel, by decide, by decide, by decide, issuesIn rfl (by decide), by decide⟩

/-- A supervisor's MTSP of an MTS number; v4 poisoned in lane 1 alone, for a register every lane holds. -/
def sBad : State := withSr (fun r => { r with trapen := 1 }) (withG (fun g => g.putCell (keyV 1 4) ⟨7, true, 0⟩) (withV 4 7 (st 0)))
theorem witness_SpecialRegisterWrites_sup : let e := env (sSup false) always .none
    (∀ i ∈ [mtsp 0x000, mtsp 0x020, mtsp 0x021, mtsp 0x040, mtsp 0x063], IssuesIn i (sSup false)) ∧ (∀ n ∈ [0x000, 0x020, 0x040], srCheck e true n = none) ∧ e.leader = some 0 ∧ (∀ M ∈ e.lanes, (e.r32 (.s 4) M).poison = false) :=
  ⟨issuesIn_all rfl (by decide), by decide, by decide, by decide⟩
theorem witness_SpecialRegisterWrites_poisoned : let e := env sBad always .none
    IssuesIn (.mts ⟨always, .v 4, 0x001, 0⟩) sBad ∧ srCheck e false 0x001 = none ∧ e.leader = some 0 ∧ e.sr.trapPoison = true ∧ (∃ M ∈ e.lanes, (e.rN (.v 4) 1 M).poison = true) ∧ (e.rN (.v 4) 1 0).poison = false :=
  ⟨issuesIn rfl (by decide), by decide, by decide, by decide, by decide, by decide⟩

/-! ## Witnesses: floating point and memory -/

/-- With no exception enabled every instruction is quiet. -/
theorem quiet_of {e : Env} (h : teOf e.sr.fpcr = 0) (f : Nat → LaneF) : Claims.quiet e f := by
  intro L _; right; rw [h]; simp

/-- A float word of type t, v4 and v6 (and v8) to v2. -/
def wf (m : BitVec 9) : WV := { wv with c := .z, mod := m }
theorem witness_FloatArithmetic : teOf (env (st 0) always .none).sr.fpcr = 0 ∧ (env (st 0) always .none).lanes ≠ [] ∧ (env (st 0) always .none).full 1 = false ∧
    (∀ i ∈ ([.fadd (wf 0xC0), .fsub (wf 0x80), .fmul (wf 0x100), .ffma { wf 0x80 with c := .v 8 }, .fmin (wf 0x80), .fmax (wf 0x80), .fminnum (wf 0), .fmaxnum (wf 0x40), .frint { wf 0x80 with b := .z }, .flogb { wf 0x80 with b := .z }, .fscaleb (wf 0x80),
      .fdiv (wf 0x81), .fsqrt { wf 0x80 with b := .z }, .frcp { wf 0x81 with b := .z }, .frsq { wf 0x80 with b := .z }, .fexp2 { wf 0x80 with b := .z }, .flog2 { wf 0x80 with b := .z }, .fsin { wf 0x80 with b := .z }, .fcos { wf 0x80 with b := .z }, .ftanh { wf 0x80 with b := .z }] : List Instr), IssuesIn i (st 0)) :=
  ⟨by decide, by decide, by decide, issuesIn_all rfl (by decide)⟩
theorem witness_FloatSignResults : ∀ i ∈ ([.fabs { wf 0xC0 with b := .z }, .fneg { wf 0x80 with b := .z }, .fcopysign (wf 0x140)] : List Instr), IssuesIn i (st 0) := issuesIn_all rfl (by decide)
theorem witness_FloatSignOperand : (wf 0xC0).b ≠ .z ∧ curGang (st 0) = some (1, 0, gOf (st 0), aOf (st 0), hOf (st 0)) ∧
    (∃ c, clsOf (hOf (st 0)).cls.toNat = some c ∧ (Instr.fabs (wf 0xC0)).classOk c ((aOf (st 0)).idx == (hOf (st 0)).count.toNat) = true ∧ (Instr.fneg (wf 0xC0)).classOk c ((aOf (st 0)).idx == (hOf (st 0)).count.toNat) = true) :=
  ⟨by decide, by decide, (clsOf (hOf (st 0)).cls.toNat).get!, by decide, by decide, by decide⟩
/-- 1.0 over 0 with the division exception enabled. -/
def sTrap : State := withSr (fun r => { r with fpcr := 0x200 }) (withV 6 0 (withV 4 0x3F800000 (st 0)))
theorem witness_FloatTraps : IssuesIn (.fdiv (wf 0x80)) sTrap ∧ (teOf (env sTrap always .none).sr.fpcr).getLsbD 1 = true ∧ (teOf (env sTrap always .none).sr.fpcr).getLsbD 0 = false ∧
    (let r := floatLane (wf 0x80) 2 (fun f m sat fz a b _ => opDiv f m sat fz a b) (env sTrap always .none) 0; r.poison = false ∧ r.flags.getLsbD 1 = true) ∧ 0 ∈ (env sTrap always .none).lanes := ⟨issuesIn rfl (by decide), by decide, by decide, by decide, by decide⟩
theorem witness_FloatCompares : (∀ i ∈ ([.fcmp { wc with ty := 2, cond := 13 }, .fclass { wc with ty := 3, b := 0x18A }] : List Instr), IssuesIn i (st 0)) ∧ teOf (env (st 0) always .none).sr.fpcr = 0 ∧ fcmpHolds 13 (.nan true) (.nan false) = true ∧ fcmpHolds 2 (.nan false) (.inf true) = false :=
  ⟨issuesIn_all rfl (by decide), by decide, by decide, by decide⟩
theorem witness_ConversionResults : ∀ i ∈ ([.cvt ⟨always, .v 2, .v 4, .z, .z, false, false, false, 0x30⟩, .cvt ⟨always, .v 2, .v 4, .v 6, .z, false, false, false, 0x180⟩, .cvt ⟨always, .v 2, .v 4, .z, .v 8, false, false, false, 0x3C⟩, .cvti ⟨always, .v 2, .v 4, .z, .z, false, false, false, 0x130⟩,
    .icvtf ⟨always, .v 2, .v 4, .z, .z, false, false, false, 0xF0⟩] : List Instr), IssuesIn i (st 0) := issuesIn_all rfl (by decide)
/-- A clause of two words, the first about to issue. -/
def sTwo (w : DWord) : State := withG (fun g => g.updGang 0 fun a => { a with hdr := a.hdr.map fun h => { h with count := 1 } }) (st w)
theorem witness_ElementResults : (∀ i ∈ ([.dot ⟨always, .v 1, .v 2, .v 3, .v 4, false, false, false, 0x40⟩, .rng ⟨always, .v 2, .z, .z, .z, false, false, false, 0x100⟩, .qmx ⟨always, .v 1, .v 2, .z, .z, false, false, false, 0x100⟩, .expr ⟨always, .v 1, .v 4, .s 8, 255, false, false, 0⟩] : List Instr), IssuesIn i (sTwo 0)) ∧
    (env (sTwo 0) always .none).sr.trapCmix = false ∧ (aOf (sTwo 0)).idx < (hOf (sTwo 0)).count.toNat ∧ ((sTwo 0).part 0).hasSlot 255 = true ∧ firstBadUop .expr false (uopsOf 7 (slotWords (sTwo 0) 0 255)) = none :=
  ⟨issuesIn_all rfl (by decide), by decide, by decide, by decide, by decide⟩
theorem witness_FloatSpecialValues : f32.dec 0x7FC00000 = .nan false ∧ f32.dec 0x7F800001 = .nan true ∧ f32.dec 0x7F800000 = .inf false ∧ f32.dec 0xFF800000 = .inf true ∧ f32.dec 0 = .fin ⟨false, 0, -149⟩ ∧ f32.dec 0xBF800000 = .fin ⟨true, 8388608, -23⟩ :=
  ⟨by decide, by decide, by decide, by decide, by decide, by decide⟩

/-- s9:s8 holds an address. -/
def sAt (a : Word) : State := withS 8 a (st 0)
/-- A load of 16 bytes, a store of 4 bytes of v10, at s8. -/
def wLd (space : BitVec 2) : WM := ⟨always, .v 4, .s 8, .z, 0, 0, 0, false, 4, space, false, false⟩
def wSt (space : BitVec 2) : WM := ⟨always, .v 10, .s 8, .z, 0, 0, 0, false, 2, space, false, false⟩
def addrOf (e : Env) : Nat → DWord := fun L => (e.rN (.s 8) 2 L).val + (e.r32 .z L).w.signExtend 64 + BitVec.ofInt 64 0
/-- The page of the code, at its last bytes. -/
def here : Nat → Where := fun _ => ⟨[0x10FF0], 0, 0x1D⟩

theorem witness_LoadResults : (∀ i ∈ ([.ld (wLd 0), .ldu ⟨always, .s 4, .s 8, .z, 0, 0, 0, false, 3, 0, false, false⟩] : List Instr), IssuesIn i (sAt 0x10FF0)) ∧ (env (sAt 0x10FF0) always .none).lanes ≠ [] ∧ (env (sAt 0x10FF0) always .none).full 0 = false ∧
    GlobalAt (env (sAt 0x10FF0) always .none) (env (sAt 0x10FF0) always .none).lanes [(.s 8, 2), (.z, 1)] 16 (addrOf (env (sAt 0x10FF0) always .none)) .read false here :=
  ⟨issuesIn_all rfl (by decide), by decide, by decide, ⟨by decide, by decide, by decide, by decide⟩⟩
/-- The partition holds the first bank set. -/
def sSpad (a : Word) : State := (sAt a).updPart 0 fun p => { p with spsets := 1 }
theorem witness_LoadResults_scratchpad : IssuesIn (.lds (wLd 1)) (sSpad 0xFFFF0) ∧
    SpadAt (env (sSpad 0xFFFF0) always .none) (env (sSpad 0xFFFF0) always .none).lanes [(.s 8, 2), (.z, 1)] 16 (addrOf (env (sSpad 0xFFFF0) always .none)) :=
  ⟨issuesIn rfl (by decide), ⟨by decide, by decide, by decide +kernel⟩⟩
theorem witness_StoreResults : let s := withV 10 7 (sAt 0x10FF0); let e := env s always .none
    (∀ i ∈ ([.st (wSt 0), .stmc (wSt 0)] : List Instr), IssuesIn i s) ∧ GlobalAt e e.lanes [(.s 8, 2), (.z, 1), (.v 10, 1)] 4 (addrOf e) .write false here ∧ GlobalAt e e.lanes [(.s 8, 2), (.z, 1), (.v 10, 1)] 4 (addrOf e) .write true here :=
  ⟨issuesIn_all rfl (by decide), ⟨by decide, by decide, by decide, by decide⟩, ⟨by decide, by decide, by decide, by decide⟩⟩
theorem witness_StoreResults_scratchpad : let s := withV 10 7 (sSpad 0xFFFF0); let e := env s always .none
    IssuesIn (.sts (wSt 1)) s ∧ SpadAt e e.lanes [(.s 8, 2), (.z, 1), (.v 10, 1)] 4 (addrOf e) := ⟨issuesIn rfl (by decide), ⟨by decide, by decide, by decide +kernel⟩⟩
/-- One lane of the gang alone. -/
def oneLane (s : State) : State := withG (fun g => g.updSlice 0 fun x => { x with active := 1 }) s
/-- ATOM and ATOMS of v10 (and v11) with v6, RED of v10. -/
def wAt (op : BitVec 4) : WT := ⟨always, .v 6, .s 8, .z, .v 10, 0, 0, op, false, false, false, false⟩
theorem witness_AtomicResults : let s := oneLane (withV 11 0 (withV 10 7 (sAt 0x10FF0))); let e := env s always .none
    (∀ i ∈ ([.atom (wAt 0), .atom (wAt 9), .atom { wAt 0xF with data := .z }, .red ⟨always, .v 10, .s 8, .z, 0, 0, 0, false, 2, 0, false, false⟩] : List Instr), IssuesIn i s) ∧ e.full 0 = false ∧ 10 + 2 ≤ (gOf s).regs ∧ e.lanes = [0] ∧
    GlobalAt e e.lanes [(.s 8, 2), (.z, 1), (.v 10, 2)] 4 (fun L => (e.rN (.s 8) 2 L).val + (e.r32 .z L).w.signExtend 64) .update false here := ⟨issuesIn_all rfl (by decide), by decide, by decide, by decide, ⟨by decide, by decide, by decide, by decide⟩⟩
theorem witness_AtomicResults_scratchpad : let s := oneLane (withV 11 0 (withV 10 7 (sSpad 0xFFFF8))); let e := env s always .none
    (∀ i ∈ ([.atoms (wAt 0xC), .red ⟨always, .v 10, .s 8, .z, 0, 0, 0, false, 2, 1, false, false⟩] : List Instr), IssuesIn i s) ∧ e.lanes = [0] ∧
    SpadAt e e.lanes [(.s 8, 2), (.z, 1), (.v 10, 2)] 8 (fun L => (e.rN (.s 8) 2 L).val + (e.r32 .z L).w.signExtend 64) := ⟨issuesIn_all rfl (by decide), by decide, ⟨by decide, by decide, by decide +kernel⟩⟩
theorem witness_AtomicOperations : (exAdd ⟨false, 8388608, -23⟩ ⟨false, 8388608, -23⟩).m ≠ 0 ∧ f32.dec 0x3F800000 = .fin ⟨false, 8388608, -23⟩ ∧ f64.dec 0x3FF0000000000000 = .fin ⟨false, 4503599627370496, -52⟩ := ⟨by decide, by decide, by decide +kernel⟩

/-- The four outcomes that stop a load at an address. -/
theorem witness_MemoryChecks : ([0x10FF8, 0x11000, 0x10FF0].all (fun a => issuesB (.ld (wLd 0)) always (sAt a)) = true) ∧
    (addrOf (env (sAt 0x10FF8) always .none) 0).toNat % 16 ≠ 0 ∧
    (let s := withS 9 0x02000000 (sAt 0x10FF0); (addrOf (env s always .none) 0).extractLsb' 57 7 ≠ 0 ∧ issuesB (.ld (wLd 0)) always s = true) ∧
    (let s := withV 4 0 (sAt 0x10FF0); lookVa { s with looks := s.looks.map fun x => { x with attr := 0x1 } } 0 0 (addrOf (env s always .none) 0) .read false false = .perm ∧
      lookVa { s with looks := s.looks.map fun x => { x with attr := 0xDD } } 0 0 (addrOf (env s always .none) 0) .read false false = .trans 0) ∧
    poisonLanes (env (sAt 0x10FF0) always .none) [(.s 8, 2), (.z, 1), (.v 10, 1)] ≠ [] ∧ (env (sAt 0x10FF0) always .none).sr.trapPoison = true ∧ issuesB (.st (wSt 0)) always (sAt 0x10FF0) = true ∧
    (env (sAt 0x10FF0) always .none).full 0 = false := ⟨by decide, by decide, by decide, by decide, by decide, by decide, by decide, by decide⟩
theorem witness_MemoryChecks_scratchpad : issuesB (.lds (wLd 1)) always (sSpad 0x100000) = true ∧ ((sSpad 0x100000).part 0).spadSize 0 < (addrOf (env (sSpad 0x100000) always .none) 0).toNat + 16 := ⟨by decide +kernel, by decide +kernel⟩
theorem witness_FencesAndCacheControl : (∀ i ∈ ([.fence ⟨always, .z, .z, .z, 0, 4, 3, false, 0, 0, false, false⟩, .ifence ⟨always, .z, .z, .z, 0, 4, 0, false, 0, 0, false, false⟩, .cctl ⟨always, .z, .s 8, .z, 2, 0, 0, false, 0, 0, false, false⟩, .pref ⟨always, .z, .s 8, .z, 0, 0, 0, false, 0, 0, false, false⟩, .evict ⟨always, .z, .s 8, .z, 0, 0, 0, false, 0, 0, false, false⟩] : List Instr), IssuesIn i (sAt 0x10FF0)) ∧
    poisonLanes (env (sAt 0x10FF0) always .none) [(.s 8, 2), (.z, 1)] = [] ∧ (∀ L ∈ (env (sAt 0x10FF0) always .none).lanes, lookVa (sAt 0x10FF0) 0 0 (addrOf (env (sAt 0x10FF0) always .none) L) .read false false ≠ .miss) :=
  ⟨issuesIn_all rfl (by decide), by decide, by decide⟩
theorem witness_FloatCompares_scale : (0 : Int) ≤ -23 + 23 ∧ fcmpHolds 3 (.fin ⟨true, 0, -149⟩) (.fin ⟨false, 0, 5⟩) = true ∧ fclassHolds f32 5 1 = true ∧ fclassHolds f32 6 1 = false := by decide
theorem witness_FloatCompares_infinity : (3 : Nat) * 2 ^ (0 : Int).toNat < 2 ^ 5000 := by
  have h : (2 : Nat) ^ 2 ≤ 2 ^ 5000 := Nat.pow_le_pow_right (by decide) (by decide)
  exact Nat.lt_of_lt_of_le (by decide) h
theorem witness_AtomicOperations_special : f32.dec 0x7FC00000 = .nan false ∧ f64.dec 0xFFF0000000000000 = .inf true ∧ f32.dec 0x80000000 = .fin ⟨true, 0, -149⟩ ∧ (exAdd ⟨true, 0, -149⟩ ⟨true, 0, -149⟩).m = 0 := ⟨by decide, by decide +kernel, by decide, by decide⟩
/-- The group is together wherever it accesses; a load of the constant space. -/
theorem witness_Together : (∀ s ∈ [sAt 0x10FF0, withV 10 7 (sAt 0x10FF0), oneLane (withV 10 7 (sAt 0x10FF0))], (env s always .none).g0.late = [] ∧ (env s always .none).lanes ≠ []) ∧ Together (env (sAt 0x10FF0) always .none) ∧ Together (env (withV 10 7 (sSpad 0xFFFF0)) always .none) ∧
    IssuesIn (.ld (wLd 2)) (sAt 0x10FF0) := ⟨by decide, ⟨by decide, by decide⟩, ⟨by decide, by decide⟩, issuesIn rfl (by decide)⟩
/-- Every instruction that the checks of 12 R249 stand before, at an address that fails one of them. -/
theorem witness_MemoryChecks_all : ([0x10FF2, 0x20FF0].all fun a => issuesB (.ldu ⟨always, .s 4, .s 8, .z, 0, 0, 0, false, 3, 0, false, false⟩) always (sAt a) && issuesB (.stmc (wSt 0)) always (sAt a) && issuesB (.atom (wAt 0)) always (sAt a) && issuesB (.red ⟨always, .v 10, .s 8, .z, 0, 0, 0, false, 2, 0, false, false⟩) always (sAt a)) = true := by decide
theorem witness_MemoryChecks_scratchpad_all : ([0xFFFF2, 0x100000].all fun a => issuesB (.sts (wSt 1)) always (sSpad a) && issuesB (.atoms (wAt 0)) always (sSpad a) && issuesB (.red ⟨always, .v 10, .s 8, .z, 0, 0, 0, false, 2, 1, false, false⟩) always (sSpad a)) = true := by decide
theorem witness_MemoryChecks_outcomes : (addrOf (env (sAt 0x10FF2) always .none) 0).toNat % 4 = 2 ∧ lookVa (sAt 0x20FF0) 0 0 0x20FF0 .update false false = .miss ∧ (let s := sAt 0x20FF0; lookVa { s with looks := [⟨0, 0, 0x20000, 0x20FFF, 0x20000, 1, 0, true, false, 4096⟩] } 0 0 0x20FF0 .update false false = .perm) := ⟨by decide, by decide, by decide⟩
/-- A store of lanes 0 and 1 not performed yet when its side fences. -/
def sLate : State := withG (fun g => { g with late := [⟨15, 1, false, 0x10F00, 4, 0, 7, false, 0, false, 0, [], 0, 0⟩] }) (st 0)
theorem witness_Fences_late : (sLate.group? 1).isSome = true ∧ ((gOf sLate).gang? 0).isSome = true ∧ 15 &&& (gOf sLate).activeMask (aOf sLate).slices ≠ 0 ∧ (actingLanes sLate (gOf sLate) (aOf sLate) always).1 ≠ [] := by decide
/-- Lane 0 of a store may not write its page; lanes 1 to 3 reach another device, which has refused them. -/
def wOff : WM := ⟨always, .v 10, .s 8, .v 5, 0, 0, 0, false, 2, 0, false, false⟩
def sLeave (r : RemoteResp) : State :=
  let s := withV 10 7 (withG (fun g => (List.range 4).foldl (fun g L => g.putCell (keyV L 5) ⟨if L = 0 then 0 else 0x10000, false, 0⟩) g) (sAt 0x10F00))
  { withG (fun g => { g with remote := [1, 2, 3].map fun L => ⟨20 + L, (aOf s).pc, (aOf s).idx, 100 + L, 0, ⟨0, 0, 0, 0x20F00, 3, 4, 0, [], []⟩, some r, false, 0, []⟩ }) s with
    looks := [⟨0, 0, 0x10000, 0x10FFF, 0x10000, 0x15, 0, true, false, 4096⟩, ⟨0, 0, 0x20000, 0x20FFF, 0x20000, 0x10000000000001D, 0, true, false, 4096⟩] }
def offOf (s : State) (L : Nat) : DWord := let e := env s always .none; (e.rN (.s 8) 2 L).val + (e.r32 (.v 5) L).w.signExtend 64
theorem witness_MemoryChecks_leave : issuesB (.st wOff) always (sLeave .refused) = true ∧ (let s := sLeave .refused; lookVa s 0 0 (offOf s 0) .write false false = .perm ∧ ∀ L ∈ [1, 2, 3], lookVa s 0 0 (offOf s L) .write false false = .at_ ⟨[0x20F00], 1, 0x10000000000001D⟩) := ⟨by decide, by decide⟩
/-- The records of the context after an instruction, each with its cause and lanes. -/
def recsOf (i : Instr) (s : State) : List (Nat × Nat) := match exec i s with | .next t => (t.ctx 0).recs.map fun r => (r.cause, r.lanes) | _ => []
/-- 12 R249: the first failing check halts with every lane that fails it, whichever device refuses; check 5 stands before check 6. -/
theorem test_checks_leave : recsOf (.st wOff) (sLeave .refused) = [(0x21, 15)] ∧ recsOf (.st wOff) (sLeave .undeliverable) = [(0x20, 14)] := ⟨by decide +kernel, by decide +kernel⟩
/-- A word that has been written since, and a launch on the cores 0, 1 and 5, of which 0 and 1 form a cluster. -/
def sFetched : State := { sAt 0x10FF0 with turn := 4, past := [⟨0x10F00, 5, (false, false), 3⟩], launches := [(0, { (default : Launch) with rec_ := { (default : LRec) with w := 3, h := 1, lcw := 1 }, map := [0, 1, 5] })] }
def wIf (scope : BitVec 3) : WM := ⟨always, .z, .z, .z, 0, scope, 0, false, 0, 0, false, false⟩
theorem witness_Fences_scopes : (∀ k ∈ [0, 1, 2, 3, 4], issuesB (.ifence (wIf (BitVec.ofNat 3 k))) always sFetched = true) ∧ (env sFetched always .none).lanes ≠ [] ∧ (∀ p ∈ sFetched.past, p.upTo ≤ sFetched.turn) ∧ markedMem sFetched 0x10F00 8 = false := by decide
/-- 22 R388: an IFENCE drops what the cores within its scope hold: its own, those of its cluster, those of its die. -/
theorem test_ifence_scopes : ([0, 2, 3].map fun k => match exec (.ifence (wIf (BitVec.ofNat 3 k))) sFetched with | .next t => [0, 1, 5, 16].map fun c => sgetD 0 c t.dropped == 4 | _ => []) = [[true, false, false, false], [true, true, false, false], [true, true, true, false]] := by decide +kernel
theorem witness_FloatSpecialValues_numbers : ([f16, bf16, f32].map fun f => f.dec 1) = [.fin ⟨false, 1, -24⟩, .fin ⟨false, 1, -133⟩, .fin ⟨false, 1, -149⟩] ∧ f32.dec 0xFF800000 = .inf true ∧ (∀ d, Rnd.rn ≠ .sr d) ∧ (-128 : Int) ≤ 127 := ⟨by decide, by decide, fun _ => nofun, by decide⟩
/-- 11 R233, R235, R236: FLOGB of the smallest f32 is −149; 1 + 2^-8 to bf16 under .rn and .rna; −0.5 to u32 is 0, inexact, and −0.7 invalid; FRINT of −0.3 is −0. -/
theorem test_rounding : (opLogb f32 1).bits = 0xC3150000 ∧ convTo bf16 .rn false false (f32.dec 0x3F808000) = ⟨0x3F80, fInexact⟩ ∧ convTo bf16 .rna false false (f32.dec 0x3F808000) = ⟨0x3F81, fInexact⟩ ∧
    convInt 0 (2 ^ 32 - 1) .rn (f32.dec 0xBF000000) = (0, fInexact) ∧ convInt 0 (2 ^ 32 - 1) .rn (f32.dec 0xBF333333) = (0, fInvalid) ∧ opRint f32 .rn 0xBE99999A = ⟨0x80000000, fInexact⟩ := by decide +kernel

/-! ## Witnesses: the matrix unit -/

/-- A matrix clause about to issue, with the first bank set. -/
def sX : State := (st 0x7D00000000000000).updPart 0 fun p => { p with spsets := 1 }
def xw : WX := ⟨always, .s 8, 0, 0, 0, 0, 0, 0, false, 0, 0⟩
/-- A loop of one k-step with rows of 64 bytes. -/
def sLoop : State := withS 13 0x40004 (withS 12 1 sX)
/-- MLOOP of f16, no drain. -/
def wLoop : WX := { xw with fa := 2, fb := 2, mod := 4 }
def dLoop : List Word := [0, 0, 0, 0, 1, 0x40004, 0, 0]

theorem witness_MatrixOperationsJoin_loop : let e := env sLoop always .none
    IssuesIn (.mloop wLoop) sLoop ∧ e.lanes ≠ [] ∧ e.full 2 = false ∧ queueFree 0 (sLoop.queue 0) = true ∧ e.sregs (.s 8) 8 = (dLoop, false) ∧ loopFields false wLoop dLoop = true ∧ e.g0.ownsTile false 0 = true ∧
    ((loopDesc dLoop).bbase : Int) % rowAlign 2 = 0 ∧ ((loopDesc dLoop).bpitch : Int) % rowAlign 2 = 0 ∧ ((loopDesc dLoop).apitch : Int) % rowAlign 2 = 0 ∧ e.sr.trapCmix = false ∧
    (∀ k, k < loopSteps false 2 dLoop → ∀ i, i < 64 → ∀ x ∈ loopSpans false 2 2 none false false dLoop k i, 0 ≤ x.1 ∧ x.1 + x.2 ≤ 0x100000) ∧ ((sLoop.part 0).spadSize 0) = 0x100000 :=
  ⟨issuesIn rfl (by decide), by decide, by decide, by decide, by decide, by decide, by decide, by decide, by decide, by decide, by decide, by decide +kernel, by decide +kernel⟩
/-- A convolution of 16 channels with a 1 × 1 kernel over a 1 × 1 picture. -/
def wConv : WX := { xw with fa := 2, fb := 2, mod := 4 }
def dConv : List Word := [0, 0, 0, 0, 0, 0x40000, 0, 0, 0x00100001, 0x00010001, 0x11110101, 0, 0, 4, 0, 0]
def sConv : State := withS 21 4 (withS 18 0x11110101 (withS 17 0x00010001 (withS 16 0x00100001 (withS 13 0x40000 sX))))
theorem witness_MatrixOperationsJoin_conv : IssuesIn (.mconv wConv) sConv ∧ (env sConv always .none).sregs (.s 8) 16 = (dConv, false) ∧ loopFields true wConv dConv = true ∧ loopSteps true 2 dConv = 1 ∧
    (∀ i, i < 64 → ∀ x ∈ loopSpans true 2 2 none false false dConv 0 i, 0 ≤ x.1 ∧ x.1 + x.2 ≤ 0x100000) := ⟨issuesIn rfl (by decide), by decide, by decide, by decide, by decide +kernel⟩
/-- Tile instructions: s8 an offset of 64, s9 a pitch of 16 × 16. -/
def sTile : State := withS 9 16 (withS 8 64 sX)
theorem witness_MatrixOperationsJoin_tiles : let e := env sTile always .none
    (∀ i ∈ ([.mzero { xw with base := .z, t := 6, mod := 1 }, .mlda xw, .msta { xw with t := 7 }, .accrd { xw with base := .v 2, t := 6, slot := 63, mod := 0x103 }, .accwr { xw with base := .v 2, slot := 0x88 }, .pvapply { xw with base := .z, p := 3 }, .pvmov { xw with base := .z, p := 3 }, .pvmov { xw with base := .z, p := 3, mod := 4, slot := 63 },
      .drain { xw with mod := 0 }, .epload ⟨always, .z, .s 8, .z, 254, 0, false, 1⟩] : List Instr), IssuesIn i sTile) ∧
    (e.sregs (.s 8) 2).2 = false ∧ e.g0.ownsTile true 6 = true ∧ e.g0.ownsTile false 7 = true ∧ e.g0.ownsPv 3 = true ∧ e.full 1 = false ∧ queueFree 0 (sTile.queue 0) = true ∧
    (wordAt (e.sregs (.s 8) 2).1 0).toNat = 64 ∧ (wordAt (e.sregs (.s 8) 2).1 1).toNat = 16 ∧ 64 + 63 * 16 * 16 + 256 ≤ (e.s0.part e.part).spadSize 0 ∧
    (e.rc (.s 8) 0 0).poison = false ∧ (e.rc (.s 8) 0 0).get.toNat = 64 ∧ (e.s0.part e.part).hasSlot 255 = true ∧ (e.s0.part e.part).hasSlot 0 = true ∧ firstBadUop .f32 true (uopsOf 16 (slotWords e.s0 0 0)) = none ∧
    (pairAt (e.sregs ((Opd.s 8).plus 6) 2).1 0).toNat % 64 = 0 ∧ (e.sregs ((Opd.s 8).plus 6) 2).2 = false ∧ tilePair true 6 = true ∧ ownLoop false wLoop = true ∧ ownLoop true wConv = true :=
  ⟨issuesIn_all rfl (by decide), by decide, by decide, by decide, by decide, by decide, by decide, by decide, by decide, by decide +kernel, by decide, by decide, by decide, by decide, by decide, by decide, by decide, by decide, by decide, by decide⟩
/-- An odd tile of a pair. -/
theorem witness_MatrixOperationsJoin_refused : (∀ i ∈ ([.mzero { xw with base := .z, t := 7, mod := 1 }, .pvapply { xw with base := .z, t := 7, mod := 1 }] : List Instr), IssuesIn i sTile) ∧ tilePair true 7 = false := ⟨issuesIn_all rfl (by decide), by decide⟩
theorem witness_MatrixOperationsJoin_row : (let c := (env (withS 8 63 sX) always .none).rc (.s 8) 0 0; c.poison = false ∧ c.get.toNat = 63) := by decide

theorem witness_FactorisationsJoin : let e := env sTile always .none
    (∀ i ∈ ([.faclu { xw with fa := 1 }, .facch { xw with fa := 1 }, .facqr { xw with fa := 1, slot := 0x88 }, .trsm { xw with base := .z, fa := 1, x := 7 }] : List Instr), IssuesIn i sTile) ∧ e.g0.ownsTile false 0 = true ∧ e.g0.ownsPv 0 = true ∧ e.g0.ownsTile false 7 = true ∧
    (e.rc (.s 8) 0 0).get.toNat % 4 = 0 ∧ 64 + 64 * 4 ≤ (e.s0.part e.part).spadSize 0 ∧ e.lanes ≠ [] ∧ queueFree 0 (sTile.queue 0) = true ∧
    (∀ i ∈ ([.faclu { xw with fa := 1 }, .facch { xw with fa := 1 }, .facqr { xw with fa := 1, slot := 0x88 }, .trsm { xw with base := .z, fa := 1, x := 7 }] : List Instr), i.ownOk = true) ∧
    IssuesIn (.faclu { xw with fa := 0, t := 1 }) sTile ∧ (Instr.faclu { xw with fa := 0, t := 1 }).ownOk = false :=
  ⟨issuesIn_all rfl (by decide), by decide, by decide, by decide, by decide, by decide +kernel, by decide, by decide, by decide, issuesIn rfl (by decide), by decide⟩
/-- A group whose resume point is here and armed. -/
def sResume : State := withG (fun g => { g with resume := some ⟨0x10000, 0, 63, 5, false, true⟩ }) sX
theorem witness_FactorisationsJoin_resumed : (gOf sResume).resume = some ⟨0x10000, 0, 63, 5, false, true⟩ ∧ (aOf sResume).pc = 0x10000 ∧ (aOf sResume).idx = 0 := by decide

/-- An operation in the queue of quadrant 0. -/
def opOf (k : SeqKind) (phase kdone : Nat) : SeqOp := ⟨9, 1, 0, k, 9, phase, kdone, [], none, 0, 0, 0, false, 0x10000, 0, [], []⟩
def sOp (op : SeqOp) : State := sX.setQueue 0 [op]
theorem witness_SequencerPerforms : (∀ k ∈ ([.mzero 6 true, .mlda 7 64 256, .msta 7 64 256, .accrd 6 63 true 1 [(0, 2, 3)] 9, .accwr 6 63 true 1 [(0, ⟨7, false, 0⟩, ⟨8, true, 0⟩)], .pvapply 6 3 true false, .pvapply 6 3 false true, .pvmov 0 0 0 0 3, .pvmov 1 0 0 3 0, .pvmov 2 7 63 0 3, .pvmov 3 7 63 3 0, .epload 254 2 64] : List SeqKind),
      seqReady (sOp (opOf k 0 0)) 0 = some (opOf k 0 0)) ∧ (sX.group? 1).isSome = true ∧ 64 + 63 * 256 + 256 ≤ (sX.part 0).spadSize 0 := ⟨by decide, by decide, by decide +kernel⟩
theorem witness_LoopIsDotContract : matInt 2 = false ∧ (let r : Row := ⟨[], List.replicate 16 (.fin ⟨false, 1, 0⟩, false), 0⟩; r.vals.length = matK 2 ∧ ∀ v ∈ r.vals, v.2 = false) := by decide
/-- A loop under way, all 4,096 elements at their start. -/
def opLoop (last : Bool) : SeqOp := { opOf (.loop false 0 0 0 1 2 2 none false false true (if last then dLoop else [0, 0, 0, 0, 2, 0x40004, 0, 0]) []) 1 0 with elems := List.replicate 4096 default }
theorem witness_LoopIsDotContract_step : ((sOp (opLoop true)).queue 0).find? (fun o => o.phase == 1 && ((sOp (opLoop true)).ctx o.ctx).st == .running) = some (opLoop true) ∧ (opLoop true).elems.length = 4096 ∧
    0 + 1 < loopSteps false 2 [0, 0, 0, 0, 2, 0x40004, 0, 0] ∧ loopSteps false 2 dLoop ≤ 0 + 1 := ⟨rfl, List.length_replicate, by decide, by decide⟩

/-- A drain under way: one STM of a mask to memory at an address. -/
def dData (mb : DWord) : DrainData := ⟨[], [], [], 0, 0, mb, 0, 0, 8, 0, 0⟩
def opDrain (mb : DWord) : SeqOp := { opOf (.drain 0 0 0 5 0x10000 [0xB0DFF000]) 2 0 with dpb := some (dData mb) }
theorem witness_DrainRowsAndCompletion : ((sOp (opDrain 0x10F00)).queue 0).find? (fun o => o.phase == 2 && (((sOp (opDrain 0x10F00)).ctx o.ctx).st == .running || (((sOp (opDrain 0x10F00)).ctx o.ctx).st.stopsOrRuns && rowBegun (sOp (opDrain 0x10F00)) o))) = some (opDrain 0x10F00) ∧
    (drainStores (opDrain 0x10F00) (dData 0x10F00) 0 (drainElems (opDrain 0x10F00) (gOf sX) .f32 0 [0xB0DFF000] (dData 0x10F00) 0) sX).map (·.addr) = [0x10F00] ∧
    (∀ x ∈ drainStores (opDrain 0x10F00) (dData 0x10F00) 0 (drainElems (opDrain 0x10F00) (gOf sX) .f32 0 [0xB0DFF000] (dData 0x10F00) 0) sX, ∃ w ∈ [(⟨[0x10F00], 0, 0x1D⟩ : Where)], dPlace sX (gOf sX) x = .mem w ∧ w.node = 0) := ⟨rfl, by decide +kernel, by decide +kernel⟩
theorem witness_DrainRows_fault : (drainStores (opDrain 0x10F01) (dData 0x10F01) 0 (drainElems (opDrain 0x10F01) (gOf sX) .f32 0 [0xB0DFF000] (dData 0x10F01) 0) sX).map (dPlace sX (gOf sX)) = [.fault 0x22] ∧
    (drainStores (opDrain 0x20F00) (dData 0x20F00) 0 (drainElems (opDrain 0x20F00) (gOf sX) .f32 0 [0xB0DFF000] (dData 0x20F00) 0) { sX with looks := [] }).map (dPlace { sX with looks := [⟨0, 0, 0x20000, 0x20FFF, 0x20000, 5, 0, true, false, 4096⟩] } (gOf sX)) = [.fault 0x21] := ⟨by decide +kernel, by decide +kernel⟩
/-- A finished operation, counted on wm. -/
def sDone : State := withG (fun g => { g with out := [⟨2, 9, true⟩] }) (sOp (opOf (.mlda 0 0 256) 3 0))
theorem witness_MatrixCompletion : (gOf sDone).oldest 2 = some ⟨2, 9, true⟩ ∧ (sDone.queue 0).find? (fun o => o.tok == 9 && o.gid == 1 && o.phase == 3) = some (opOf (.mlda 0 0 256) 3 0) := by decide

/-- A factorisation under way at a column, with a value on the diagonal. -/
def opFac (which k : Nat) : SeqOp := opOf (.fac which false 0 7 0 (.s 4) false false false false 0 1) 1 k
def sFac (which k : Nat) (v : Word) : State := withG (fun g => (g.putTile 0 k k ⟨v, false, 0⟩).updGang 0 fun a => { a with hold := .factor }) (sOp (opFac which k))
theorem witness_FactorColumns : (∀ p ∈ [(0, 0), (0, 63), (1, 0), (1, 63), (2, 63), (3, 63)], facRunning (sFac p.1 p.2 0x3F800000) 0 = some (opFac p.1 p.2)) ∧
    (∀ p ∈ [(0, 64), (1, 64), (2, 64)], facGrowing (sFac p.1 p.2 0x3F800000) 0 = some (opFac p.1 p.2) ∧ facGrowing ((sFac p.1 p.2 0x3F800000).updCtx 0 fun x => { x with st := .halting }) 0 = some (opFac p.1 p.2)) ∧
    facFmt false = f32 ∧ f32.dec 0x3F800000 = .fin ⟨false, 8388608, -23⟩ ∧ isZero f32 0x3F800000 = false ∧ isZero f32 0 = true ∧ ranksAbove f32 0 0x3F800000 = false ∧ ranksAbove f32 0 0 = false ∧
    ((gOf (sFac 1 63 0x3F800000)).elemAt false 0 63 63).val = 0x3F800000 ∧
    (gOf (sFac 0 0 0)).sr.utvec = 0 ∧ ((gOf (sFac 0 0 0)).gang? (facSlice (gOf (sFac 0 0 0)) 1)).isSome = true ∧ ((sFac 0 0 0).ctx 0).st = .running :=
  ⟨by decide, by decide, rfl, by decide, by decide, by decide, by decide, by decide, by decide, by decide, by decide, by decide⟩
/-- The same with a handler at the header behind the clause. -/
def sFacV : State := withSr (fun r => { r with utvec := 0x10010 }) (writeMem 0x10010 8 0xF80FFFFFF0000000 false (sFac 0 0 0))
theorem witness_FactorColumns_handler : facRunning sFacV 0 = some (opFac 0 0) ∧ ((gOf sFacV).effSr sFacV).utvec = 0x10010 ∧ (gOf sFacV).sr.handler = false ∧ ((gOf sFacV).gang? (facSlice (gOf sFacV) 1)).isSome = true ∧
    (∃ x, fetchWord sFacV 1 (gOf sFacV) 0x10010 = .ok x ∧ (decHeader x).isSome = true) := ⟨by decide, by decide, by decide, by decide, ⟨_, rfl, by decide⟩⟩
theorem witness_LoopIsDotContract_integer : matInt 9 = true ∧ (let r : Row := ⟨List.replicate (matK 9) ⟨0x80, false⟩, [], 0⟩; r.codes.length = matK 9) := ⟨rfl, List.length_replicate⟩
theorem witness_LoopIsDotContract_none : loopSteps false 2 [0, 0, 0, 0, 0, 0x40004, 0, 0] = 0 := by decide
/-- A step of FACQR has room for its 64 tau, and one of TRSM another tile than the triangle. -/
theorem witness_FactorColumns_steps : (∀ k ∈ [0, 63], facRunning (sFac 2 k 0x3F800000) 0 = some (opFac 2 k) ∧ facRunning (sFac 3 k 0x3F800000) 0 = some (opFac 3 k)) ∧ 0 % 4 = 0 ∧ 0 + 256 ≤ (sX.part 0).spadSize 0 ∧ isNan f32 0 = false := ⟨by decide, by decide, by decide +kernel, by decide⟩
/-- An operation with a store of its own that waits. -/
theorem witness_MatrixCompletion_pend : let o := { opOf (.mlda 0 0 256) 3 0 with pend := [⟨true, 64, 4, 7, false, 0⟩] }; (sOp o).queue 0 = [o] ∧ ∀ x ∈ o.pend, x.meets x = true := by decide

/-! ## Witnesses: messages -/

/-- A launch of one core. -/
def oneCore : Launch := { (default : Launch) with rec_ := { (default : LRec) with w := 1, h := 1 }, map := [0] }
/-- Sent to queue q of the group's own core, whose line holds n credits. -/
def sPut (n : Nat) : State := ({ st 0x7800000000000000 with launches := [(0, oneCore)] }).setLines 0 0 [⟨0, 0, n, false, false, 0⟩]
/-- MSGPUT.try to p3 with the target in s4 and the data from s16. -/
def wPut (m : BitVec 9) : WA := ⟨always, .s 16, .s 4, .z, 3, 0, false, m⟩
theorem witness_MessageSends : let u : Uses := ⟨[(.s 4, 1, false), (.s 16, 16, false)], [], [], [3], true⟩; let e (s : State) := mkEnv s 1 (gOf s) (aOf s) (hOf s) always u
    (∀ n ∈ [0, 2], IssuesIn (.msgput (wPut 1)) (sPut n) ∧ (e (sPut n)).leader = some 0 ∧ poisonLanes (e (sPut n)) [(.s 4, 1), (.s 16, 16)] = [] ∧ coreAt (sPut n) (gOf (sPut n)) 0 0 = some 0) ∧
    IssuesIn (.msgput { wPut 0 with imm := 0 }) (sPut 0) ∧ lineOf 0 0 ((sPut 2).lines 0 0) = some ⟨0, 0, 2, false, false, 0⟩ ∧ lineOf 0 0 ((sPut 0).lines 0 0) = some ⟨0, 0, 0, false, false, 0⟩ ∧
    (let s := withS 4 (1023 * 1024 + 4) (sPut 2); IssuesIn (.msgput (wPut 1)) s ∧ ((e s).r32 (.s 4) 0).w.toNat / 2 ^ 18 ≠ 0) ∧
    (let s := withS 4 4 (sPut 2); IssuesIn (.msgput (wPut 1)) s ∧ coreAt s (gOf s) 1 0 = none) ∧
    (Instr.msgput (wPut 1)).ownOk = true ∧ (Instr.msgput { wPut 0 with imm := 0 }).ownOk = true ∧ IssuesIn (.msgput { wPut 1 with imm := 13 }) (sPut 2) ∧ (Instr.msgput { wPut 1 with imm := 13 }).ownOk = false :=
  ⟨fun n hn => by
      rcases List.mem_cons.1 hn with rfl | hn
      · exact ⟨issuesIn rfl (by decide), by decide, by decide, by decide⟩
      · rw [List.mem_singleton.1 hn]; exact ⟨issuesIn rfl (by decide), by decide, by decide, by decide⟩,
    issuesIn rfl (by decide), by decide, by decide, ⟨issuesIn rfl (by decide), by decide⟩, ⟨issuesIn rfl (by decide), by decide⟩, by decide, by decide, issuesIn rfl (by decide), by decide⟩
/-- Queue 0 of the core: 2,048 entries at 0, h taken of t. -/
def sQ (cfg : Word) (h t : Nat) : State := (st 0x7800000000000000).setMq 0 0 0 ⟨cfg, BitVec.ofNat 32 (h + t * 65536), 1, []⟩
theorem witness_MessageTakes : (∀ i ∈ ([.msgtake ⟨always, .z, .v 16, .z, 0xC, 0, false, 0⟩, .msgtake ⟨always, .z, .s 16, .z, 0xC, 0, false, 0x100⟩] : List Instr), IssuesIn i (sQ 0x800B0000 3 5)) ∧ (env (sQ 0x800B0000 3 5) always .none).lanes ≠ [] ∧
    (env (sQ 0x800B0000 3 5) always .none).full 0 = false ∧ (let m (c : Word) (h : Nat) := (env (sQ c h 5) always .none).mqSeen 0; ((m 0x800B0000 3).en = true ∧ (m 0x800B0000 3).head ≠ (m 0x800B0000 3).tail) ∧ (m 0x800B0000 5).head = (m 0x800B0000 5).tail ∧ (m 0 3).en = false) :=
  ⟨issuesIn_all rfl (by decide), by decide, by decide, by decide⟩
/-- An append under way. -/
def sApp (cfg : Word) (v : Bool) : State := { sQ cfg 0 65535 with msgs := [(9, .append 0 1 0 0 v (List.replicate 16 ⟨7, false⟩))] }
theorem witness_MessageArrives : sget 9 (sApp 0x800B0000 false).msgs = some (.append 0 1 0 0 false (List.replicate 16 ⟨7, false⟩)) ∧ (∀ p ∈ (sApp 0x800B0000 false).msgs, ¬ p.1 < 9) ∧ partKilling (sApp 0x800B0000 false) 0 = false ∧
    ((sApp 0x800B0000 false).mq 0 0 0).en = true ∧ ((sApp 0 false).mq 0 0 0).en = false ∧ (List.replicate 16 (⟨7, false⟩ : PWord)).length = 16 ∧ sget 9 (sApp 0x800B0000 true).msgs = some (.append 0 1 0 0 true (List.replicate 16 ⟨7, false⟩)) ∧
    partKilling ((sApp 0x800B0000 false).updCtx 1 fun x => { x with st := .killing }) 0 = true := ⟨by decide, by decide, by decide, by decide, by decide, by decide, by decide, by decide⟩
/-- A request and a grant under way. -/
def sReq (cfg : Word) (m : Msg) : State := { sQ cfg 0 0 with msgs := [(0, m)] }
/-- Lines for the queues 0 and 1 of nine cores, in use order. -/
def seventeen (n : Nat) : List Credit := (List.range n).map fun i => ⟨i / 2, i % 2, 1, false, false, i⟩
theorem witness_CreditMessages : (let r (c : Word) := sReq c (.request 0 5 0 0); let m (c : Word) := (r c).mq 0 0 0; let h (l : List Nat) : State := (r 0x800B0000).setMq 0 0 0 ⟨0x800B0000, 0x08000000, 1, l⟩
      sget 0 (r 0).msgs = some (.request 0 5 0 0) ∧ 0 < (r 0).nextId ∧ (m 0).en = false ∧ (m 0x800B0000).en = true ∧ (m 0x800B0000).held = [] ∧ min 4 (2 ^ cfgLg (m 0x800B0000).cfg - (m 0x800B0000).entries - (m 0x800B0000).reserved) ≠ 0 ∧
      (let f : State := { (r 0) with mqs := ((r 0).setMq 0 0 0 ⟨0x80000000, 0x00010000, 0, []⟩).mqs }; let k := f.mq 0 0 0; k.en = true ∧ 2 ^ cfgLg k.cfg ≤ k.entries + k.reserved ∧ 5 ∉ k.held) ∧ 5 ∈ ((h [5]).mq 0 0 0).held ∧ ((h [5]).mq 0 0 0).en = true) ∧
    (let s (c : Credit) (v : Bool) := (sReq 0x800B0000 (.grant 0 0 0 0 4 v)).setLines 0 0 [c]; ∀ v ∈ [false, true], sget 0 (s ⟨0, 0, 0, false, true, 0⟩ v).msgs = some (.grant 0 0 0 0 4 v) ∧
      (∃ c, lineOf 0 0 (((s ⟨0, 0, 0, false, true, 0⟩ v).lines 0 0).take 16) = some c ∧ c.asked = true) ∧ (∀ c, lineOf 0 0 (((s ⟨0, 1, 0, false, false, 0⟩ v).lines 0 0).take 16) = some c → c.asked = false) ∧
      (∃ g, (s ⟨0, 0, 0, false, true, 0⟩ v).group? 1 = some g ∧ g.part = 0 ∧ g.core = 0) ∧ ((s ⟨0, 0, 0, false, true, 0⟩ v).mq 0 0 0).held = []) ∧
    (let ls (n : Nat) := ((st 0).setLines 0 0 (seventeen n)).lines 0 0; ls 17 = seventeen 17 ∧ ls 16 = seventeen 16 ∧ 16 < (ls 17).length ∧ (ls 16).length ≤ 16) ∧ (∃ n, (seventeen 17)[16]? = some n ∧ n.asked = false) ∧ ((st 0).mq 0 0 0).held = [] ∧
    (∀ (i j : Nat) (c d : Credit), (seventeen 17)[i]? = some c → (seventeen 17)[j]? = some d → c.core = d.core → c.q = d.q → i = j) := by
  refine ⟨by decide, fun v hv => ?_, by decide, ⟨_, rfl, rfl⟩, by decide, ?_⟩
  · rcases List.mem_cons.1 hv with rfl | h
    · exact ⟨by decide, ⟨_, rfl, rfl⟩, fun c hc => (nomatch hc), ⟨_, rfl, rfl, rfl⟩, by decide⟩
    · rw [List.mem_singleton.1 h]; exact ⟨by decide, ⟨_, rfl, rfl⟩, fun c hc => (nomatch hc), ⟨_, rfl, rfl, rfl⟩, by decide⟩
  · have hl : ∀ (i : Nat) (c : Credit), (seventeen 17)[i]? = some c → c.core = i / 2 ∧ c.q = i % 2 := fun i c h => by
      simp only [seventeen, List.getElem?_map, Option.map_eq_some_iff] at h
      obtain ⟨k, hk, rfl⟩ := h
      rw [List.getElem?_range (by have := List.getElem?_eq_some_iff.1 hk; obtain ⟨h, -⟩ := this; simpa using h)] at hk
      obtain rfl := Option.some.inj hk; exact ⟨rfl, rfl⟩
    intro i j c d hi hj h1 h2
    have ⟨a, b⟩ := hl i c hi
    have ⟨a', b'⟩ := hl j d hj
    omega
/-- No lane acts: the guard is p1, false in every lane. -/
theorem witness_MessageSends_no_lane : ∀ n ∈ [3, 13], let i : Instr := .msgput { wPut 1 with g := ⟨false, 1, 0⟩, imm := n }
    issuesB i ⟨false, 1, 0⟩ (sPut 2) = true ∧ (env (sPut 2) ⟨false, 1, 0⟩ .none).lanes = [] ∧ i.ownOk = (n == 3) := by decide
/-- Lines that have asked, that have not, and a target beyond the sixteenth. -/
theorem witness_MessageSends_asks : let s (l : List Credit) := (sPut 0).setLines 0 0 l; let c : Credit := ⟨0, 0, 0, false, true, 0⟩
    (∀ l ∈ [[c], [{ c with asked := false }], [], (List.range 16).map fun k => { c with core := k + 1 }], issuesB (.msgput (wPut 1)) always (s l) = true ∧ ∀ x, lineOf 0 0 ((s l).lines 0 0) = some x → x.count = 0) ∧
    ((List.range 16).map fun k => { c with core := k + 1 }).length = 16 := by decide
/-- SIG names a task of the partition's range, and one of another's. -/
theorem witness_MessageArrives_task : ∀ n ∈ [3, 9], let s := { (sApp (0x800B4000 ||| 0) false) with parts := [(0, { (sApp 0 false).part 0 with tasklo := 0, taskn := 8 })] }
    (s.mq 0 0 0).en = true ∧ (s.part 0).hasTask n = (n == 3) := by decide
/-- A full queue of 2,048 entries whose requests from cores 5 and 6 are held. -/
def sQHeld (res : Nat) : State := (sQ 0x800B0000 3 2051).setMq 0 0 0 ⟨0x800B0000, BitVec.ofNat 32 (3 + 2051 * 65536), res, [5, 6]⟩
theorem witness_MessageTakes_held : IssuesIn (.msgtake ⟨always, .z, .v 16, .z, 0xC, 0, false, 0⟩) (sQHeld 0) ∧ (let m : MsgQ := { (sQHeld 0).mq 0 0 0 with ptr := 2051#16 ++ 4#16 }; m.held = [5, 6] ∧ m.en = true ∧ 2 ^ cfgLg m.cfg - m.entries - m.reserved = 1) ∧
    (let m : MsgQ := { (sQHeld 1).mq 0 0 0 with ptr := 2051#16 ++ 4#16 }; 2 ^ cfgLg m.cfg - m.entries - m.reserved = 0) := ⟨issuesIn rfl (by decide), by decide, by decide⟩
/-- 04 R87 item 4: the entry that a take frees goes to the oldest held request. -/
theorem test_take_grants : (match exec (.msgtake ⟨always, .z, .v 16, .z, 0xC, 0, false, 0⟩) (sQHeld 0) with | .next t => t.msgs.map (·.2) == [.grant 0 5 0 0 1 false] && (t.mq 0 0 0).held == [6] && (t.mq 0 0 0).reserved == 1 | _ => false) = true := by decide +kernel

/-! ## Witnesses: the copy engine -/

/-- Two rows of four words at 0x10F00, 16 bytes apart. -/
def lay : List Word := [0x10F00, 0, 4, 2, 0, 0, 0, 1, 0, 0, 0, 0x103, 0x12200, 0, 7, 0]
def sCpy : State := withS 18 4 (withS 19 2 (withS 23 1 (withS 27 0x103 (withS 28 0x12200 (withS 30 7 (withS 16 0x10F00 (st 0x7D80000000000000)))))))
/-- To a counter, or to task 3. -/
def wCpy (t : BitVec 3) (m : BitVec 9) : WA := ⟨always, .s 16, .s 32, if t == 0 then .z else .s 4, 0, t, false, m⟩
theorem witness_CopiesStart : let r := layoutOf lay
    (∀ t ∈ [0, 1], ∀ i ∈ ([.cpy (wCpy t 0), .cpy (wCpy t 1), .gather (wCpy t 0), .scatter (wCpy t 0)] : List Instr), issuesB i always sCpy = true) ∧
    (∀ gs ∈ [false, true], let e := mkEnv sCpy 1 (gOf sCpy) (aOf sCpy) (hOf sCpy) always (usesCopy gs (wCpy 1 0) sCpy)
      e.leader = some 0 ∧ e.sregs (.s 16) 16 = (lay, false) ∧ (List.range (r.blockLen gs)).any (fun k => (e.rc (.s 32) 0 k).poison) = false ∧ (e.r32 (.s 4) 0).poison = false ∧ blockFits (.s 32) (r.blockLen gs) (gOf sCpy).regs = true ∧ r.fieldsOk gs = true ∧
      (sCpy.part 0).hasTask (e.r32 (.s 4) 0).w.toNat = true ∧ (List.range 4).all (fun k => (e.rc (.s 32) 0 k).get == 0) = true ∧ e.full (if gs then 4 else 3) = false) ∧
    r.sizesOk = true ∧ r.base.toNat % r.es = 0 ∧ r.base.toNat < 2 ^ 57 ∧ 0 + 4 * r.b 1 ≤ (sCpy.part 0).spadSize 0 ∧ 0 + r.rows * r.pitch ≤ (sCpy.part 0).spadSize 0 ∧ coreCopies sCpy 0 < 64 :=
  ⟨by decide, by decide, by decide, by decide, by decide, by decide +kernel, by decide +kernel, by decide⟩
/-- An operation at a row, counted on wc or announced to task 3. -/
def cop (kind row : Nat) (task : Option Nat) : CopyOp := ⟨1, 0, 0, 0, kind, lay, [0, 0, 0], 0, task, 3, row, [], [], [], []⟩
def sCop (kind row : Nat) (task : Option Nat) : State := withG (fun g => { g with out := [⟨3, 9, false⟩] }) { sCpy with copies := [(9, cop kind row task)], tasks := [(taskKey 0 3, { (default : TaskEntry) with st := .waiting, count := 1 })] }
theorem witness_CopiesComplete : sget 9 (sCop 0 2 none).copies = some (cop 0 2 none) ∧ sget 9 (sCop 0 2 (some 3)).copies = some (cop 0 2 (some 3)) ∧ (layoutOf lay).rows ≤ 2 ∧ ((sCop 0 2 none).ctx 0).st = .running ∧ ((sCop 0 2 none).group? 1).isSome = true ∧
    (∃ x, (gOf (sCop 0 2 none)).oldest 3 = some x ∧ x.id = 9) ∧ (sget (taskKey 0 3) (sCop 0 2 (some 3)).tasks).map (·.st) = some .waiting := ⟨by decide, by decide, by decide, by decide, by decide, ⟨_, rfl, rfl⟩, by decide⟩
theorem witness_CopyRows_address : (cop 0 0 none).kind < 2 ∧ (layoutOf lay).fieldsOk false = true ∧ (layoutOf lay).es ≤ 4 ∧ ∀ d, (0 : Nat) < (layoutOf lay).b d := ⟨by decide, by decide, by decide, fun _ => Nat.succ_pos _⟩
theorem witness_CopyRows_row : ∀ kind ∈ [0, 1], let s := sCop kind 1 none; let ps := rowPieces s (cop kind 1 none) (layoutOf lay) 1
    sget 9 s.copies = some (cop kind 1 none) ∧ (s.ctx 0).st = .running ∧ 1 < (layoutOf lay).rows ∧ (ps.map (·.k)).Nodup ∧ ps.length = 4 ∧
    (ps.all fun p => match p.va with | some va => lookVa s 0 0 va (if kind % 2 = 0 then .read else .write) false false == .at_ ⟨[va.toNat], 0, 0x1D⟩ && p.sp % 4 == 0 | none => false) = true := by decide +kernel
/-- A box that begins one element before the tensor has an element with no address. -/
theorem witness_CopyRows_fill : ∃ p ∈ rowPieces (sCop 0 0 none) { cop 0 0 none with blk := [0, 0xFFFFFFFF, 0] } (layoutOf lay) 0, p.va = none := ⟨_, List.Mem.head _, by decide⟩
theorem witness_CopiesStart_own : (∀ t ∈ [0, 1], ∀ m ∈ [0, 1], ownCopy (wCpy t m) = true) := by decide
theorem witness_CopyRows_waits : ∃ (x : CopyLate) (y : PieceVal) (w : Where), x.ps = [y] ∧ y.w = some w ∧ w.node = 0 ∧ y.p.sp % pieceLen (layoutOf lay).es = 0 ∧ (cop 0 0 none).pend = [] :=
  ⟨⟨0, [⟨⟨0, 0, some 0x10F00⟩, some ⟨[0x10F00], 0, 0x1D⟩, 0, false, none⟩], true⟩, ⟨⟨0, 0, some 0x10F00⟩, some ⟨[0x10F00], 0, 0x1D⟩, 0, false, none⟩, ⟨[0x10F00], 0, 0x1D⟩, rfl, rfl, rfl, by decide, rfl⟩

/-! ## Witnesses: collectives -/

/-- A record of two members at 0x10F00, time limit 5 µs, tag 77. -/
def cRec : List Word := [0x10F00, 0, 0x00010002, 0x00010001, 0, 0, 77, 5, 0, 0, 0, 0, 0, 0, 0, 0]
/-- A node that is not this one. -/
def other : Nat := if Config.nodeId.toNat = 5 then 6 else 5
/-- Registers for CINIT, with the member array of another node and this one, its bytes as cells. -/
def sInit : State := let n : Nat := Config.nodeId.toNat
  { withS 16 0x10F00 (withS 18 0x00010002 (withS 19 0x00010001 (withS 22 77 (withS 23 5 (st 0x7D98000000000000))))) with
    mem := [⟨0x10F00, BitVec.ofNat 8 other⟩, ⟨0x10F04, BitVec.ofNat 8 n⟩, ⟨0x10F05, BitVec.ofNat 8 (n / 256)⟩, ⟨0x10F06, BitVec.ofNat 8 (n / 65536)⟩] }
def wInit : WA := ⟨always, .s 16, .z, .s 4, 0, 0, false, 0⟩
def memberWords : List PWord := let n : Nat := Config.nodeId.toNat
  [⟨BitVec.ofNat 32 ((BitVec.ofNat 8 other).toNat + 256 * (0 + 256 * (0 + 256 * (0 + 256 * 0)))), false⟩, ⟨BitVec.ofNat 32 ((BitVec.ofNat 8 n).toNat + 256 * ((BitVec.ofNat 8 (n / 256)).toNat + 256 * ((BitVec.ofNat 8 (n / 65536)).toNat + 256 * 0))), false⟩]
theorem witness_CollectiveInstructions_init : let u : Uses := ⟨[(.s 16, 16, false)], [], [(.s 4, 1)], [], true⟩; let e := mkEnv sInit 1 (gOf sInit) (aOf sInit) (hOf sInit) always u
    IssuesIn (.cinit wInit) sInit ∧ e.lanes ≠ [] ∧ e.sregs (.s 16) 16 = (cRec, false) ∧ commOk cRec = true ∧ (pairAt cRec 0).toNat % 4 = 0 ∧ e.full 5 = false ∧ (sInit.ctx 0).comm? 0 = none :=
  ⟨issuesIn rfl (by decide), by decide, by decide, by decide, by decide, by decide, by decide⟩
theorem witness_CollectiveInstructions_init_members : (∀ rem, readBlock rem 0 0 false 0x10F00 2 sInit = .ok memberWords) ∧ firstPoison memberWords = none := ⟨fun _ => rfl, rfl⟩
theorem witness_CollectiveInstructions_init_agree : let nodes := memberWords.map fun v => v.val.toNat % 2 ^ 21
    nodes = [other, Config.nodeId.toNat] ∧ nodes.count Config.nodeId.toNat = 1 ∧ nodes.eraseDups.length = nodes.length ∧ nodes.filter (· != Config.nodeId.toNat) ≠ [] := by
  have hn : Config.nodeId.toNat < 2 ^ 21 := Config.nodeId.isLt
  have ho : other ≠ Config.nodeId.toNat ∧ other < 7 := by unfold other; split <;> omega
  have h : (memberWords.map fun v => v.val.toNat % 2 ^ 21) = [other, Config.nodeId.toNat] := by
    simp only [memberWords, List.map_cons, List.map_nil, BitVec.toNat_ofNat]
    congr 1
    · omega
    · congr 1; omega
  dsimp only
  rw [h]
  have hb : (Config.nodeId.toNat == other) = false := beq_eq_false_iff_ne.2 ho.1.symm
  refine ⟨rfl, ?_, ?_, ?_⟩ <;> simp [ho.1, hb, List.eraseDups, List.eraseDupsBy, List.eraseDupsBy.loop]
/-- A state whose context has communicators. -/
def sComms (l : List (Nat × Comm)) (s : State) : State := s.updCtx 0 fun x => { x with comms := l }
theorem witness_CollectiveInstructions_init_full : ∀ k, k < 64 → ((sComms ((List.range 64).map fun i => (i, { (default : Comm) with st := .ready })) sInit).ctx 0).comm? k ≠ none := by decide +kernel
/-- An instance of an all-gather of a tensor of four f32 elements at 0x10F00. -/
def wSrc : List Word := [0x10F00, 0, 4, 0, 0, 0, 0x01010000, 0, 0, 0, 0, 0, 0, 0, 0, 0]
def wDst : List Word := [0x10F00, 0, 4, 0, 0, 0, 0x0101000F, 0, 0, 0, 0, 0, 0, 0, 0, 0]
def cInst (got : List Nat) (next : Nat) : CInst := ⟨0, wSrc, wDst, 1, 0, 9, none, 0, 0, next, got, [(other, ⟨77, 0, 0, 1, true, false, [], 0, true⟩)], [], [], false, 0, []⟩
/-- A communicator of two members, READY, whose record's bit 19 says its instances persist. -/
def cReady (insts : List CInst) (ver : Nat) : Comm := { (default : Comm) with st := .ready, fields := [0x10F00, 0, 0x00010002, 0x00090001, 0, 0, 77, 5, 0, 0, 0, 0, 0, 0, 0, 0], members := [Config.nodeId.toNat, other], lver := ver, insts := insts }
def sStart (insts : List CInst) : State := sComms [(0, cReady insts 3)] (withS 16 0x10F00 (withS 18 4 (withS 22 0x01010000 (withS 32 0x10F00 (withS 34 4 (withS 38 0x0101000F (st 0x7D98000000000000)))))))
def wStart (t : BitVec 3) : WA := ⟨always, .s 16, if t == 1 then .s 5 else .z, .s 4, 0, t, false, 0⟩
theorem witness_CollectiveInstructions_start : let s := sStart [cInst [] 0]; let u : Uses := ⟨[(.s 16, 32, false), (.s 4, 1, false)], [], [], [], true⟩; let e := mkEnv s 1 (gOf s) (aOf s) (hOf s) always u; let A := shardOf wSrc; let B := shardOf wDst
    IssuesIn (.cstart (wStart 0)) s ∧ IssuesIn (.cstart (wStart 1)) s ∧ e.leader = some 0 ∧ e.sregs (.s 16) 16 = (wSrc, false) ∧ e.sregs (.s 32) 16 = (wDst, false) ∧ (e.r32 (.s 4) 0).poison = false ∧ (e.r32 (.s 4) 0).w = 0 ∧ (e.r32 (.s 5) 0).poison = false ∧
    A.ok = true ∧ B.ok = true ∧ (s.part 0).hasTask (e.r32 (.s 5) 0).w.toNat = true ∧ (exchange A B).isSome = true ∧ ((s.ctx 0).comm? 0).isSome = true ∧
    ((s.ctx 0).comm? 0).any (fun m => A.divides m.fields && B.divides m.fields && m.st == .ready && m.cfree.isEmpty && A.axesIn m.fields && B.axesIn m.fields && m.insts.length == 1 && m.lver == 3 && !commSlot m.fields) = true ∧
    A.base.toNat % A.es = 0 ∧ B.base.toNat % B.es = 0 ∧ e.full 5 = false := ⟨issuesIn rfl (by decide), issuesIn rfl (by decide), by decide, by decide, by decide, by decide, by decide, by decide, by decide, by decide, by decide, by decide, by decide, by decide, by decide, by decide, by decide⟩
theorem witness_CollectiveInstructions_query_free : let s := sStart []; let e := env s always .none
    (∀ i ∈ ([.cquery ⟨always, .z, .v 2, .s 4, 7, 0, false, 0⟩, .cquery ⟨always, .z, .s 6, .s 4, 0, 0, false, 0⟩, .cfree ⟨always, .z, .z, .s 4, 0, 0, false, 0⟩] : List Instr), IssuesIn i s) ∧ e.leader = some 0 ∧ (e.r32 (.s 4) 0).w = 0 ∧ (e.r32 (.s 4) 0).poison = false ∧ e.full 5 = false ∧
    ((s.ctx 0).comm? 0).isSome = true ∧ ((s.ctx 0).comm? 1) = none ∧ (cReady [] 3).insts = [] ∧ (cReady [cInst [] 0] 3).insts ≠ [] := ⟨issuesIn_all rfl (by decide), by decide, by decide, by decide, by decide, by decide, by decide, by decide, by decide⟩

/-- A communicator with its members' messages still to come. -/
def cPend (n : Nat) : Comm := { (default : Comm) with st := .pending, fields := cRec, members := Config.nodeId.toNat :: other :: List.replicate n 9, deadline := some 5 }
def sPend (n : Nat) : State := sComms [(0, cPend n)] { st 0 with tsc := 5 }
def cMsg (n : Nat) : CommMsg := ⟨77, other, cRec, (cPend n).members, [0, 3], 2, false⟩
theorem witness_CollectiveEvents_messages : (∀ n ∈ [0, 1], ((pendingOn ((sPend n).ctx 0) 77).map (·.1) = some 0 ∧ ((sPend n).ctx 0).comm? 0 = some (cPend n) ∧ (cPend n).cfree = [] ∧ (cPend n).slot ≠ 3 ∧ commSlot (cPend n).fields = false ∧ (cMsg n).fields.drop 2 = (cPend n).fields.drop 2 ∧ (cMsg n).members = (cPend n).members)) ∧
    (cPend 0).members.length ≤ (cPend 0).arrived.length + 2 ∧ (cPend 1).arrived.length + 2 < (cPend 1).members.length ∧ ({ cMsg 0 with fields := wSrc } : CommMsg).fields.drop 2 ≠ (cPend 0).fields.drop 2 ∧
    (5 : DWord).toNat ≤ (sPend 0).tsc.toNat ∧ commFull (cPend 0) = false ∧ (cPend 0).told.length + 1 < (cPend 0).members.length ∧ (∀ y ∈ (cPend 0).arrived, y.node ≠ other) ∧
    -- every member has arrived here, and the last one tells that it has seen the same
    (let m := { cPend 0 with arrived := [cMsg 0] }; commFull m = true ∧ (∃ y ∈ m.arrived, y.node = other) ∧ (cMsg 0).node ∉ m.told ∧ m.told.length + 2 = m.members.length ∧ m.cfree = [] ∧
      (∃ s : State, pendingOn (s.ctx 0) 77 = some (0, m) ∧ (s.ctx 0).comm? 0 = some m)) := by
  refine ⟨fun n hn => ?_, by decide, by decide, by decide, by decide, by decide, by decide, fun y hy => (nomatch hy), rfl, ⟨_, List.mem_cons_self .., rfl⟩, fun h => (nomatch h), rfl, rfl, ⟨sComms [(0, { cPend 0 with arrived := [cMsg 0] })] (st 0), rfl, rfl⟩⟩
  rcases List.mem_cons.1 hn with rfl | hn
  · exact ⟨rfl, rfl, rfl, by decide, by decide, rfl, rfl⟩
  · rw [List.mem_singleton.1 hn]; exact ⟨rfl, rfl, rfl, by decide, by decide, rfl, rfl⟩
/-- A slot is asked for at this link version, and decided or not. -/
theorem witness_CollectiveEvents_slot_wanted : commSlot (({ cPend 0 with fields := cRec.set 3 0x00050001 } : Comm)).fields = true ∧ commSlot (cPend 0).fields = false ∧ (cPend 0).decided = none ∧ ({ cPend 0 with decided := some true } : Comm).decided = some true := by decide
/-- No link has been trained and lost. -/
theorem witness_CollectiveEvents_linked (n : Nat) : linkLost (sStart [cInst [] 0]) n = false := by
  have h : ∀ p ∈ (sStart [cInst [] 0]).dev.ports, (p.version != 0) = false := by decide
  unfold linkLost
  rw [Bool.and_eq_false_iff]
  exact .inl (List.any_eq_false.2 fun p hp => by simp [h p hp])
theorem witness_CollectiveEvents_node : (cMsg 0).node ∈ (cPend 0).members ∧ (cMsg 0).node ≠ Config.nodeId.toNat := by
  refine ⟨List.mem_cons_of_mem _ (List.mem_cons_self ..), ?_⟩
  show other ≠ _
  unfold other; split <;> omega
/-- Switch 0 with one request that has stood for its time, and slots granted to 77 and 78. -/
def sSwitch : State := { st 0 with tsc := 20000, switches := [(0, ⟨[77, 78], [⟨5, 0, 79, 7⟩], []⟩)] }
theorem witness_CollectiveEvents_slots : (sSwitch.switch 0).reqs = [⟨5, 0, 79, 7⟩] ∧ (5 : DWord).toNat + 10000 ≤ sSwitch.tsc.toNat ∧ (7 : DWord).toNat ≤ sSwitch.tsc.toNat ∧ 77 ∈ (sSwitch.switch 0).granted ∧ (sSwitch.ctxs.all fun p => p.2.comms.isEmpty) = true := by decide
/-- The chunk the member waits for, with the right and with a wrong check sum. -/
def payload : List PByte := wireBytes 4 ⟨7, false⟩ ++ wireBytes 4 ⟨8, true⟩
def chunkIn (good : Bool) (inst : Nat) : Chunk := let c := chunkCrc inst 1 0 payload; ⟨0, inst, 1, 0, true, false, payload, if good then c else ~~~c, true⟩
theorem witness_CollectiveEvents_chunks : let s := sStart [cInst [] 0]
    (s.ctx 0).st = .running ∧ (merOf s 0 0).any (fun k => k.i.num == 0 && commPersist k.m.fields && k.m.lver == 3 && (k.chunks.find? fun y => y.num == 1).isSome && k.expected == [3] && k.i.got.isEmpty && k.chunks.map (·.num) == [0, 1]) = true ∧
    (chunkIn true 1).inst = (0 + 1) % 65536 ∧ (chunkIn true 0).inst = 0 ∧ (chunkIn true 0).crc = chunkCrc 0 1 0 payload := ⟨by decide, by decide, rfl, rfl, rfl⟩
theorem witness_CollectiveEvents_bad_chunk : (chunkIn false 0).crc ≠ chunkCrc 0 1 0 payload := by
  show ~~~chunkCrc 0 1 0 payload ≠ chunkCrc 0 1 0 payload
  intro h
  have := congrArg (fun v : BitVec 32 => v.getLsbD 0) h
  simp at this
theorem witness_CollectiveEvents_write : ∃ x, ((merOf (sStart [cInst [] 0]) 0 0).bind fun k => k.chunks.find? fun y => y.num == 1) = some x ∧
    (∃ l t, collWrite 9 (4096 * 1 + 2048) 0 0 4 [0x10F08, 0x10F0C] (widen 0 false x.elems.length payload) (sStart [cInst [] 0]) = .stores l t) := ⟨_, rfl, _, _, rfl⟩
theorem witness_CollectiveEvents_sent : ((sStart [cInst [] 0]).ctx 0).comm? 0 = some (cReady [cInst [] 0] 3) ∧ (cReady [cInst [] 0] 3).insts.find? (·.num == 0) = some (cInst [] 0) ∧ ((cInst [] 0).sent.find? fun p => p.2.num == 0).isSome = true := ⟨rfl, rfl, rfl⟩
theorem witness_CollectiveEvents_complete : (merOf (sStart [cInst [3] 1]) 0 0).any (fun k => decide (k.duties.length ≤ k.i.next) && k.expected.all (fun x => k.i.got.contains x) && k.i.unacked.isEmpty && k.m.insts.length == 1 && k.m.cfree.isEmpty && k.i.task.isNone && k.i.gid == 1) = true ∧ ((sStart [cInst [3] 1]).group? 1).isSome = true := by decide
/-- Registers that break 19 R343: a base that is no s16n, a number that is v. -/
theorem witness_CollectiveInstructions_fields : issuesB (.cstart { wStart 0 with base := .s 100 }) always (sStart [cInst [] 0]) = true ∧ ownComm (.cstart { wStart 0 with base := .s 100 }) = false ∧ ownComm (.cstart (wStart 0)) = true ∧ (env (sStart [cInst [] 0]) always .none).sr.trapPoison = true := by decide

/-! ## Witnesses: tasks, barriers, launches -/

/-- TDEF of task 1023 with the last bytes of the scratchpad as its arguments. -/
def sTdef (d : Word) : State := withS 4 1023 (withS 16 0x10000 (withS 18 0x400FFE00 (withS 19 d (st 0x7DB8000000000000))))
def wTdef : WA := ⟨always, .s 16, .z, .s 4, 0, 0, false, 0⟩
def eTdef (d : Word) : Env := mkEnv (sTdef d) 1 (gOf (sTdef d)) (aOf (sTdef d)) (hOf (sTdef d)) always ⟨[(.s 16, 4, false), (.s 4, 1, false)], [], [], [], true⟩
theorem witness_Tasks_define : [0x00000001, 0xFFFF0028].all (fun d => issuesB (.tdef wTdef) always (sTdef d)) = true ∧ [0x00000001, 0xFFFF0028].all (fun d => (eTdef d).sregs (.s 16) 4 == ([0x10000, 0, 0x400FFE00, d], false) && (eTdef d).leader == some 0 && decide ((eTdef d).r32 (.s 4) 0 = ⟨1023, false⟩)) = true ∧
    ((sTdef 1).part 0).hasTask 1023 = true ∧ sget (taskKey 0 1023) (sTdef 1).tasks = none ∧ 0x400FFE00 < 2 ^ 31 ∧ 0x400FFE00 % 2 ^ 23 % 4 = 0 ∧ 0x400FFE00 / 2 ^ 23 % 256 = 128 ∧ 0x400FFE00 % 2 ^ 23 + 4 * 128 ≤ 0x100000 ∧
    (∀ d ∈ [0x00000001, 0xFFFF0028], d / 64 % 1024 = 0 ∧ d / 16 % 4 ≠ 3 ∧ 1 ≤ d % 16 ∧ d % 16 ≤ 8) :=
  ⟨by decide, by decide, by decide, by decide, by decide, by decide, by decide, by decide, by decide⟩
theorem witness_Tasks_arguments : ((sTdef 1).part 0).spadSize 0 = 0x100000 := by decide +kernel
/-- A task entry in a table, and a launch of one core of this core. -/
def tEntry (t : TaskSt) (n : Nat) : TaskEntry := ⟨t, 0x10000, 2, 1, 0, 128, n, 0, 0, 3, 0, 0, 0, 0⟩
def lOne : Launch := { oneCore with rec_ := { oneCore.rec_ with groups := 1, slices := 1, gx := 1, gy := 1, gz := 1, regs := 32, entry := 0x10000, sched := [(0x10008, 4), (0x10010, 9)] }, started := [0], map := [0] }
def sTask (t : TaskSt) (n : Nat) : State := { st 0x7DC0000000000000 with tasks := [(taskKey 0 3, tEntry t n)], launches := [(0, lOne)] }
theorem witness_Tasks_signal_spawn : let s := withS 4 3 (sTask .waiting 1); let e := env s always .none
    IssuesIn (.tsig ⟨always, .z, .z, .s 4, 0, 0, false, 0⟩) s ∧ e.leader = some 0 ∧ (e.r32 (.s 4) 0).poison = false ∧ (s.part 0).hasTask (e.r32 (.s 4) 0).w.toNat = true ∧ (e.r32 (.s 4) 0).w = 3 ∧ (sget (taskKey 0 3) s.tasks).map (·.st) = some .waiting ∧
    (let s := sTask .spawning 0; sget (taskKey 0 3) s.tasks = some (tEntry .spawning 0) ∧ (sget (tEntry .spawning 0).lid s.launches).isSome = true ∧ (s.ctx 0).st = .running ∧ coreOf 0 = 0 ∧ quadFits s 0 0 32 0 = true ∧ (tEntry .spawning 0).argN ≤ 128) :=
  ⟨issuesIn rfl (by decide), by decide, by decide, by decide, by decide, by decide, by decide⟩
/-- A group of a workgroup of m members, k of them at barrier 7 already. -/
def sBar (m k : Nat) (named : Option Nat) : State := { st 0x7DC8000000000000 with wgs := [(0, ⟨0, 0, m, 0⟩)], bars := if k = 0 then [] else [(7, ⟨k, named, 0⟩)] }
def wBar (b : Opd) : WA := ⟨always, b, .z, .z, 7, 0, false, 1⟩
theorem witness_Barriers_arrive : (∀ m ∈ [1, 2], let s := sBar m 0 none; issuesB (.bar (wBar .z)) always s = true ∧ (env s always .none).leader = some 0 ∧ (gOf s).partings = [] ∧ (gOf s).gangs.length = 1 ∧ s.members (gOf s).wk = m ∧ (s.bar (gOf s).wk 7).arrived = 0) ∧
    (∀ k ∈ [0, 31], let s := withS 4 32 (sBar 40 k (some 32)); issuesB (.bar (wBar (.s 4))) always s = true ∧ ((env s always .none).r32 (.s 4) 0).poison = false ∧ ((env s always .none).r32 (.s 4) 0).w = 32 ∧ (s.bar (gOf s).wk 7).arrived = k ∧ (k ≠ 0 → (s.bar (gOf s).wk 7).named = some 32)) ∧
    (let s := withS 8 0x10008 (sBar 2 0 none); let e := env s always .none; issuesB (.barc { wBar .z with opnd := .s 8 }) always s = true ∧ (e.rN (.s 8) 2 0).poison = false ∧ (e.rN (.s 8) 2 0).val = 0x10008 ∧ (gOf s).drained = true ∧ s.conts = []) := by decide
/-- Fields that 22 R389 and R398 refuse, and their like that it allows. -/
theorem witness_Barriers_fields : (∀ b ∈ [Opd.z, .s 4], (Instr.bar (wBar b)).ownOk = true) ∧ 1 < (sBar 1 0 none).nextId ∧ (Instr.bar { wBar .z with imm := 8 }).ownOk = false ∧ issuesB (.bar { wBar .z with imm := 8 }) always (sBar 1 0 none) = true ∧ (Instr.bar { wBar .z with mod := 0 }).ownOk = false ∧
    issuesB (.bar { wBar .z with mod := 0 }) always (sBar 1 0 none) = true ∧ (Instr.barc { wBar .z with opnd := .s 8 }).ownOk = true ∧ (Instr.barc { wBar .z with opnd := .s 8, imm := 8 }).ownOk = false ∧ issuesB (.barc { wBar .z with opnd := .s 8, imm := 8 }) always (withS 8 0x10008 (sBar 2 0 none)) = true := by decide
/-- A continuation of the workgroup at its barrier 7, with room in its quadrant. -/
def contOne : Cont := { (default : Cont) with entry := 0x10008, nsl := 1, ngrp := 1, wk := 0, bar := 7 }
def sCont : State := { sBar 1 0 none with conts := [(9, contOne)], launches := [(0, lOne)] }
theorem witness_Barriers_continuation : issuesB (.bar (wBar .z)) always sCont = true ∧ (gOf sCont).partings = [] ∧ (gOf sCont).gangs.length = 1 ∧ sCont.members (gOf sCont).wk ≤ (sCont.bar (gOf sCont).wk 7).arrived + 1 ∧ 1 < sCont.nextId ∧ sCont.conts = [(9, contOne)] ∧ contOne.wk = (gOf sCont).wk ∧
    (sCont.ctx 0).st = .running ∧ sget contOne.lid sCont.launches = some lOne ∧ quadFits sCont 0 0 lOne.rec_.regs lOne.rec_.tiles = true := by decide
def sExit : State := withG (fun g => g.updGang 0 fun a => { a with hold := .exiting }) (sBar 1 0 none)
theorem witness_Groups_end : (sExit.group? 1).isSome = true ∧ (gOf sExit).gangs ≠ [] ∧ (∀ x ∈ (gOf sExit).gangs, x.hold = .exiting) ∧ (gOf sExit).drained = true ∧ (sExit.ctx 0).st = .running ∧ sExit.conts = [] ∧ (sget (gOf sExit).wk sExit.wgs).isSome = true := by decide

/-- A launch record at 0x10E00: one workgroup of one group, 32 registers, contract 3, revision r. -/
def sRec (r : Byte) : State := { withS 8 0x10E00 (sTask .waiting 1) with mem := [⟨0x10E02, 1⟩, ⟨0x10E08, 0x11⟩, ⟨0x10E0A, 1⟩, ⟨0x10E0B, 1⟩, ⟨0x10E0C, 1⟩, ⟨0x10E10, 1⟩, ⟨0x10E14, 1⟩, ⟨0x10E18, 32⟩, ⟨0x10E1B, 3⟩, ⟨0x10E1D, r⟩] }
def wLaunch (t : BitVec 3) : WA := ⟨always, .s 8, .v 2, if t == 1 then .s 4 else .z, 0, t, false, 0⟩
/-- With one thing to choose from, the choice is that thing, whatever the free values are. -/
theorem pick_one (s : State) (k : Nat) : s.pick k 1 = 0 := by simp [State.pick, Nat.mod_one]
theorem shuffle_one (s : State) (k x : Nat) : shuffle s k [x] = [x] := by simp [shuffle]
theorem shuffle_nil (s : State) (k : Nat) : shuffle s k [] = [] := rfl
/-- Queue 0 of the context holds one record of that kind. -/
def sQueue (r : Byte) : State := (sRec r).updCtx 0 fun x => { x with lq := [⟨0x10E10, 1, 0, 0, false, 0, 0, none, none, []⟩, .reset, .reset, .reset], rot := 4 }
def recWords (r : Byte) : List PWord := (List.range 64).map fun k => readPWord (sQueue r) (0x10E00 + 4 * k)
theorem witness_Launches_accept : ([3, 4].all fun r => let s := sQueue r; (s.ctx 0).lq.length == 4 && (s.ctx 0).st == .running && inTurn s 0 == some 0 && ((s.ctx 0).queue 0).slot 0 == 0x10E00 && ((s.ctx 0).queue 0).acc == 0 && ((s.ctx 0).queue 0).done.isEmpty && ((s.ctx 0).queue 0).cpl == 0) = true := by decide
theorem witness_Launches_accept_read : ∀ rem, readBlock rem 0 0 false 0x10E00 64 (sQueue 3) = .ok (recWords 3) := fun _ => rfl
theorem witness_Launches_accept_bad : ∀ rem, readBlock rem 0 0 false 0x10E00 64 (sQueue 4) = .ok (recWords 4) := fun _ => rfl
theorem witness_Launches_accept_tables : (∀ rem, readTables rem 0 0 (parseRec (pwBytes (recWords 3))) (sQueue 3) = .ok ⟨[], []⟩) ∧ Tables.valid ⟨[], []⟩ ((sQueue 3).part 0) = true := ⟨fun _ => rfl, rfl⟩
theorem witness_Launches_issue_tables : (∀ rem, readTables rem 0 0 (parseRec (pwBytes (recWords 4))).capped (sQueue 4) = .ok ⟨[], []⟩) ∧ (Instr.selsched ⟨always, .z, .v 4, .s 4, 3, 0, false, 0⟩).ownOk = true ∧ (Instr.selsched ⟨always, .z, .v 4, .s 4, 13, 0, false, 0⟩).ownOk = false ∧ IssuesIn (.selsched ⟨always, .z, .v 4, .s 4, 13, 0, false, 0⟩) (sQueue 3) :=
  ⟨fun _ => rfl, by decide, by decide, issuesIn rfl (by decide)⟩
theorem witness_Launches_record : firstPoison (recWords 3) = none ∧ firstPoison (recWords 4) = none ∧ (parseRec (pwBytes (recWords 3))).fieldsOk = true ∧ (parseRec (pwBytes (recWords 4))).fieldsOk = false := ⟨by decide +kernel, by decide +kernel, by decide +kernel, by decide +kernel⟩
theorem witness_Launches_issue : let e := env (sQueue 3) always .none
    (∀ i ∈ ([.launch (wLaunch 0), .launch (wLaunch 1), .selsched ⟨always, .z, .v 4, .s 4, 3, 0, false, 0⟩, .selsched ⟨always, .z, .s 6, .s 8, 3, 0, false, 0⟩] : List Instr), IssuesIn i (sQueue 3)) ∧ e.leader = some 0 ∧ (e.rN (.s 8) 2 0) = ⟨0x10E00, false⟩ ∧ (e.r32 (.s 4) 0).poison = false ∧
    ((sQueue 3).part 0).hasTask (e.r32 (.s 4) 0).w.toNat = true ∧ (sget (gOf (sQueue 3)).lid (sQueue 3).launches).isSome = true := ⟨issuesIn_all rfl (by decide), by decide, by decide, by decide, by decide, by decide⟩
theorem map_one {s : State} {r : LRec} (hp : partCores s 0 = [0]) (hw : r.w * r.h = 1) (hc : r.cor = false) (hf : r.fieldsOk = true) (hg : r.groups ≤ coreCap s 0 0 r.regs r.tiles) (hs : r.spad ≤ (s.part 0).spadSize 0) : mapLaunch s 0 r = (0, [0]) := by
  simp [mapLaunch, hp, hw, hc, hf, hg, hs, shuffle_one, shuffle_nil, Nat.not_lt.2 hs]
theorem witness_Launches_map : mapLaunch (sQueue 3) 0 (parseRec (pwBytes (recWords 3))) = (0, [0]) :=
  map_one (by decide +kernel) (by decide +kernel) (by decide +kernel) (by decide +kernel) (by decide +kernel) (by decide +kernel)
/-- A request of the group waits with the distributor. -/
def sDevq : State := withG (fun g => g.updGang 0 fun a => { a with hold := .launch }) ((sQueue 3).updCtx 0 fun x => { x with lq := [.reset, .reset, .reset, .reset], rot := 3, devq := [{ (default : DevReq) with gid := 1, slices := [0], dst := .v 2, lanes := 15, rec_ := parseRec (pwBytes (recWords 4)) }] })
theorem witness_Launches_device : (sDevq.ctx 0).st = .running ∧ inTurn sDevq 0 = some 4 ∧ (sDevq.ctx 0).devq.length = 1 ∧ (sDevq.group? 1).isSome = true ∧ ((sDevq.ctx 0).devq.map fun q => q.dst.isS) = [false] ∧ (gOf sDevq).gangs.map (·.hold) = [.launch] := by decide
/-- A launch none of whose workgroups has started, on this core. -/
def sWg : State := sTask .waiting 1
theorem witness_Launches_start : sget 0 sWg.launches = some lOne ∧ (sWg.ctx 0).st = .running ∧ (sWg.ctx 0).hold = false ∧ 0 < lOne.rec_.w * lOne.rec_.h ∧ (lOne.started[0]?).getD 0 < lOne.rec_.share 0 ∧ lOne.rec_.cor = false := by decide
theorem witness_Launches_start_fits : ∃ t, startWorkgroup 0 0 sWg = some t := by
  have hf : ∀ s : State, fitting s 0 0 32 0 = [0] → pickQuad s 0 0 32 0 = some 0 := fun s h => by simp [pickQuad, h, pick_one]
  have h : pickQuad ({ sWg with wgs := sset 2 ⟨0, 0, 1, sWg.tsc.toNat⟩ sWg.wgs, launches := sset 0 { lOne with started := [1] } sWg.launches } : State).takeId 0 0 32 0 = some 0 := hf _ (by decide +kernel)
  refine ⟨_, Eq.trans (b := Option.map _ (pickQuad _ 0 0 32 0)) rfl ((congrArg (Option.map _) h).trans rfl)⟩
theorem witness_Launches_complete : (let s : State := { sWg with launches := [(5, { lOne with started := [1], queue := 0, index := 0 })] }; launchOver s 5 { lOne with started := [1] } = true ∧ (s.ctx 0).st = .running ∧ ((s.ctx 0).queue 0).done = [] ∧ ((s.ctx 0).queue 0).cpl.toNat = 0 ∧ (s.ctx 0).lq.length = 4) := by decide
/-- Records that are refused: its slot in no page, its words marked, its tables in no page, a constant with bits it must not have, no core to run on. -/
def sNoSlot : State := { (sQueue 3).updCtx 0 (fun x => { x with lq := [⟨0x20E10, 1, 0, 0, false, 0, 0, none, none, []⟩, .reset, .reset, .reset] }) with cur := some ⟨0, 67⟩, lookups := [(7, ⟨7, 0, 0, 0x20, false, false, 1, [⟨0, 67, 0⟩]⟩)] }
def withTables (ptr : Byte) : State := { sQueue 3 with cur := some ⟨0, 67⟩, lookups := [(7, ⟨7, 0, 0, 0x20, false, false, 1, [⟨0, 67, 0⟩]⟩)], mem := (sQueue 3).mem ++ [⟨0x10E24, 1⟩, ⟨0x10E29, 0x0F⟩, ⟨0x10E2A, ptr⟩, ⟨0x10F05, 0x80⟩] }
def recTables (ptr : Byte) : LRec := parseRec (pwBytes ((List.range 64).map fun k => readPWord (withTables ptr) (0x10E00 + 4 * k)))
theorem witness_Launches_accept_fault : ((sNoSlot.ctx 0).queue 0).slot 0 = 0x20E00 ∧ ∀ rem, ∃ x d a, readBlock rem 0 0 false 0x20E00 64 sNoSlot = .fault x d a := ⟨by decide, fun _ => ⟨_, _, _, rfl⟩⟩
theorem witness_Launches_accept_marked : firstPoison ((List.range 64).map fun k => readPWord { sQueue 3 with memPoison := [(0x10E00 / 4, true)] } (0x10E00 + 4 * k)) ≠ none := by decide +kernel
theorem witness_Launches_accept_no_tables : (recTables 2).fieldsOk = true ∧ ∀ rem, ∃ x d a, readTables rem 0 0 (recTables 2) (withTables 2) = .fault x d a := ⟨by decide +kernel, fun _ => ⟨_, _, _, rfl⟩⟩
theorem witness_Launches_accept_bad_table : (∀ rem, ∃ tab, readTables rem 0 0 (recTables 1) (withTables 1) = .ok tab ∧ tab.valid ((withTables 1).part 0) = false) := fun _ => ⟨_, rfl, by decide +kernel⟩
theorem witness_Launches_accept_no_core : mapLaunch ((sQueue 3).updPart 0 fun p => { p with quads := 0 }) 0 (parseRec (pwBytes (recWords 3))) = (1, []) := by
  have h : ∀ s : State, ∀ r : LRec, partCores s 0 = [] → mapLaunch s 0 r = (1, []) := fun s r h => by simp [mapLaunch, h]
  exact h _ _ (by decide +kernel)
theorem witness_Launches_goes_on : sget 0 sWg.launches = some lOne ∧ ¬ ∀ v n, lOne.started[v]? = some n → n = lOne.rec_.share v := ⟨by decide, fun h => absurd (h 0 0 rfl) (by decide)⟩

/-! ## Witnesses: control, walks, results -/

/-- A clause of one word w at 0x10000 and the header of another clause behind it. -/
def sBr (w : DWord) : State := writeMem 0x10010 8 0xF80FFFFFF0000000 false (st w)
/-- Lanes of the slice guarded by p1 of lane 0 alone. -/
def withP (s : State) : State := withG (fun g => g.putCell (keyP 0 1) ⟨1, false, 0⟩) s
def onP1 : Guard := ⟨false, 1, 0⟩
/-- To the word behind the clause, with that header as the reconvergence header. -/
def wBr (gd : Guard) (rcv : BitVec 16) : WB := ⟨gd, 2, rcv⟩
/-- BRX and CALLX by s8. -/
def wBrx : WB := ⟨always, (encOpd (.s 8)) ++ 0#23, 2⟩
def uBrx : Uses := ⟨[(.s 8, 2, false)], [], [], [], true⟩
theorem witness_Branches_all : (∀ i ∈ ([.bra (wBr always 0), .bra (wBr always 2), .call (wBr always 0), .brx wBrx, .callx { wBrx with rcv := 0 }] : List Instr), IssuesIn i (withS 8 0x10010 (sBr 0))) ∧ decOpd (wBrx.tgt.extractLsb' 23 9) = .s 8 ∧
    (let e := mkEnv (withS 8 0x10010 (sBr 0)) 1 (gOf (sBr 0)) (aOf (sBr 0)) (hOf (sBr 0)) always uBrx; e.leader = some 0 ∧ e.mask = 15) ∧ (env (withS 8 0x10010 (sBr 0)) always .none).rN (.s 8) 2 0 = ⟨0x10010, false⟩ ∧
    (∃ x, fetchWord (withS 8 0x10010 (sBr 0)) 1 (gOf (withS 8 0x10010 (sBr 0))) 0x10010 = .ok x ∧ (decHeader x).isSome = true) ∧ (aOf (sBr 0)).slices = [0] ∧ (gOf (sBr 0)).partings = [] ∧ ((gOf (sBr 0)).slice 0).recs = [] ∧ ((gOf (sBr 0)).slice 0).rets = [] :=
  ⟨issuesIn_all rfl (by decide), by decide, by decide, by decide, ⟨_, rfl, by decide⟩, by decide, by decide, by decide, by decide⟩
theorem witness_Branches_diverge : let s := withP (sBr 0); let e := env s onP1 .none
    ([.bra (wBr onP1 0), .bra (wBr onP1 2), .call (wBr onP1 0)].all (fun i => issuesB i onP1 s)) = true ∧ e.leader = some 0 ∧ e.mask = 1 ∧ ((gOf s).slice 0).active = 15 ∧ ((gOf s).slice 0).recs.length = 0 ∧
    (∃ x, fetchWord s 1 (gOf s) 0x10010 = .ok x ∧ (decHeader x).isSome = true) := ⟨by decide, by decide, by decide, by decide, by decide, ⟨_, rfl, by decide⟩⟩
theorem witness_Branches_misaligned : IssuesIn (.brx wBrx) (withS 8 0x10014 (sBr 0)) ∧ (env (withS 8 0x10014 (sBr 0)) always .none).rN (.s 8) 2 0 = ⟨0x10014, false⟩ := ⟨issuesIn rfl (by decide), by decide⟩
/-- A slice whose return stack holds n entries. -/
def sRet (n : Nat) (gd : Guard) : State := withP (withG (fun g => g.updSlice 0 fun x => { x with rets := List.replicate n ⟨0x10010, 0x10000, 0, false, 0⟩ }) (sBr (encB 0xC4 ⟨gd, 0, 0⟩)))
theorem witness_Branches_return : IssuesIn (.ret ⟨always, 0, 0⟩) (sRet 0 always) ∧ IssuesIn (.ret ⟨always, 0, 0⟩) (sRet 1 always) ∧ IssuesIn (.callx { wBrx with rcv := 0 }) (withS 8 0x10010 (sRet 16 always)) ∧ issuesB (.ret ⟨onP1, 0, 0⟩) onP1 (sRet 1 onP1) = true ∧
    ((gOf (sRet 1 always)).slice 0).rets = [⟨0x10010, 0x10000, 0, false, 0⟩] ∧ ((gOf (sRet 0 always)).slice 0).rets = [] ∧ ((gOf (sRet 16 always)).slice 0).rets.length = 16 ∧ ((gOf (sRet 1 always)).slice 0).active = 15 ∧ (env (sRet 1 onP1) onP1 .none).mask = 1 :=
  ⟨issuesIn rfl (by decide), issuesIn rfl (by decide), issuesIn rfl (by decide), by decide, by decide, by decide, by decide, by decide, by decide⟩

/-- WAIT, YIELD and SLEEP. -/
def wWait : WI := ⟨always, .z, .z, .z, 0, false, false, 1⟩
def wSleep : WI := ⟨always, .z, .z, .z, 3, false, false, 0x200⟩
/-- An operation of w0 is out. -/
def out0 (s : State) : State := withG (fun g => { g with out := [⟨0, 9, false⟩] }) s
theorem witness_WaitsAndClauses_words : (∀ s ∈ [st 0, sTwo 0, out0 (st 0), out0 (sTwo 0)], issuesB (.waitCtr wWait) always s = true) ∧ (∀ i ∈ ([.exitLanes ⟨always, 0, 0⟩, .regang ⟨always, 0, 0⟩, .yield { wWait with mod := 0 }, .sleep wSleep, .sleep ⟨always, .z, .s 4, .z, 0, false, false, 0⟩] : List Instr), issuesB i always (st 0) = true) ∧
    (gOf (st 0)).gangs = [aOf (st 0)] ∧ (aOf (st 0)).slices = [0] ∧ (gOf (st 0)).partings = [] ∧ (env (st 0) always .none).leader = some 0 ∧ (aOf (sTwo 0)).idx < (hOf (sTwo 0)).count.toNat ∧ (aOf (st 0)).idx = (hOf (st 0)).count.toNat ∧
    (gOf (st 0)).count 0 ≤ 0 ∧ 0 < (gOf (out0 (st 0))).count 0 ∧ ((gOf (st 0)).slice 0).active = 15 ∧ ((gOf (st 0)).slice 0).live = 15 ∧ (env (st 0) always .none).mask = 15 := by decide
/-- A second gang of slice 1, which stands at the same REGANG or not. -/
def sGang (h : Hold) : State := withG (fun g => { g with nsl := 2, slices := [.start, .start], partings := [⟨none, [0, 1], 255⟩], gangs := g.gangs ++ [{ (default : Gang) with slices := [1], pc := 0x10000, hold := h }] }) (st 0)
theorem witness_WaitsAndClauses_regang : (∀ h ∈ ([.free, .regang 0x10000 0] : List Hold), issuesB (.regang ⟨always, 0, 0⟩) always (sGang h) = true) ∧ (∀ b ∈ (gOf (sGang (.regang 0x10000 0))).gangs, b.slices = (aOf (sGang .free)).slices ∨ b.hold = .regang 0x10000 0) ∧
    (∃ b ∈ (gOf (sGang .free)).gangs, b.slices ≠ (aOf (sGang .free)).slices ∧ b.hold ≠ .regang 0x10000 0) ∧ (gOf (sGang .free)).gangs.length ≠ 1 ∧ ((gOf (sGang .free)).slices.all fun x => x.recs.isEmpty) = true ∧ (aOf (sGang .free)).pc = 0x10000 := by decide
/-- A gang between clauses, before a header. -/
def sHead (hw : Nat) (f : Gang → Gang) : State := withG (fun g => g.updGang 0 fun a => f { a with hdr := none, stream := none }) (writeMem 0x10000 8 hw false (st 0))
theorem witness_WaitsAndClauses_clause_start : (∀ hw ∈ [0xF800000000000000, 0xF80FFFFFF0000000, 0, 0xFD0FFFFFF0000000, 0xF80FFFFFF0000001], let s := sHead hw id; (s.group? 1).isSome = true ∧ ((gOf s).gang? 0).isSome = true ∧ (gOf s).resident = true ∧ (s.ctx 0).st = .running ∧ (aOf s).hdr = none ∧ (aOf s).hold = .free ∧ (gOf s).sr.handler = false ∧ (gOf s).heldByFactor = false) ∧
    headerCause false false 0 = some 0x03 ∧ headerCause true false 0 = some 0x05 ∧ headerCause false false 0xFC0FFFFFF0000000 = some 0x06 ∧ headerCause false false 0xF80FFFFFF0000001 = some 0x03 ∧ headerCause false false 0xF80FFFFFF0000000 = none ∧
    (decHeader 0xF80FFFFFF0000000).isSome = true ∧ (streamFor (sHead 0xF80FFFFFF0000000 id) 1 (gOf (sHead 0xF80FFFFFF0000000 id)) (aOf (sHead 0xF80FFFFFF0000000 id))).isSome = true := by decide
theorem witness_WaitsAndClauses_fetched : fetchWord (sHead 0 id) 1 (gOf (sHead 0 id)) 0x10000 = .ok 0 ∧ fetchWord (sHead 0xF80FFFFFF0000000 id) 1 (gOf (sHead 0xF80FFFFFF0000000 id)) 0x10000 = .ok 0xF80FFFFFF0000000 := ⟨rfl, rfl⟩
theorem witness_WaitsAndClauses_sleep : (let s := sHead 0 fun a => { a with hold := .sleep 5 }; (gOf s).gang? 0 = some (aOf s) ∧ (aOf s).hold = .sleep 5 ∧ s.clk < 5) ∧ (let s := { sHead 0 (fun a => { a with hold := .sleep 5 }) with clk := 5 }; (aOf s).hold = .sleep 5 ∧ 5 ≤ s.clk) := by decide

/-- A handler at the second header, set or not, entered or not. -/
def sVec (vec : DWord) (hd : Bool) (w : DWord) : State := withSr (fun r => { r with utvec := vec, handler := hd, epc := 0x10000, ecause := 0x41 }) (sBr w)
theorem witness_TrapEntry : (∀ i ∈ ([.trapCode { wWait with mod := 0, imm := 9 }, .bkpt { wWait with mod := 0 }] : List Instr), issuesB i always (sVec 0x10010 false 0) = true) ∧ (env (sVec 0x10010 false 0) always .none).lanes ≠ [] ∧ (let s := sVec 0x10010 false 0; (s.group? 1).isSome = true ∧ ((gOf s).gang? 0).isSome = true ∧ (s.ctx 0).st = .running ∧
    ((gOf s).effSr s).utvec = 0x10010 ∧ (gOf s).sr.handler = false ∧ (aOf s).slices.Nodup) ∧ ((gOf (sVec 0 false 0)).effSr (sVec 0 false 0)).utvec = 0 ∧ (gOf (sVec 0x10010 true 0)).sr.handler = true := by decide
theorem witness_TrapEntry_header : ∃ x, fetchWord (sVec 0x10010 false 0) 1 (gOf (sVec 0x10010 false 0)) 0x10010 = .ok x ∧ (decHeader x).isSome = true := ⟨_, rfl, by decide⟩
/-- A handler's group with what its entry saved. -/
def sErt (hd : Bool) (cause : Word) : State := withSr (fun r => { r with handler := hd, epc := 0x10010, ecause := cause }) (withG (fun g => { g with trap := some [⟨0, 5, 0, 0, List.replicate 4 ⟨1, false, 0⟩, List.replicate 4 ⟨2, false, 0⟩⟩] }) (writeMem 0x10010 8 0xFC1FFFFFF0000000 false (st 0x7E80000000000000)))
theorem witness_TrapReturn : (∀ c ∈ [0x41, 0x20, 0x120], issuesB (.eret ⟨always, 0, 0⟩) always (sErt true (BitVec.ofNat 32 c)) = true) ∧ issuesB (.eret ⟨always, 0, 0⟩) always (sErt false 0x41) = true ∧ (gOf (sErt false 0x41)).sr.handler = false ∧
    (gOf (sErt true 0x41)).sr.handler = true ∧ (gOf (sErt true 0x41)).trap = some [⟨0, 5, 0, 0, List.replicate 4 ⟨1, false, 0⟩, List.replicate 4 ⟨2, false, 0⟩⟩] ∧ ((gOf (sErt true 0x41)).slice 0).recs = [] ∧ ((gOf (sErt true 0x41)).slice 0).rets = [] ∧
    (env (sErt true 0x120) always .none).sr.epc = 0x10010 ∧ (env (sErt true 0x120) always .none).sr.ecause = 0x120 ∧ (decHeader 0xFC1FFFFFF0000000).any (fun h => h.count == 1) = true := by decide
theorem witness_TrapReturn_words : fetchWord (sErt true 0x41) 1 (gOf (sErt true 0x41)) 0x10010 = .ok 0xFC1FFFFFF0000000 ∧ (∀ k ∈ [1, 2], ∃ x h, decHeader 0xFC1FFFFFF0000000 = some h ∧ fetchInstr (sErt true 0x41) 1 (gOf (sErt true 0x41)) h (0x10010 + BitVec.ofNat 64 (8 * k)) = .ok x) := by
  refine ⟨rfl, fun k hk => ?_⟩
  rcases List.mem_cons.1 hk with rfl | hk
  · exact ⟨_, _, rfl, rfl⟩
  · rw [List.mem_singleton.1 hk]; exact ⟨_, _, rfl, rfl⟩

theorem witness_Stubs : issuesB (.xlate { wWait with imm := 7, mod := 0 }) always (sRet 1 always) = true ∧ issuesB (.xlate { wWait with mod := 0 }) always (sRet 0 always) = true ∧ (env (sRet 1 always) always .none).leader = some 0 ∧ (aOf (sRet 1 always)).slices = [0] ∧ ((gOf (sRet 1 always)).slices[0]?).isSome = true ∧
    ((sRet 1 always).ctx 0).st = .running ∧ (∀ L ∈ (env (sRet 1 always) always .none).lanes, L / 4 = 0) := by decide
/-- HALTCTX of the number in s4, and of the own context. -/
def wHalt (a : Opd) (op : BitVec 11) : WI := ⟨always, .z, a, .z, 0, false, false, op⟩
def sCtx (n : Word) (sup : Bool) : State := ((withS 4 n (st 0x7E98000000000000)).updCtx 0 fun x => { x with sup := sup }).updCtx 5 fun x => { x with st := .running }
theorem witness_Halts : (∀ op ∈ [0, 1, 2], issuesB (.haltctx (wHalt (.s 4) (BitVec.ofNat 11 op))) always (sCtx 5 true) = true ∧ issuesB (.haltctx (wHalt .z (BitVec.ofNat 11 op))) always (sCtx 0 false) = true) ∧ (env (sCtx 5 true) always .none).leader = some 0 ∧
    ([5, 15, 16, 4096].all fun n => issuesB (.haltctx (wHalt (.s 4) 0)) always (sCtx (BitVec.ofNat 32 n) false) && (env (sCtx (BitVec.ofNat 32 n) false) always .none |>.r32 (.s 4) 0).w.toNat == n && !(env (sCtx (BitVec.ofNat 32 n) false) always .none |>.r32 (.s 4) 0).poison) = true ∧
    ((sCtx 5 true).ctx 0).sup = true ∧ ((sCtx 5 false).ctx 0).sup = false ∧ ((sCtx 5 true).ctx 5).st = .running ∧ (Instr.haltctx (wHalt (.s 4) 2)).ownOk = true ∧ (Instr.haltctx (wHalt .z 0)).ownOk = true ∧ (Instr.haltctx (wHalt (.s 4) 3)).ownOk = false ∧ issuesB (.haltctx (wHalt (.s 4) 3)) always (sCtx 5 true) = true := by decide
theorem witness_Hints : (∀ i ∈ ([.prio { wWait with imm := 3, mod := 0 }, .unassignedHint ⟨always, 0xFB, .v 2, 0⟩, .unassignedHint ⟨always, 0xFF, .s 127, 0⟩] : List Instr), issuesB i always (st 0) = true) ∧ (env (st 0) always .none).lanes ≠ [] ∧ (let s := { st 0 with clk := 1 }; issuesB (.prio { wWait with imm := 3, mod := 0 }) always s = true ∧ (gOf s).prioAt < s.clk ∧ (env s always .none).lanes ≠ []) := by decide

/-- A lookup of page 16, and a page table for the first 2^30 bytes at 0x20000. -/
def sWalk (l : Lookup) : State := { (st 0).updCtx 0 (fun x => { x with rv := true, root := 0x20000 }) with
  lookups := [(7, l)]
  mem := [⟨0x20000, 0x01⟩, ⟨0x20001, 0x10⟩, ⟨0x20002, 0x02⟩, ⟨0x21000, 0x01⟩, ⟨0x21001, 0x20⟩, ⟨0x21002, 0x02⟩, ⟨0x22000, 0x1F⟩] }
def lk (started stale : Bool) (va : Nat) : Lookup := ⟨7, 0, 0, va, started, stale, 0, []⟩
theorem witness_Walks : (∀ l ∈ [lk false false 16, lk true false 16, lk true true 16, lk true false 0x40000], sget 7 (sWalk l).lookups = some l) ∧ walksOn (sWalk (lk false false 16)) (dieOf 0) = 0 ∧
    nodeOf (sWalk (lk true false 16)) 0 (atNode 0x1F) = .ok (0, true) := ⟨by decide, by decide, rfl⟩
theorem witness_Walks_found : (match walk (sWalk (lk true false 16)) 0 (16 * 4096) with | .found 0 0x3FFFFFFF 0 attr _ false => attr == 0x1F | _ => false) = true := by decide +kernel
theorem witness_Walks_failed : (match walk (sWalk (lk true false 0x40000)) 0 (0x40000 * 4096) with | .bad 1 => true | _ => false) = true := by decide +kernel
theorem witness_Walks_full : 512 ≤ walksOn { sWalk (lk false false 16) with lookups := (List.range 513).map fun k => (k, lk (k != 7) false k) } (dieOf 0) := by decide +kernel
/-- An invalidation of one page waits for a walk, or for nothing. -/
def sInv (l : Lookup) : State := (sWalk l).updCtx 0 fun x => { x with invs := [⟨3, 1, 16, 1, [7]⟩] }
theorem witness_Invalidations : ∀ l ∈ [lk true false 20, lk true true 16], ((sInv l).ctx 0).invs = [⟨3, 1, 16, 1, [7]⟩] ∧ answered (sInv l) 0 = true ∧ (l.stale = false → ∃ p ∈ (sInv l).lookups, p.1 ∈ [7] ∧ p.2.started = true ∧ p.2.stale = false) ∧
    (l.stale = true → ∀ p ∈ (sInv l).lookups, p.1 ∈ [7] → p.2.started = true → p.2.stale = true) := by decide
theorem witness_Invalidations_unanswered : let s := { sInv (lk true true 16) with waits := [⟨9, 0, true, 0, 0, none⟩] }; (s.ctx 0).invs = [⟨3, 1, 16, 1, [7]⟩] ∧ answered s 0 = false := by decide
/-- A result that waits on w1. -/
def sRes (known resident : Bool) : State := withG (fun g => { g with resident := resident, out := [⟨1, 9, false⟩], vp := [⟨9, known, [(keyV 0 2, ⟨7, false, 0⟩), (keyF 0, ⟨8, false, 0⟩)], [keyV 0 2], []⟩] }) (st 0)
theorem witness_ResultsCompleteInOrder : (gOf (st 0)).oldest 1 = none ∧ (∀ p ∈ [(true, true), (false, true), (true, false)], (gOf (sRes p.1 p.2)).oldest 1 = some ⟨1, 9, false⟩ ∧ ((gOf (sRes p.1 p.2)).vp.find? fun x => x.id == 9).any (fun v => v.known == p.1) = true ∧ (gOf (sRes p.1 p.2)).resident = p.2) ∧
    ((sRes true true).group? 1).isSome = true := by decide
/-- A divergence where the slice holds eight reconvergence entries; targets with bits [63:57], in no page, at no header. -/
theorem witness_Branches_full : let s := withG (fun g => g.updSlice 0 fun x => { x with recs := List.replicate 8 ⟨0x10010, 15, 0, 0⟩ }) (withP (sBr 0)); issuesB (.bra (wBr onP1 2)) onP1 s = true ∧ ((gOf s).slice 0).recs.length = 8 ∧ (env s onP1 .none).mask = 1 ∧ ((gOf s).slice 0).active = 15 := ⟨by decide, by decide, by decide, by decide⟩
def sNoPage : State := { sBr 0 with lookups := [(7, ⟨7, 0, 0, 0x20, false, false, 1, [⟨1, 0, (aOf (sBr 0)).due⟩]⟩)] }
theorem witness_Branches_targets : (∀ s ∈ [withS 9 0x02000000 (withS 8 0x10010 (sBr 0)), withS 8 0x20010 sNoPage, withS 8 0x10008 (sBr 0)], IssuesIn (.brx wBrx) s) ∧ ((env (withS 9 0x02000000 (sBr 0)) always .none).rN (.s 8) 2 0).val.extractLsb' 57 7 ≠ 0 ∧
    (∃ c d, fetchWord sNoPage 1 (gOf sNoPage) 0x20010 = .fault c d) ∧ (∃ x, fetchWord (sBr 0) 1 (gOf (sBr 0)) 0x10008 = .ok x ∧ decHeader x = none) := ⟨fun s hs => by
  rcases List.mem_cons.1 hs with rfl | hs
  · exact issuesIn rfl (by decide)
  rcases List.mem_cons.1 hs with rfl | hs
  · exact issuesIn rfl (by decide)
  cases List.mem_singleton.1 hs; exact issuesIn rfl (by decide), by decide, ⟨_, _, rfl⟩, ⟨_, rfl, by decide⟩⟩
/-- No lane acts; the target register is poisoned with the trap enabled. -/
theorem witness_Branches_nobody : issuesB (.bra (wBr onP1 2)) onP1 (sBr 0) = true ∧ (env (sBr 0) onP1 .none).lanes = [] := ⟨by decide, by decide⟩
def sBrPoison : State := withSr (fun r => { r with trapen := 1 }) (withG (fun g => g.putCell (keyS 8) ⟨0, true, 0⟩) (sBr 0))
theorem witness_Branches_poisoned : IssuesIn (.brx wBrx) sBrPoison ∧ (env sBrPoison always .none).sr.trapPoison = true ∧ ((env sBrPoison always .none).rN (.s 8) 2 0).poison = true := ⟨issuesIn rfl (by decide), by decide, by decide⟩
/-- A trap or a halt that counts its word; a walk that has failed and an invalidation of another context's; a gang's result known behind one that is not, with a late access. -/
theorem witness_TrapEntry_counted : (let s := sVec 0x10010 false 0; (takeTrap 1 0 0x41 15 0 s).group? 1).any (fun g => g.sr.handler) = true ∧ (let s := sVec 0 false 0; ((takeTrap 1 0 0x41 15 0 s).ctx 0).recs.length ≠ (s.ctx 0).recs.length ∧ ((takeTrap 1 0 0x41 15 0 s).group? 1).any (fun g => !g.sr.handler) = true) := by decide
theorem witness_Walks_kept : sget 7 (sWalk { lk false false 16 with err := 1 }).lookups = some { lk false false 16 with err := 1 } ∧ sget 7 (sWalk { lk false false 16 with err := 1, ctx := 1 }).lookups = some { lk false false 16 with err := 1, ctx := 1 } := by decide
def sBehind : State := { withG (fun g => { g with out := [⟨1, 9, false⟩, ⟨1, 10, false⟩], vp := [⟨9, false, [], [], []⟩, ⟨10, true, [(keyV 0 2, ⟨7, false, 0⟩)], [keyV 0 2], []⟩] }) (st 0) with ctxs := [(0, { (default : Ctx) with st := .halting })] }
theorem witness_Results_behind : (gOf sBehind).oldest 1 = some ⟨1, 9, false⟩ ∧ (sBehind.ctx (gOf sBehind).ctx).st = .halting ∧ (gOf sBehind).late = [] ∧ (gOf sBehind).resident = true ∧
    ((gOf sBehind).out.find? fun y => y.ctr == 1 && !y.fin && (match (gOf sBehind).vp.find? fun z => z.id == y.id with | some z => z.known | none => false)) = some ⟨1, 10, false⟩ := by decide
/-- The flags of an operation that has completed, and of one that is still out. -/
def sDue (done : Bool) : State := withG (fun g => { g with out := if done then [] else [⟨2, 9, false⟩], due := [(9, 8)] }) (st 0)
theorem witness_WaitsAndClauses_flags : (∀ b ∈ [false, true], issuesB (.waitCtr { wWait with mod := 4 }) always (sDue b) = true ∧ (gOf (sDue b)).due = [(9, 8)]) ∧ (gOf (sDue true)).count 2 = 0 ∧ (gOf (sDue false)).count 2 = 1 := by decide
theorem witness_WaitsAndClauses_sleep_moved : (let s := { sHead 0 (fun a => { a with hold := .sleepTsc 5 }) with tsc := 5 }; (aOf s).hold = .sleepTsc 5 ∧ 5 ≤ s.tsc.toNat) ∧ (let s := sHead 0 fun a => { a with hold := .sleepTsc 5 }; (aOf s).hold = .sleepTsc 5 ∧ s.tsc.toNat < 5) := by decide

/-! ## Witnesses: contexts -/

/-- Context 0 in a state. -/
def sC (x : CtxSt) (f : Ctx → Ctx := id) : State := { (st 0).updCtx 0 (fun y => f { y with st := x }) with tsc := 5000000 }
/-- Nothing of the partition runs. -/
def partFree (s : State) : Bool := (List.range 16).all fun k => !(s.ctx k).st.occupies
theorem witness_ContextCommands : (∀ x ∈ [.idle, .running, .halting, .halted, .saving, .saved, .killing, .killed], ((sC x).ctx 0).st = x) ∧ partFree (sC .saved) = true ∧ (∀ a ∈ mappedCores (sC .halted) 0, a ∉ (sC .halted).dev.fenced) ∧ (∀ a ∈ mappedCores (sC .saved) 0, a ∉ (sC .saved).dev.fenced) ∧
    partFree ((sC .saved).updCtx 1 fun x => { x with st := .running }) = false ∧ ((sC .saved).part 0).heldIn = [] ∧ { (sC .idle) with dev := { (sC .idle).dev with mayCreate := true } }.dev.mayCreate = true ∧ (sC .idle).dev.mayCreate = false ∧
    (5000000 : DWord).toNat ≤ (sC .saved).tsc.toNat ∧ ((sC .saved).ctx 0).lateFrom = none ∧ (sC .saved).tsc.toNat < (5000001 : DWord).toNat := by decide
/-- Its one core is out of service and there is no other. -/
def sFenced : State := { sC .halted with dev := { (sC .halted).dev with fenced := [0] }, launches := [(0, oneCore)] }
theorem witness_ContextCommands_fenced : (sFenced.ctx 0).st = .halted ∧ remap 0 sFenced = none := ⟨by decide, by decide +kernel⟩
/-- A result that is known and has not been written. -/
def busy (s : State) : State := withG (fun g => { g with vp := [⟨9, true, [], [], []⟩] }) s
/-- A read of a remote node not yet answered. -/
def waiting (s : State) : State := withG (fun g => { g with remote := [⟨9, 0, 0, 0, 0, default, none, false, 0, []⟩] }) s
theorem witness_ContextsStop : (∀ x ∈ [.halting, .saving, .killing], quiet (sC x) 0 = true ∧ quiet (busy (sC x)) 0 = false ∧ answered (sC x) 0 = true ∧ answered (waiting (sC x)) 0 = false ∧ ((busy (sC x)).ctx 0).st = x ∧ ((waiting (sC x)).ctx 0).st = x) ∧
    ((sC .halting).ctx 0).redist = false ∧ ((sC .saving).ctx 0).rotate = false ∧ ((sC .saving).part 0).heldIn = [] ∧ ((sC .saving).ctx 0).recs = [] ∧ ((sC .saving).ctx 0).haltBy = 0 ∧
    ((sC .halting fun x => { x with recs := [{ StopRec.blank 0 with cause := 2, first := true }] }).ctx 0).recs.map (fun r => (r.cause, r.first)) = [(2, true)] := by decide
/-- A context being redistributed from core 0, with core 1 to go to or no core. -/
def sMoveOff (x : CtxSt) (spare : Bool) : State := let s := (sC x fun y => { y with redist := true }).updPart 0 fun p => if spare then { p with quads := 0x11, spsets := 0x101 } else p
  { s with dev := { s.dev with fenced := [0] }, launches := [(0, oneCore)] }
theorem witness_ContextsStop_redistributed : (∀ x ∈ [.halting, .saving], ∀ b ∈ [false, true], ((sMoveOff x b).ctx 0).st = x ∧ quiet (sMoveOff x b) 0 = true ∧ ((sMoveOff x b).ctx 0).redist = true ∧ ((sMoveOff x b).ctx 0).wantSave = false ∧ ((sMoveOff x b).ctx 0).rotate = false ∧ ((sMoveOff x b).ctx 0).recs = [] ∧
    ((sMoveOff x b).ctx 0).haltBy = 0 ∧ ((sMoveOff x b).ctx 0).haltpend = false ∧ ((sMoveOff x b).ctx 0).lateFrom = none ∧ (mappedCores (sMoveOff x b) 0).filter (sMoveOff x b).dev.fenced.contains = [0]) := by decide
theorem witness_ContextsStop_spare : ∀ x ∈ [.halting, .saving], spareCores (sMoveOff x true) 0 0 ≠ [] ∧ spareCores (sMoveOff x false) 0 0 = [] := by decide +kernel
theorem witness_SlicesAndMoves : (let x := (sC .running fun x => { x with sliceend := 5000000 }).ctx 0; x.sliceend ≠ 0 ∧ x.endDone = false ∧ x.sliceend.toNat ≤ 5000000 ∧ x.st = .running) ∧ (let x := (sC .saved fun x => { x with sliceat := 5000000 }).ctx 0; x.sliceat ≠ 0 ∧ x.atDone = false ∧ x.sliceat.toNat ≤ 5000000 ∧ x.st = .saved ∧ x.lateFrom = none) ∧
    ((sC .running).ctx 0).sliceend = 0 ∧ ((sC .running).ctx 0).sliceat = 0 ∧ ((sC .running).part 0).tslice = 0 ∧
    (let s := (sC .running).updPart 0 fun p => { p with tslice := 5000 }; (s.part 0).tslice * 1000 ≤ (s.tsc - (s.ctx 0).runSince).toNat ∧ (s.ctx 0).st = .running ∧ (∀ k ∈ List.range 16, k ≠ 0 → (s.ctx k).st ≠ .running)) ∧
    (let s := (sC .running).updPart 0 fun p => { p with tslice := 5001 }; (s.tsc - (s.ctx 0).runSince).toNat < (s.part 0).tslice * 1000) := by decide
/-- Nothing runs for the context. -/
def sHeld : State := { sC .running fun x => { x with hold := true } with groups := [] }
theorem witness_Moves : (sHeld.ctx 0).st = .running ∧ (sHeld.ctx 0).hold = true ∧ (sHeld.ctx 0).done = false ∧ idleWork sHeld 0 = true ∧ idleWork (sC .running) 0 = false ∧ markedMem (sC .saved) 0 128 = false ∧ readMem (sC .saved) 0 4 = 0 ∧ ((sC .saved).ctx 0).carrybase = 0 ∧
    markedMem { sC .saved with memPoison := [(0, true)] } 0 128 = true ∧ 262144 < readMem { sC .saved with mem := [⟨0, 1⟩, ⟨2, 4⟩] } 0 4 := by decide
/-- A saved context whose save area has kept the byte it took, and one whose area is marked. -/
def sImage (bad : Bool) : State := { sC .saved fun x => { x with image := some (3, 1) } with mem := [⟨0, Config.saveByte 3 0⟩], memPoison := if bad then [(0, true)] else [] }
theorem witness_ContextCommands_image : ((sImage false).ctx 0).image = some (3, 1) ∧ saveArea ((sImage false).ctx 0) = 0 ∧ markedMem (sImage false) 0 1 = false ∧ readByteList (sImage false) 0 1 = (List.range 1).map (Config.saveByte 3) ∧ markedMem (sImage true) 0 1 = true ∧ ((sImage true).ctx 0).st = .saved ∧
    partFree (sImage false) = true ∧ (∀ p ∈ (sC .running).groups, p.2.ctx = 0 → p.2.late = []) := ⟨by decide, by decide, by decide +kernel, rfl, by decide +kernel, by decide, by decide, by decide⟩
/-- Every access is answered and nothing is under way, in each state that stops; a gang that entered its handler in this clk; a ring of one record; a kill for an unreadable save area. -/
theorem witness_ContextsStop_still : ∀ x ∈ [.halting, .saving, .killing], let s := sC x fun y => { y with stopbase := 0x40001, haltBy := if x == .killing then 3 else 0 }
    (∀ p ∈ s.groups, p.2.ctx = 0 → (∀ r ∈ p.2.remote, r.resp ≠ none) ∧ (∀ v ∈ p.2.vp, v.known = false) ∧ ∀ y ∈ p.2.late, y.vp = 0) ∧ s.waits = [] ∧ s.msgs = [] ∧ s.copies = [] ∧ (∀ p ∈ s.seqs, p.2 = []) ∧ (s.ctx 0).stopbase.getLsbD 0 = true ∧ (s.part 0).heldIn = [] ∧ (x = .killing → (s.ctx 0).haltBy = 3) ∧
    (∀ p ∈ s.groups, p.2.ctx = 0 → p.2.sr.handler = false) := by decide
theorem witness_ContextsStop_trapped : let s := withSr (fun r => { r with handler := true }) (withG (fun g => { g.updGang 0 fun a => { a with idx := 0, hdr := none, since := (sC .halting).clk } with trap := some [⟨0, 15, 0, 0, [], []⟩] }) (sC .halting)); ∃ p ∈ s.groups, p.2.ctx = 0 ∧ p.2.sr.handler = true ∧ ∃ a ∈ p.2.gangs, a.idx = 0 ∧ a.hdr = none ∧ a.since = s.clk ∧ p.2.heldByHandler a = false := by decide
theorem witness_Moves_idle : sHeld.groups = [] ∧ sHeld.conts = [] ∧ (∀ p ∈ sHeld.seqs, p.2 = []) ∧ sHeld.copies = [] ∧ (sHeld.ctx 0).comms = [] ∧ (sHeld.ctx 0).devq = [] ∧ sHeld.waits = [] ∧ sHeld.msgs = [] ∧ sHeld.tasks = [] ∧ sHeld.launches.all (fun p => p.2.dev.isNone) = true := by decide
/-- Nothing of the context waits to be performed. -/
theorem witness_ContextCommands_settled : let s := sC .running; (∀ p ∈ s.groups, p.2.ctx = 0 → p.2.late = []) ∧ s.copies = [] ∧ s.seqs = [] ∧ (s.ctx 0).comms = [] := by decide
theorem witness_ContextsStop_entered : let s := withG (fun g => { g with trapAt := (sC .halting).clk + 1 }) (sC .halting); (∃ p ∈ s.groups, p.2.ctx = 0 ∧ p.2.trapAt = s.clk + 1) ∧ ¬ ∃ p ∈ (sC .halting).groups, p.2.trapAt = (sC .halting).clk + 1 := by decide

/-! ## Witnesses: host, fabric, power, the machine -/

/-- A partition whose queue holds 12 entries of 4,096, with one dropped when it was full. -/
def sEq (h t : BitVec 16) (d : Nat) : State := (st 0).updPart 0 fun p => { p with eqhead := h, eqtail := t, dropped := d }
theorem witness_HostRegisters_queues : 0 < ((st 0).ctx 0).lq.length ∧ 3 < ((sC .saved).ctx 0).lq.length ∧ ((sC .saved).ctx 0).st = .saved ∧ ((st 0).ctx 0).st = .running ∧ (((st 0).ctx 0).queue 0).base.getLsbD 4 = false ∧ (((sQueue 3).ctx 0).queue 0).base.getLsbD 4 = true ∧ ((0x1D : DWord).extractLsb' 0 4).toNat = 13 ∧ (0x1D : DWord).getLsbD 4 = true ∧
    (let p := (sEq 65530 6 0).part 0; (p.eqtail - p.eqhead).toNat < ((7 : DWord).extractLsb' 0 16 - p.eqhead).toNat ∧ ((6 : DWord).extractLsb' 0 16 - p.eqhead).toNat ≤ (p.eqtail - p.eqhead).toNat ∧ p.dropped = 0) := by decide
theorem witness_HostRegisters_lost : let p := (sEq 0 (BitVec.ofNat 16 (((sEq 0 0 1).part 0).eqSize)) 1).part 0; p.dropped ≠ 0 ∧ (1 : DWord).extractLsb' 0 16 ≠ p.eqhead ∧ (p.eqtail - p.eqhead).toNat = p.eqSize ∧ ((sEq 65530 6 0).part 0).eqSize ≠ 12 ∧ ((1 : DWord).extractLsb' 0 16 - p.eqhead).toNat ≤ (p.eqtail - p.eqhead).toNat := by decide
theorem witness_HostRegisters_grants : grantLocked (st 0) 0 = true ∧ grantLocked (st 0) 1 = false ∧ grantLocked State.reset 255 = false ∧ otherParts (st 0) 1 ≠ [] ∧ otherParts State.reset 255 = [] := by decide
theorem witness_HostRegisters_writes : (State.reset.dev.bootState ≠ 3) ∧ { State.reset with dev := { State.reset.dev with bootState := 3 } }.dev.bootState = 3 ∧ regAt 0 0x1001108 = .ctx 0 0x108 ∧ regAt 255 0x10300 = .ctx 4095 0x300 ∧ regAt 1 0x1100 = .ctx 16 0x100 ∧ regAt 1 0x1358 = .ctx 16 0x358 ∧ (State.reset.ctx 16).st = .idle ∧ regAt 1 0x20 = .part 1 0x20 ∧ regAt 1 (0x14C / 8 * 8) = .part 1 0x148 := by decide
theorem witness_HostMemory : regionOf 0 ≠ .devreg ∧ isDevMem 0 = true ∧ isDevMem 0xB2D05DFFF = true ∧ isDevMem (0xB2D05DFFF - 3 + 4 - 1) = true ∧ regionOf (0xF000000000000 + 0x100) = .devreg ∧ regionOf 0x8000000000000 = .host ∧ regionOf 0xEFFFFFFFFFFFF = .host := by decide

/-- Two events wait in partition 0. -/
def sEvents : State := pushEvent 0 15 0 3 0 1 0 (pushEvent 0 31 7 1 32 2 0 ((st 0).updPart 0 fun p => { p with eqbase := 2 }))
theorem witness_HostRegisters_events : sEvents.parts = [(0, sEvents.part 0)] ∧ ((sEvents.part 0).evq.Pairwise fun a b => b.before a = false) ∧ ∀ q ∈ (st 0).parts, q.2.evq = [] := ⟨rfl, by decide, by decide⟩
set_option maxRecDepth 8000 in
/-- 27 R445: of two events of one TS the one of the lower SRC is first; 27 R444: its kind is byte 16, its context byte 18. -/
theorem test_events_order : let t := sEvents.flushEvents 1
    (t.part 0).eqtail = 2 ∧ readMem t 8 4 = 15 ∧ readMem t 16 1 = 3 ∧ readMem t 18 1 = 1 ∧ readMem t 40 4 = 31 ∧ readMem t 44 4 = 7 ∧ readMem t 49 1 = 32 := by decide
/-- Port 0 trained, its flit tried n times, synchronised at t. -/
def sPort (n : Nat) (t : DWord) : State := { (st 0).updPort 0 fun x => { x with up := true, tries := n, lastSync := t } with tsc := 20000 }
theorem witness_LinksAndTime : (∀ n ∈ [0, 15, 16], 0 < (sPort n 0).dev.ports.length ∧ ((sPort n 0).port 0).up = true ∧ ((sPort n 0).port 0).tries = n) ∧ (((sPort 0 0).port 0).lastSync = 0) ∧ 10000 ≤ ((sPort 0 10000).tsc - ((sPort 0 10000).port 0).lastSync).toNat ∧
    ((sPort 0 10001).port 0).lastSync ≠ 0 ∧ ((sPort 0 10001).tsc - ((sPort 0 10001).port 0).lastSync).toNat < 10000 ∧ ((st 0).port 0).up = false ∧ (∀ y ∈ (st 0).dev.ports, y.up = false) ∧ (st 0).dev.synced = false ∧ 1000000000 ≤ { st 0 with tsc := 1000000000 }.tsc.toNat ∧ (st 0).dev.master = 0 := by decide
/-- A device that is not the master, its one trained port 3 ns behind. -/
def sSlave (up : Bool) : State := { sPort 0 0 with dev := { (sPort 0 0).dev with master := other, ports := (sPort 0 0).dev.ports.map fun x => { x with up := up, offset := 3 } } }
theorem witness_LinksAndTime_slew : (sSlave true).dev.master ≠ Config.nodeId.toNat ∧ (∀ y ∈ (sSlave true).dev.ports, y.up = true → y.offset = 3) ∧ (∃ y ∈ (sSlave true).dev.ports, y.up = true) ∧ -((3000 / 1000 : Nat) : Int) ≤ 3 ∧ (3 : Int) ≤ ((3000 / 1000 : Nat) : Int) ∧ (sSlave true).dev.master = other := by
  refine ⟨?_, ?_, ?_, by decide, by decide, rfl⟩
  · show other ≠ Config.nodeId.toNat
    unfold other; split <;> omega
  · intro y hy _
    obtain ⟨x, -, rfl⟩ := List.mem_map.1 hy
    rfl
  · exact ⟨_, List.mem_map_of_mem (List.head_mem (by decide)), rfl⟩
theorem witness_FabricAccesses : inWindow ((st 0).part 0) 0x10F00 = true ∧ isDevMem 0x10F00 = true ∧ killedMem (st 0) 0x10F00 = false ∧ killedMem (sC .killing) 0x10F00 = true ∧ inWindow ((st 0).part 1) 0x10F00 = false ∧ 0x10F00 % 4 = 0 ∧ 8 = 4 * ([⟨1, false⟩, ⟨2, false⟩] : List PWord).length ∧
    ((waiting (st 0)).group? 1).isSome = true ∧ ((gOf (waiting (st 0))).remote.map fun w => (w.id, w.resp)) = [(9, none)] := by decide
theorem witness_BootAndHeat : { State.reset with dev := { State.reset.dev with bootState := 2 } }.dev.bootState = 2 ∧ State.reset.dev.bootState ≠ 2 ∧ ((st 0).ctxs.map (·.1)).Nodup ∧ ((st 0).ctx 0).st = .running ∧ (st 0).dev.plimit * 1000 < 3400001 ∧ 105 ≤ 105 ∧ ¬ 105 ≤ 104 ∧ 125 ≤ 125 := by decide
/-- The partition holds a quadrant and a bank set on each of two cores. -/
def sTwoCores : State := { (st 0).updPart 0 (fun p => { p with quads := 0x11, spsets := 0x101 }) with launches := [(0, lOne)], tsc := 5000000 }
theorem witness_CoresLeaveService_migrate : sget 0 sTwoCores.launches = some lOne ∧ lOne.map[0]? = some 0 ∧ mayMigrate sTwoCores 0 0 0 = false := ⟨by decide, by decide, by decide +kernel⟩
theorem witness_CoresLeaveService_moves : mayMigrate { sTwoCores with groups := [] } 0 0 1 = true := by decide +kernel
theorem witness_CoresLeaveService_error : 0 ∉ (st 0).dev.fenced ∧ 0 ∈ sFenced.dev.fenced ∧ 0 ∈ ctxsOn (st 0) 0 ∧ 1 ∉ ctxsOn (st 0) 0 ∧ ((st 0).ctx 0).st = .running ∧ ((st 0).group? 1).isSome = true := by decide

/-- The turn of quadrant 0 with a word in its clause. -/
def sTurn (w : DWord) : State := { st w with agenda := [.issue 0], clk := 5 }
def sTurn1 (w : DWord) : State := { sTurn w with turn := 1, agenda := [] }
theorem witness_StepRunsTheDecodedInstruction : (sTurn 0x7829010071402200).dev.stopped = false ∧ (sTurn 0x7829010071402200).agenda.head? = some (.issue 0) ∧ issuer (sTurn1 0x7829010071402200) 0 = some (0, 1, 0) ∧ (decode 0x7829010071402200).isSome = true ∧ decode 0x7EA0000000000000 = none ∧ issuer (sTurn1 0x7EA0000000000000) 0 = some (0, 1, 0) ∧
    ((sTurn 0).ctx 0).st = .running ∧ (issuer (withG (fun g => g.updGang 0 fun a => { a with due := 6 }) (sTurn1 0)) 0) = none ∧ (curGang { sTurn1 0x7829010071402200 with cur := some ⟨1, 0⟩ }).isSome = true ∧ { sTurn 0 with dev := { (sTurn 0).dev with stopped := true } }.dev.stopped = true := by decide
theorem witness_StepRunsTheDecodedInstruction_fetch : fetchWord (sTurn1 0x7829010071402200) 1 (gOf (sTurn1 0x7829010071402200)) (wordAddr 0x10000 0) = .ok 0x7829010071402200 ∧ fetchWord (sTurn1 0x7EA0000000000000) 1 (gOf (sTurn1 0x7EA0000000000000)) (wordAddr 0x10000 0) = .ok 0x7EA0000000000000 := ⟨rfl, rfl⟩
theorem witness_StepRunsTheDecodedInstruction_in : (let s := { sTurn1 0x7829010071402200 with cur := some ⟨1, 0⟩ }; curGang s = some (1, 0, gOf s, aOf s, hOf s) ∧ fetchInstr s 1 (gOf s) (hOf s) (wordAddr (aOf s).pc (aOf s).idx) = .ok 0x7829010071402200) ∧ (((sTurn1 0).updPart 0 fun p => { p with issue := p.issue + 1 }).part 0).issue ≠ ((sTurn1 0).part 0).issue := ⟨⟨rfl, rfl⟩, by decide⟩
theorem witness_StepRunsTheDecodedInstruction_turns : ({ sTurn 0 with agenda := [.event .syncWaitExpiry] } : State).agenda.head? = some (.event .syncWaitExpiry) ∧ Instr.opcode .syncWaitExpiry = 256 ∧ ({ sTurn 0 with agenda := [.time 1 1] } : State).agenda.head? = some (.time 1 1) ∧
    (∀ p ∈ [(SoftSite.memory 0x10F00, 1), (.memory 0x10F00, 2), (.spad 64, 1), (.spad 64, 2)], ({ sTurn 0 with agenda := [.softError p.1 p.2] } : State).agenda.head? = some (.softError p.1 p.2) ∧ softHeld (sTurn1 0) p.1 = true) := by decide
/-- After a trip: nothing left to halt; and a context that still halts, with the host's turn next. -/
def sTripped (ts : List Turn) (s : State) : State := { s with agenda := ts, dev := { s.dev with stopped := true } }
theorem witness_AfterTheTrip : (∀ p ∈ (sTripped [.time 1 1] State.reset).ctxs, p.2.st ∉ [CtxSt.running, .halting, .saving, .killing]) ∧ hostTurn (.time 1 1) = false ∧ (∃ p ∈ (sTripped [.event (.hostFence true)] (sTurn 0)).ctxs, p.2.st ∈ [CtxSt.running, .halting, .saving, .killing]) ∧
    (Instr.hostFence true).opcode = 256 ∧ hostTurn (.event (.hostFence true)) = true ∧ ∃ t, exec (.hostFence true) { sTripped [.event (.hostFence true)] (sTurn 0) with cur := none } = .next t := ⟨by decide, rfl, by decide, rfl, rfl, _, rfl⟩
theorem witness_EncodingsRoundTrip : (Instr.isub wi).canonical = true ∧ (decode 0xF800000000000000).isSome = false ∧ decode 0x7829010071402200 = some (.isub ⟨⟨false, 15, 1⟩, .v 2, .v 1, .z, 1, false, false, 0x200⟩) := by decide
theorem witness_EveryStepKeepsTheInvariant : ∃ t, step (sTurn 0x7829010071402200) = .next t := ⟨_, rfl⟩
/-- Once the clocks are off only the host's turns act; a ROM that refused its image takes a reset and turns an event away. -/
theorem witness_AfterTheTrip_off : (let s := sTripped [.time 1 1] State.reset; { s with dev := { s.dev with clockOff := true } }.dev.clockOff = true ∧ s.dev.clockOff = false) ∧ hostTurn (.event (.hostFence true)) = true ∧ hostTurn (.event .syncWaitExpiry) = false ∧
    (∀ i ∈ ([.hostFence true, .syncWaitExpiry] : List Instr), { State.reset with dev := { State.reset.dev with bootState := 3 }, agenda := [.event i] }.agenda.head? = some (.event i) ∧ i.opcode = 256) ∧ (125 ≤ 125 ∧ (st 0).dev.stopped = false) := by decide
theorem witness_FabricAccesses_atomic : (∀ n ∈ [4, 8], inWindow ((st 0).part 0) 0x10F00 = true ∧ 0x10F00 % n = 0) ∧ (∃ n, { st 0 with dev := { (st 0).dev with slewNs := 999 } }.dev.slewNs + n = 1000) := ⟨by decide, 1, rfl⟩
/-- A store that was made, and whose answer has not come. -/
def sMade : State := withG (fun g => { g with remote := [⟨9, 0, 0, 0, 0, default, none, true, 4, [keyV 0 2]⟩], vp := [⟨4, false, [(keyV 0 2, default)], [keyV 0 2], []⟩] }) (st 0)
theorem witness_FabricAccesses_made : sMade.group? 1 = some (gOf sMade) ∧ ((gOf sMade).remote.find? fun v => v.id == 9 && v.made).isSome = true ∧ (∀ p ∈ sMade.groups, p.1 = 1) ∧ (∀ p ∈ (waiting (st 0)).groups, ∀ v ∈ p.2.remote, v.made = false) := by decide
theorem witness_StepRunsTheDecodedInstruction_late : (∀ p ∈ (sTurn 0).groups, p.2.late = []) ∧ (sTurn 0).copies = [] ∧ (sTurn 0).seqs = [] ∧ ∀ p ∈ (sTurn 0).ctxs, p.2.comms = [] := by decide
theorem witness_CoresLeaveService_residence : (let s := { sTwoCores with groups := [], wgs := [(0, ⟨0, 0, 1, 3000000⟩)] }; mayMigrate s 0 0 1 = true) ∧ (let s := { sTwoCores with groups := [], wgs := [(0, ⟨0, 0, 1, 3000001⟩)] }; mayMigrate s 0 0 1 = false) := ⟨by decide +kernel, by decide +kernel⟩
/-- FIPS 180-4: the digest of "abc" begins DD AF 35 A1. -/
theorem test_sha512 : (sha512 [0x61, 0x62, 0x63]).take 4 = [0xDD, 0xAF, 0x35, 0xA1] := by decide +kernel

/-! ## Words of the spec's own tables (05 to 26), each with the fields its table gives -/

/-- Guard pt with a stall count. -/
def pt (n : BitVec 3) : Guard := ⟨false, 15, n⟩
theorem test_spec_words_integer : decode 0x78210262A0E00000 = some (.iadd ⟨pt 1, .v 4, .z, .s 7, 0, false, false, 0⟩) ∧ decode 0x7850028100800000 = some (.imul ⟨pt 0, .v 5, .v 4, .v 4, 0, false, false, 0⟩) ∧ decode 0x7848804020A10000 = some (.lea ⟨pt 0, .s 0, .s 0, .s 5, 8, false, false, 0⟩) ∧
    decode 0x79880262B1402000 = some (.pstore ⟨pt 0, .v 4, .z, .z, 1, false, false, 0⟩) ∧ decode 0x7A681F00B1400440 = some (.fcmp ⟨pt 0, 1, 15, false, 2, 0x18A, 0, false, 0, false, false, 4, 2, 0⟩) ∧ decode 0x7A6B120080600400 = some (.fcmp ⟨pt 3, 1, 2, false, 2, 3, 0, false, 0, false, false, 4, 0, 0⟩) := by decide
theorem test_spec_words_control : decode 0x7E28000000000000 = some (.exitLanes ⟨pt 0, 0, 0⟩) ∧ decode 0x160000000006000B = some (.bra ⟨⟨false, 2, 0⟩, 6, 11⟩) ∧ decode 0x9648C562B1408200 = some (.sleep ⟨⟨true, 2, 0⟩, .z, .z, .z, 4, false, false, 0x200⟩) ∧
    decode 0x7E98C540F1400001 = some (.haltctx ⟨pt 0, .z, .s 3, .z, 0, false, false, 1⟩) ∧ decode 0x7DC8C562B1400001 = some (.bar ⟨pt 0, .z, .z, .z, 0, 0, false, 1⟩) := by decide
theorem test_spec_words_matrix : decode 0x7D28010002000000 = some (.accrd ⟨pt 0, .v 2, 0, 0, 1, 0, 0, 0, false, 0, 0⟩) ∧ decode 0x0D30010128000001 = some (.accwr ⟨⟨false, 1, 0⟩, .v 2, 0, 0, 0x94, 0, 0, 0, false, 0, 1⟩) ∧ decode 0x7D48940000200000 = some (.faclu ⟨pt 0, .s 40, 0, 0, 0, 1, 0, 0, false, 0, 0⟩) ∧
    decode 0x7D68C52000200001 = some (.pvapply ⟨pt 0, .z, 2, 0, 0, 1, 0, 0, false, 0, 1⟩) ∧ decode 0x7D60C50400000004 = some (.trsm ⟨pt 0, .z, 0, 2, 0, 0, 0, 0, false, 0, 4⟩) ∧ decode 0x7D998862A0400000 = some (.cinit ⟨pt 1, .s 16, .z, .s 2, 0, 0, false, 0⟩) ∧
    decode 0x7DA9C54160408000 = some (.cquery ⟨pt 1, .z, .s 5, .s 2, 4, 0, false, 0⟩) := by decide
theorem test_spec_headers : decHeader 0xF82FFFFFF0000000 = some ⟨0, 2, 15, 15, 15, 15, 15, 15, false, 0⟩ ∧ decHeader 0xF990FFFFF0000000 = some ⟨1, 9, 0, 15, 15, 15, 15, 15, false, 0⟩ ∧ decHeader 0xF810FFFFF0000000 = some ⟨0, 1, 0, 15, 15, 15, 15, 15, false, 0⟩ := by decide
/-- Unassigned opcodes and headers are no instructions; events are no words. -/
theorem test_decode_rejects : decode 0x79D8000000000000 = none ∧ decode 0x7C68000000000000 = none ∧ decode 0x7EA0000000000000 = none ∧ decode 0xF82FFFFFF0000000 = none ∧ encode (.walkStart 1) = none := by decide

/-! ## Ill-formed terms, each refused by its check (08 R175, R176, R186) -/

theorem smoke_operand_not_canonical : (Instr.iadd { wi with a := .rsv 5 }).wellFormed = false := by decide
theorem smoke_guard_is_header : (Instr.iadd { wi with g := ⟨true, 15, 0⟩ }).wellFormed = false := by decide
theorem smoke_guard_predicate : (Instr.iadd { wi with g := ⟨false, 12, 0⟩ }).wellFormed = false := by decide
theorem smoke_reserved_operand : (Instr.iadd { wi with b := .rsv 0x190 }).wellFormed = false := by decide
theorem smoke_odd_pair : (Instr.add64 { wi with a := .v 3, b := .v 6 }).wellFormed = false := by decide
theorem smoke_integer_reserved_bits : (Instr.iadd { wi with mod := 1 }).wellFormed = false := by decide
theorem smoke_immediate_without_imm : (Instr.iadd { wi with imm := 1 }).wellFormed = false := by decide
theorem smoke_last_use_of_nothing : (Instr.iabs { wi with b := .z, lb := true }).wellFormed = false := by decide
theorem smoke_v_reserved_bits : (Instr.imad { wv with mod := 1 }).wellFormed = false := by decide
theorem smoke_float_type : (Instr.fadd (wf 0x1C0)).wellFormed = false := by decide
theorem smoke_compare_type : (Instr.icmp { wc with ty := 2 }).wellFormed = false := by decide
theorem smoke_predicate_number : (Instr.plop { wc with pd1 := 13 }).wellFormed = false := by decide
theorem smoke_load_size : (Instr.ld { wLd 0 with size := 5 }).wellFormed = false := by decide
theorem smoke_load_space : (Instr.ld (wLd 1)).wellFormed = false := by decide
theorem smoke_store_order : (Instr.st { wSt 0 with order := 2 }).wellFormed = false := by decide
theorem smoke_ldu_destination : (Instr.ldu (wLd 0)).wellFormed = false := by decide
theorem smoke_atomic_reserved : (Instr.atom { wAt 0 with rsv := true }).wellFormed = false := by decide
theorem smoke_red_size : (Instr.red { wSt 0 with size := 0 }).wellFormed = false := by decide
theorem smoke_fence_fields : (Instr.fence { wSt 0 with size := 0 }).wellFormed = false := by decide
theorem smoke_loop_descriptor : (Instr.mloop { wLoop with base := .s 4 }).wellFormed = false := by decide
theorem smoke_tile_pair : (Instr.mzero { xw with base := .z, t := 5, mod := 1 }).wellFormed = false := by decide
theorem smoke_factor_format : (Instr.faclu { xw with fa := 2 }).wellFormed = false := by decide
theorem smoke_copy_target : (Instr.cpy (wCpy 2 0)).wellFormed = false := by decide
theorem smoke_message_registers : (Instr.msgput { wPut 0 with base := .s 120 }).wellFormed = false := by decide
theorem smoke_barrier_scope : (Instr.bar { wBar .z with mod := 0 }).wellFormed = false := by decide
theorem smoke_branch_pair : (Instr.brx { wBrx with tgt := 0 }).wellFormed = true ∧ (Instr.brx { wBrx with tgt := encOpd (.s 9) ++ 0#23 }).wellFormed = false := by decide
theorem smoke_regang_guard : (Instr.regang ⟨onP1, 0, 0⟩).wellFormed = false := by decide
theorem smoke_wait_counters : (Instr.waitCtr { wWait with mod := 0 }).wellFormed = false := by decide
theorem smoke_special_reserved : (Instr.mfs ⟨always, .v 2, 0x001, 1⟩).wellFormed = false := by decide
theorem smoke_hint_opcode : (Instr.unassignedHint ⟨always, 0xFA, .v 2, 0⟩).wellFormed = false := by decide
theorem smoke_event : (Instr.kStep 0).wellFormed = false := by decide

/-! ## One step each, with results worked out from the spec's formulas -/

/-- The group after an instruction. -/
def after (i : Instr) (s : State) : Group := match exec i s with | .next t => gOf t | _ => default
/-- The same, and then a result of w0 is written. -/
def landed (i : Instr) (s : State) : Group := match exec i s with | .next t => after (.variableResultComplete 1 false) { t with clk := t.clk + 100 } | _ => default
/-- Register v n of lane 0. -/
def vOf (n : Nat) (g : Group) : Word := (g.cellAt (keyV 0 n)).val
/-- v1, v2 and v3 of every lane. -/
def abc (a b c : Word) : State := withV 1 a (withV 2 b (withV 3 c (st 0)))
/-- v4 (and v5) from v1, v2, v3. -/
def w3 (m : BitVec 9) : WV := ⟨always, .v 4, .v 1, .v 2, .v 3, false, false, false, m⟩
def w2 (m : BitVec 11) : WI := ⟨always, .v 4, .v 1, .v 2, 0, false, false, m⟩

/-- 09: `iadd v4, vz, s7` with s7 = 40, and `imul v5, v4, v4` with v4 = 40. -/
theorem test_iadd_imul_of_the_listing : vOf 4 (after (.iadd ⟨pt 1, .v 4, .z, .s 7, 0, false, false, 0⟩) (withS 7 40 (st 0))) = 40 ∧ vOf 5 (after (.imul ⟨pt 0, .v 5, .v 4, .v 4, 0, false, false, 0⟩) (withV 4 40 (st 0))) = 0x640 := by decide
theorem test_iadd_wraps : vOf 4 (after (.iadd (w2 0)) (abc 0xFFFFFFFF 2 0)) = 1 := by decide
theorem test_iaddc_borrow : vOf 4 (after (.iaddc (w3 1)) (abc 0 0 1)) = 0xFFFFFFFF ∧ vOf 5 (after (.iaddc (w3 1)) (abc 0 0 1)) = 1 := by decide
theorem test_imulhi_signs : vOf 4 (after (.imulhi (w2 0)) (abc 0xFFFFFFFF 2 0)) = 0xFFFFFFFF ∧ vOf 4 (after (.umulhi (w2 0)) (abc 0xFFFFFFFF 2 0)) = 1 := by decide
theorem test_udiv_by_zero : vOf 4 (after (.udiv (w2 0)) (abc 7 0 0)) = 0xFFFFFFFF ∧ vOf 4 (after (.urem (w2 0)) (abc 7 0 0)) = 7 := by decide
theorem test_irem_sign : vOf 4 (after (.irem (w2 0)) (abc 0xFFFFFFF9 2 0)) = 0xFFFFFFFF ∧ vOf 4 (after (.idiv (w2 0)) (abc 0xFFFFFFF9 2 0)) = 0xFFFFFFFD := by decide
theorem test_shifts_past_the_width : vOf 4 (after (.shl (w2 0)) (abc 1 32 0)) = 0 ∧ vOf 4 (after (.sar (w2 0)) (abc 0x80000000 40 0)) = 0xFFFFFFFF ∧ vOf 4 (after (.rotl (w2 0)) (abc 0x80000001 33 0)) = 3 := by decide
theorem test_bfi_drops_bits : vOf 4 (after (.bfi (w3 7)) (abc 0 0xFF 28)) = 0xF0000000 := by decide
theorem test_funnel_prmt : vOf 4 (after (.funnel (w3 0)) (abc 0x80000000 1 31)) = 3 ∧ vOf 4 (after (.prmt (w3 0)) (abc 0x000000FF 0x11000000 0x08F7)) = 0xFFFF0011 := by decide
theorem test_clz_of_zero : vOf 4 (after (.clz { w2 0 with b := .z }) (abc 0 0 0)) = 32 := by decide
theorem test_pstore_lanes : vOf 4 (after (.pstore ⟨pt 0, .v 4, .z, .z, 1, false, false, 0⟩) (withP (st 0))) = 1 := by decide
theorem test_icmp_word : (let g := after (.icmp ⟨pt 0, 1, 2, false, 1, 2, 3, true, 1, false, true, 2, 0, 0⟩) (abc 0xFFFFFFFF 0 0); (g.cellAt (keyP 0 1)).val = 1 ∧ (g.cellAt (keyP 0 2)).val = 0) := by decide
theorem test_fadd_fdiv : vOf 4 (after (.fadd { w3 0x80 with c := .z }) (abc 0x3F800000 0x40000000 0)) = 0x40400000 ∧ vOf 4 (landed (.fdiv { w3 0x80 with c := .z }) (abc 0x3F800000 0 0)) = 0x7F800000 := by decide +kernel
theorem test_trap_entry : (let g := after (.trapCode { wWait with mod := 0, imm := 9 }) (sVec 0x10010 false 0); g.sr.handler = true ∧ g.sr.epc = 0x10000 ∧ g.sr.ecause = 0x41 ∧ g.sr.eaddr = 9 ∧ g.sr.elanes = 15 ∧ (g.gangs.map (·.pc)) = [0x10010]) := by decide
theorem test_branch_diverges : (let g := after (.bra (wBr onP1 2)) (withP (sBr (encB 0xC0 (wBr onP1 2)))); g.gangs.map (·.pc) = [0x10010]) := by decide

/-- The step runs a placed word as the first instruction after reset. -/
theorem test_step_from_reset : (match step (State.reset.withFetchWord 64 0x78210262A0E00000) with | .next t => vOf 4 (gOf t) == 0 && (gOf t).gangs.map (·.pc) == [0x10010] | _ => false) = true ∧ decodeTableWord 64 0x78210262A0E00000 = some (.iadd ⟨pt 1, .v 4, .z, .s 7, 0, false, false, 0⟩) := by decide
/-- 12 R256: an add of 5 at a word that holds 0xFE gives the old value and stores the sum; 00 R1: memory is little-endian. -/
theorem test_atomic_add : (let x : Late := ⟨1, 2, false, 0x10F00, 4, 0, 5, false, 0, false, 0, [], 0, 0⟩; let (old, t) := x.now { st 0 with mem := [⟨0x10F00, 0xFE⟩] } default; old.map (·.val) = [0xFE] ∧ readMem t 0x10F00 4 = 0x103 ∧ readByte t 0x10F01 = 1) := by decide
theorem test_little_endian : readMem { st 0 with mem := [⟨0x10F00, 0x78⟩, ⟨0x10F01, 0x56⟩, ⟨0x10F03, 0x12⟩] } 0x10F00 4 = 0x12005678 := by decide
theorem test_store_keeps_form : (writeMem 0x10F00 4 0x120000AB false { st 0 with mem := [⟨0x10F01, 1⟩] }).mem = [⟨0x10F00, 0xAB⟩, ⟨0x10F03, 0x12⟩] := by decide

end Sys2Proof.Tests
end

section
/-! Floating point on registers: what a float result comes to when no exception is enabled, an operation taken element by element, the checks of a float word, and the sign instructions of 11 R230. -/

namespace Sys2Proof.FloatProofs

open Sys2Proof.Machine Sys2Proof.Claims

/-! ## Results without a trap (11 R226) -/

/-- No bit of a mask is raised by a union whose members all raise none of it. -/
theorem foldl_or_and_eq_zero {n : Nat} (mask : BitVec n) (f : Nat → BitVec n) (l : List Nat) (hl : ∀ L ∈ l, f L &&& mask = 0) :
    ∀ acc, acc &&& mask = 0 → l.foldl (fun x L => x ||| f L) acc &&& mask = 0 := by
  induction l with
  | nil => exact fun _ hacc => hacc
  | cons M t ih =>
    intro acc hacc
    have hM : f M &&& mask = 0 := hl M List.mem_cons_self
    refine ih (fun L hL => hl L (List.mem_cons_of_mem _ hL)) (acc ||| f M) ?_
    rw [BitVec.and_comm, BitVec.and_or_distrib_left, BitVec.and_comm mask, BitVec.and_comm mask, hacc, hM, BitVec.or_self]

/-- Lanes that raise no enabled exception do not trap. -/
theorem fpTrap_eq_none_of_quiet {e : Env} {f : Nat → LaneF} (hq : quiet e f) : fpTrap e f = none := by
  have hlane : ∀ L ∈ e.lanes, (if (f L).poison then 0 else (f L).flags) &&& teOf e.sr.fpcr = 0 := by
    intro L hL
    cases hp : (f L).poison with
    | true => exact BitVec.zero_and
    | false => exact (hq L hL).resolve_left (by simp [hp])
  have hall := foldl_or_and_eq_zero (teOf e.sr.fpcr) (fun L => if (f L).poison then 0 else (f L).flags) e.lanes hlane 0 BitVec.zero_and
  unfold fpTrap
  simp only [hall, beq_self_eq_true, if_true]

/-- With no enabled exception a float result of fixed latency is a register result: a poisoned lane raises POISON alone. -/
theorem fpResult_of_quiet {e : Env} {f : Nat → LaneF} (hq : quiet e f) (lat n : Nat) (dst : Opd) (addr : DWord) :
    fpResult e lat none n dst addr f =
      regResult e lat n dst (fun L => ⟨(f L).val, (f L).poison⟩) (fun L => if (f L).poison then 0 else (f L).flags.setWidth 32) := by
  have hbits : ∀ L, (f L).bits = (if (f L).poison then 0 else (f L).flags.setWidth 32) ||| (if (f L).poison then poisonFlag else 0) := by
    intro L
    unfold LaneF.bits
    cases (f L).poison <;> simp
  unfold fpResult regResult
  simp only [fpTrap_eq_none_of_quiet hq, hbits]

/-- Lanes that raise no exception at all are quiet whatever is enabled. -/
theorem quiet_of_flags_eq_zero (e : Env) {f : Nat → LaneF} (hf : ∀ L, (f L).flags = 0) : quiet e f :=
  fun L _ => .inr (by rw [hf L]; exact BitVec.zero_and)

/-! ## Element by element (11 R224) -/

/-- The model's way through the elements of a register is the statements'. -/
theorem perElem_eq_elementwise (t : Nat) (op : Fmt → DWord → DWord → DWord → FRes) (a b c : DWord) :
    perElem t (fun f el => op f (el 0 a) (el 1 b) (el 2 c)) = elementwise t (op (tyFmt t)) a b c := by
  unfold perElem elementwise
  by_cases ht : t = 4 ∨ t = 5
  · have hp : tyPacked t = true := by simpa [tyPacked] using ht
    simp only [hp, if_true, if_pos ht]
  · have hp : tyPacked t = false := by simpa [tyPacked] using ht
    simp only [hp, Bool.false_eq_true, if_false, if_neg ht]

/-! ## The checks of a float word (11 R225) -/

theorem tyWords_one_or_two (t : Nat) : tyWords t = 1 ∨ tyWords t = 2 := by
  unfold tyWords
  split
  · exact .inr rfl
  · exact .inl rfl

/-- What a row of the mod table says of the operands of a word whose b, if it has one, is as wide as its type. -/
theorem ckFlt_operands {types : Nat → Bool} {rnd : Nat} {sat nega b0 ub uc : Bool} {w : WV} (h : ckFlt types rnd sat nega b0 ub uc false w = true) :
    let n := tyWords (fTy w.mod)
    dstOk n w.dst = true ∧ srcOk n w.a w.la = true ∧ srcOk (if ub then n else 0) w.b w.lb = true ∧ srcOk (if uc then n else 0) w.c w.lc = true := by
  unfold ckFlt at h
  simp only [Bool.and_eq_true, Bool.false_eq_true, if_false] at h
  obtain ⟨⟨⟨⟨_, hdst⟩, ha⟩, hb⟩, hc⟩ := h
  exact ⟨hdst, ha, hb, hc⟩

/-- The sources of such a word lie below l0. -/
theorem ckFlt_sources {types : Nat → Bool} {rnd : Nat} {sat nega b0 ub uc : Bool} {w : WV} (h : ckFlt types rnd sat nega b0 ub uc false w = true) :
    let n := tyWords (fTy w.mod)
    ∀ y ∈ (usesV n n (if ub then n else 0) (if uc then n else 0) w).src, ∀ L k key, k < y.2.1 → opdKey? y.1 L k = some key →
      y.1.isS = true ∨ (∃ m, y.1 = .l m) ∨ key % 1024 < 264 := by
  obtain ⟨_, ha, hb, hc⟩ := ckFlt_operands h
  have hn : tyWords (fTy w.mod) ≤ 2 := by
    obtain h1 | h2 := tyWords_one_or_two (fTy w.mod) <;> omega
  have hopt : ∀ u : Bool, (if u then tyWords (fTy w.mod) else 0) ≤ 2 := fun u => by cases u <;> simp [hn]
  exact srcV_below ha hb hc hn (hopt ub) (hopt uc)

/-- A float word with no b operand must name vz there. -/
theorem ckFlt_eq_false_of_unused_b {types : Nat → Bool} {rnd : Nat} {sat nega b0 uc : Bool} {w : WV} (hb : w.b ≠ .z) :
    ckFlt types rnd sat nega b0 false uc false w = false := by
  rw [Bool.eq_false_iff]
  intro h
  obtain ⟨_, _, hsrc, _⟩ := ckFlt_operands h
  simp only [Bool.false_eq_true, if_false, srcOk, Bool.and_eq_true, beq_iff_eq] at hsrc
  exact hb hsrc.1

/-! ## ILLEGAL_OPERAND (08 R186) -/

/-- A fetched word whose own fields are ill-formed is refused with ILLEGAL_OPERAND. -/
theorem decodeCheck_of_fetched_of_formatOk_eq_false {i : Instr} {s : State} {gid slice : Nat} {g : Group} {a : Gang} {h : Header}
    (hfetch : Fetched i s gid slice g a h) (ho : i.opcode < 0xF8) (hf : i.formatOk = false) : decodeCheck i g a h = some cOPERAND := by
  obtain ⟨_, c, hcls, hclass⟩ := hfetch
  unfold decodeCheck
  simp only [hcls, hclass, hf, ho, Bool.not_true, Bool.false_and, Bool.not_false, Bool.and_self, decide_true, Bool.false_eq_true, if_false, if_true]

/-- So its context halts. -/
theorem halts_of_fetched_of_formatOk_eq_false {i : Instr} {gd : Guard} {u : Uses} {s : State} {gid slice : Nat} {g : Group} {a : Gang} {h : Header}
    {body : Env → Act} (hfetch : Fetched i s gid slice g a h) (ho : i.opcode < 0xF8) (hf : i.formatOk = false) (hx : exec i s = runInstr i gd u body s) :
    Halts i s gid g cOPERAND 0 0 :=
  ⟨0, haltsIn_refused hfetch.1 (decodeCheck_of_fetched_of_formatOk_eq_false hfetch ho hf) hx⟩

/-! ## FABS, FNEG, FCOPYSIGN (11 R230) -/

/-- An instruction on sign bits completes with its value in every element; whatever is enabled, it raises nothing but POISON. -/
theorem fltBits_law {i : Instr} {w : WV} {two : Bool} {op : DWord → DWord → DWord → DWord} (hx : ∀ s, exec i s = fltBits i w two (fun f => op f.top) s)
    (hk : i.formatOk = ckFlt tyAll 0 false false false two false false w) (ho : i.opcode < 0xF8) :
    let t := fTy w.mod; let n := tyWords t; let top : DWord := BitVec.ofNat 64 (2 ^ ((tyFmt t).width - 1))
    let b (e : Env) (L : Nat) : PVal := if two then e.rN w.b n L else ⟨0, false⟩
    RegResult i w.g (usesV n n (if two then n else 0) 0 w) n w.dst (fun _ => True)
      (fun e L => ⟨(elementwise t (fun x y _ => ⟨op top x y, 0⟩) (e.rN w.a n L).val (b e L).val 0).bits, (e.rN w.a n L).poison || (b e L).poison⟩) (fun _ _ => 0) := by
  intro t n top b
  let lane (e : Env) (L : Nat) : LaneF :=
    ⟨(perElem t fun f el => ⟨op f.top (el 0 (e.rN w.a n L).val) (el 1 (b e L).val), 0⟩).bits, (e.rN w.a n L).poison || (b e L).poison, 0⟩
  refine regResult_law (lat := fpLat t) (body := fun _ e => fpResult e (fpLat t) none n w.dst 0 (lane e)) (tyWords_one_or_two t) (by simp [usesV]) hx
    (fun h => (ckFlt_operands (hk ▸ h)).1) ho (fun h => ckFlt_sources (hk ▸ h)) ?_
  intro s gid slice g a h _ _
  generalize mkEnv s gid g a h w.g _ = e
  have hval : ∀ L, (lane e L).val = (elementwise t (fun x y _ => ⟨op top x y, 0⟩) (e.rN w.a n L).val (b e L).val 0).bits := fun L =>
    congrArg FRes.bits (perElem_eq_elementwise t (fun f x y _ => ⟨op f.top x y, 0⟩) (e.rN w.a n L).val (b e L).val 0)
  have hflags : ∀ L, (if (lane e L).poison then 0 else (lane e L).flags.setWidth 32 : Word) = 0 := fun L => ite_self 0
  have hres := fpResult_of_quiet (quiet_of_flags_eq_zero e (f := lane e) fun _ => rfl) (fpLat t) n w.dst 0
  simp only [hval, hflags] at hres
  exact hres

/-- A sign instruction of one source refuses a b other than vz. -/
theorem fltBits_halts_of_unused_b {i : Instr} {w : WV} {op : Fmt → DWord → DWord → DWord} {s : State} {gid slice : Nat} {g : Group} {a : Gang} {h : Header}
    (hx : exec i s = fltBits i w false op s) (hk : i.formatOk = ckFlt tyAll 0 false false false false false false w) (ho : i.opcode < 0xF8) (hb : w.b ≠ .z)
    (hfetch : Fetched i s gid slice g a h) : Halts i s gid g cOPERAND 0 0 := by
  have hf : i.formatOk = false := hk.trans (ckFlt_eq_false_of_unused_b hb)
  unfold fltBits at hx
  exact halts_of_fetched_of_formatOk_eq_false hfetch ho hf hx

/-- Settles O13: the values by the law of the sign instructions, the refusals by the checks of a word without b, the opcodes by the encoder's opcode field. -/
theorem floatSignResults : Obligations.FloatSignResults := by
  unfold Obligations.FloatSignResults
  refine ⟨fun w p hp => ?values, fun w i hi hb s gid slice g a h hfetch => ?refusals, fun w p hp => ?opcodes⟩
  case values =>
    simp only [List.mem_cons, List.not_mem_nil, or_false] at hp
    obtain rfl | rfl | rfl := hp
    · exact fltBits_law (exec_fabs w) rfl (by decide : (0x4A : Nat) < 0xF8)
    · exact fltBits_law (exec_fneg w) rfl (by decide : (0x4B : Nat) < 0xF8)
    · exact fltBits_law (exec_fcopysign w) rfl (by decide : (0x4C : Nat) < 0xF8)
  case refusals =>
    simp only [List.mem_cons, List.not_mem_nil, or_false] at hi
    obtain rfl | rfl := hi
    · exact fltBits_halts_of_unused_b (exec_fabs w s) rfl (by decide : (0x4A : Nat) < 0xF8) hb hfetch
    · exact fltBits_halts_of_unused_b (exec_fneg w s) rfl (by decide : (0x4B : Nat) < 0xF8) hb hfetch
  case opcodes =>
    simp only [List.mem_cons, List.not_mem_nil, or_false] at hp
    obtain rfl | rfl | rfl := hp
    · exact ⟨_, rfl, Laws.OpcodeField.fabs w _ rfl⟩
    · exact ⟨_, rfl, Laws.OpcodeField.fneg w _ rfl⟩
    · exact ⟨_, rfl, Laws.OpcodeField.fcopysign w _ rfl⟩

end Sys2Proof.FloatProofs
end

section
/-! The atomic operations of 12 R257 in numbers: the integer forms through `toNat` and `toInt`, the float forms through what an encoding of a format decodes to. -/

namespace Sys2Proof.AtomicProofs

open Sys2Proof.Machine

/-! ## Words -/

/-- The lesser of two signed words, as a number. -/
theorem toInt_lesser {n : Nat} (x y : BitVec n) : (if y.slt x then y else x).toInt = min x.toInt y.toInt := by
  simp only [apply_ite BitVec.toInt, BitVec.slt_iff_toInt_lt, min_comm x.toInt, min_def_lt]

/-- The greater of two signed words, as a number. -/
theorem toInt_greater {n : Nat} (x y : BitVec n) : (if x.slt y then y else x).toInt = max x.toInt y.toInt := by
  simp only [apply_ite BitVec.toInt, BitVec.slt_iff_toInt_lt, max_def_lt]

/-- The lesser of two unsigned words, as a number. -/
theorem toNat_lesser {n : Nat} (x y : BitVec n) : (if y.ult x then y else x).toNat = min x.toNat y.toNat := by
  simp only [apply_ite BitVec.toNat, BitVec.ult_iff_toNat_lt, min_comm x.toNat, min_def_lt]

/-- The greater of two unsigned words, as a number. -/
theorem toNat_greater {n : Nat} (x y : BitVec n) : (if x.ult y then y else x).toNat = max x.toNat y.toNat := by
  simp only [apply_ite BitVec.toNat, BitVec.ult_iff_toNat_lt, max_def_lt]

/-- The increment that wraps at y: below y it has room, so it stays within the width. -/
theorem toNat_increment_wrapping_at (x y : Word) : (if y.ule x then 0 else x + 1).toNat = if y.toNat ≤ x.toNat then 0 else x.toNat + 1 := by
  simp only [BitVec.ule_iff_toNat_le]
  split
  · rfl
  · bv_omega

/-- Compare and swap, by the model's Boolean test. -/
theorem exchange_if_eq {n : Nat} (x y z : BitVec n) : (if x == z then y else x) = if x = z then y else x := by
  simp only [beq_iff_eq]

/-- Compare and swap, as a number. -/
theorem toNat_exchange_if_eq {n : Nat} (x y z : BitVec n) : (if x == z then y else x).toNat = if x.toNat = z.toNat then y.toNat else x.toNat := by
  simp only [apply_ite BitVec.toNat, beq_iff_eq, BitVec.toNat_inj]

/-- A word widened to a double word keeps its number, and comes back. -/
theorem toNat_widened (x : Word) : (x.setWidth 64 : DWord).toNat = x.toNat := by bv_omega
theorem narrowed_widened (x : Word) : ((x.setWidth 64 : DWord).setWidth 32 : Word) = x := by bv_omega
/-- The statement's number of the low word of a double word is that of the model's. -/
theorem toNat_low_word (m : DWord) : m.toNat % 2 ^ 32 = (m.setWidth 32 : Word).toNat := (BitVec.toNat_setWidth 32 m).symm

/-! ## Encodings of a format (06 R108, R109) -/

/-- A format of IEEE 754 encodings: it has infinities, and the codes above its largest finite value are those whose exponent field is all ones. -/
structure Interchange (f : Fmt) : Prop where
  inf : f.inf = true
  frac_lt : f.frac < f.width - 1
  width_le : f.width ≤ 64
  maxCode : f.maxCode + 1 + 2 ^ f.frac = 2 ^ (f.width - 1)

theorem interchange_f32 : Interchange f32 := ⟨rfl, by decide, by decide, by decide⟩
theorem interchange_f64 : Interchange f64 := ⟨rfl, by decide, by decide, by decide⟩

/-- The sign bit and the magnitude code of an encoding. -/
def signOf (f : Fmt) (v : DWord) : Bool := v.toNat.testBit (f.width - 1)
def codeOf (f : Fmt) (v : DWord) : Nat := v.toNat % 2 ^ (f.width - 1)

section
variable {f : Fmt} (hf : Interchange f) {v : DWord}
include hf

omit hf in
theorem codeOf_lt : codeOf f v < 2 ^ (f.width - 1) := Nat.mod_lt _ (Nat.two_pow_pos _)

/-- An encoding is its sign and its code. -/
theorem eq_signed (hv : v.toNat < 2 ^ f.width) : v = f.signed (signOf f v) (codeOf f v) := by
  obtain ⟨-, hfrac, hwidth, -⟩ := hf
  have htop : 2 ^ f.width = 2 * 2 ^ (f.width - 1) := by rw [← Nat.pow_succ']; congr 1; omega
  have hsum : (if signOf f v then 2 ^ (f.width - 1) else 0) + codeOf f v = v.toNat := by
    have hdiv : v.toNat / 2 ^ (f.width - 1) < 2 := Nat.div_lt_of_lt_mul (by omega)
    have hmod := Nat.div_add_mod v.toNat (2 ^ (f.width - 1))
    unfold signOf codeOf
    rw [Nat.testBit_eq_decide_div_mod_eq]
    interval_cases v.toNat / 2 ^ (f.width - 1) <;> simpa using hmod
  unfold Fmt.signed
  rw [hsum, BitVec.ofNat_toNat, BitVec.setWidth_eq]

/-- Decoding by the sign and the code alone: above the largest finite code the infinities and the NaNs, below it the subnormals and the normals. -/
theorem dec_eq (hv : v.toNat < 2 ^ f.width) : f.dec v =
    if codeOf f v > f.maxCode then (if codeOf f v % 2 ^ f.frac = 0 then .inf (signOf f v) else .nan (f != e4m3 && !(codeOf f v % 2 ^ f.frac).testBit (f.frac - 1)))
    else if codeOf f v / 2 ^ f.frac = 0 then .fin ⟨signOf f v, codeOf f v % 2 ^ f.frac, f.emin - f.frac⟩
    else .fin ⟨signOf f v, 2 ^ f.frac + codeOf f v % 2 ^ f.frac, (codeOf f v / 2 ^ f.frac : Nat) - f.bias - f.frac⟩ := by
  unfold Fmt.dec signOf codeOf
  simp only [Nat.mod_eq_of_lt hv, hf.inf, Bool.true_and, beq_iff_eq]

/-- What decodes to an infinity is the encoding of that infinity. -/
theorem eq_infBits_of_dec (hv : v.toNat < 2 ^ f.width) {p : Bool} (h : f.dec v = .inf p) : v = f.infBits p := by
  rw [dec_eq hf hv] at h
  split_ifs at h with hbig hfrac hexp
  · obtain rfl : signOf f v = p := FVal.inf.inj h
    have hcode : codeOf f v = f.maxCode + 1 := by
      have hdvd : 2 ^ f.frac ∣ f.maxCode + 1 := by
        rw [← Nat.dvd_add_left (Nat.dvd_refl (2 ^ f.frac)), hf.maxCode]
        exact Nat.pow_dvd_pow 2 hf.frac_lt.le
      have hzero : codeOf f v - (f.maxCode + 1) = 0 := by
        refine Nat.eq_zero_of_dvd_of_lt (Nat.dvd_sub (Nat.dvd_of_mod_eq_zero hfrac) hdvd) ?_
        have hlt : codeOf f v < 2 ^ (f.width - 1) := codeOf_lt
        have htop := hf.maxCode
        have hpos := Nat.two_pow_pos f.frac
        omega
      omega
    unfold Fmt.infBits
    rw [← hcode]
    exact eq_signed hf hv

/-- What decodes to a zero is the encoding of the zero of its sign. -/
theorem eq_signed_zero_of_dec (hv : v.toNat < 2 ^ f.width) {p : ExReal} (h : f.dec v = .fin p) (hp : p.m = 0) : v = f.signed p.neg 0 := by
  rw [dec_eq hf hv] at h
  split_ifs at h with hbig hfrac hexp
  · obtain rfl := FVal.fin.inj h
    have hcode : codeOf f v = 0 := by
      have hmod : codeOf f v % 2 ^ f.frac = 0 := hp
      rw [← Nat.div_add_mod (codeOf f v) (2 ^ f.frac), hexp, hmod, Nat.mul_zero]
    rw [← hcode]
    exact eq_signed hf hv
  · obtain rfl := FVal.fin.inj h
    exact absurd hp (by positivity)

/-- The encoding of a zero, as a number: its sign bit alone. -/
theorem toNat_signed_zero (p : Bool) : (f.signed p 0).toNat = if p then 2 ^ (f.width - 1) else 0 := by
  have hlt : 2 ^ (f.width - 1) < 2 ^ 64 := by
    have hwidth := hf.width_le
    have hfrac := hf.frac_lt
    exact Nat.pow_lt_pow_right (by decide) (by omega)
  unfold Fmt.signed
  rw [BitVec.toNat_ofNat, Nat.add_zero]
  exact Nat.mod_eq_of_lt (by split <;> omega)

/-- The encoding of a zero decodes to a zero of its sign. -/
theorem dec_signed_zero (p : Bool) : f.dec (f.signed p 0) = .fin ⟨p, 0, f.emin - f.frac⟩ := by
  have hnat := toNat_signed_zero hf p
  have hlt : (f.signed p 0).toNat < 2 ^ f.width := by
    rw [hnat]
    split
    · exact Nat.pow_lt_pow_right (by decide) (by have hfrac := hf.frac_lt; omega)
    · exact Nat.two_pow_pos _
  have hsign : signOf f (f.signed p 0) = p := by
    unfold signOf
    rw [hnat]
    cases p <;> simp
  have hcode : codeOf f (f.signed p 0) = 0 := by
    unfold codeOf
    rw [hnat]
    cases p <;> simp
  rw [dec_eq hf hlt, hsign, hcode]
  simp

/-- A finite encoding is that of −0 when its value is a negative zero, and only then. -/
theorem eq_minus_zero_iff (hv : v.toNat < 2 ^ f.width) {p : ExReal} (h : f.dec v = .fin p) : v = f.signed true 0 ↔ p.m = 0 ∧ p.neg = true := by
  constructor
  · rintro rfl
    rw [dec_signed_zero hf] at h
    obtain rfl := FVal.fin.inj h
    exact ⟨rfl, rfl⟩
  · rintro ⟨hm, hneg⟩
    rw [eq_signed_zero_of_dec hf hv h hm, hneg]

end

/-! ## The sum rounded to nearest even (11 R228) -/

/-- What R228 says of the sum r of the encodings v and w under .rn, clause by clause as the statement has it: `dflt` is the default NaN, `minus` is −0. -/
def IsRoundedSum (f : Fmt) (dflt minus v w r : DWord) : Prop :=
  ((∃ k, f.dec v = .nan k) ∨ (∃ k, f.dec w = .nan k) → r = dflt) ∧ (∀ p q, f.dec v = .inf p → f.dec w = .inf q → r = if p = q then v else dflt) ∧
  (∀ p q, f.dec v = .inf p → f.dec w = .fin q → r = v) ∧ (∀ p q, f.dec v = .fin p → f.dec w = .inf q → r = w) ∧
  (∀ p q, f.dec v = .fin p → f.dec w = .fin q → ((exAdd p q).m ≠ 0 → r = (roundTo f .rn false false (exAdd p q)).bits) ∧ ((exAdd p q).m = 0 → r = if v = minus ∧ w = minus then minus else 0))

/-- A NaN operand gives the default NaN. -/
theorem opAdd_of_nan {f : Fmt} (mode : Rnd) (sat fz : Bool) {v w : DWord} (h : (∃ k, f.dec v = .nan k) ∨ (∃ k, f.dec w = .nan k)) :
    (opAdd f mode sat fz v w).bits = f.nanBits := by
  have hany : anyNan [f.dec v, f.dec w] = true := by
    obtain ⟨k, hk⟩ | ⟨k, hk⟩ := h <;> simp [anyNan, hk]
  unfold opAdd
  simp only [hany, if_true, nanRes]

/-- Without a NaN the sum is that of the decoded values. -/
theorem opAdd_of_not_nan {f : Fmt} (mode : Rnd) (sat fz : Bool) {v w : DWord} {x y : FVal} (hx : f.dec v = x) (hy : f.dec w = y) (h : anyNan [x, y] = false) :
    opAdd f mode sat fz v w = addVals f mode sat fz x y := by
  unfold opAdd
  simp only [hx, hy, h, Bool.false_eq_true, if_false]

/-- A sum that is not zero is the exact sum rounded. -/
theorem roundSum_of_ne_zero (f : Fmt) (mode : Rnd) (sat fz : Bool) {p q : ExReal} (h : (exAdd p q).m ≠ 0) :
    roundSum f mode sat fz p q = roundTo f mode sat fz (exAdd p q) := by
  unfold roundSum
  simp only [beq_iff_eq, h, if_false]

/-- Rounding to nearest, an exact zero sum is −0 when both addends are, and +0 otherwise. -/
theorem roundSum_rn_of_eq_zero (f : Fmt) (sat fz : Bool) {p q : ExReal} (h : (exAdd p q).m = 0) :
    (roundSum f .rn sat fz p q).bits = f.signed (decide ((p.m = 0 ∧ p.neg = true) ∧ q.m = 0 ∧ q.neg = true)) 0 := by
  unfold roundSum
  simp only [h, beq_self_eq_true, if_true]
  congr 1
  rw [Bool.eq_iff_iff]
  simp [and_assoc, and_left_comm]

/-- FADD under .rn does what R228 says of a sum. -/
theorem isRoundedSum_opAdd {f : Fmt} (hf : Interchange f) {v w : DWord} (hv : v.toNat < 2 ^ f.width) (hw : w.toNat < 2 ^ f.width) :
    IsRoundedSum f f.nanBits (f.signed true 0) v w (opAdd f .rn false false v w).bits := by
  refine ⟨opAdd_of_nan .rn false false, fun p q hp hq => ?inf_inf, fun p q hp hq => ?inf_fin, fun p q hp hq => ?fin_inf, fun p q hp hq => ⟨fun hs => ?sum, fun hs => ?zero⟩⟩ <;>
    rw [opAdd_of_not_nan .rn false false hp hq rfl]
  case inf_inf =>
    rw [eq_infBits_of_dec hf hv hp]
    by_cases hpq : p = q <;> simp [addVals, hpq]
  case inf_fin => exact (eq_infBits_of_dec hf hv hp).symm
  case fin_inf => exact (eq_infBits_of_dec hf hw hq).symm
  case sum => exact congrArg FRes.bits (roundSum_of_ne_zero f .rn false false hs)
  case zero =>
    have hplus : f.signed false 0 = 0 := rfl
    have hbits := roundSum_rn_of_eq_zero f false false hs
    simp only [← eq_minus_zero_iff hf hv hp, ← eq_minus_zero_iff hf hw hq] at hbits
    refine hbits.trans ?_
    split_ifs with hminus <;> simp [hminus, hplus]

/-! ## The atomic operations (12 R257) -/

/-- The low words of memory and operand, as the float form of a word adds them, are within the format. -/
theorem widened_lt (x : Word) : (x.setWidth 64 : DWord).toNat < 2 ^ f32.width := by
  rw [toNat_widened]
  exact x.isLt

/-- Settles O22: the operations of a word by their numbers, the double words by the model's own equations, the float sums by the clauses of 11 R228. -/
theorem atomicOperations : Obligations.AtomicOperations := by
  unfold Obligations.AtomicOperations
  intro rounded m b c
  simp only [toNat_low_word, BitVec.ofNat_toNat, BitVec.setWidth_eq]
  refine ⟨?add, ?smin, ?smax, ?umin, ?umax, ?and, ?or, ?xor, ?exch, ?cas, ?inc, ?add64, ?exch64, ?cas64, ?fadd, ?fadd64⟩
  case add => exact (toNat_widened _).trans (BitVec.toNat_add _ _)
  case smin => exact (congrArg BitVec.toInt (narrowed_widened _)).trans (toInt_lesser _ _)
  case smax => exact (congrArg BitVec.toInt (narrowed_widened _)).trans (toInt_greater _ _)
  case umin => exact (toNat_widened _).trans (toNat_lesser _ _)
  case umax => exact (toNat_widened _).trans (toNat_greater _ _)
  case and => exact (toNat_widened _).trans (BitVec.toNat_and _ _)
  case or => exact (toNat_widened _).trans (BitVec.toNat_or _ _)
  case xor => exact (toNat_widened _).trans (BitVec.toNat_xor _ _)
  case exch => exact toNat_widened _
  case cas => exact (toNat_widened _).trans (toNat_exchange_if_eq _ _ _)
  case inc => exact (toNat_widened _).trans (toNat_increment_wrapping_at _ _)
  case add64 => exact BitVec.toNat_add m b
  case exch64 => rfl
  case cas64 => exact exchange_if_eq m b c
  case fadd => exact isRoundedSum_opAdd interchange_f32 (widened_lt _) (widened_lt _)
  case fadd64 => exact isRoundedSum_opAdd interchange_f64 m.isLt b.isLt

end Sys2Proof.AtomicProofs
end

section
/-! The short operations of the matrix sequencer as SEQUENCER_OP_START performs them (14 R280, R282, R284; 15 R306): writes made one after the other, tiles and pv registers, the scratchpad by its places, the end of the event, and each operation. -/

namespace Sys2Proof.SequencerProofs

open Sys2Proof.Machine Sys2Proof.Claims

/-! ## What is read after writes made one after the other -/

section
variable {σ α β : Type} {Inv : σ → Prop} {f : σ → α → σ} {read : σ → β} {v : β}

theorem foldl_keeps (keep : ∀ s x, Inv s → Inv (f s x)) (l : List α) {s : σ} (hs : Inv s) : Inv (l.foldl f s) := by
  induction l generalizing s with
  | nil => exact hs
  | cons x t ih => exact ih (keep s x hs)

/-- Writes elsewhere leave what is read. -/
theorem foldl_untouched (keep : ∀ s x, Inv s → Inv (f s x)) {l : List α} (other : ∀ x ∈ l, ∀ s, Inv s → read (f s x) = read s) {s : σ} (hs : Inv s) : read (l.foldl f s) = read s := by
  induction l generalizing s with
  | nil => rfl
  | cons x t ih => exact (ih (fun y hy => other y (List.mem_cons_of_mem x hy)) (keep s x hs)).trans (other x List.mem_cons_self s hs)

/-- A place that one write gives the value v, and that no other gives another, has it in the end. -/
theorem foldl_written (keep : ∀ s x, Inv s → Inv (f s x)) {l : List α} {x : α} (hx : x ∈ l) (hit : ∀ s, Inv s → read (f s x) = v)
    (other : ∀ y ∈ l, y ≠ x → (∀ s, Inv s → read (f s y) = read s) ∨ ∀ s, Inv s → read (f s y) = v) {s : σ} (hs : Inv s) : read (l.foldl f s) = v := by
  induction l using List.reverseRecOn with
  | nil => exact absurd hx List.not_mem_nil
  | append_singleton l y ih =>
    have hinv : Inv (l.foldl f s) := foldl_keeps keep l hs
    rw [List.foldl_concat]
    by_cases hyx : y = x
    · rw [hyx]; exact hit _ hinv
    · have hxl : x ∈ l := by simpa [Ne.symm hyx] using hx
      obtain hkeep | hsame := other y (by simp) hyx
      · rw [hkeep _ hinv]
        exact ih hxl fun z hz => other z (by simp [hz])
      · exact hsame _ hinv

/-- Of the writes numbered below n, the last that touches a place is the one that counts. -/
theorem foldl_range_last {f : σ → Nat → σ} (keep : ∀ s k, Inv s → Inv (f s k)) {n i : Nat} (hi : i < n) (hit : ∀ s, Inv s → read (f s i) = v)
    (after : ∀ k, i < k → k < n → ∀ s, Inv s → read (f s k) = read s) {s : σ} (hs : Inv s) : read ((List.range n).foldl f s) = v := by
  induction n with
  | zero => exact absurd hi (Nat.not_lt_zero i)
  | succ n ih =>
    have hinv : Inv ((List.range n).foldl f s) := foldl_keeps keep _ hs
    rw [List.range_succ, List.foldl_concat]
    by_cases hin : i = n
    · rw [← hin] at hinv ⊢; exact hit _ hinv
    · rw [after n (by omega) (by omega) _ hinv]
      exact ih (by omega) fun k hik hkn => after k hik (by omega)

end

theorem sget_sput_other {α : Type} [BEq α] (d : α) {j k : Nat} (h : j ≠ k) (v : α) (m : Sparse α) : sget j (sput d k v m) = sget j m := by
  unfold sput
  split
  · exact sget_serase_other h m
  · exact sget_sset_other h v m

/-! ## Tiles and pv registers (14 R279) -/

theorem keyT_inj {t i j u k l : Nat} (hi : i < 64) (hj : j < 64) (hk : k < 64) (hl : l < 64) : keyT u k l = keyT t i j ↔ u = t ∧ k = i ∧ l = j := by
  unfold keyT
  omega

theorem tileAt_putTile {t i j u k l : Nat} (hi : i < 64) (hj : j < 64) (hk : k < 64) (hl : l < 64) (c : RegCell) (g : Group) :
    (g.putTile t i j c).tileAt u k l = if u = t ∧ k = i ∧ l = j then ⟨c.val, c.poison, 0⟩ else g.tileAt u k l := by
  simp only [← keyT_inj hi hj hk hl, Group.tileAt, Group.putTile]
  split
  next h => rw [h]; exact sgetD_sput_same _ _ _ _
  next h => exact sgetD_sput_other _ h _ _

theorem pvAt_putPv {m i n k : Nat} (hi : i < 64) (hk : k < 64) (c : RegCell) (g : Group) :
    (g.putPv m i c).pvAt n k = if n = m ∧ k = i then c else g.pvAt n k := by
  have hkey : n * 64 + k = m * 64 + i ↔ n = m ∧ k = i := by omega
  unfold Group.pvAt Group.putPv
  by_cases h : n = m ∧ k = i
  · obtain ⟨rfl, rfl⟩ := h
    simp only [and_self, if_true]
    split
    next hc => rw [sget_serase_same, Option.getD_none, eq_of_beq hc]
    next => rw [sget_sset_same, Option.getD_some]
  · rw [if_neg h]
    rw [← hkey] at h
    dsimp only
    split
    · rw [sget_serase_other h]
    · rw [sget_sset_other h]

/-- Of a group only tiles have changed. -/
def TileOnly (g h : Group) : Prop := h = { g with tile := h.tile }
/-- Of a group only pv registers have changed. -/
def PvOnly (g h : Group) : Prop := h = { g with pv := h.pv }

theorem TileOnly.refl (g : Group) : TileOnly g g := rfl
theorem TileOnly.trans {g h k : Group} (hgh : TileOnly g h) (hhk : TileOnly h k) : TileOnly g k := by
  unfold TileOnly at *
  rw [hhk, hgh]
theorem TileOnly.putTile {g h : Group} (H : TileOnly g h) (t i j : Nat) (c : RegCell) : TileOnly g (h.putTile t i j c) := H.trans rfl
theorem TileOnly.pv {g h : Group} (H : TileOnly g h) : h.pv = g.pv := (congrArg Group.pv H).trans rfl
theorem TileOnly.pvAt {g h : Group} (H : TileOnly g h) (m i : Nat) : h.pvAt m i = g.pvAt m i := by unfold Group.pvAt; rw [H.pv]
theorem TileOnly.part {g h : Group} (H : TileOnly g h) : h.part = g.part := (congrArg Group.part H).trans rfl
theorem TileOnly.core {g h : Group} (H : TileOnly g h) : h.core = g.core := (congrArg Group.core H).trans rfl
theorem PvOnly.refl (g : Group) : PvOnly g g := rfl
theorem PvOnly.putPv {g h : Group} (H : PvOnly g h) (m i : Nat) (c : RegCell) : PvOnly g (h.putPv m i c) := by
  unfold PvOnly at *
  rw [H]; rfl
theorem PvOnly.tile {g h : Group} (H : PvOnly g h) : h.tile = g.tile := (congrArg Group.tile H).trans rfl

/-- 14 R284: MZERO clears each element of a tile, or of a pair. -/
def zeroTile (T : Nat) (wide : Bool) (g : Group) : Group := tilePlaces.foldl (fun g p => g.putElem wide T p.1 p.2 pv0) g

theorem mem_tilePlaces {p : Nat × Nat} : p ∈ tilePlaces ↔ p.1 < 64 ∧ p.2 < 64 := by
  obtain ⟨i, j⟩ := p
  simp [tilePlaces]

theorem tileAt_putElem_zero {T u i j k l : Nat} {wide : Bool} (hi : i < 64) (hj : j < 64) (hk : k < 64) (hl : l < 64) (g : Group) :
    (g.putElem wide T i j pv0).tileAt u k l = if (u = T ∨ wide = true ∧ u = T + 1) ∧ k = i ∧ l = j then ⟨0, false, 0⟩ else g.tileAt u k l := by
  cases wide
  case false => simp [Group.putElem, tileAt_putTile hi hj hk hl, tileCell, pv0]
  case true =>
    simp only [Group.putElem, tileAt_putTile hi hj hk hl, pv0, true_and, if_true, or_and_right]
    by_cases hfirst : u = T ∧ k = i ∧ l = j
    · simp [hfirst]
    · simp [hfirst]

theorem TileOnly.putElem {g h : Group} (H : TileOnly g h) (wide : Bool) (t i j : Nat) (v : PVal) : TileOnly g (h.putElem wide t i j v) := by
  unfold Group.putElem
  split
  · exact (H.putTile _ _ _ _).putTile _ _ _ _
  · exact H.putTile _ _ _ _

theorem tileOnly_zeroTile (T : Nat) (wide : Bool) (g : Group) : TileOnly g (zeroTile T wide g) :=
  foldl_keeps (fun _ _ H => H.putElem _ _ _ _ _) _ (TileOnly.refl g)

theorem tileAt_zeroTile {T u i j : Nat} {wide : Bool} (hi : i < 64) (hj : j < 64) (g : Group) :
    (zeroTile T wide g).tileAt u i j = if u = T ∨ wide = true ∧ u = T + 1 then ⟨0, false, 0⟩ else g.tileAt u i j := by
  have keep : ∀ (h : Group) (x : Nat × Nat), TileOnly g h → TileOnly g (h.putElem wide T x.1 x.2 pv0) := fun _ _ H => H.putElem _ _ _ _ _
  split
  next hu =>
    refine foldl_written (read := fun h => h.tileAt u i j) (x := (i, j)) keep (mem_tilePlaces.2 ⟨hi, hj⟩) (fun h _ => ?_) (fun y hy hne => .inl fun h _ => ?_) (TileOnly.refl g)
    · simp [tileAt_putElem_zero hi hj hi hj, hu]
    · obtain ⟨hy1, hy2⟩ := mem_tilePlaces.1 hy
      rw [tileAt_putElem_zero hy1 hy2 hi hj, if_neg fun ⟨_, h1, h2⟩ => hne (Prod.ext h1.symm h2.symm)]
  next hu =>
    refine foldl_untouched (read := fun h => h.tileAt u i j) keep (fun y hy h _ => ?_) (TileOnly.refl g)
    obtain ⟨hy1, hy2⟩ := mem_tilePlaces.1 hy
    rw [tileAt_putElem_zero hy1 hy2 hi hj, if_neg fun h => hu h.1]

/-! ## MLDA (14 R282, R284) -/

/-- The machine with its scratchpads as they stood in a view. -/
def seenAs (v : SpadView) (s : State) : State := { s with spad := v.bytes, spadPoison := v.marks }

theorem getD_getElem?_cons_mem {α : Type} (c : α) (l : List α) (n : Nat) : ((c :: l)[n]?).getD c ∈ c :: l := by
  cases h : (c :: l)[n]? with
  | none => exact List.mem_cons_self
  | some x => exact List.mem_of_getElem? h

/-- An entry that races is the entry as it stands now, or as it stood before one of the writes since. -/
theorem raced_getElem? {s : State} {old : List SpadView} {key : Nat} {f : State → List PVal} {u : Nat} {x : PVal} (h : (raced s old key f)[u]? = some x) :
    (f s)[u]? = some x ∨ ∃ v ∈ old, (f (seenAs v s))[u]? = some x := by
  cases old with
  | nil => exact .inl h
  | cons v₀ vs =>
    obtain ⟨c, hc, hx⟩ : ∃ c, (f s)[u]? = some c ∧ x ∈ c :: ((v₀ :: vs).map fun v => f (seenAs v s)).map fun l => (l[u]?).getD c := by
      unfold raced at h
      simp only [List.getElem?_map, List.getElem?_zipIdx, Option.map_map, Option.map_eq_some_iff, Nat.zero_add] at h
      obtain ⟨c, hc, rfl⟩ := h
      exact ⟨c, hc, getD_getElem?_cons_mem c _ _⟩
    rw [List.map_map] at hx
    obtain rfl | hx := List.mem_cons.1 hx
    · exact .inl hc
    · obtain ⟨v, hv, rfl⟩ := List.mem_map.1 hx
      cases hl : (f (seenAs v s))[u]? with
      | none => exact .inl (by simpa [hl] using hc)
      | some y => exact .inr ⟨v, hv, by simp [hl]⟩

theorem length_raced (s : State) (old : List SpadView) (key : Nat) (f : State → List PVal) : (raced s old key f).length = (f s).length := by
  cases old with
  | nil => rfl
  | cons v vs => simp [raced]

/-- The 64 words of the scratchpad that row i of a tile is loaded from, as the machine s has them. -/
def rowWords (part core off pitch i : Nat) (s : State) : List PVal :=
  (List.range 64).map fun j => ⟨(spadPWord s part core (off + i * pitch + 4 * j)).val.setWidth 64, (spadPWord s part core (off + i * pitch + 4 * j)).poison⟩

/-- A row of a tile is written from a list of values. -/
def putRow (t i : Nat) (row : List PVal) (g : Group) : Group := row.zipIdx.foldl (fun g x => g.putTile t i x.2 ⟨x.1.val.setWidth 32, x.1.poison, 0⟩) g

theorem loadTile_eq_putRow (s : State) (old : List SpadView) (id t off pitch : Nat) (g : Group) :
    loadTile s old id t off pitch g = (List.range 64).foldl (fun h i => putRow t i (raced s old (raceKey id 0 0 i) (rowWords h.part h.core off pitch i)) h) g := rfl

theorem TileOnly.putRow {g h : Group} (H : TileOnly g h) (t i : Nat) (row : List PVal) : TileOnly g (putRow t i row h) :=
  foldl_keeps (fun _ _ H => H.putTile _ _ _ _) _ H

/-- A row is written where it says, and nowhere else. -/
theorem tileAt_putRow {t i u k l : Nat} (hi : i < 64) (hk : k < 64) (hl : l < 64) {row : List PVal} (hrow : row.length = 64) {x : PVal} (hx : row[l]? = some x) (g : Group) :
    (putRow t i row g).tileAt u k l = if u = t ∧ k = i then ⟨x.val.setWidth 32, x.poison, 0⟩ else g.tileAt u k l := by
  have keep : ∀ (h : Group) (y : PVal × Nat), TileOnly g h → TileOnly g (h.putTile t i y.2 ⟨y.1.val.setWidth 32, y.1.poison, 0⟩) := fun _ _ H => H.putTile _ _ _ _
  have hcol : ∀ y ∈ row.zipIdx, y.2 < 64 := fun y hy => hrow ▸ List.snd_lt_of_mem_zipIdx hy
  split
  next huk =>
    refine foldl_written (read := fun h => h.tileAt u k l) (x := (x, l)) keep (List.mk_mem_zipIdx_iff_getElem?.2 hx) (fun h _ => ?_) (fun y hy hne => .inl fun h _ => ?_) (TileOnly.refl g)
    · rw [tileAt_putTile hi hl hk hl, if_pos ⟨huk.1, huk.2, rfl⟩]
    · rw [tileAt_putTile hi (hcol y hy) hk hl, if_neg]
      rintro ⟨-, -, rfl⟩
      have hy1 : row[y.2]? = some y.1 := List.mk_mem_zipIdx_iff_getElem?.1 hy
      exact hne (Prod.ext (Option.some.inj (hy1.symm.trans hx)) rfl)
  next huk =>
    refine foldl_untouched (read := fun h => h.tileAt u k l) keep (fun y hy h _ => ?_) (TileOnly.refl g)
    rw [tileAt_putTile hi (hcol y hy) hk hl, if_neg fun ⟨h1, h2, _⟩ => huk ⟨h1, h2⟩]

theorem tileOnly_loadTile (s : State) (old : List SpadView) (id t off pitch : Nat) (g : Group) : TileOnly g (loadTile s old id t off pitch g) := by
  rw [loadTile_eq_putRow]
  exact foldl_keeps (fun _ _ H => H.putRow _ _ _) _ (TileOnly.refl g)

theorem length_raced_rowWords (s : State) (old : List SpadView) (key part core off pitch i : Nat) : (raced s old key (rowWords part core off pitch i)).length = 64 := by
  simp [length_raced, rowWords]

/-- A word of the scratchpad as a tile element. -/
def loaded (x : PWord) : RegCell := ⟨x.val, x.poison, 0⟩

theorem rowWords_getElem? {part core off pitch i j : Nat} (hj : j < 64) {s : State} {x : PVal} (h : (rowWords part core off pitch i s)[j]? = some x) :
    (⟨x.val.setWidth 32, x.poison, 0⟩ : RegCell) = loaded (spadPWord s part core (off + i * pitch + 4 * j)) := by
  simp only [rowWords, List.getElem?_map, List.getElem?_range hj, Option.map_some, Option.some.injEq] at h
  subst h
  simp only [loaded, RegCell.mk.injEq, and_self, and_true]
  bv_omega

theorem tileAt_loadTile_other {s : State} {old : List SpadView} {id t off pitch u k l : Nat} (hk : k < 64) (hl : l < 64) (hu : u ≠ t) (g : Group) :
    (loadTile s old id t off pitch g).tileAt u k l = g.tileAt u k l := by
  rw [loadTile_eq_putRow]
  refine foldl_untouched (Inv := fun _ => True) (read := fun h : Group => h.tileAt u k l) (fun _ _ _ => trivial) (fun i hi h _ => ?_) trivial
  have hlen := length_raced_rowWords s old (raceKey id 0 0 i) h.part h.core off pitch i
  obtain ⟨x, hx⟩ : ∃ x, (raced s old (raceKey id 0 0 i) (rowWords h.part h.core off pitch i))[l]? = some x := ⟨_, List.getElem?_eq_getElem (hlen ▸ hl)⟩
  rw [tileAt_putRow (List.mem_range.1 hi) hk hl hlen hx, if_neg fun h => hu h.1]

theorem tileAt_loadTile_same {s : State} {old : List SpadView} {id t off pitch k l : Nat} (hk : k < 64) (hl : l < 64) (g : Group) :
    (loadTile s old id t off pitch g).tileAt t k l = loaded (spadPWord s g.part g.core (off + k * pitch + 4 * l)) ∨
      ∃ v ∈ old, (loadTile s old id t off pitch g).tileAt t k l = loaded (spadPWord (seenAs v s) g.part g.core (off + k * pitch + 4 * l)) := by
  have hlen (i : Nat) := length_raced_rowWords s old (raceKey id 0 0 i) g.part g.core off pitch i
  obtain ⟨x, hx⟩ : ∃ x, (raced s old (raceKey id 0 0 k) (rowWords g.part g.core off pitch k))[l]? = some x := ⟨_, List.getElem?_eq_getElem (hlen k ▸ hl)⟩
  have hread : (loadTile s old id t off pitch g).tileAt t k l = ⟨x.val.setWidth 32, x.poison, 0⟩ := by
    rw [loadTile_eq_putRow]
    refine foldl_range_last (read := fun h => h.tileAt t k l) (fun _ _ H => H.putRow _ _ _) hk (fun h H => ?_) (fun i hki hi h H => ?_) (TileOnly.refl g)
    · rw [H.part, H.core, tileAt_putRow hk hk hl (hlen k) hx, if_pos ⟨rfl, rfl⟩]
    · obtain ⟨y, hy⟩ : ∃ y, (raced s old (raceKey id 0 0 i) (rowWords g.part g.core off pitch i))[l]? = some y := ⟨_, List.getElem?_eq_getElem (hlen i ▸ hl)⟩
      rw [H.part, H.core, tileAt_putRow hi hk hl (hlen i) hy, if_neg fun h => hki.ne h.2]
  rw [hread]
  obtain hnow | ⟨v, hv, hthen⟩ := raced_getElem? hx
  · exact .inl (rowWords_getElem? hl hnow)
  · exact .inr ⟨v, hv, rowWords_getElem? hl hthen⟩

/-! ## ACCRD and ACCWR (14 R284) -/

theorem accCol_lt {wide : Bool} {H T L k : Nat} (hL : L < 32) (hH : H < 2) (hk : k < 2) : (accCol wide H T L k).2 < 64 := by
  cases wide
  case false => simp only [accCol, Bool.false_eq_true, if_false]; omega
  case true => simp only [accCol, if_true]; omega

theorem accCol_inj {wide : Bool} {H T L M k n : Nat} (hk : k < 2) (hn : n < 2) : accCol wide H T L k = accCol wide H T M n ↔ L = M ∧ k = n := by
  cases wide
  case false => simp only [accCol, Bool.false_eq_true, if_false, Prod.mk.injEq, true_and]; omega
  case true => simp only [accCol, if_true, Prod.mk.injEq]; omega

/-- What ACCRD reads for each lane, by the keys of its registers. -/
def laneReads (T row : Nat) (wide : Bool) (H : Nat) (lanes : List (Nat × Nat × Nat)) (g : Group) : List (Nat × RegCell) :=
  lanes.flatMap fun x => [(x.2.1, accCol wide H T x.1 0), (x.2.2, accCol wide H T x.1 1)].map fun y => (y.1, cell (g.tileAt y.2.1 row y.2.2).val (g.tileAt y.2.1 row y.2.2).poison)

theorem laneReads_eq (T row : Nat) (wide : Bool) (H : Nat) (lanes : List (Nat × Nat × Nat)) (g : Group) :
    laneReads T row wide H lanes g = lanes.flatMap fun x =>
      if wide then [(x.2.1, cell (g.tileAt T row (32 * H + x.1)).val (g.tileAt T row (32 * H + x.1)).poison), (x.2.2, cell (g.tileAt (T + 1) row (32 * H + x.1)).val (g.tileAt (T + 1) row (32 * H + x.1)).poison)]
      else [(x.2.1, cell (g.tileAt T row (2 * x.1)).val (g.tileAt T row (2 * x.1)).poison), (x.2.2, cell (g.tileAt T row (2 * x.1 + 1)).val (g.tileAt T row (2 * x.1 + 1)).poison)] := by
  cases wide <;> rfl

/-- The pending result vp of a group becomes known. -/
def answered (vp : Nat) (writes : List (Nat × RegCell)) (g : Group) : Group :=
  { g with vp := g.vp.map fun v => if v.id == vp then { v with known := true, writes := writes } else v }

theorem known_of_mem_answered {vp : Nat} {writes : List (Nat × RegCell)} {g : Group} {v : VPend} (hv : v ∈ (answered vp writes g).vp) (hid : v.id = vp) : v.known = true ∧ v.writes = writes := by
  obtain ⟨w, -, rfl⟩ := List.mem_map.1 hv
  by_cases hw : (w.id == vp) = true
  · rw [if_pos hw]
    exact ⟨rfl, rfl⟩
  · rw [if_neg hw] at hid
    exact absurd (beq_iff_eq.2 hid) hw

/-- ACCWR writes the two elements of a lane. -/
def putLane (T row : Nat) (wide : Bool) (H : Nat) (g : Group) (c : Nat × RegCell × RegCell) : Group :=
  (g.putTile (accCol wide H T c.1 0).1 row (accCol wide H T c.1 0).2 (tileCell c.2.1.val c.2.1.poison)).putTile (accCol wide H T c.1 1).1 row (accCol wide H T c.1 1).2 (tileCell c.2.2.val c.2.2.poison)

theorem TileOnly.putLane {g h : Group} (H : TileOnly g h) (T row : Nat) (wide : Bool) (k : Nat) (c : Nat × RegCell × RegCell) : TileOnly g (putLane T row wide k h c) :=
  (H.putTile _ _ _ _).putTile _ _ _ _

theorem tileAt_putLane {T row H u i j : Nat} {wide : Bool} {c : Nat × RegCell × RegCell} (hc : c.1 < 32) (hH : H < 2) (hrow : row < 64) (hi : i < 64) (hj : j < 64) (g : Group) :
    (putLane T row wide H g c).tileAt u i j =
      if i = row ∧ (u, j) = accCol wide H T c.1 1 then tileCell c.2.2.val c.2.2.poison
      else if i = row ∧ (u, j) = accCol wide H T c.1 0 then tileCell c.2.1.val c.2.1.poison else g.tileAt u i j := by
  have hlt (k : Nat) (hk : k < 2) := accCol_lt (wide := wide) (T := T) hc hH hk
  unfold putLane
  rw [tileAt_putTile hrow (hlt 1 (by decide)) hi hj, tileAt_putTile hrow (hlt 0 (by decide)) hi hj]
  simp only [Prod.ext_iff, and_left_comm, tileCell]

section
variable {T row H : Nat} {wide : Bool} {cells : List (Nat × RegCell × RegCell)} (hlane : ∀ c ∈ cells, c.1 < 32) (hH : H < 2) (hrow : row < 64)
include hlane hH hrow

theorem tileAt_putLanes_other {u i j : Nat} (hi : i < 64) (hj : j < 64) (hother : i ≠ row ∨ ∀ c ∈ cells, ∀ k < 2, (u, j) ≠ accCol wide H T c.1 k) (g : Group) :
    (cells.foldl (putLane T row wide H) g).tileAt u i j = g.tileAt u i j := by
  refine foldl_untouched (read := fun h => h.tileAt u i j) (fun _ _ H => H.putLane _ _ _ _ _) (fun c hc h _ => ?_) (TileOnly.refl g)
  have hno (k : Nat) (hk : k < 2) : ¬(i = row ∧ (u, j) = accCol wide H T c.1 k) := fun ⟨hir, huj⟩ =>
    hother.elim (fun hne => hne hir) fun hne => hne c hc k hk huj
  rw [tileAt_putLane (hlane c hc) hH hrow hi hj, if_neg (hno 1 (by decide)), if_neg (hno 0 (by decide))]

theorem tileAt_putLanes_same (hnodup : (cells.map (·.1)).Nodup) {c : Nat × RegCell × RegCell} (hc : c ∈ cells) {k : Nat} (hk : k < 2) (g : Group) :
    (cells.foldl (putLane T row wide H) g).tileAt (accCol wide H T c.1 k).1 row (accCol wide H T c.1 k).2 =
      if k = 1 then tileCell c.2.2.val c.2.2.poison else tileCell c.2.1.val c.2.1.poison := by
  have hcol := accCol_lt (wide := wide) (T := T) (hlane c hc) hH hk
  refine foldl_written (read := fun h => h.tileAt (accCol wide H T c.1 k).1 row (accCol wide H T c.1 k).2) (fun _ _ H => H.putLane _ _ _ _ _) hc (fun h _ => ?_) (fun d hd hne => .inl fun h _ => ?_) (TileOnly.refl g)
  · rw [tileAt_putLane (hlane c hc) hH hrow hrow hcol]
    simp only [Prod.mk.eta, accCol_inj hk, Nat.one_lt_two, Nat.two_pos, true_and]
    split
    · rfl
    · rw [if_pos (by omega)]
  · have hdc : c.1 ≠ d.1 := fun h => hne (List.inj_on_of_nodup_map hnodup hd hc h.symm)
    rw [tileAt_putLane (hlane d hd) hH hrow hrow hcol]
    simp only [Prod.mk.eta, accCol_inj hk, Nat.one_lt_two, Nat.two_pos, true_and, hdc, false_and, if_false]

end

/-! ## PVAPPLY and PVMOV (14 R284) -/

/-- The row to which, and from which, PVAPPLY moves elements by the entry e in place i. -/
def rowTo (inv : Bool) (e : RegCell) (i : Nat) : Nat := if inv then pvRow e else i
def rowFrom (inv : Bool) (e : RegCell) (i : Nat) : Nat := if inv then i else pvRow e

/-- The element of column j that PVAPPLY moves by entry i. -/
def movedElem (t m : Nat) (inv : Bool) (g : Group) (i j : Nat) : RegCell :=
  ⟨(g.tileAt t (rowFrom inv (g.pvAt m i) i) j).val, (g.tileAt t (rowFrom inv (g.pvAt m i) i) j).poison || (g.pvAt m i).poison, 0⟩

/-- PVAPPLY moves one row of the tile of g, by entry i. -/
def moveRow (t m : Nat) (inv : Bool) (g : Group) (h : Group) (i : Nat) : Group :=
  (List.range 64).foldl (fun h j => h.putTile t (rowTo inv (g.pvAt m i) i) j (movedElem t m inv g i j)) h

theorem applyPv_eq_moveRow (t m : Nat) (inv : Bool) (g : Group) : applyPv t m inv g = (List.range 64).foldl (moveRow t m inv g) g := rfl

theorem TileOnly.moveRow {g h : Group} (H : TileOnly g h) (t m : Nat) (inv : Bool) (k : Group) (i : Nat) : TileOnly g (moveRow t m inv k h i) :=
  foldl_keeps (fun _ _ H => H.putTile _ _ _ _) _ H

theorem tileOnly_applyPv (t m : Nat) (inv : Bool) (g : Group) : TileOnly g (applyPv t m inv g) := by
  rw [applyPv_eq_moveRow]
  exact foldl_keeps (fun _ _ H => H.moveRow _ _ _ _ _) _ (TileOnly.refl g)

theorem rowTo_lt {inv : Bool} {e : RegCell} {i : Nat} (hi : i < 64) : rowTo inv e i < 64 := by
  unfold rowTo
  split
  · exact Nat.mod_lt _ (by decide)
  · exact hi

theorem tileAt_moveRow {t m i u k l : Nat} {inv : Bool} (hi : i < 64) (hk : k < 64) (hl : l < 64) (g h : Group) :
    (moveRow t m inv g h i).tileAt u k l = if u = t ∧ k = rowTo inv (g.pvAt m i) i then movedElem t m inv g i l else h.tileAt u k l := by
  have hto : rowTo inv (g.pvAt m i) i < 64 := rowTo_lt hi
  split
  next huk =>
    refine foldl_range_last (read := fun h => h.tileAt u k l) (fun _ _ H => H.putTile _ _ _ _) hl (fun h _ => ?_) (fun j hlj hj h _ => ?_) (TileOnly.refl h)
    · rw [tileAt_putTile hto hl hk hl, if_pos ⟨huk.1, huk.2, rfl⟩]; rfl
    · rw [tileAt_putTile hto hj hk hl, if_neg fun h => hlj.ne h.2.2]
  next huk =>
    refine foldl_untouched (read := fun h => h.tileAt u k l) (fun _ _ H => H.putTile _ _ _ _) (fun j hj h _ => ?_) (TileOnly.refl h)
    rw [tileAt_putTile hto (List.mem_range.1 hj) hk hl, if_neg fun ⟨h1, h2, _⟩ => huk ⟨h1, h2⟩]

/-- What no entry moves to stays: another tile, and a row that no entry fills. -/
theorem tileAt_applyPv_other {t m u k l : Nat} {inv : Bool} (hk : k < 64) (hl : l < 64) (g : Group)
    (hother : u ≠ t ∨ ∀ i < 64, rowTo inv (g.pvAt m i) i ≠ k) : (applyPv t m inv g).tileAt u k l = g.tileAt u k l := by
  rw [applyPv_eq_moveRow]
  refine foldl_untouched (read := fun h => h.tileAt u k l) (fun _ _ H => H.moveRow _ _ _ _ _) (fun i hi h _ => ?_) (TileOnly.refl g)
  have hi' := List.mem_range.1 hi
  rw [tileAt_moveRow hi' hk hl, if_neg fun ⟨hu, hto⟩ => hother.elim (fun hne => hne hu) fun hne => hne i hi' hto.symm]

/-- The last entry that moves elements to a row fills it. -/
theorem tileAt_applyPv {t m i k l : Nat} {inv : Bool} (hi : i < 64) (hk : k < 64) (hl : l < 64) (g : Group) (hto : rowTo inv (g.pvAt m i) i = k)
    (hlast : ∀ n, i < n → n < 64 → rowTo inv (g.pvAt m n) n ≠ k) : (applyPv t m inv g).tileAt t k l = movedElem t m inv g i l := by
  rw [applyPv_eq_moveRow]
  refine foldl_range_last (read := fun h => h.tileAt t k l) (fun _ _ H => H.moveRow _ _ _ _ _) hi (fun h _ => ?_) (fun n hin hn h _ => ?_) (TileOnly.refl g)
  · rw [tileAt_moveRow hi hk hl, if_pos ⟨rfl, hto.symm⟩]
  · rw [tileAt_moveRow hn hk hl, if_neg fun h => hlast n hin hn h.2.symm]

/-- PVAPPLY on a tile, or on each tile of a pair. -/
def applyPair (t m : Nat) (wide inv : Bool) (g : Group) : Group := if wide then applyPv (t + 1) m inv (applyPv t m inv g) else applyPv t m inv g

theorem applyPair_single (t m : Nat) (inv : Bool) (g : Group) : applyPair t m false inv g = applyPv t m inv g := if_neg Bool.false_ne_true
theorem applyPair_wide (t m : Nat) (inv : Bool) (g : Group) : applyPair t m true inv g = applyPv (t + 1) m inv (applyPv t m inv g) := if_pos rfl

theorem tileOnly_applyPair (t m : Nat) (wide inv : Bool) (g : Group) : TileOnly g (applyPair t m wide inv g) := by
  unfold applyPair
  split
  · exact (tileOnly_applyPv t m inv g).trans (tileOnly_applyPv (t + 1) m inv _)
  · exact tileOnly_applyPv t m inv g

/-- Each tile of the pair is rearranged by the entries of g, and from its elements as g has them. -/
theorem exists_applyPair_eq_applyPv {t m u : Nat} {wide : Bool} (inv : Bool) (hu : u = t ∨ wide = true ∧ u = t + 1) (g : Group) :
    ∃ h, (∀ i, h.pvAt m i = g.pvAt m i) ∧ (∀ k l, k < 64 → l < 64 → h.tileAt u k l = g.tileAt u k l) ∧
      ∀ k l, k < 64 → l < 64 → (applyPair t m wide inv g).tileAt u k l = (applyPv u m inv h).tileAt u k l := by
  cases wide with
  | false =>
    obtain rfl : u = t := hu.resolve_right fun h => Bool.false_ne_true h.1
    rw [applyPair_single]
    exact ⟨g, fun _ => rfl, fun _ _ _ _ => rfl, fun _ _ _ _ => rfl⟩
  | true =>
    rw [applyPair_wide]
    obtain rfl | ⟨-, rfl⟩ := hu
    · exact ⟨g, fun _ => rfl, fun _ _ _ _ => rfl, fun _ _ hk hl => tileAt_applyPv_other hk hl _ (.inl (by omega))⟩
    · exact ⟨applyPv t m inv g, (tileOnly_applyPv t m inv g).pvAt m, fun _ _ hk hl => tileAt_applyPv_other hk hl g (.inl (by omega)), fun _ _ _ _ => rfl⟩

theorem tileAt_applyPair_outside {t m u k l : Nat} {wide inv : Bool} (hk : k < 64) (hl : l < 64) (hu : u ≠ t) (hu' : wide = false ∨ u ≠ t + 1) (g : Group) : (applyPair t m wide inv g).tileAt u k l = g.tileAt u k l := by
  unfold applyPair
  split
  next hwide => rw [tileAt_applyPv_other hk hl _ (.inl (hu'.resolve_left fun h => Bool.false_ne_true (h.symm.trans hwide))), tileAt_applyPv_other hk hl _ (.inl hu)]
  next => exact tileAt_applyPv_other hk hl g (.inl hu)

section
variable {t m u k l : Nat} {wide inv : Bool} (hu : u = t ∨ wide = true ∧ u = t + 1) (hk : k < 64) (hl : l < 64) (g : Group)
include hu hk hl

theorem tileAt_applyPair_unnamed (hnone : ∀ i < 64, rowTo inv (g.pvAt m i) i ≠ k) : (applyPair t m wide inv g).tileAt u k l = g.tileAt u k l := by
  obtain ⟨h, hpv, htile, hread⟩ := exists_applyPair_eq_applyPv (m := m) inv hu g
  rw [hread k l hk hl, tileAt_applyPv_other hk hl h (.inr fun i hi => by rw [hpv]; exact hnone i hi), htile k l hk hl]

theorem tileAt_applyPair {i : Nat} (hi : i < 64) (hto : rowTo inv (g.pvAt m i) i = k) (hlast : ∀ n, i < n → n < 64 → rowTo inv (g.pvAt m n) n ≠ k) :
    (applyPair t m wide inv g).tileAt u k l = movedElem u m inv g i l := by
  obtain ⟨h, hpv, htile, hread⟩ := exists_applyPair_eq_applyPv (m := m) inv hu g
  have hfrom : rowFrom inv (g.pvAt m i) i < 64 := by
    unfold rowFrom
    split
    · exact hi
    · exact Nat.mod_lt _ (by decide)
  rw [hread k l hk hl, tileAt_applyPv hi hk hl h (by rw [hpv]; exact hto) fun n hin hn => by rw [hpv]; exact hlast n hin hn]
  unfold movedElem
  rw [hpv, htile _ _ hfrom hl]

end

/-- The entry i that PVMOV leaves in a pv register. -/
def movedEntry (form t row src : Nat) (g : Group) (i : Nat) : RegCell :=
  match form with
  | 0 => g.pvAt src i
  | 1 => ⟨BitVec.ofNat 32 i, false, 0⟩
  | _ => cell (BitVec.ofNat 32 ((g.tileAt t row i).val.toNat % 64)) (g.tileAt t row i).poison

theorem movPv_eq_putPv {form : Nat} (hform : form ≠ 2) (t row d src : Nat) (g : Group) :
    movPv form t row d src g = (List.range 64).foldl (fun h i => h.putPv d i (movedEntry form t row src g i)) g := by
  match form, hform with
  | 0, _ => rfl
  | 1, _ => rfl
  | _ + 3, _ => rfl

theorem movPv_two_eq_putTile (t row d src : Nat) (g : Group) :
    movPv 2 t row d src g = (List.range 64).foldl (fun h i => h.putTile t row i (tileCell (g.pvAt src i).val (g.pvAt src i).poison)) g := rfl

theorem pvOnly_movPv {form : Nat} (hform : form ≠ 2) (t row d src : Nat) (g : Group) : PvOnly g (movPv form t row d src g) := by
  rw [movPv_eq_putPv hform]
  exact foldl_keeps (fun _ _ H => H.putPv _ _ _) _ (PvOnly.refl g)

theorem tileOnly_movPv (t row d src : Nat) (g : Group) : TileOnly g (movPv 2 t row d src g) :=
  foldl_keeps (fun _ _ H => H.putTile _ _ _ _) _ (TileOnly.refl g)

theorem pvAt_movPv {form : Nat} (hform : form ≠ 2) {t row d src m i : Nat} (hi : i < 64) (g : Group) :
    (movPv form t row d src g).pvAt m i = if m = d then movedEntry form t row src g i else g.pvAt m i := by
  rw [movPv_eq_putPv hform]
  split
  next hm =>
    refine foldl_range_last (read := fun h => h.pvAt m i) (fun _ _ H => H.putPv _ _ _) hi (fun h _ => ?_) (fun k hik hk h _ => ?_) (PvOnly.refl g)
    · rw [pvAt_putPv hi hi, if_pos ⟨hm, rfl⟩]
    · rw [pvAt_putPv hk hi, if_neg fun h => hik.ne h.2]
  next hm =>
    refine foldl_untouched (read := fun h => h.pvAt m i) (fun _ _ H => H.putPv _ _ _) (fun k hk h _ => ?_) (PvOnly.refl g)
    rw [pvAt_putPv (List.mem_range.1 hk) hi, if_neg fun h => hm h.1]

theorem tileAt_movPv {t row d src u i j : Nat} (hrow : row < 64) (hi : i < 64) (hj : j < 64) (g : Group) :
    (movPv 2 t row d src g).tileAt u i j = if u = t ∧ i = row then tileCell (g.pvAt src j).val (g.pvAt src j).poison else g.tileAt u i j := by
  rw [movPv_two_eq_putTile]
  split
  next hui =>
    refine foldl_range_last (read := fun h => h.tileAt u i j) (fun _ _ H => H.putTile _ _ _ _) hj (fun h _ => ?_) (fun k hjk hk h _ => ?_) (TileOnly.refl g)
    · rw [tileAt_putTile hrow hj hi hj, if_pos ⟨hui.1, hui.2, rfl⟩]; rfl
    · rw [tileAt_putTile hrow hk hi hj, if_neg fun h => hjk.ne h.2.2]
  next hui =>
    refine foldl_untouched (read := fun h => h.tileAt u i j) (fun _ _ H => H.putTile _ _ _ _) (fun k hk h _ => ?_) (TileOnly.refl g)
    rw [tileAt_putTile hrow (List.mem_range.1 hk) hi hj, if_neg fun ⟨h1, h2, _⟩ => hui ⟨h1, h2⟩]

/-! ## The places of the scratchpad (04 R82) -/

/-- The number of the physical line that holds line l of a partition's scratchpad on a core. -/
def lineAt (p : Part) (core l : Nat) : Nat := core * 0x20000 + (8 * ((p.sets core)[l / 0x4000 % 8]?).getD 0 + l % 8) * 0x800 + l / 8 % 2048

theorem spadPlace_eq (p : Part) (core o : Nat) : spadPlace p core o = 64 * lineAt p core (o / 64) + o % 64 := by
  unfold spadPlace lineAt
  have h1 : o / 64 / 0x4000 = o / 0x100000 := Nat.div_div_eq_div_mul o 64 0x4000
  have h2 : o / 64 / 8 = o / 512 := Nat.div_div_eq_div_mul o 64 8
  rw [h1, h2]
  dsimp only
  omega

theorem spadPlace_div_64 (p : Part) (core o : Nat) : spadPlace p core o / 64 = lineAt p core (o / 64) := by
  rw [spadPlace_eq]
  omega
theorem spadPlace_div_4 (p : Part) (core o : Nat) : spadPlace p core o / 4 = 16 * lineAt p core (o / 64) + o % 64 / 4 := by
  rw [spadPlace_eq]
  omega
theorem spadPlace_line (p : Part) (core o : Nat) : spadPlace p core (64 * (o / 64)) / 64 = spadPlace p core o / 64 := by
  rw [spadPlace_div_64, spadPlace_div_64, Nat.mul_div_cancel_left _ (by decide)]
theorem spadPlace_word (p : Part) (core o : Nat) : spadPlace p core (4 * (o / 4)) / 4 = spadPlace p core o / 4 := by
  have hline : 4 * (o / 4) / 64 = o / 64 := by omega
  rw [spadPlace_div_4, spadPlace_div_4, hline]
  omega

theorem nodup_sets (p : Part) (core : Nat) : (p.sets core).Nodup := List.nodup_range.filter _
theorem sets_lt {p : Part} {core k : Nat} (h : k ∈ p.sets core) : k < 8 := List.mem_range.1 (List.mem_of_mem_filter h)
theorem length_sets_le (p : Part) (core : Nat) : (p.sets core).length ≤ 8 := (List.length_filter_le _ _).trans List.length_range.le

/-- Lines within the scratchpad lie apart. -/
theorem lineAt_inj {p : Part} {core l m : Nat} (hl : l < (p.sets core).length * 0x4000) (hm : m < (p.sets core).length * 0x4000) (h : lineAt p core l = lineAt p core m) : l = m := by
  have hlen := length_sets_le p core
  have hl' : l / 0x4000 < (p.sets core).length := by omega
  have hm' : m / 0x4000 < (p.sets core).length := by omega
  have hls := sets_lt (List.getElem_mem hl')
  have hms := sets_lt (List.getElem_mem hm')
  unfold lineAt at h
  rw [Nat.mod_eq_of_lt (hl'.trans_le hlen), Nat.mod_eq_of_lt (hm'.trans_le hlen), List.getElem?_eq_getElem hl', List.getElem?_eq_getElem hm', Option.getD_some, Option.getD_some] at h
  have hset : (p.sets core)[l / 0x4000] = (p.sets core)[m / 0x4000] := by omega
  have hidx : l / 0x4000 = m / 0x4000 := (nodup_sets p core).getElem_inj_iff.1 hset
  omega

/-- Bytes within the scratchpad lie apart. -/
theorem spadPlace_inj {p : Part} {core o w : Nat} (ho : o < p.spadSize core) (hw : w < p.spadSize core) (h : spadPlace p core o = spadPlace p core w) : o = w := by
  unfold Part.spadSize at ho hw
  rw [spadPlace_eq, spadPlace_eq] at h
  have hline : o / 64 = w / 64 := lineAt_inj (p := p) (core := core) (by omega) (by omega) (by omega)
  omega

/-! ## Reads and stores of the scratchpad (04 R83; 07 R147) -/

theorem mem_wordsOf {o n w : Nat} (h : w ∈ wordsOf o n) : ∃ k < n, w = (o + k) / 4 := by
  unfold wordsOf at h
  split at h
  · exact absurd h List.not_mem_nil
  · obtain ⟨d, hd, rfl⟩ := List.mem_map.1 h
    have hd' := List.mem_range.1 hd
    exact ⟨4 * (d + o / 4) - o, by omega, by omega⟩

theorem mem_linesOf {o n l : Nat} (h : l ∈ linesOf o n) : ∃ k < n, l = (o + k) / 64 := by
  unfold linesOf at h
  split at h
  · exact absurd h List.not_mem_nil
  · obtain ⟨d, hd, rfl⟩ := List.mem_map.1 h
    have hd' := List.mem_range.1 hd
    exact ⟨64 * (d + o / 64) - o, by omega, by omega⟩

theorem wordsOf_aligned {o : Nat} (h : o % 4 = 0) : wordsOf o 4 = [o / 4] := by
  have hone : (o + 4 - 1) / 4 - o / 4 + 1 = 1 := by omega
  unfold wordsOf
  rw [if_neg (by decide), hone, List.range_one, List.map_singleton, Nat.zero_add]

theorem linesOf_aligned {o : Nat} (h : o % 4 = 0) : linesOf o 4 = [o / 64] := by
  have hone : (o + 4 - 1) / 64 - o / 64 + 1 = 1 := by omega
  unfold linesOf
  rw [if_neg (by decide), hone, List.range_one, List.map_singleton, Nat.zero_add]

theorem readSpad_congr {s t : State} {part core o n : Nat} (h : ∀ k < n, spadByte t part core (o + k) = spadByte s part core (o + k)) : readSpad t part core o n = readSpad s part core o n := by
  induction n generalizing o with
  | zero => rfl
  | succ n ih =>
    have hfirst : spadByte t part core o = spadByte s part core o := h 0 (by omega)
    have hrest : readSpad t part core (o + 1) n = readSpad s part core (o + 1) n := ih fun k hk => by
      rw [Nat.add_assoc, Nat.add_comm 1]
      exact h (k + 1) (by omega)
    rw [readSpad, readSpad, hfirst, hrest]

/-- A word whose bytes and marks stay reads the same. -/
theorem spadPWord_congr {s t : State} {part core o : Nat} (hparts : t.parts = s.parts)
    (hbytes : ∀ k < 4, sget (spadPlace (s.part part) core (o + k)) t.spad = sget (spadPlace (s.part part) core (o + k)) s.spad)
    (hmarks : ∀ k < 4, sget (spadPlace (s.part part) core (o + k) / 4) t.spadPoison = sget (spadPlace (s.part part) core (o + k) / 4) s.spadPoison) :
    spadPWord t part core o = spadPWord s part core o := by
  have hpart : t.part part = s.part part := by unfold State.part; rw [hparts]
  have hread : readSpad t part core o 4 = readSpad s part core o 4 := readSpad_congr fun k hk => by
    unfold spadByte sgetD
    rw [hpart, hbytes k hk]
  have hmark : markedSpad t part core o 4 = markedSpad s part core o 4 := by
    unfold markedSpad
    rw [Bool.eq_iff_iff, List.any_eq_true, List.any_eq_true]
    refine exists_congr fun w => and_congr_right fun hw => ?_
    obtain ⟨k, hk, rfl⟩ := mem_wordsOf hw
    unfold sgetD
    rw [hpart, spadPlace_word, hmarks k hk]
  unfold spadPWord
  rw [hread, hmark]

/-- Of the machine only the scratchpads have changed. -/
def SpadOnly (s t : State) : Prop := t = { s with spad := t.spad, spadPoison := t.spadPoison, spadStamp := t.spadStamp }

theorem SpadOnly.refl (s : State) : SpadOnly s s := rfl
theorem SpadOnly.trans {s t u : State} (hst : SpadOnly s t) (htu : SpadOnly t u) : SpadOnly s u := by
  unfold SpadOnly at *
  rw [htu, hst]
theorem SpadOnly.parts {s t : State} (H : SpadOnly s t) : t.parts = s.parts := (congrArg State.parts H).trans rfl
theorem SpadOnly.part {s t : State} (H : SpadOnly s t) (p : Nat) : t.part p = s.part p := by unfold State.part; rw [H.parts]

/-- Storing bytes changes bytes alone. -/
theorem spadBytes_eq (part core o v n : Nat) (s : State) : spadBytes part core o v n s = { s with spad := (spadBytes part core o v n s).spad } := by
  induction n generalizing o v s with
  | zero => rfl
  | succ n ih => rw [spadBytes, ih]

theorem spadOnly_writeSpad (part core o n v : Nat) (p : Bool) (st : BitVec 4) (s : State) : SpadOnly s (writeSpad part core o n v p st s) := by
  unfold SpadOnly writeSpad
  rw [spadBytes_eq]

theorem writeSpad_spadPoison (part core o n v : Nat) (p : Bool) (st : BitVec 4) (s : State) :
    (writeSpad part core o n v p st s).spadPoison = (wordsOf o n).foldl (fun m w => sput false (spadPlace (s.part part) core (4 * w) / 4) p m) s.spadPoison := by
  unfold writeSpad
  rw [spadBytes_eq]
  rfl

theorem writeSpad_spadStamp (part core o n v : Nat) (p : Bool) (st : BitVec 4) (s : State) :
    (writeSpad part core o n v p st s).spadStamp = (linesOf o n).foldl (fun m l => sput 0 (spadPlace (s.part part) core (64 * l) / 64) st m) s.spadStamp := by
  unfold writeSpad
  rw [spadBytes_eq]
  rfl

/-- A store touches the bytes at its places, the marks of their words and the stamps of their lines. -/
theorem spad_writeSpad_other {part core o n v c : Nat} {p : Bool} {st : BitVec 4} {s : State} (h : ∀ k < n, spadPlace (s.part part) core (o + k) ≠ c) :
    sget c (writeSpad part core o n v p st s).spad = sget c s.spad := by
  show sget c (spadBytes part core o v n s).spad = sget c s.spad
  induction n generalizing o v s with
  | zero => rfl
  | succ n ih =>
    rw [spadBytes, ih fun k hk => by rw [Nat.add_assoc, Nat.add_comm 1]; exact h (k + 1) (by omega)]
    exact sget_sput_other _ (h 0 (by omega)).symm _ _

theorem marks_writeSpad_other {part core o n v c : Nat} {p : Bool} {st : BitVec 4} {s : State} (h : ∀ k < n, spadPlace (s.part part) core (o + k) / 4 ≠ c) :
    sget c (writeSpad part core o n v p st s).spadPoison = sget c s.spadPoison := by
  rw [writeSpad_spadPoison]
  refine foldl_untouched (Inv := fun _ => True) (read := sget c) (fun _ _ _ => trivial) (fun w hw m _ => ?_) trivial
  obtain ⟨k, hk, rfl⟩ := mem_wordsOf hw
  refine sget_sput_other _ (Ne.symm ?_) _ _
  rw [spadPlace_word]
  exact h k hk

theorem stamps_writeSpad_other {part core o n v c : Nat} {p : Bool} {st : BitVec 4} {s : State} (h : ∀ k < n, spadPlace (s.part part) core (o + k) / 64 ≠ c) :
    sget c (writeSpad part core o n v p st s).spadStamp = sget c s.spadStamp := by
  rw [writeSpad_spadStamp]
  refine foldl_untouched (Inv := fun _ => True) (read := sget c) (fun _ _ _ => trivial) (fun w hw m _ => ?_) trivial
  obtain ⟨k, hk, rfl⟩ := mem_linesOf hw
  refine sget_sput_other _ (Ne.symm ?_) _ _
  rw [spadPlace_line]
  exact h k hk

theorem spadPlace_add {p : Part} {core o k : Nat} (h : o % 64 + k < 64) : spadPlace p core (o + k) = spadPlace p core o + k := by
  have hline : (o + k) / 64 = o / 64 := by omega
  rw [spadPlace_eq, spadPlace_eq, hline]
  omega

/-- Bytes whose places lie in a row from a are read and stored as those of a memory are from a. -/
theorem readSpad_eq_readMem {part core n : Nat} {s m : State} (hm : m.mem = s.spad) {o a : Nat} (h : ∀ k < n, spadPlace (s.part part) core (o + k) = a + k) :
    readSpad s part core o n = readMem m a n := by
  induction n generalizing o a with
  | zero => rfl
  | succ n ih =>
    have hfirst : spadByte s part core o = readByte m a := by
      unfold spadByte readByte
      rw [hm, show spadPlace (s.part part) core o = a from h 0 (by omega)]
      rfl
    have hrest : readSpad s part core (o + 1) n = readMem m (a + 1) n := ih fun k hk => by
      rw [Nat.add_assoc o, Nat.add_comm 1, Nat.add_assoc a, Nat.add_comm 1]
      exact h (k + 1) (by omega)
    rw [readSpad, readMem, hfirst, hrest]

theorem spadBytes_eq_writeBytes {part core n : Nat} {s m : State} (hm : m.mem = s.spad) {o a v : Nat} (h : ∀ k < n, spadPlace (s.part part) core (o + k) = a + k) :
    (spadBytes part core o v n s).spad = (writeBytes a v n m).mem := by
  induction n generalizing o a v s m with
  | zero => exact hm.symm
  | succ n ih =>
    refine ih ?_ fun k hk => ?_
    · show sput Memory.blank a (BitVec.ofNat 8 v) m.mem = sput 0 (spadPlace (s.part part) core o) (BitVec.ofNat 8 v) s.spad
      rw [hm, show spadPlace (s.part part) core o = a from h 0 (by omega)]
      rfl
    · rw [Nat.add_assoc o, Nat.add_comm 1, Nat.add_assoc a, Nat.add_comm 1]
      exact h (k + 1) (by omega)

/-- An aligned word, once stored, reads as what was stored. -/
theorem spadPWord_writeSpad_same {part core o v : Nat} {p : Bool} {st : BitVec 4} {s : State} (h : o % 4 = 0) : spadPWord (writeSpad part core o 4 v p st s) part core o = ⟨BitVec.ofNat 32 v, p⟩ := by
  have H := spadOnly_writeSpad part core o 4 v p st s
  have hrow : ∀ k < 4, spadPlace (s.part part) core (o + k) = spadPlace (s.part part) core o + k := fun k hk => spadPlace_add (by omega)
  have hstored : (writeSpad part core o 4 v p st s).spad = (writeBytes (spadPlace (s.part part) core o) v 4 { s with mem := s.spad }).mem := spadBytes_eq_writeBytes rfl hrow
  have hval : readSpad (writeSpad part core o 4 v p st s) part core o 4 = v % 256 ^ 4 := by
    rw [← readMem_writeBytes_same 4 (spadPlace (s.part part) core o) v { s with mem := s.spad }]
    exact readSpad_eq_readMem hstored.symm (by rwa [H.part])
  have hmark : markedSpad (writeSpad part core o 4 v p st s) part core o 4 = p := by
    unfold markedSpad
    rw [H.part, writeSpad_spadPoison, wordsOf_aligned h, List.any_cons, List.any_nil, Bool.or_false]
    exact sgetD_sput_same _ _ _ _
  unfold spadPWord
  rw [hval, hmark]
  congr 1
  exact BitVec.eq_of_toNat_eq (by simp)

theorem stampSpad_writeSpad_same {part core o v : Nat} {p : Bool} {st : BitVec 4} {s : State} (h : o % 4 = 0) : stampSpad (writeSpad part core o 4 v p st s) part core o = st := by
  unfold stampSpad
  rw [(spadOnly_writeSpad part core o 4 v p st s).part, writeSpad_spadStamp, linesOf_aligned h, ← spadPlace_line]
  exact sgetD_sput_same _ _ _ _

/-! ## EPLOAD (15 R306, R307) -/

/-- Of the machine only the drain-program slots have changed. -/
def SlotsOnly (s t : State) : Prop := t = { s with slots := t.slots, slotOld := t.slotOld }

/-- EPLOAD writes the k-th word of its slots. -/
def loadSlot (id part core slot off : Nat) (s : State) (k : Nat) : State :=
  { s with slots := sput 0 (core * 4096 + slot * 16 + k) (if (spadPWord s part core (off + 4 * k)).poison then 0 else (spadPWord s part core (off + 4 * k)).val) s.slots
           slotOld := sset (core * 4096 + slot * 16 + k) ((id, sgetD 0 (core * 4096 + slot * 16 + k) s.slots) :: sgetD [] (core * 4096 + slot * 16 + k) s.slotOld) s.slotOld }

theorem loadSlots_eq_loadSlot (s : State) (id part core slot n off : Nat) : loadSlots s id part core slot n off = (List.range (16 * n)).foldl (loadSlot id part core slot off) s := rfl

theorem SlotsOnly.loadSlot {s t : State} (H : SlotsOnly s t) (id part core slot off k : Nat) : SlotsOnly s (loadSlot id part core slot off t k) := by
  unfold SlotsOnly at *
  rw [H]; rfl

theorem SlotsOnly.spadPWord {s t : State} (H : SlotsOnly s t) (part core o : Nat) : spadPWord t part core o = spadPWord s part core o := by
  have hparts : t.parts = s.parts := (congrArg State.parts H).trans rfl
  have hspad : t.spad = s.spad := (congrArg State.spad H).trans rfl
  have hmarks : t.spadPoison = s.spadPoison := (congrArg State.spadPoison H).trans rfl
  exact spadPWord_congr hparts (fun _ _ => by rw [hspad]) fun _ _ => by rw [hmarks]

theorem slots_loadSlot_same (id part core slot off k : Nat) (s : State) :
    sgetD 0 (core * 4096 + slot * 16 + k) (loadSlot id part core slot off s k).slots = if (spadPWord s part core (off + 4 * k)).poison then 0 else (spadPWord s part core (off + 4 * k)).val :=
  sgetD_sput_same _ _ _ _

theorem slots_loadSlot_other {id part core slot off j k : Nat} (h : j ≠ core * 4096 + slot * 16 + k) (s : State) : sgetD 0 j (loadSlot id part core slot off s k).slots = sgetD 0 j s.slots :=
  sgetD_sput_other _ h _ _

theorem slotsOnly_loadSlots (s : State) (id part core slot n off : Nat) : SlotsOnly s (loadSlots s id part core slot n off) := by
  rw [loadSlots_eq_loadSlot]
  exact foldl_keeps (fun _ _ H => H.loadSlot _ _ _ _ _ _) _ (rfl : SlotsOnly s s)

/-- EPLOAD fills the words of its slots, a poisoned one with 0, and no other. -/
theorem slots_loadSlots (s : State) (id part core slot n off k : Nat) :
    sgetD 0 k (loadSlots s id part core slot n off).slots = if core * 4096 + slot * 16 ≤ k ∧ k < core * 4096 + slot * 16 + 16 * n
      then (if (spadPWord s part core (off + 4 * (k - (core * 4096 + slot * 16)))).poison then 0 else (spadPWord s part core (off + 4 * (k - (core * 4096 + slot * 16)))).val)
      else sgetD 0 k s.slots := by
  have keep (t : State) (j : Nat) (H : SlotsOnly s t) : SlotsOnly s (loadSlot id part core slot off t j) := H.loadSlot ..
  rw [loadSlots_eq_loadSlot]
  split
  next hk =>
    obtain ⟨j, rfl⟩ : ∃ j, k = core * 4096 + slot * 16 + j := ⟨k - (core * 4096 + slot * 16), by omega⟩
    refine foldl_range_last (read := fun t => sgetD 0 (core * 4096 + slot * 16 + j) t.slots) keep (n := 16 * n) (i := j) (by omega) (fun t H => ?_) (fun i hji _ t _ => slots_loadSlot_other (k := i) (by omega) t) (rfl : SlotsOnly s s)
    rw [slots_loadSlot_same, Nat.add_sub_cancel_left, H.spadPWord]
  next hk =>
    refine foldl_untouched (read := fun t => sgetD 0 k t.slots) keep (fun j hj t _ => ?_) (rfl : SlotsOnly s s)
    have hj' := List.mem_range.1 hj
    exact slots_loadSlot_other (k := j) (by omega) t

/-! ## The stores of MSTA (14 R282, R284) -/

/-- Stores that are settled fall into those that wait and those that are performed. -/
def settleSplit (due : SeqStore × Nat → Bool) (l : List (SeqStore × Nat)) : List SeqStore × List SeqStore :=
  l.foldr (fun x (r : List SeqStore × List SeqStore) => if due x || r.2.any x.1.meets then (r.1, x.1 :: r.2) else (x.1 :: r.1, r.2)) ([], [])

theorem mem_settleSplit (due : SeqStore × Nat → Bool) (l : List (SeqStore × Nat)) (x : SeqStore) :
    x ∈ (settleSplit due l).2 ∨ x ∈ (settleSplit due l).1 ↔ x ∈ l.map (·.1) := by
  induction l with
  | nil => simp [settleSplit]
  | cons y t ih =>
    have hstep : settleSplit due (y :: t) = if due y || (settleSplit due t).2.any y.1.meets then ((settleSplit due t).1, y.1 :: (settleSplit due t).2) else (y.1 :: (settleSplit due t).1, (settleSplit due t).2) := rfl
    rw [hstep, List.map_cons, List.mem_cons, ← ih]
    split
    · rw [List.mem_cons, or_assoc]
    · rw [List.mem_cons, or_left_comm]

/-- New stores of an operation that has none waiting: some are performed in turn, and each of the others waits. -/
theorem make_splits (part core key : Nat) (new : List SeqStore) (s : State) :
    ∃ done : List SeqStore, (SeqStore.make part core key new ([], s)).2 = done.foldl (SeqStore.perform part core) s ∧
      (∀ x ∈ done, x ∈ new) ∧ ∀ x ∈ new, x ∈ done ∨ x ∈ (SeqStore.make part core key new ([], s)).1 := by
  have hmem (x : SeqStore) := mem_settleSplit (fun y => decide (0 ≤ y.2) && !s.coin (key + (y.2 - 0))) new.zipIdx x
  rw [List.zipIdx_map_fst] at hmem
  exact ⟨_, rfl, fun x hx => (hmem x).1 (.inl hx), fun x hx => (hmem x).2 hx⟩

/-- The store of element (i, j). -/
def tileStore (g : Group) (T off pitch i j : Nat) : SeqStore := ⟨true, off + i * pitch + 4 * j, 4, (g.tileAt T i j).val.toNat, (g.tileAt T i j).poison, 0⟩

theorem mem_tileStores {s : State} {g : Group} {old : List SpadView} {id T off pitch : Nat} {x : SeqStore} (h : x ∈ tileStores s g old id T off pitch) :
    ∃ i j, i < 64 ∧ j < 64 ∧ x = tileStore g T off pitch i j := by
  obtain ⟨⟨i, j⟩, hij, hx⟩ := List.mem_filterMap.1 h
  obtain ⟨hi, hj⟩ := mem_tilePlaces.1 hij
  dsimp only at hx
  split at hx
  · cases hx
  · exact ⟨i, j, hi, hj, (Option.some.inj hx).symm⟩

/-- Each element has its store, but where its word has been written since the operation issued. -/
theorem tileStore_mem (s : State) (g : Group) (old : List SpadView) (id T off pitch : Nat) {i j : Nat} (hi : i < 64) (hj : j < 64) :
    tileStore g T off pitch i j ∈ tileStores s g old id T off pitch ∨ ∃ v ∈ old, spadPWord s g.part g.core (off + i * pitch + 4 * j) ≠ spadPWord (seenAs v s) g.part g.core (off + i * pitch + 4 * j) := by
  by_cases hlater : ∃ v ∈ old, spadPWord s g.part g.core (off + i * pitch + 4 * j) ≠ spadPWord (seenAs v s) g.part g.core (off + i * pitch + 4 * j)
  · exact .inr hlater
  · refine .inl (List.mem_filterMap.2 ⟨(i, j), mem_tilePlaces.2 ⟨hi, hj⟩, ?_⟩)
    have hnone : (old.any fun v => spadPWord s g.part g.core (off + i * pitch + 4 * j) != spadPWord (seenAs v s) g.part g.core (off + i * pitch + 4 * j)) = false := by
      simpa using hlater
    dsimp only
    rw [if_neg]
    · rfl
    · rw [Bool.and_eq_true]
      exact fun h => Bool.false_ne_true (hnone.symm.trans h.1)

theorem tileStore_offset_inj {off pitch i j k l : Nat} (hpitch : 256 ≤ pitch) (hj : j < 64) (hl : l < 64) (h : off + i * pitch + 4 * j = off + k * pitch + 4 * l) : i = k ∧ j = l := by
  have hstep : ∀ {a b : Nat}, a < b → a * pitch + pitch ≤ b * pitch := fun {a b} hab => (Nat.succ_mul a pitch).symm.trans_le (Nat.mul_le_mul_right pitch hab)
  obtain hik | rfl | hki := Nat.lt_trichotomy i k
  · have := hstep hik
    omega
  · exact ⟨rfl, by omega⟩
  · have := hstep hki
    omega

/-! ## Stores of the scratchpad made one after the other -/

/-- A store of the scratchpad is made. -/
def spadStore (part core : Nat) (s : State) (x : SeqStore) : State := writeSpad part core x.at_ x.n x.val x.poison 0 s

theorem foldl_perform_eq_spadStore {l : List SeqStore} (h : ∀ x ∈ l, x.spad = true) (part core : Nat) (s : State) :
    l.foldl (SeqStore.perform part core) s = l.foldl (spadStore part core) s :=
  List.foldl_ext _ _ s fun t x hx => by rw [SeqStore.perform, if_pos (h x hx)]; rfl

theorem SpadOnly.spadStore {s t : State} (H : SpadOnly s t) (part core : Nat) (x : SeqStore) : SpadOnly s (spadStore part core t x) := H.trans (spadOnly_writeSpad ..)

theorem spadOnly_stores (part core : Nat) (l : List SeqStore) (s : State) : SpadOnly s (l.foldl (spadStore part core) s) :=
  foldl_keeps (fun _ _ H => H.spadStore _ _ _) l (SpadOnly.refl s)

/-- Aligned words within the scratchpad lie apart. -/
theorem word_apart {p : Part} {core o w k n : Nat} (ho : o % 4 = 0) (hw : w % 4 = 0) (hos : o < p.spadSize core) (hws : w < p.spadSize core) (how : o ≠ w) (hk : k < 4) (hn : n < 4) :
    spadPlace p core (o + k) / 4 ≠ spadPlace p core (w + n) / 4 := by
  intro h
  have hplace : spadPlace p core o = spadPlace p core w := by
    rw [spadPlace_add (by omega), spadPlace_add (by omega)] at h
    have ho4 := spadPlace_eq p core o
    have hw4 := spadPlace_eq p core w
    omega
  exact how (spadPlace_inj hos hws hplace)

section
variable {part core : Nat} {l : List SeqStore} {s : State} {c : Nat}

theorem spad_stores_other (h : ∀ x ∈ l, ∀ k < x.n, spadPlace (s.part part) core (x.at_ + k) ≠ c) : sget c (l.foldl (spadStore part core) s).spad = sget c s.spad :=
  foldl_untouched (read := fun t : State => sget c t.spad) (fun _ _ H => H.spadStore _ _ _) (fun x hx t H => spad_writeSpad_other (by rw [H.part]; exact h x hx)) (SpadOnly.refl s)

theorem marks_stores_other (h : ∀ x ∈ l, ∀ k < x.n, spadPlace (s.part part) core (x.at_ + k) / 4 ≠ c) : sget c (l.foldl (spadStore part core) s).spadPoison = sget c s.spadPoison :=
  foldl_untouched (read := fun t : State => sget c t.spadPoison) (fun _ _ H => H.spadStore _ _ _) (fun x hx t H => marks_writeSpad_other (by rw [H.part]; exact h x hx)) (SpadOnly.refl s)

theorem stamps_stores_other (h : ∀ x ∈ l, ∀ k < x.n, spadPlace (s.part part) core (x.at_ + k) / 64 ≠ c) : sget c (l.foldl (spadStore part core) s).spadStamp = sget c s.spadStamp :=
  foldl_untouched (read := fun t : State => sget c t.spadStamp) (fun _ _ H => H.spadStore _ _ _) (fun x hx t H => stamps_writeSpad_other (by rw [H.part]; exact h x hx)) (SpadOnly.refl s)

/-- A store keeps the words that share none with it. -/
theorem spadPWord_spadStore_other {x : SeqStore} {o : Nat} (h : ∀ k < x.n, ∀ n < 4, spadPlace (s.part part) core (x.at_ + k) / 4 ≠ spadPlace (s.part part) core (o + n) / 4) :
    spadPWord (spadStore part core s x) part core o = spadPWord s part core o :=
  spadPWord_congr (spadOnly_writeSpad ..).parts (fun n hn => spad_writeSpad_other fun k hk hplace => h k hk n hn (congrArg (· / 4) hplace)) fun n hn => marks_writeSpad_other fun k hk => h k hk n hn

/-- Stores of aligned words within the scratchpad, of which no two are at one place. -/
structure ApartWords (p : Part) (core : Nat) (l : List SeqStore) : Prop where
  four : ∀ x ∈ l, x.n = 4
  aligned : ∀ x ∈ l, x.at_ % 4 = 0
  inside : ∀ x ∈ l, x.at_ < p.spadSize core
  apart : ∀ x ∈ l, ∀ y ∈ l, x.at_ = y.at_ → x = y

theorem spadPWord_stores_other (H : ApartWords (s.part part) core l) {o : Nat} (ho : o % 4 = 0) (hos : o < (s.part part).spadSize core) (hother : ∀ x ∈ l, x.at_ ≠ o) :
    spadPWord (l.foldl (spadStore part core) s) part core o = spadPWord s part core o := by
  refine foldl_untouched (read := fun t => spadPWord t part core o) (fun _ _ H => H.spadStore _ _ _) (fun x hx t Ht => spadPWord_spadStore_other fun k hk n hn => ?_) (SpadOnly.refl s)
  rw [Ht.part]
  exact word_apart (H.aligned x hx) ho (H.inside x hx) hos (hother x hx) (H.four x hx ▸ hk) hn

theorem spadPWord_stores_same (H : ApartWords (s.part part) core l) {x : SeqStore} (hx : x ∈ l) : spadPWord (l.foldl (spadStore part core) s) part core x.at_ = ⟨BitVec.ofNat 32 x.val, x.poison⟩ := by
  refine foldl_written (read := fun t => spadPWord t part core x.at_) (fun _ _ H => H.spadStore _ _ _) hx (fun t _ => ?_) (fun y hy hyx => .inl fun t Ht => spadPWord_spadStore_other fun k hk n hn => ?_) (SpadOnly.refl s)
  · rw [spadStore, H.four x hx]
    exact spadPWord_writeSpad_same (H.aligned x hx)
  · rw [Ht.part]
    exact word_apart (H.aligned y hy) (H.aligned x hx) (H.inside y hy) (H.inside x hx) (fun h => hyx (H.apart y hy x hx h)) (H.four y hy ▸ hk) hn

/-- The line of a word that is stored has stamp 0 in the end, whatever else is stored into it. -/
theorem stampSpad_stores_same (H : ApartWords (s.part part) core l) {x : SeqStore} (hx : x ∈ l) : stampSpad (l.foldl (spadStore part core) s) part core x.at_ = 0 := by
  have hown : ∀ y ∈ l, ∀ t, stampSpad (spadStore part core t y) part core y.at_ = 0 := fun y hy t => by
    rw [spadStore, H.four y hy]
    exact stampSpad_writeSpad_same (H.aligned y hy)
  refine foldl_written (read := fun t => stampSpad t part core x.at_) (fun _ _ H => H.spadStore _ _ _) hx (fun t _ => hown x hx t) (fun y hy _ => ?_) (SpadOnly.refl s)
  by_cases hline : spadPlace (s.part part) core y.at_ / 64 = spadPlace (s.part part) core x.at_ / 64
  · refine .inr fun t Ht => ?_
    rw [← hown y hy t]
    unfold stampSpad
    rw [(Ht.spadStore part core y).part, hline]
  · refine .inl fun t Ht => ?_
    unfold stampSpad
    rw [(Ht.spadStore part core y).part, Ht.part]
    refine congrArg (·.getD 0) (stamps_writeSpad_other fun k hk => ?_)
    have hin : (y.at_ + k) / 64 = y.at_ / 64 := by
      have := H.four y hy
      have := H.aligned y hy
      omega
    rwa [Ht.part, spadPlace_div_64, hin, ← spadPlace_div_64]

end

theorem tileStore_aligned {off pitch : Nat} (hoff4 : off % 4 = 0) (hpitch4 : pitch % 4 = 0) (i j : Nat) : (off + i * pitch + 4 * j) % 4 = 0 := by
  have hrow : i * pitch % 4 = 0 := by rw [Nat.mul_mod, hpitch4, Nat.mul_zero]
  omega

theorem tileStore_inside {off pitch size i j : Nat} (hsize : off + 63 * pitch + 256 ≤ size) (hi : i < 64) (hj : j < 64) : off + i * pitch + 4 * j < size := by
  have hrow : i * pitch ≤ 63 * pitch := Nat.mul_le_mul_right pitch (by omega)
  omega

/-- The bytes that the stores of a tile touch are those of its 64 rows. -/
theorem bytes_of_tileStores {s : State} {g : Group} {old : List SpadView} {id T off pitch : Nat} {l : List SeqStore} (hl : ∀ x ∈ l, x ∈ tileStores s g old id T off pitch) {F : Nat → Prop}
    (h : ∀ i j, i < 64 → j < 256 → F (off + i * pitch + j)) : ∀ x ∈ l, ∀ k < x.n, F (x.at_ + k) := by
  intro x hx k hk
  obtain ⟨i, j, hi, hj, rfl⟩ := mem_tileStores (hl x hx)
  have hk4 : k < 4 := hk
  have hbyte := h i (4 * j + k) hi (by omega)
  rwa [← Nat.add_assoc] at hbyte

/-- Of the stores of a tile, those that the scratchpad takes whole are apart. -/
theorem apartWords_tileStores {s : State} {g : Group} {old : List SpadView} {id T off pitch : Nat} {l : List SeqStore} (hl : ∀ x ∈ l, x ∈ tileStores s g old id T off pitch) {p : Part} {core : Nat}
    (hpitch : 256 ≤ pitch) (hoff4 : off % 4 = 0) (hpitch4 : pitch % 4 = 0) (hsize : off + 63 * pitch + 256 ≤ p.spadSize core) : ApartWords p core l where
  four x hx := by
    obtain ⟨i, j, -, -, rfl⟩ := mem_tileStores (hl x hx)
    rfl
  aligned x hx := by
    obtain ⟨i, j, -, -, rfl⟩ := mem_tileStores (hl x hx)
    exact tileStore_aligned hoff4 hpitch4 i j
  inside x hx := by
    obtain ⟨i, j, hi, hj, rfl⟩ := mem_tileStores (hl x hx)
    exact tileStore_inside hsize hi hj
  apart x hx y hy h := by
    obtain ⟨i, j, -, hj, rfl⟩ := mem_tileStores (hl x hx)
    obtain ⟨k, l, -, hl, rfl⟩ := mem_tileStores (hl y hy)
    obtain ⟨rfl, rfl⟩ := tileStore_offset_inj hpitch hj hl h
    rfl

/-- The word of an element whose store has been made holds the element, and its line has stamp 0; that of another stays. -/
theorem word_after_tileStores {s : State} {g : Group} {old : List SpadView} {id T off pitch i j : Nat} {l : List SeqStore} (hl : ∀ x ∈ l, x ∈ tileStores s g old id T off pitch)
    (hpitch : 256 ≤ pitch) (hoff4 : off % 4 = 0) (hpitch4 : pitch % 4 = 0) (hsize : off + 63 * pitch + 256 ≤ (s.part g.part).spadSize g.core) (hi : i < 64) (hj : j < 64) :
    (spadPWord (l.foldl (spadStore g.part g.core) s) g.part g.core (off + i * pitch + 4 * j) = ⟨(g.tileAt T i j).val, (g.tileAt T i j).poison⟩ ∧
      stampSpad (l.foldl (spadStore g.part g.core) s) g.part g.core (off + i * pitch + 4 * j) = 0) ∨
    (tileStore g T off pitch i j ∉ l ∧ spadPWord (l.foldl (spadStore g.part g.core) s) g.part g.core (off + i * pitch + 4 * j) = spadPWord s g.part g.core (off + i * pitch + 4 * j)) := by
  have hapart := apartWords_tileStores hl hpitch hoff4 hpitch4 hsize
  by_cases hmade : tileStore g T off pitch i j ∈ l
  · have hword := spadPWord_stores_same hapart hmade
    have hstamp := stampSpad_stores_same hapart hmade
    dsimp only [tileStore] at hword hstamp
    rw [BitVec.ofNat_toNat, BitVec.setWidth_eq] at hword
    exact .inl ⟨hword, hstamp⟩
  · refine .inr ⟨hmade, spadPWord_stores_other hapart (tileStore_aligned hoff4 hpitch4 i j) (tileStore_inside hsize hi hj) fun x hx hplace => ?_⟩
    obtain ⟨k, n, -, hn, rfl⟩ := mem_tileStores (hl x hx)
    obtain ⟨rfl, rfl⟩ := tileStore_offset_inj hpitch hn hj hplace
    exact hmade hx

/-! ## The end of the event (14 R280) -/

theorem sget_map_snd {α β : Type} (f : α → β) (k : Nat) (m : Sparse α) : sget k (m.map fun p => (p.1, f p.2)) = (sget k m).map f := by
  induction m with
  | nil => rfl
  | cons p t ih =>
    rw [List.map_cons, sget, sget, ih]
    split <;> rfl

/-- Gangs that wait may be let go on, in every group of which `who` holds. -/
theorem group_wakeHeld (who : Group → Bool) (h : Hold → Bool) (s : State) (j : Nat) :
    (wakeHeld who h s).group? j = (s.group? j).map fun g => if who g then releaseHold s.clk (fun a => h a.hold) g else g := by
  unfold State.group?
  rw [← sget_map_snd]
  refine congrArg (sget j) (List.map_congr_left fun p _ => ?_)
  split <;> rfl

/-- What the event leaves of the machine s' it has come to when it writes the queue of quadrant q back as l: only the queues and held gangs differ. -/
structure Requeued (q : Nat) (l : List SeqOp) (s' t : State) : Prop where
  queue : t.queue q = l
  rest : t = { s' with seqs := t.seqs, groups := t.groups }

theorem requeued_wakeSeq (q : Nat) (l : List SeqOp) (s' : State) : Requeued q l s' (wakeSeq q (s'.setQueue q l)) := ⟨sgetD_sput_same _ _ _ _, rfl⟩

section
variable {q : Nat} {l : List SeqOp} {s' t : State} (H : Requeued q l s' t)
include H

theorem Requeued.parts : t.parts = s'.parts := (congrArg State.parts H.rest).trans rfl
theorem Requeued.spad : t.spad = s'.spad := (congrArg State.spad H.rest).trans rfl
theorem Requeued.spadPoison : t.spadPoison = s'.spadPoison := (congrArg State.spadPoison H.rest).trans rfl
theorem Requeued.spadStamp : t.spadStamp = s'.spadStamp := (congrArg State.spadStamp H.rest).trans rfl
theorem Requeued.slots : t.slots = s'.slots := (congrArg State.slots H.rest).trans rfl
theorem Requeued.spadPWord (part core o : Nat) : spadPWord t part core o = spadPWord s' part core o :=
  spadPWord_congr H.parts (fun _ _ => by rw [H.spad]) fun _ _ => by rw [H.spadPoison]
theorem Requeued.stampSpad (part core o : Nat) : stampSpad t part core o = stampSpad s' part core o := by
  unfold Machine.stampSpad State.part
  rw [H.parts, H.spadStamp]

end

/-- The matrix state of h and g': tiles, pv registers and pending results. -/
structure SameMatrix (h g' : Group) : Prop where
  tile : g'.tile = h.tile
  pv : g'.pv = h.pv
  vp : g'.vp = h.vp

theorem SameMatrix.tileAt {h g' : Group} (H : SameMatrix h g') (t i j : Nat) : g'.tileAt t i j = h.tileAt t i j := by unfold Group.tileAt; rw [H.tile]
theorem SameMatrix.pvAt {h g' : Group} (H : SameMatrix h g') (m i : Nat) : g'.pvAt m i = h.pvAt m i := by unfold Group.pvAt; rw [H.pv]

/-- Of a group only matrix state has changed. -/
def MatrixOnly (g h : Group) : Prop := h = { g with tile := h.tile, pv := h.pv, vp := h.vp }

theorem TileOnly.matrixOnly {g h : Group} (H : TileOnly g h) : MatrixOnly g h := by
  unfold TileOnly MatrixOnly at *
  rw [H]
theorem PvOnly.matrixOnly {g h : Group} (H : PvOnly g h) : MatrixOnly g h := by
  unfold PvOnly MatrixOnly at *
  rw [H]

/-- SEQUENCER_OP_START completes, memory and all but matrix state and held gangs stay, and P holds of what is left. -/
def Performs (s : State) (q : Nat) (op : SeqOp) (g : Group) (P : State → Group → Prop) : Prop :=
  ∃ t g', exec (.sequencerOpStart q) s = .next t ∧ t.group? op.gid = some g' ∧ (∀ b, readByte t b = readByte s b) ∧
    (∀ j, j ≠ op.gid → Awake .seqFull s t j) ∧ g' = { g with tile := g'.tile, pv := g'.pv, vp := g'.vp, gangs := g'.gangs } ∧ P t g'

section
variable {s : State} {q : Nat} {op : SeqOp} {g : Group} {P : State → Group → Prop}

theorem performs_of_exec {s' : State} {h : Group} {l : List SeqOp} (hx : exec (.sequencerOpStart q) s = .next (wakeSeq q (s'.setQueue q l)))
    (hmem : s'.mem = s.mem) (hclk : s'.clk = s.clk) (hgroup : s'.group? op.gid = some h) (hothers : ∀ j, j ≠ op.gid → s'.group? j = s.group? j)
    (hh : MatrixOnly g h) (hP : ∀ t g', Requeued q l s' t → SameMatrix h g' → P t g') : Performs s q op g P := by
  have hgroups (j : Nat) := group_wakeHeld (fun g => g.quad == q && queueFree g.ctx ((s'.setQueue q l).queue q)) (· == .seqFull) (s'.setQueue q l) j
  have hown := hgroups op.gid
  rw [show (s'.setQueue q l).group? op.gid = some h from hgroup, Option.map_some] at hown
  refine ⟨_, _, hx, hown, fun b => ?_, fun j hj => ?_, ?_, hP _ _ (requeued_wakeSeq q l s') ?_⟩
  · exact congrArg (sgetD Memory.blank b) hmem
  · have hother := hgroups j
    rw [show (s'.setQueue q l).group? j = s.group? j from hothers j hj, show (s'.setQueue q l).clk = s.clk from hclk] at hother
    cases hsj : s.group? j with
    | none => exact .inl (by rw [hsj] at hother ⊢; exact hother)
    | some k =>
      rw [hsj, Option.map_some] at hother
      split at hother
      · exact .inr ⟨k, hsj, hother⟩
      · exact .inl (hother.trans hsj.symm)
  · unfold MatrixOnly at hh
    split
    · rw [hh]; rfl
    · rw [hh]
  · split
    · exact ⟨rfl, rfl, rfl⟩
    · exact ⟨rfl, rfl, rfl⟩

/-- An operation without a counter leaves its queue at once. -/
theorem performs_of_left {h : Group} (hx : exec (.sequencerOpStart q) s = .next (dropOp q op.id (s.setGroup op.gid h))) (hh : MatrixOnly g h)
    (hP : ∀ t g', (∀ o ∈ t.queue q, o.id ≠ op.id) → SameMatrix h g' → P t g') : Performs s q op g P :=
  performs_of_exec hx rfl rfl (group_setGroup_same _ _ _) (fun _ hj => group_setGroup_other hj _ _) hh fun t g' ht hg' =>
    hP t g' (fun o ho => by rw [ht.queue] at ho; simpa using (List.mem_filter.1 ho).2) hg'

/-- In a queue to which an operation has been written back, it is the only one of its number. -/
theorem eq_of_mem_replaced {ops : List SeqOp} {op' o : SeqOp} (ho : o ∈ ops.map fun o => if o.id == op'.id then op' else o) (hid : o.id = op'.id) : o = op' := by
  obtain ⟨p, -, rfl⟩ := List.mem_map.1 ho
  by_cases hp : (p.id == op'.id) = true
  · exact if_pos hp
  · rw [if_neg hp] at hid
    exact absurd (beq_iff_eq.2 hid) hp

/-- A counted operation stays in its queue as done. -/
theorem performs_of_counted {s' : State} {h : Group} (hx : exec (.sequencerOpStart q) s = .next (putOp q { op with phase := 3 } (s'.setGroup op.gid h)))
    (hs' : SlotsOnly s s') (hh : MatrixOnly g h) (hP : ∀ t g', (∀ o ∈ t.queue q, o.id = op.id → o.phase = 3) → t.spad = s.spad → t.slots = s'.slots → SameMatrix h g' → P t g') :
    Performs s q op g P :=
  performs_of_exec hx ((congrArg State.mem hs').trans rfl) ((congrArg State.clk hs').trans rfl) (group_setGroup_same _ _ _)
    (fun j hj => (group_setGroup_other hj _ _).trans ((congrArg (fun t => State.group? t j) hs').trans rfl)) hh fun t g' ht hg' =>
    hP t g' (fun o ho hid => by rw [ht.queue] at ho; rw [eq_of_mem_replaced ho hid]) (ht.spad.trans ((congrArg State.spad hs').trans rfl)) ht.slots hg'

end

/-! ## What the event answers for each operation -/

section
variable {s : State} {q : Nat} {op : SeqOp} {g : Group} (hready : seqReady s q = some op) (hgroup : s.group? op.gid = some g)
include hready hgroup

theorem start_mzero {T : Nat} {wide : Bool} (hk : op.kind = .mzero T wide) : exec (.sequencerOpStart q) s = .next (dropOp q op.id (s.setGroup op.gid (zeroTile T wide g))) := by
  rw [exec_sequencerOpStart, execSequencerOpStart, hready]
  simp only [hgroup, hk]
  rfl

theorem start_mlda {T off pitch : Nat} (hk : op.kind = .mlda T off pitch) :
    exec (.sequencerOpStart q) s = .next (putOp q { op with phase := 3 } (s.setGroup op.gid (loadTile s op.old op.id T off pitch g))) := by
  rw [exec_sequencerOpStart, execSequencerOpStart, hready]
  simp only [hgroup, hk]

theorem start_msta {T off pitch : Nat} (hk : op.kind = .msta T off pitch) :
    exec (.sequencerOpStart q) s = .next (putOp q { op with phase := 3, pend := (SeqStore.make g.part g.core (storeKey op.id 0) (tileStores s g op.old op.id T off pitch) ([], s)).1 }
      (SeqStore.make g.part g.core (storeKey op.id 0) (tileStores s g op.old op.id T off pitch) ([], s)).2) := by
  rw [exec_sequencerOpStart, execSequencerOpStart, hready]
  simp only [hgroup, hk]

theorem start_accrd {T row H vp : Nat} {wide : Bool} {lanes : List (Nat × Nat × Nat)} (hk : op.kind = .accrd T row wide H lanes vp) :
    exec (.sequencerOpStart q) s = .next (dropOp q op.id (s.setGroup op.gid (answered vp (laneReads T row wide H lanes g) g))) := by
  rw [exec_sequencerOpStart, execSequencerOpStart, hready]
  simp only [hgroup, hk]
  rfl

theorem start_accwr {T row H : Nat} {wide : Bool} {cells : List (Nat × RegCell × RegCell)} (hk : op.kind = .accwr T row wide H cells) :
    exec (.sequencerOpStart q) s = .next (dropOp q op.id (s.setGroup op.gid (cells.foldl (putLane T row wide H) g))) := by
  rw [exec_sequencerOpStart, execSequencerOpStart, hready]
  simp only [hgroup, hk]
  rfl

theorem start_pvapply {T m : Nat} {wide inv : Bool} (hk : op.kind = .pvapply T m wide inv) : exec (.sequencerOpStart q) s = .next (dropOp q op.id (s.setGroup op.gid (applyPair T m wide inv g))) := by
  rw [exec_sequencerOpStart, execSequencerOpStart, hready]
  simp only [hgroup, hk]
  rfl

theorem start_pvmov {form T row d src : Nat} (hk : op.kind = .pvmov form T row d src) : exec (.sequencerOpStart q) s = .next (dropOp q op.id (s.setGroup op.gid (movPv form T row d src g))) := by
  rw [exec_sequencerOpStart, execSequencerOpStart, hready]
  simp only [hgroup, hk]

theorem start_epload {slot n off : Nat} (hk : op.kind = .epload slot n off) :
    exec (.sequencerOpStart q) s = .next (putOp q { op with phase := 3 } ((loadSlots s op.id g.part g.core slot n off).setGroup op.gid g)) := by
  rw [exec_sequencerOpStart, execSequencerOpStart, hready]
  simp only [hgroup, hk]

/-- MSTA makes some of its stores now, and the others wait in the operation. -/
theorem performs_of_stored {T off pitch : Nat} {P : State → Group → Prop} (hk : op.kind = .msta T off pitch)
    (hP : ∀ (done : List SeqStore) l t g', (∀ x ∈ done, x ∈ tileStores s g op.old op.id T off pitch) → (∀ x ∈ tileStores s g op.old op.id T off pitch, x ∉ done → ∀ o ∈ t.queue q, o.id = op.id → x ∈ o.pend) →
      (∀ o ∈ t.queue q, o.id = op.id → o.phase = 3) → Requeued q l (done.foldl (spadStore g.part g.core) s) t → SameMatrix g g' → P t g') : Performs s q op g P := by
  have hx := start_msta hready hgroup hk
  obtain ⟨done, hdone, hmem, hwait⟩ := make_splits g.part g.core (storeKey op.id 0) (tileStores s g op.old op.id T off pitch) s
  have hspad : ∀ x ∈ done, x.spad = true := fun x hx => by
    obtain ⟨i, j, -, -, rfl⟩ := mem_tileStores (hmem x hx)
    rfl
  rw [hdone, foldl_perform_eq_spadStore hspad] at hx
  have hs' := spadOnly_stores g.part g.core done s
  refine performs_of_exec hx ((congrArg State.mem hs').trans rfl) ((congrArg State.clk hs').trans rfl) (((congrArg (fun t => State.group? t op.gid) hs').trans rfl).trans hgroup)
    (fun j _ => (congrArg (fun t => State.group? t j) hs').trans rfl) rfl fun t g' ht hg' => hP done _ t g' hmem (fun x hx hnot o ho hid => ?_) (fun o ho hid => ?_) ht hg'
  all_goals
    rw [ht.queue] at ho
    rw [eq_of_mem_replaced ho hid]
  exact (hwait x hx).resolve_left hnot

end

/-- Settles O31: each operation by what its writes leave, the stores of MSTA by the split into those made and those that wait. -/
theorem sequencerPerforms : Obligations.SequencerPerforms := by
  unfold Obligations.SequencerPerforms
  intro s q op g hready hgroup E R raw word earlier performed left counted
  refine ⟨fun T wide hk => ?mzero, fun T off pitch hk => ?mlda, fun T off pitch hk hpitch hoff4 hpitch4 hsize => ?msta_words, fun T off pitch hk => ?msta_frame, fun T row wide H lanes vp hk => ?accrd,
    fun T row wide H cells hk hlane hnodup hH hrow => ?accwr, fun T m wide inv hk => ?pvapply, fun form T row d src hk => ?pvmov, fun slot n off hk => ?epload⟩
  case mzero =>
    have hT := tileOnly_zeroTile T wide g
    refine performs_of_left (start_mzero hready hgroup hk) hT.matrixOnly fun t g' hleft hg' => ⟨hleft, hg'.pv.trans hT.pv, fun u i j hi hj => ?_⟩
    exact (hg'.tileAt u i j).trans (tileAt_zeroTile hi hj g)
  case mlda =>
    have hT := tileOnly_loadTile s op.old op.id T off pitch g
    refine performs_of_counted (start_mlda hready hgroup hk) rfl hT.matrixOnly fun t g' hcounted hspad _ hg' =>
      ⟨hcounted, hg'.pv.trans hT.pv, hspad, fun u i j hi hj => ⟨fun hu => ?_, ?_⟩⟩
    · exact (hg'.tileAt u i j).trans (tileAt_loadTile_other hi hj hu g)
    · rintro rfl
      show g'.tileAt u i j = _ ∨ ∃ v ∈ op.old, g'.tileAt u i j = _
      rw [hg'.tileAt]
      exact tileAt_loadTile_same hi hj g
  case msta_words =>
    refine performs_of_stored hready hgroup hk fun done l t g' hmem hwait hcounted ht hg' => ⟨hcounted, hg'.tile, fun i j hi hj => ?_⟩
    obtain ⟨hword, hstamp⟩ | ⟨hwaits, hword⟩ := word_after_tileStores hmem hpitch hoff4 hpitch4 hsize hi hj
    · exact .inl ⟨(ht.spadPWord ..).trans hword, (ht.stampSpad ..).trans hstamp⟩
    · exact .inr ⟨(ht.spadPWord ..).trans hword, (tileStore_mem s g op.old op.id T off pitch hi hj).imp (fun hstore => hwait _ hstore hwaits) id⟩
  case msta_frame =>
    refine performs_of_stored hready hgroup hk fun done l t g' hmem _ hcounted ht hg' => ⟨hcounted, hg'.tile, hg'.pv, fun c => ⟨fun h => ?_, fun h => ?_, fun h => ?_⟩⟩
    · rw [ht.spad]
      exact spad_stores_other (bytes_of_tileStores (F := fun o => spadPlace (s.part g.part) g.core o ≠ c) hmem h)
    · rw [ht.spadPoison]
      exact marks_stores_other (bytes_of_tileStores (F := fun o => spadPlace (s.part g.part) g.core o / 4 ≠ c) hmem h)
    · rw [ht.spadStamp]
      exact stamps_stores_other (bytes_of_tileStores (F := fun o => spadPlace (s.part g.part) g.core o / 64 ≠ c) hmem h)
  case accrd =>
    refine performs_of_left (start_accrd hready hgroup hk) rfl fun t g' hleft hg' => ⟨hleft, hg'.tile, hg'.pv, fun v hv hid => ?_⟩
    rw [hg'.vp] at hv
    obtain ⟨hknown, hwrites⟩ := known_of_mem_answered hv hid
    exact ⟨hknown, hwrites.trans (laneReads_eq T row wide H lanes g)⟩
  case accwr =>
    have hT : TileOnly g (cells.foldl (putLane T row wide H) g) := foldl_keeps (fun _ _ H => H.putLane _ _ _ _ _) _ (TileOnly.refl g)
    refine performs_of_left (start_accwr hready hgroup hk) hT.matrixOnly fun t g' hleft hg' => ⟨hleft, hg'.pv.trans hT.pv, fun c hc => ?_, fun u i j hi hj hother => ?_⟩
    · have h0 := tileAt_putLanes_same (T := T) (wide := wide) hlane hH hrow hnodup hc (k := 0) (by decide) g
      have h1 := tileAt_putLanes_same (T := T) (wide := wide) hlane hH hrow hnodup hc (k := 1) (by decide) g
      rw [← hg'.tileAt] at h0 h1
      cases wide
      case false => exact ⟨h0, h1⟩
      case true => exact ⟨h0, h1⟩
    · refine (hg'.tileAt u i j).trans (tileAt_putLanes_other hlane hH hrow hi hj (hother.imp id fun hno c hc k hk2 => ?_) g)
      have hnoc := hno c hc
      cases wide
      case false =>
        simp only [accCol, Bool.false_eq_true, if_false, ne_eq, Prod.mk.injEq] at hnoc ⊢
        omega
      case true =>
        simp only [accCol, if_true, ne_eq, Prod.mk.injEq] at hnoc ⊢
        omega
  case pvapply =>
    have hT := tileOnly_applyPair T m wide inv g
    refine performs_of_left (start_pvapply hready hgroup hk) hT.matrixOnly fun t g' hleft hg' =>
      ⟨hleft, hg'.pv.trans hT.pv, fun u i j hi hj hu hu' => ?_, fun hinv u i j hi hj hu => ?_, fun hinv u r j hr hj hu => ⟨fun hnone => ?_, fun i hi hname hlast => ?_⟩⟩
    · exact (hg'.tileAt u i j).trans (tileAt_applyPair_outside hi hj hu hu' g)
    · subst hinv
      exact (hg'.tileAt u i j).trans (tileAt_applyPair hu hi hj g hi rfl fun n hin _ h => hin.ne h.symm)
    · subst hinv
      exact (hg'.tileAt u r j).trans (tileAt_applyPair_unnamed hu hr hj g hnone)
    · subst hinv
      exact (hg'.tileAt u r j).trans (tileAt_applyPair hu hr hj g hi hname hlast)
  case pvmov =>
    by_cases hform : form = 2
    · subst hform
      have hT := tileOnly_movPv T row d src g
      refine performs_of_left (start_pvmov hready hgroup hk) hT.matrixOnly fun t g' hleft hg' =>
        ⟨hleft, nofun, nofun, fun _ hrow i hi => ?_, fun _ hrow u i j hi hj hui => ?_, nofun, fun h => absurd rfl h, fun _ => hg'.pv.trans hT.pv⟩
      · exact (hg'.tileAt T row i).trans ((tileAt_movPv hrow hrow hi g).trans (if_pos ⟨rfl, rfl⟩))
      · exact (hg'.tileAt u i j).trans ((tileAt_movPv hrow hi hj g).trans (if_neg fun h => hui.elim (· h.1) (· h.2)))
    · have hV := pvOnly_movPv hform T row d src g
      refine performs_of_left (start_pvmov hready hgroup hk) hV.matrixOnly fun t g' hleft hg' =>
        ⟨hleft, fun h0 i hi => ?_, fun h1 i hi => ?_, fun h => absurd h hform, fun h => absurd h hform, fun h3 i hi => ?_, fun _ => ⟨hg'.tile.trans hV.tile, fun m i hi hm => ?_⟩, fun h => absurd h hform⟩
      · rw [hg'.pvAt, pvAt_movPv hform hi, if_pos rfl, h0]; rfl
      · rw [hg'.pvAt, pvAt_movPv hform hi, if_pos rfl, h1]; rfl
      · rw [hg'.pvAt, pvAt_movPv hform hi, if_pos rfl, h3]; rfl
      · rw [hg'.pvAt, pvAt_movPv hform hi, if_neg hm]
  case epload =>
    have hS := slotsOnly_loadSlots s op.id g.part g.core slot n off
    refine performs_of_counted (start_epload hready hgroup hk) hS rfl fun t g' hcounted _ hslots hg' => ⟨hcounted, hg'.tile, hg'.pv, fun k => ?_⟩
    rw [hslots]
    exact slots_loadSlots s op.id g.part g.core slot n off k

end Sys2Proof.SequencerProofs
end
